-- ==== Sys2Proof/Word.lean ====
section
/-! DEFINITION. The words of the machine: bytes, 32-bit integer values, 64-bit register containers, register numbers
(`00_scope.md` rules R9, R10). Only the types and the plainest reading of an integer as a word stand here. -/

namespace Sys2Proof

/-- One byte of data memory (rule R9: byte = 8 bits). -/
abbrev Byte := BitVec 8

/-- An integer value, a data address or a code address (rule R9: XLEN = 32). -/
abbrev Word := BitVec 32

/-- The "64-bit bit-container" of a register (rules R9, R23). -/
abbrev Container := BitVec 64

/-- A register number `0..31` (rule R101). -/
abbrev Reg := Fin 32

/-- `sext_32(imm)` of a signed integer immediate (rule R10). -/
abbrev immWord (imm : Int) : Word := BitVec.ofInt 32 imm

end Sys2Proof
end

