-- ==== Sys2Proof/Syntax.lean ====
section
/-! DEFINITION. The static instructions of `ISA_TABLE` (`30_encoding.md` rules R101, R103), one constructor per row of
spec/opcode_table.json, each with the operands its format uses and a signed integer immediate; and the vocabulary the
descriptors are written in: formats, classes, capability names (rules R102, R103, R256). -/

namespace Sys2Proof

/-- One instruction of the baseline table (rule R103). Operand order: `rd`, `rs1`, `rs2`, `imm`, those the format has.
For branches and `jal` the immediate is the byte offset from the instruction's own address (rule R101). -/
inductive Instr where
  -- 40: integer computational, upper immediate (format U)
  | lui (rd : Reg) (imm : Int)
  | auipc (rd : Reg) (imm : Int)
  -- register-immediate (formats I and SH)
  | addi (rd rs1 : Reg) (imm : Int)
  | slti (rd rs1 : Reg) (imm : Int)
  | sltiu (rd rs1 : Reg) (imm : Int)
  | xori (rd rs1 : Reg) (imm : Int)
  | ori (rd rs1 : Reg) (imm : Int)
  | andi (rd rs1 : Reg) (imm : Int)
  | slli (rd rs1 : Reg) (imm : Int)
  | srli (rd rs1 : Reg) (imm : Int)
  | srai (rd rs1 : Reg) (imm : Int)
  -- register-register (format R)
  | add (rd rs1 rs2 : Reg)
  | sub (rd rs1 rs2 : Reg)
  | sll (rd rs1 rs2 : Reg)
  | slt (rd rs1 rs2 : Reg)
  | sltu (rd rs1 rs2 : Reg)
  | xor (rd rs1 rs2 : Reg)
  | srl (rd rs1 rs2 : Reg)
  | sra (rd rs1 rs2 : Reg)
  | or (rd rs1 rs2 : Reg)
  | and (rd rs1 rs2 : Reg)
  -- 41: multiply and divide (format R)
  | mul (rd rs1 rs2 : Reg)
  | mulh (rd rs1 rs2 : Reg)
  | mulhsu (rd rs1 rs2 : Reg)
  | mulhu (rd rs1 rs2 : Reg)
  | div (rd rs1 rs2 : Reg)
  | divu (rd rs1 rs2 : Reg)
  | rem (rd rs1 rs2 : Reg)
  | remu (rd rs1 rs2 : Reg)
  -- 42: control transfer (formats J, I, B)
  | jal (rd : Reg) (imm : Int)
  | jalr (rd rs1 : Reg) (imm : Int)
  | beq (rs1 rs2 : Reg) (imm : Int)
  | bne (rs1 rs2 : Reg) (imm : Int)
  | blt (rs1 rs2 : Reg) (imm : Int)
  | bge (rs1 rs2 : Reg) (imm : Int)
  | bltu (rs1 rs2 : Reg) (imm : Int)
  | bgeu (rs1 rs2 : Reg) (imm : Int)
  -- 43: loads (format IL) and stores (format S)
  | lb (rd rs1 : Reg) (imm : Int)
  | lh (rd rs1 : Reg) (imm : Int)
  | lw (rd rs1 : Reg) (imm : Int)
  | lbu (rd rs1 : Reg) (imm : Int)
  | lhu (rd rs1 : Reg) (imm : Int)
  | sb (rs1 rs2 : Reg) (imm : Int)
  | sh (rs1 rs2 : Reg) (imm : Int)
  | sw (rs1 rs2 : Reg) (imm : Int)
deriving DecidableEq, Repr

/-- The operand shapes of rule R103. -/
inductive Format where
  | R | I | SH | IL | S | B | U | J
deriving DecidableEq, Repr

/-- The classifications of rule R22; the class decides the issue window and the unit type (rule R240). -/
inductive IClass where
  | intArith | floatArith | jumpBranch | loadStore
deriving DecidableEq, Repr

/-- The capability vocabulary of rule R256. `special` is reserved: no baseline instruction requires it (rule R199). -/
inductive Cap where
  | addition | bitwise | multiplication | division | special
deriving DecidableEq, Repr

end Sys2Proof
end

