-- ==== Sys2Proof/WellFormed.lean ====
section
/-! DEFINITION. The operand ranges a valid static instruction satisfies (`30_encoding.md` rule R104). Register numbers
are in range by their type; the immediates are checked here, by format. -/

namespace Sys2Proof

/-- Formats `I`, `IL`, `S`: `-2048 .. 2047`. -/
def immIOk (imm : Int) : Bool := decide (-2048 ≤ imm ∧ imm ≤ 2047)

/-- Format `SH`: a shift amount `0 .. 31`. -/
def shamtOk (imm : Int) : Bool := decide (0 ≤ imm ∧ imm ≤ 31)

/-- Format `U`: the 20-bit field, unsigned, `0 .. 0xFFFFF`. -/
def immUOk (imm : Int) : Bool := decide (0 ≤ imm ∧ imm ≤ 0xFFFFF)

/-- Format `B`: even, `-4096 .. 4094`. -/
def immBOk (imm : Int) : Bool := decide (-4096 ≤ imm ∧ imm ≤ 4094 ∧ imm % 2 = 0)

/-- Format `J`: even, `-1048576 .. 1048574`. -/
def immJOk (imm : Int) : Bool := decide (-1048576 ≤ imm ∧ imm ≤ 1048574 ∧ imm % 2 = 0)

/-- Rule R104: the instruction's operands are within the ranges its binary image can hold. -/
def Instr.wf : Instr → Bool
  | .lui _ imm => immUOk imm
  | .auipc _ imm => immUOk imm
  | .addi _ _ imm => immIOk imm
  | .slti _ _ imm => immIOk imm
  | .sltiu _ _ imm => immIOk imm
  | .xori _ _ imm => immIOk imm
  | .ori _ _ imm => immIOk imm
  | .andi _ _ imm => immIOk imm
  | .slli _ _ imm => shamtOk imm
  | .srli _ _ imm => shamtOk imm
  | .srai _ _ imm => shamtOk imm
  | .add _ _ _ => true
  | .sub _ _ _ => true
  | .sll _ _ _ => true
  | .slt _ _ _ => true
  | .sltu _ _ _ => true
  | .xor _ _ _ => true
  | .srl _ _ _ => true
  | .sra _ _ _ => true
  | .or _ _ _ => true
  | .and _ _ _ => true
  | .mul _ _ _ => true
  | .mulh _ _ _ => true
  | .mulhsu _ _ _ => true
  | .mulhu _ _ _ => true
  | .div _ _ _ => true
  | .divu _ _ _ => true
  | .rem _ _ _ => true
  | .remu _ _ _ => true
  | .jal _ imm => immJOk imm
  | .jalr _ _ imm => immIOk imm
  | .beq _ _ imm => immBOk imm
  | .bne _ _ imm => immBOk imm
  | .blt _ _ imm => immBOk imm
  | .bge _ _ imm => immBOk imm
  | .bltu _ _ imm => immBOk imm
  | .bgeu _ _ imm => immBOk imm
  | .lb _ _ imm => immIOk imm
  | .lh _ _ imm => immIOk imm
  | .lw _ _ imm => immIOk imm
  | .lbu _ _ imm => immIOk imm
  | .lhu _ _ imm => immIOk imm
  | .sb _ _ imm => immIOk imm
  | .sh _ _ imm => immIOk imm
  | .sw _ _ imm => immIOk imm

end Sys2Proof
end

