-- ==== Sys2Proof/Decode.lean ====
section
/-! DEFINITION. The binary image of an instruction (`30_encoding.md` rules R105 to R118): the decoder from words and
from bytes, total, rejecting by name; then the encoder, written from the same tables. Every format lays its fields over
the six common positions of rule R106: `31:25`, `24:20`, `19:15`, `14:12`, `11:7`, `6:0`. -/

namespace Sys2Proof

/-- Why a word is no instruction of the table (rule R116). A program that holds such a word is invalid. -/
inductive DecodeRefusal where
  /-- fewer than four bytes are left -/
  | tooShort
  /-- `w[1:0] != 11`: a 16-bit (compressed) encoding -/
  | compressed
  /-- `opcode 0001111`: `fence` -/
  | fence
  /-- `opcode 1110011`: `ecall`, `ebreak`, the `csr*` instructions, `mret`, `wfi` -/
  | system
  /-- a load with `funct3 011, 110, 111` -/
  | loadFunct3
  /-- a store with `funct3 011 .. 111` -/
  | storeFunct3
  /-- a branch with `funct3 010, 011` -/
  | branchFunct3
  /-- `jalr` with `funct3 != 000` -/
  | jalrFunct3
  /-- a shift-immediate with another `funct7` -/
  | shiftFunct7
  /-- a register-register word with a `funct7`, `funct3` pair of no row -/
  | registerFunct7
  /-- any other reserved or custom opcode -/
  | opcode
deriving DecidableEq, Repr

/-- The decoder's answer. -/
inductive Decoded where
  | instr (i : Instr)
  | refused (r : DecodeRefusal)
deriving DecidableEq, Repr

/-! ## Fields (rule R106) -/

def fieldOpcode (w : Word) : BitVec 7 := w.extractLsb' 0 7
def fieldRd (w : Word) : BitVec 5 := w.extractLsb' 7 5
def fieldFunct3 (w : Word) : BitVec 3 := w.extractLsb' 12 3
def fieldRs1 (w : Word) : BitVec 5 := w.extractLsb' 15 5
def fieldRs2 (w : Word) : BitVec 5 := w.extractLsb' 20 5
def fieldFunct7 (w : Word) : BitVec 7 := w.extractLsb' 25 7

/-- A register number from its five bits. -/
def regOf (b : BitVec 5) : Reg := b.toFin

/-- Rule R108, formats `I` and `IL`: `sext_32(w[31:20])`. -/
def immOfI (hi : BitVec 7) (lo : BitVec 5) : Int := (hi ++ lo : BitVec 12).toInt

/-- Rule R108, format `SH`: `w[24:20]`, unsigned. -/
def immOfSH (lo : BitVec 5) : Int := lo.toNat

/-- Rule R109, format `S`: `sext_32(w[31:25] ++ w[11:7])`. -/
def immOfS (hi : BitVec 7) (lo : BitVec 5) : Int := (hi ++ lo : BitVec 12).toInt

/-- Rule R110, format `B`: `sext_32(w[31] ++ w[7] ++ w[30:25] ++ w[11:8] ++ 0)`. -/
def immOfB (hi : BitVec 7) (lo : BitVec 5) : Int :=
  (hi.extractLsb' 6 1 ++ lo.extractLsb' 0 1 ++ hi.extractLsb' 0 6 ++ lo.extractLsb' 1 4 ++ 0#1 : BitVec 13).toInt

/-- Rule R111, format `U`: the field `w[31:12]` itself, unsigned. -/
def immOfU (hi : BitVec 7) (m a : BitVec 5) (f3 : BitVec 3) : Int := (hi ++ m ++ a ++ f3 : BitVec 20).toNat

/-- Rule R112, format `J`: `sext_32(w[31] ++ w[19:12] ++ w[20] ++ w[30:21] ++ 0)`. -/
def immOfJ (hi : BitVec 7) (m a : BitVec 5) (f3 : BitVec 3) : Int :=
  (hi.extractLsb' 6 1 ++ (a ++ f3) ++ m.extractLsb' 0 1 ++ (hi.extractLsb' 0 6 ++ m.extractLsb' 1 4) ++ 0#1 :
    BitVec 21).toInt

/-! ## The opcode map (rule R113), opcode by opcode -/

/-- `opcode 0010011`, register-immediate. -/
def decodeOpImm (hi : BitVec 7) (m a : BitVec 5) (f3 : BitVec 3) (d : BitVec 5) : Decoded :=
  match f3 with
  | 0b000#3 => .instr (.addi (regOf d) (regOf a) (immOfI hi m))
  | 0b010#3 => .instr (.slti (regOf d) (regOf a) (immOfI hi m))
  | 0b011#3 => .instr (.sltiu (regOf d) (regOf a) (immOfI hi m))
  | 0b100#3 => .instr (.xori (regOf d) (regOf a) (immOfI hi m))
  | 0b110#3 => .instr (.ori (regOf d) (regOf a) (immOfI hi m))
  | 0b111#3 => .instr (.andi (regOf d) (regOf a) (immOfI hi m))
  | 0b001#3 =>
    if hi = 0b0000000#7 then .instr (.slli (regOf d) (regOf a) (immOfSH m)) else .refused .shiftFunct7
  | _ =>
    if hi = 0b0000000#7 then .instr (.srli (regOf d) (regOf a) (immOfSH m))
    else if hi = 0b0100000#7 then .instr (.srai (regOf d) (regOf a) (immOfSH m))
    else .refused .shiftFunct7

/-- `opcode 0110011` with `funct7 0000000`. -/
def decodeOpBase (m a : BitVec 5) (f3 : BitVec 3) (d : BitVec 5) : Decoded :=
  match f3 with
  | 0b000#3 => .instr (.add (regOf d) (regOf a) (regOf m))
  | 0b001#3 => .instr (.sll (regOf d) (regOf a) (regOf m))
  | 0b010#3 => .instr (.slt (regOf d) (regOf a) (regOf m))
  | 0b011#3 => .instr (.sltu (regOf d) (regOf a) (regOf m))
  | 0b100#3 => .instr (.xor (regOf d) (regOf a) (regOf m))
  | 0b101#3 => .instr (.srl (regOf d) (regOf a) (regOf m))
  | 0b110#3 => .instr (.or (regOf d) (regOf a) (regOf m))
  | _ => .instr (.and (regOf d) (regOf a) (regOf m))

/-- `opcode 0110011` with `funct7 0100000`. -/
def decodeOpAlt (m a : BitVec 5) (f3 : BitVec 3) (d : BitVec 5) : Decoded :=
  match f3 with
  | 0b000#3 => .instr (.sub (regOf d) (regOf a) (regOf m))
  | 0b101#3 => .instr (.sra (regOf d) (regOf a) (regOf m))
  | _ => .refused .registerFunct7

/-- `opcode 0110011` with `funct7 0000001`. -/
def decodeOpMulDiv (m a : BitVec 5) (f3 : BitVec 3) (d : BitVec 5) : Decoded :=
  match f3 with
  | 0b000#3 => .instr (.mul (regOf d) (regOf a) (regOf m))
  | 0b001#3 => .instr (.mulh (regOf d) (regOf a) (regOf m))
  | 0b010#3 => .instr (.mulhsu (regOf d) (regOf a) (regOf m))
  | 0b011#3 => .instr (.mulhu (regOf d) (regOf a) (regOf m))
  | 0b100#3 => .instr (.div (regOf d) (regOf a) (regOf m))
  | 0b101#3 => .instr (.divu (regOf d) (regOf a) (regOf m))
  | 0b110#3 => .instr (.rem (regOf d) (regOf a) (regOf m))
  | _ => .instr (.remu (regOf d) (regOf a) (regOf m))

/-- `opcode 0110011`, register-register. -/
def decodeOp (hi : BitVec 7) (m a : BitVec 5) (f3 : BitVec 3) (d : BitVec 5) : Decoded :=
  match hi with
  | 0b0000000#7 => decodeOpBase m a f3 d
  | 0b0100000#7 => decodeOpAlt m a f3 d
  | 0b0000001#7 => decodeOpMulDiv m a f3 d
  | _ => .refused .registerFunct7

/-- `opcode 1100011`, branches. -/
def decodeBranch (hi : BitVec 7) (m a : BitVec 5) (f3 : BitVec 3) (d : BitVec 5) : Decoded :=
  match f3 with
  | 0b000#3 => .instr (.beq (regOf a) (regOf m) (immOfB hi d))
  | 0b001#3 => .instr (.bne (regOf a) (regOf m) (immOfB hi d))
  | 0b100#3 => .instr (.blt (regOf a) (regOf m) (immOfB hi d))
  | 0b101#3 => .instr (.bge (regOf a) (regOf m) (immOfB hi d))
  | 0b110#3 => .instr (.bltu (regOf a) (regOf m) (immOfB hi d))
  | 0b111#3 => .instr (.bgeu (regOf a) (regOf m) (immOfB hi d))
  | _ => .refused .branchFunct3

/-- `opcode 0000011`, loads. -/
def decodeLoad (hi : BitVec 7) (m a : BitVec 5) (f3 : BitVec 3) (d : BitVec 5) : Decoded :=
  match f3 with
  | 0b000#3 => .instr (.lb (regOf d) (regOf a) (immOfI hi m))
  | 0b001#3 => .instr (.lh (regOf d) (regOf a) (immOfI hi m))
  | 0b010#3 => .instr (.lw (regOf d) (regOf a) (immOfI hi m))
  | 0b100#3 => .instr (.lbu (regOf d) (regOf a) (immOfI hi m))
  | 0b101#3 => .instr (.lhu (regOf d) (regOf a) (immOfI hi m))
  | _ => .refused .loadFunct3

/-- `opcode 0100011`, stores. -/
def decodeStore (hi : BitVec 7) (m a : BitVec 5) (f3 : BitVec 3) (d : BitVec 5) : Decoded :=
  match f3 with
  | 0b000#3 => .instr (.sb (regOf a) (regOf m) (immOfS hi d))
  | 0b001#3 => .instr (.sh (regOf a) (regOf m) (immOfS hi d))
  | 0b010#3 => .instr (.sw (regOf a) (regOf m) (immOfS hi d))
  | _ => .refused .storeFunct3

/-- The instruction whose six fields are given (rules R113, R114, R116). -/
def decodeFields (hi : BitVec 7) (m a : BitVec 5) (f3 : BitVec 3) (d : BitVec 5) (op : BitVec 7) : Decoded :=
  match op with
  | 0b0110111#7 => .instr (.lui (regOf d) (immOfU hi m a f3))
  | 0b0010111#7 => .instr (.auipc (regOf d) (immOfU hi m a f3))
  | 0b1101111#7 => .instr (.jal (regOf d) (immOfJ hi m a f3))
  | 0b1100111#7 =>
    if f3 = 0b000#3 then .instr (.jalr (regOf d) (regOf a) (immOfI hi m)) else .refused .jalrFunct3
  | 0b1100011#7 => decodeBranch hi m a f3 d
  | 0b0000011#7 => decodeLoad hi m a f3 d
  | 0b0100011#7 => decodeStore hi m a f3 d
  | 0b0010011#7 => decodeOpImm hi m a f3 d
  | 0b0110011#7 => decodeOp hi m a f3 d
  | 0b0001111#7 => .refused .fence
  | 0b1110011#7 => .refused .system
  | _ => if op.extractLsb' 0 2 = 0b11#2 then .refused .opcode else .refused .compressed

/-- The instruction a 32-bit image stands for, or why it stands for none (rules R114, R116). -/
def decodeWord (w : Word) : Decoded :=
  decodeFields (fieldFunct7 w) (fieldRs2 w) (fieldRs1 w) (fieldFunct3 w) (fieldRd w) (fieldOpcode w)

/-- The decoder on bytes: an image is four bytes, least significant first (rule R105); the answer carries the bytes
that are left. -/
def decodeBytes : List Byte → Decoded × List Byte
  | b0 :: b1 :: b2 :: b3 :: rest => (decodeWord (b3 ++ b2 ++ b1 ++ b0 : BitVec 32), rest)
  | bs => (.refused .tooShort, bs)

/-- The four bytes of an image as the spec stores them: little-endian (rule R105). -/
def imageBytes (w : Word) : List Byte :=
  [w.extractLsb' 0 8, w.extractLsb' 8 8, w.extractLsb' 16 8, w.extractLsb' 24 8]

/-- The instruction the decoder reads from the opcode table's bits `w` of an instruction (bit 0 the least significant
bit of its one 32-bit word; bits above `nbits` are 0). -/
def decodeTableWord (nbits w : Nat) : Option Instr :=
  match (decodeBytes (imageBytes (BitVec.ofNat 32 (w % 2 ^ nbits)))).1 with
  | .instr i => some i
  | .refused _ => none

/-! ## The encoder -/

/-- The word with these six fields (rule R106). -/
def pack (hi : BitVec 7) (m a : BitVec 5) (f3 : BitVec 3) (d : BitVec 5) (op : BitVec 7) : Word :=
  hi ++ m ++ a ++ f3 ++ d ++ op

/-- A register number as its five bits. -/
def regBits (r : Reg) : BitVec 5 := BitVec.ofFin r

/-- Format `R` (rule R107). -/
def encodeR (f7 : BitVec 7) (f3 : BitVec 3) (op : BitVec 7) (rd rs1 rs2 : Reg) : Word :=
  pack f7 (regBits rs2) (regBits rs1) f3 (regBits rd) op

/-- Formats `I` and `IL` (rule R108). -/
def encodeI (f3 : BitVec 3) (op : BitVec 7) (rd rs1 : Reg) (imm : Int) : Word :=
  let v := BitVec.ofInt 12 imm
  pack (v.extractLsb' 5 7) (v.extractLsb' 0 5) (regBits rs1) f3 (regBits rd) op

/-- Format `SH` (rule R108). -/
def encodeSH (f7 : BitVec 7) (f3 : BitVec 3) (op : BitVec 7) (rd rs1 : Reg) (imm : Int) : Word :=
  pack f7 (BitVec.ofInt 5 imm) (regBits rs1) f3 (regBits rd) op

/-- Format `S` (rule R109). -/
def encodeS (f3 : BitVec 3) (op : BitVec 7) (rs1 rs2 : Reg) (imm : Int) : Word :=
  let v := BitVec.ofInt 12 imm
  pack (v.extractLsb' 5 7) (regBits rs2) (regBits rs1) f3 (v.extractLsb' 0 5) op

/-- Format `B` (rule R110). -/
def encodeB (f3 : BitVec 3) (op : BitVec 7) (rs1 rs2 : Reg) (imm : Int) : Word :=
  let v := BitVec.ofInt 13 imm
  pack (v.extractLsb' 12 1 ++ v.extractLsb' 5 6) (regBits rs2) (regBits rs1) f3
    (v.extractLsb' 1 4 ++ v.extractLsb' 11 1) op

/-- Format `U` (rule R111). -/
def encodeU (op : BitVec 7) (rd : Reg) (imm : Int) : Word :=
  let v := BitVec.ofInt 20 imm
  pack (v.extractLsb' 13 7) (v.extractLsb' 8 5) (v.extractLsb' 3 5) (v.extractLsb' 0 3) (regBits rd) op

/-- Format `J` (rule R112). -/
def encodeJ (op : BitVec 7) (rd : Reg) (imm : Int) : Word :=
  let v := BitVec.ofInt 21 imm
  pack (v.extractLsb' 20 1 ++ v.extractLsb' 5 6) (v.extractLsb' 1 4 ++ v.extractLsb' 11 1) (v.extractLsb' 15 5)
    (v.extractLsb' 12 3) (regBits rd) op

/-- The 32-bit image of a static instruction (rules R105 to R113). -/
def encode : Instr → Word
  | .lui rd imm => encodeU 0b0110111#7 rd imm
  | .auipc rd imm => encodeU 0b0010111#7 rd imm
  | .addi rd rs1 imm => encodeI 0b000#3 0b0010011#7 rd rs1 imm
  | .slti rd rs1 imm => encodeI 0b010#3 0b0010011#7 rd rs1 imm
  | .sltiu rd rs1 imm => encodeI 0b011#3 0b0010011#7 rd rs1 imm
  | .xori rd rs1 imm => encodeI 0b100#3 0b0010011#7 rd rs1 imm
  | .ori rd rs1 imm => encodeI 0b110#3 0b0010011#7 rd rs1 imm
  | .andi rd rs1 imm => encodeI 0b111#3 0b0010011#7 rd rs1 imm
  | .slli rd rs1 imm => encodeSH 0b0000000#7 0b001#3 0b0010011#7 rd rs1 imm
  | .srli rd rs1 imm => encodeSH 0b0000000#7 0b101#3 0b0010011#7 rd rs1 imm
  | .srai rd rs1 imm => encodeSH 0b0100000#7 0b101#3 0b0010011#7 rd rs1 imm
  | .add rd rs1 rs2 => encodeR 0b0000000#7 0b000#3 0b0110011#7 rd rs1 rs2
  | .sub rd rs1 rs2 => encodeR 0b0100000#7 0b000#3 0b0110011#7 rd rs1 rs2
  | .sll rd rs1 rs2 => encodeR 0b0000000#7 0b001#3 0b0110011#7 rd rs1 rs2
  | .slt rd rs1 rs2 => encodeR 0b0000000#7 0b010#3 0b0110011#7 rd rs1 rs2
  | .sltu rd rs1 rs2 => encodeR 0b0000000#7 0b011#3 0b0110011#7 rd rs1 rs2
  | .xor rd rs1 rs2 => encodeR 0b0000000#7 0b100#3 0b0110011#7 rd rs1 rs2
  | .srl rd rs1 rs2 => encodeR 0b0000000#7 0b101#3 0b0110011#7 rd rs1 rs2
  | .sra rd rs1 rs2 => encodeR 0b0100000#7 0b101#3 0b0110011#7 rd rs1 rs2
  | .or rd rs1 rs2 => encodeR 0b0000000#7 0b110#3 0b0110011#7 rd rs1 rs2
  | .and rd rs1 rs2 => encodeR 0b0000000#7 0b111#3 0b0110011#7 rd rs1 rs2
  | .mul rd rs1 rs2 => encodeR 0b0000001#7 0b000#3 0b0110011#7 rd rs1 rs2
  | .mulh rd rs1 rs2 => encodeR 0b0000001#7 0b001#3 0b0110011#7 rd rs1 rs2
  | .mulhsu rd rs1 rs2 => encodeR 0b0000001#7 0b010#3 0b0110011#7 rd rs1 rs2
  | .mulhu rd rs1 rs2 => encodeR 0b0000001#7 0b011#3 0b0110011#7 rd rs1 rs2
  | .div rd rs1 rs2 => encodeR 0b0000001#7 0b100#3 0b0110011#7 rd rs1 rs2
  | .divu rd rs1 rs2 => encodeR 0b0000001#7 0b101#3 0b0110011#7 rd rs1 rs2
  | .rem rd rs1 rs2 => encodeR 0b0000001#7 0b110#3 0b0110011#7 rd rs1 rs2
  | .remu rd rs1 rs2 => encodeR 0b0000001#7 0b111#3 0b0110011#7 rd rs1 rs2
  | .jal rd imm => encodeJ 0b1101111#7 rd imm
  | .jalr rd rs1 imm => encodeI 0b000#3 0b1100111#7 rd rs1 imm
  | .beq rs1 rs2 imm => encodeB 0b000#3 0b1100011#7 rs1 rs2 imm
  | .bne rs1 rs2 imm => encodeB 0b001#3 0b1100011#7 rs1 rs2 imm
  | .blt rs1 rs2 imm => encodeB 0b100#3 0b1100011#7 rs1 rs2 imm
  | .bge rs1 rs2 imm => encodeB 0b101#3 0b1100011#7 rs1 rs2 imm
  | .bltu rs1 rs2 imm => encodeB 0b110#3 0b1100011#7 rs1 rs2 imm
  | .bgeu rs1 rs2 imm => encodeB 0b111#3 0b1100011#7 rs1 rs2 imm
  | .lb rd rs1 imm => encodeI 0b000#3 0b0000011#7 rd rs1 imm
  | .lh rd rs1 imm => encodeI 0b001#3 0b0000011#7 rd rs1 imm
  | .lw rd rs1 imm => encodeI 0b010#3 0b0000011#7 rd rs1 imm
  | .lbu rd rs1 imm => encodeI 0b100#3 0b0000011#7 rd rs1 imm
  | .lhu rd rs1 imm => encodeI 0b101#3 0b0000011#7 rd rs1 imm
  | .sb rs1 rs2 imm => encodeS 0b000#3 0b0100011#7 rs1 rs2 imm
  | .sh rs1 rs2 imm => encodeS 0b001#3 0b0100011#7 rs1 rs2 imm
  | .sw rs1 rs2 imm => encodeS 0b010#3 0b0100011#7 rs1 rs2 imm

end Sys2Proof
end

