-- ==== Sys2Proof/Config.lean ====
section
/-! DEFINITION. The configuration `cfg` (`00_scope.md` rule R8), the names its fields range over, and the parameters the
spec keeps open, as opaque constants: the Random policy's generator (`54_cache_memory_latency.md` rule R312), the
default-state comparison of the 0-bit and 1-bit predictors (`50_fetch_predict.md` rule R218) and the evaluation of an
added float instruction (`44_system_float_refused.md` rule R191). -/

namespace Sys2Proof

/-- The four runtime exception kinds E1 to E4 (`60_exceptions.md` rule R377). -/
inductive ExcKind where
  | divideByZero | memMisaligned | memOutOfRange | instrAddrMisaligned
deriving DecidableEq, Repr

/-- The two architectural register files (rules R24, R26). -/
inductive RegFile where
  | x | f
deriving DecidableEq, Repr

/-- The data-type tag of a register (rule R23). A `bool` result is stored with tag `int` (rule R27). -/
inductive Tag where
  | int | float | double
deriving DecidableEq, Repr

/-- The tags a floating-point register can have: "tag `float` or `double`" (rules R26, R193). -/
inductive FTag where
  | float | double
deriving DecidableEq, Repr

/-- The destination of an instruction of `FP_TABLE` (rules R191, R193): a register of `x`, or one of `f` with the tag it
gets, which is `float` or `double` and nothing else (log entry 6). -/
inductive FpDest where
  | x
  | f (tag : FTag)
deriving DecidableEq, Repr

/-- The five functional-unit types (rules R8, R18). -/
inductive FuType where
  | FX | FP | BR | LS | MA
deriving DecidableEq, Repr

/-- One entry of `cfg.fus`: "type + capability + latency" (rules R8, R256). -/
structure FuncUnit where
  type : FuType
  caps : List Cap
  delay : Nat
deriving DecidableEq, Repr

/-- `cfg.predictorType` (rules R8, R213). -/
inductive PredictorType where
  | zeroBit | oneBit | twoBit
deriving DecidableEq, Repr

/-- `cfg.predictorDefault` (rule R217): a state name of the 2-bit counter, or one of the strings `"Taken"` and
`"Not Taken"`, or any other string, which validation refuses. -/
inductive PredictorDefault where
  | stronglyNotTaken | weaklyNotTaken | weaklyTaken | stronglyTaken
  | taken | notTaken
  | other (s : String)
deriving DecidableEq, Repr

/-- `cfg.cacheReplacement` (rules R8, R312). -/
inductive Replacement where
  | lru | fifo | random
deriving DecidableEq, Repr

/-- `cfg.cacheWritePolicy` (rules R8, R315): `WRITE_BACK`, or any other name, which validation refuses. -/
inductive WritePolicy where
  | writeBack
  | other (s : String)
deriving DecidableEq, Repr

/-- Which total function `cfg.RandNext` is (rule R312): the generator of the test vectors, or any other. -/
inductive RandGen where
  | testVectors
  | other (k : Nat)
deriving DecidableEq, Repr

/-- Which function `cfg.defaultIsTaken` is (rule R218): one of the two named instances, or any other. -/
inductive DefaultReading where
  | intended
  | literal
  | other (k : Nat)
deriving DecidableEq, Repr

/-- `cfg.entryPoint`: "label or address" (rules R8, R401). -/
inductive EntryPoint where
  | label (name : String)
  | address (a : Word)
deriving DecidableEq, Repr

/-- One row of the open parameter `FP_TABLE` without its `eval` (rule R191): the operand shape, the required
capabilities, the file each of `rs1`, `rs2` is read from (none where the operand is no source), and the destination. The
class is `floatArith`. The spec says nothing of a row whose name `ISA_TABLE` holds too, nor of two rows of one name: the
model admits both (DESIGN CHOICE, log entry 6). -/
structure FpRow where
  mnemonic : String
  format : Format
  caps : List Cap
  rs1File : Option RegFile
  rs2File : Option RegFile
  dest : FpDest
deriving DecidableEq, Repr

/-- The configuration value (rule R8). -/
structure Cfg where
  robSize : Nat
  commitWidth : Nat
  fetchWidth : Nat
  branchFollowLimit : Nat
  btbSize : Nat
  phtSize : Nat
  ghrBits : Nat
  predictorType : PredictorType
  predictorDefault : PredictorDefault
  useGlobalHistory : Bool
  fus : List FuncUnit
  iwSize : Nat
  lbSize : Nat
  sbSize : Nat
  specRegs : Nat
  useCache : Bool
  cacheLines : Nat
  cacheLineSize : Nat
  cacheAssoc : Nat
  cacheAccessDelay : Nat
  cacheReplacement : Replacement
  cacheWritePolicy : WritePolicy
  laneReplacementDelay : Nat
  seed : Nat
  randNext : RandGen
  loadLatency : Nat
  storeLatency : Nat
  memSize : Nat
  flushPenalty : Nat
  maxCycles : Nat
  entryPoint : EntryPoint
  exitAddress : Word
  initialRa : Word
  initialSp : Word
  defaultIsTaken : DefaultReading
  fpTable : List FpRow
deriving DecidableEq, Repr

/-- `RandNext : Nat -> Nat × Nat` where the configuration names no instance: any total function (rule R312). -/
opaque Config.randNext : Nat → Nat → Nat × Nat

/-- `defaultIsTaken : String -> Bool` where the configuration names no instance (rule R218). -/
opaque Config.defaultIsTaken : Nat → String → Bool

/-- `FP_TABLE[mnemonic].eval` (rule R191): "a total function from the latched operand values (64-bit containers) to
either a 64-bit result or an exception kind". -/
opaque Config.fpEval : String → Container → Container → Except ExcKind Container

end Sys2Proof
end

