-- ==== Sys2Proof/Machine/Memory.lean ====
section
/-! DEFINITION. The data space as one canonical list of cells (`10_state.md` rule R39, `20_memory.md` rules R71, R73):
addresses strictly rising, no cell holding 0, because an unlisted address reads 0, the reset value of every byte. The
byte order of wider data is decided here, once: little-endian. -/

namespace Sys2Proof.Machine

/-- The backing main memory (rule R39). -/
abbrev Memory := List Host.Cell

/-- What an address with no cell reads as: "every byte 0" (rule R39). -/
def unlistedByte : Byte := 0

/-- One byte of the array. -/
def Memory.read : Memory → Nat → Byte
  | [], _ => unlistedByte
  | (k, v) :: m, a => if k = a then v else Memory.read m a

/-- A cell put before the first cell of a higher address. -/
def Memory.insert : Memory → Nat → Byte → Memory
  | [], a, b => [(a, b)]
  | (k, v) :: m, a, b => if a < k then (a, b) :: (k, v) :: m else (k, v) :: Memory.insert m a b

/-- One byte written, keeping the canonical form: writing the value an unlisted address reads as removes the cell. -/
def Memory.write (m : Memory) (a : Nat) (b : Byte) : Memory :=
  let rest := m.filter fun c => decide (c.1 ≠ a)
  if b = unlistedByte then rest else Memory.insert rest a b

/-- The bytes at `a .. a+n-1`. -/
def Memory.readBytes (m : Memory) (a : Nat) : Nat → List Byte
  | 0 => []
  | n + 1 => m.read a :: m.readBytes (a + 1) n

/-- The bytes written at `a`, `a+1`, ... -/
def Memory.writeBytes (m : Memory) (a : Nat) : List Byte → Memory
  | [] => m
  | b :: bs => (m.write a b).writeBytes (a + 1) bs

/-- The canonical form: addresses strictly rising, no cell equal to what an unlisted address reads as. -/
def Memory.wf : Memory → Bool
  | [] => true
  | (k, v) :: m => decide (v ≠ unlistedByte) && m.all (fun c => decide (k < c.1)) && Memory.wf m

/-- The little-endian number of at most four bytes, least significant first (rule R73). -/
def wordOfBytes : List Byte → Word
  | [] => 0
  | b :: bs => (wordOfBytes bs <<< 8) ||| b.setWidth 32

/-- The `n` low bytes of a word, least significant first (rules R73, R265). -/
def bytesOfWord (v : Word) : Nat → List Byte
  | 0 => []
  | n + 1 => v.setWidth 8 :: bytesOfWord (v >>> 8) n

end Sys2Proof.Machine
end

