-- ==== Sys2Proof/Machine/Reference.lean ====
section
/-! DEFINITION. The program (`10_state.md` rules R20, R21), what the reset state is computed from it, and the reference
configuration `CFG_REF` (`00_scope.md` rule R8). -/

namespace Sys2Proof.Machine

/-- A static instruction (rules R21, R101): one of `ISA_TABLE`, or a name outside it with its operands, which only a row
of `FP_TABLE` can give a meaning (rules R191, R193). -/
inductive StaticIns where
  | isa (i : Instr)
  | named (mnemonic : String) (rd rs1 rs2 : Reg) (imm : Int)
deriving DecidableEq, Repr

/-- One 4-byte slot of the code space (rule R70): a static instruction, or an image that decodes to nothing, which makes
the program invalid (rule R116). -/
inductive CodeSlot where
  | ins (i : StaticIns)
  | undecodable (w : Word)
deriving DecidableEq, Repr

/-- The slot a 32-bit image gives (rules R105, R114, R116). -/
def slotOfWord (w : Word) : CodeSlot :=
  match decodeWord w with
  | .instr i => .ins (.isa i)
  | .refused _ => .undecodable w

/-- A pre-populated memory location (rule R20). -/
structure Span where
  name : String
  address : Nat
  alignment : Nat
  bytes : List Byte
deriving DecidableEq, Repr

/-- `prog = {code, labels, initMem}` (rule R20). -/
structure Prog where
  code : List CodeSlot
  labels : List (String × Word)
  initMem : List Span
deriving DecidableEq, Repr

/-- No program loaded. -/
def Prog.empty : Prog := { code := [], labels := [], initMem := [] }

/-- The program whose slots are these images. -/
def Prog.ofWords (ws : List Word) : Prog := { code := ws.map slotOfWord, labels := [], initMem := [] }

/-- The first address a label name has, if any. -/
def lookupLabel (name : String) : List (String × Word) → Option Word
  | [] => none
  | (n, a) :: ls => if n = name then some a else lookupLabel name ls

/-- `entryAddress(e)` (rule R401), 0 where the label does not exist. -/
def resolveEntry (e : EntryPoint) (labels : List (String × Word)) : Word :=
  match e with
  | .label n => (lookupLabel n labels).getD 0
  | .address a => a

/-- `mainMem` at reset: every byte 0, then the spans in order (rule R39). -/
def initialMemory (spans : List Span) : Memory :=
  spans.foldl (fun m sp => m.writeBytes sp.address sp.bytes) []

/-- `sets = cacheLines div cacheAssoc` (rules R40, R302). -/
def cacheSets (cfg : Cfg) : Nat := cfg.cacheLines / cfg.cacheAssoc

/-- The string a predictor default is spelled as in the configuration (rules R213, R217). -/
def predictorDefaultText : PredictorDefault → String
  | .stronglyNotTaken => "STRONGLY_NOT_TAKEN"
  | .weaklyNotTaken => "WEAKLY_NOT_TAKEN"
  | .weaklyTaken => "WEAKLY_TAKEN"
  | .stronglyTaken => "STRONGLY_TAKEN"
  | .taken => "Taken"
  | .notTaken => "Not Taken"
  | .other s => s

/-- `cfg.defaultIsTaken` (rule R218): `s = "Taken"`, or `s = "taken"`, or an instance left open. -/
def defaultIsTaken : DefaultReading → String → Bool
  | .intended, s => decide (s = "Taken")
  | .literal, s => decide (s = "taken")
  | .other k, s => Config.defaultIsTaken k s

/-- The number of a 2-bit state (rule R213). -/
def twoBitState : PredictorDefault → Nat
  | .stronglyNotTaken => 0
  | .weaklyNotTaken => 1
  | .weaklyTaken => 2
  | .stronglyTaken => 3
  | .taken => 0
  | .notTaken => 0
  | .other _ => 0

/-- The reset value of every `pht` entry (rule R217). -/
def initialCounter (cfg : Cfg) : Nat :=
  match cfg.predictorType with
  | .twoBit => twoBitState cfg.predictorDefault
  | .oneBit => if defaultIsTaken cfg.defaultIsTaken (predictorDefaultText cfg.predictorDefault) then 1 else 0
  | .zeroBit => if defaultIsTaken cfg.defaultIsTaken (predictorDefaultText cfg.predictorDefault) then 1 else 0

/-- `CFG_REF` (rule R8). Its table gives no instance of `defaultIsTaken`: the cell says only "see D22", and D22 and rule
R218 leave it open. That `cfgRef` carries the instance `intended` is the model's DESIGN CHOICE (log entry 5); nothing
reads it here, because `CFG_REF` is `TWO_BIT`. `FP_TABLE` is the baseline's empty one (rule R191). -/
def cfgRef : Cfg where
  robSize := 32
  commitWidth := 4
  fetchWidth := 3
  branchFollowLimit := 1
  btbSize := 1024
  phtSize := 1024
  ghrBits := 10
  predictorType := .twoBit
  predictorDefault := .weaklyNotTaken
  useGlobalHistory := true
  fus := [
    { type := .FX, caps := [.addition, .bitwise, .multiplication, .division, .special], delay := 1 },
    { type := .FX, caps := [.addition, .bitwise], delay := 1 },
    { type := .BR, caps := [], delay := 1 },
    { type := .LS, caps := [], delay := 1 },
    { type := .MA, caps := [], delay := 1 }]
  iwSize := 32
  lbSize := 8
  sbSize := 8
  specRegs := 64
  useCache := true
  cacheLines := 16
  cacheLineSize := 32
  cacheAssoc := 2
  cacheAccessDelay := 1
  cacheReplacement := .lru
  cacheWritePolicy := .writeBack
  laneReplacementDelay := 10
  seed := 0
  randNext := .testVectors
  loadLatency := 10
  storeLatency := 10
  memSize := 0x10000
  flushPenalty := 1
  maxCycles := 100000
  entryPoint := .address 0
  exitAddress := 0xFFFFFFFC
  initialRa := 0xFFFFFFFC
  initialSp := 0x10000
  defaultIsTaken := .intended
  fpTable := []

end Sys2Proof.Machine
end

