-- ==== Sys2Proof/Machine/IsaTable.lean ====
section
/-! DEFINITION. The static descriptors (`30_encoding.md` rules R102, R103): mnemonic, format, class and required
capability of every row of `ISA_TABLE`; the register aliases of `10_state.md` rule R24; and the operand fields of a
static instruction (rule R101). -/

namespace Sys2Proof.Machine

/-- The mnemonic column of rule R103. -/
def mnemonic : Instr → String
  | .lui _ _ => "lui"
  | .auipc _ _ => "auipc"
  | .addi _ _ _ => "addi"
  | .slti _ _ _ => "slti"
  | .sltiu _ _ _ => "sltiu"
  | .xori _ _ _ => "xori"
  | .ori _ _ _ => "ori"
  | .andi _ _ _ => "andi"
  | .slli _ _ _ => "slli"
  | .srli _ _ _ => "srli"
  | .srai _ _ _ => "srai"
  | .add _ _ _ => "add"
  | .sub _ _ _ => "sub"
  | .sll _ _ _ => "sll"
  | .slt _ _ _ => "slt"
  | .sltu _ _ _ => "sltu"
  | .xor _ _ _ => "xor"
  | .srl _ _ _ => "srl"
  | .sra _ _ _ => "sra"
  | .or _ _ _ => "or"
  | .and _ _ _ => "and"
  | .mul _ _ _ => "mul"
  | .mulh _ _ _ => "mulh"
  | .mulhsu _ _ _ => "mulhsu"
  | .mulhu _ _ _ => "mulhu"
  | .div _ _ _ => "div"
  | .divu _ _ _ => "divu"
  | .rem _ _ _ => "rem"
  | .remu _ _ _ => "remu"
  | .jal _ _ => "jal"
  | .jalr _ _ _ => "jalr"
  | .beq _ _ _ => "beq"
  | .bne _ _ _ => "bne"
  | .blt _ _ _ => "blt"
  | .bge _ _ _ => "bge"
  | .bltu _ _ _ => "bltu"
  | .bgeu _ _ _ => "bgeu"
  | .lb _ _ _ => "lb"
  | .lh _ _ _ => "lh"
  | .lw _ _ _ => "lw"
  | .lbu _ _ _ => "lbu"
  | .lhu _ _ _ => "lhu"
  | .sb _ _ _ => "sb"
  | .sh _ _ _ => "sh"
  | .sw _ _ _ => "sw"

/-- The format column of rule R103. -/
def format : Instr → Format
  | .lui _ _ => .U
  | .auipc _ _ => .U
  | .addi _ _ _ => .I
  | .slti _ _ _ => .I
  | .sltiu _ _ _ => .I
  | .xori _ _ _ => .I
  | .ori _ _ _ => .I
  | .andi _ _ _ => .I
  | .slli _ _ _ => .SH
  | .srli _ _ _ => .SH
  | .srai _ _ _ => .SH
  | .add _ _ _ => .R
  | .sub _ _ _ => .R
  | .sll _ _ _ => .R
  | .slt _ _ _ => .R
  | .sltu _ _ _ => .R
  | .xor _ _ _ => .R
  | .srl _ _ _ => .R
  | .sra _ _ _ => .R
  | .or _ _ _ => .R
  | .and _ _ _ => .R
  | .mul _ _ _ => .R
  | .mulh _ _ _ => .R
  | .mulhsu _ _ _ => .R
  | .mulhu _ _ _ => .R
  | .div _ _ _ => .R
  | .divu _ _ _ => .R
  | .rem _ _ _ => .R
  | .remu _ _ _ => .R
  | .jal _ _ => .J
  | .jalr _ _ _ => .I
  | .beq _ _ _ => .B
  | .bne _ _ _ => .B
  | .blt _ _ _ => .B
  | .bge _ _ _ => .B
  | .bltu _ _ _ => .B
  | .bgeu _ _ _ => .B
  | .lb _ _ _ => .IL
  | .lh _ _ _ => .IL
  | .lw _ _ _ => .IL
  | .lbu _ _ _ => .IL
  | .lhu _ _ _ => .IL
  | .sb _ _ _ => .S
  | .sh _ _ _ => .S
  | .sw _ _ _ => .S

/-- The class and caps columns of rule R103. -/
def classAndCaps : Instr → IClass × List Cap
  | .lui _ _ => (.intArith, [.addition])
  | .auipc _ _ => (.intArith, [.addition])
  | .addi _ _ _ => (.intArith, [.addition])
  | .slti _ _ _ => (.intArith, [.addition])
  | .sltiu _ _ _ => (.intArith, [.addition])
  | .xori _ _ _ => (.intArith, [.bitwise])
  | .ori _ _ _ => (.intArith, [.bitwise])
  | .andi _ _ _ => (.intArith, [.bitwise])
  | .slli _ _ _ => (.intArith, [.bitwise])
  | .srli _ _ _ => (.intArith, [.bitwise])
  | .srai _ _ _ => (.intArith, [.bitwise])
  | .add _ _ _ => (.intArith, [.addition])
  | .sub _ _ _ => (.intArith, [.addition])
  | .sll _ _ _ => (.intArith, [.bitwise])
  | .slt _ _ _ => (.intArith, [.addition])
  | .sltu _ _ _ => (.intArith, [.addition])
  | .xor _ _ _ => (.intArith, [.bitwise])
  | .srl _ _ _ => (.intArith, [.bitwise])
  | .sra _ _ _ => (.intArith, [.bitwise])
  | .or _ _ _ => (.intArith, [.bitwise])
  | .and _ _ _ => (.intArith, [.bitwise])
  | .mul _ _ _ => (.intArith, [.multiplication])
  | .mulh _ _ _ => (.intArith, [.multiplication])
  | .mulhsu _ _ _ => (.intArith, [.multiplication])
  | .mulhu _ _ _ => (.intArith, [.multiplication])
  | .div _ _ _ => (.intArith, [.division])
  | .divu _ _ _ => (.intArith, [.division])
  | .rem _ _ _ => (.intArith, [.division])
  | .remu _ _ _ => (.intArith, [.division])
  | .jal _ _ => (.jumpBranch, [])
  | .jalr _ _ _ => (.jumpBranch, [])
  | .beq _ _ _ => (.jumpBranch, [])
  | .bne _ _ _ => (.jumpBranch, [])
  | .blt _ _ _ => (.jumpBranch, [])
  | .bge _ _ _ => (.jumpBranch, [])
  | .bltu _ _ _ => (.jumpBranch, [])
  | .bgeu _ _ _ => (.jumpBranch, [])
  | .lb _ _ _ => (.loadStore, [])
  | .lh _ _ _ => (.loadStore, [])
  | .lw _ _ _ => (.loadStore, [])
  | .lbu _ _ _ => (.loadStore, [])
  | .lhu _ _ _ => (.loadStore, [])
  | .sb _ _ _ => (.loadStore, [])
  | .sh _ _ _ => (.loadStore, [])
  | .sw _ _ _ => (.loadStore, [])

/-- The register fields and the immediate of an instruction; an absent field is 0 (rule R101). -/
def operands : Instr → Reg × Reg × Reg × Int
  | .lui rd imm => (rd, 0, 0, imm)
  | .auipc rd imm => (rd, 0, 0, imm)
  | .addi rd rs1 imm => (rd, rs1, 0, imm)
  | .slti rd rs1 imm => (rd, rs1, 0, imm)
  | .sltiu rd rs1 imm => (rd, rs1, 0, imm)
  | .xori rd rs1 imm => (rd, rs1, 0, imm)
  | .ori rd rs1 imm => (rd, rs1, 0, imm)
  | .andi rd rs1 imm => (rd, rs1, 0, imm)
  | .slli rd rs1 imm => (rd, rs1, 0, imm)
  | .srli rd rs1 imm => (rd, rs1, 0, imm)
  | .srai rd rs1 imm => (rd, rs1, 0, imm)
  | .add rd rs1 rs2 => (rd, rs1, rs2, 0)
  | .sub rd rs1 rs2 => (rd, rs1, rs2, 0)
  | .sll rd rs1 rs2 => (rd, rs1, rs2, 0)
  | .slt rd rs1 rs2 => (rd, rs1, rs2, 0)
  | .sltu rd rs1 rs2 => (rd, rs1, rs2, 0)
  | .xor rd rs1 rs2 => (rd, rs1, rs2, 0)
  | .srl rd rs1 rs2 => (rd, rs1, rs2, 0)
  | .sra rd rs1 rs2 => (rd, rs1, rs2, 0)
  | .or rd rs1 rs2 => (rd, rs1, rs2, 0)
  | .and rd rs1 rs2 => (rd, rs1, rs2, 0)
  | .mul rd rs1 rs2 => (rd, rs1, rs2, 0)
  | .mulh rd rs1 rs2 => (rd, rs1, rs2, 0)
  | .mulhsu rd rs1 rs2 => (rd, rs1, rs2, 0)
  | .mulhu rd rs1 rs2 => (rd, rs1, rs2, 0)
  | .div rd rs1 rs2 => (rd, rs1, rs2, 0)
  | .divu rd rs1 rs2 => (rd, rs1, rs2, 0)
  | .rem rd rs1 rs2 => (rd, rs1, rs2, 0)
  | .remu rd rs1 rs2 => (rd, rs1, rs2, 0)
  | .jal rd imm => (rd, 0, 0, imm)
  | .jalr rd rs1 imm => (rd, rs1, 0, imm)
  | .beq rs1 rs2 imm => (0, rs1, rs2, imm)
  | .bne rs1 rs2 imm => (0, rs1, rs2, imm)
  | .blt rs1 rs2 imm => (0, rs1, rs2, imm)
  | .bge rs1 rs2 imm => (0, rs1, rs2, imm)
  | .bltu rs1 rs2 imm => (0, rs1, rs2, imm)
  | .bgeu rs1 rs2 imm => (0, rs1, rs2, imm)
  | .lb rd rs1 imm => (rd, rs1, 0, imm)
  | .lh rd rs1 imm => (rd, rs1, 0, imm)
  | .lw rd rs1 imm => (rd, rs1, 0, imm)
  | .lbu rd rs1 imm => (rd, rs1, 0, imm)
  | .lhu rd rs1 imm => (rd, rs1, 0, imm)
  | .sb rs1 rs2 imm => (0, rs1, rs2, imm)
  | .sh rs1 rs2 imm => (0, rs1, rs2, imm)
  | .sw rs1 rs2 imm => (0, rs1, rs2, imm)

/-- The six branches, format `B`, are conditional; `jal` and `jalr` are not (rule R179). -/
def isConditional (i : Instr) : Bool := decide (format i = .B)

/-- The names of an integer register: `x<n>` and its aliases (rule R24). -/
def registerNames (r : Reg) : List String :=
  ([["x0", "zero"], ["x1", "ra"], ["x2", "sp"], ["x3", "gp"], ["x4", "tp"], ["x5", "t0"], ["x6", "t1"], ["x7", "t2"],
    ["x8", "s0", "fp"], ["x9", "s1"], ["x10", "a0"], ["x11", "a1"], ["x12", "a2"], ["x13", "a3"], ["x14", "a4"],
    ["x15", "a5"], ["x16", "a6"], ["x17", "a7"], ["x18", "s2"], ["x19", "s3"], ["x20", "s4"], ["x21", "s5"],
    ["x22", "s6"], ["x23", "s7"], ["x24", "s8"], ["x25", "s9"], ["x26", "s10"], ["x27", "s11"], ["x28", "t3"],
    ["x29", "t4"], ["x30", "t5"], ["x31", "t6"]]).getD r.val []

/-- The register a name or alias stands for (rules R24, R119). -/
def registerOfName (name : String) : Option Reg :=
  (List.finRange 32).find? fun r => (registerNames r).contains name

end Sys2Proof.Machine
end

