-- ==== Sys2Proof/Machine/Flags.lean ====
section
/-! DEFINITION. "The core has no condition codes, no flags register" (`10_state.md` rule R27): no instruction computes a
flag. What stands in their place is here: the two orders branches and `slt`-instructions compare registers by
(`00_scope.md` rule R10), and the `bool` result stored as the `int` 0 or 1 (rules R27, R152). -/

namespace Sys2Proof.Machine

/-- `signed(a) < signed(b)` (rule R10). -/
def signedLt (a b : Word) : Bool := decide (a.toInt < b.toInt)

/-- `unsigned(a) < unsigned(b)` (rule R10). -/
def unsignedLt (a b : Word) : Bool := decide (a.toNat < b.toNat)

/-- A `bool` result as the `int` value 0 or 1 (rules R27, R152). -/
def boolWord (b : Bool) : Word := if b then 1 else 0

end Sys2Proof.Machine
end

