-- ==== Sys2Proof/Machine/State.lean ====
section
/-! DEFINITION. `CpuState` as plain data (`10_state.md`), with the parameters of the run beside it, the reasons a step can
stop for, and the state at tick 0 (`70_reset_and_hazards.md` rules R400, R401). A dynamic instruction is stored once, in
`fetchBuffer`, `decodeBuffer` or `rob`; windows, units and buffer items name it by id (rule R370). -/

namespace Sys2Proof.Machine

/-- Which of rule R12's two levels of meaning one `step` takes: a tick of the clocked core (rule R355), or one
instruction in program order. The MODEL's own field (log entry 1). -/
inductive Grain where
  | tick | instruction
deriving DecidableEq, Repr

/-- An architectural register: file and index (rules R24, R26, R193). -/
structure ArchReg where
  file : RegFile
  idx : Reg
deriving DecidableEq, Repr

/-- A source reference, `Arch(r)` or `Spec(k)` (rules R18, R233). -/
inductive SrcRef where
  | arch (r : ArchReg)
  | spec (k : Nat)
deriving DecidableEq, Repr

/-- The state of a pool register (rule R32). -/
inductive SpecState where
  | free | allocated | executed
deriving DecidableEq, Repr

/-- A register of the speculative pool (rule R32). -/
structure SpecReg where
  state : SpecState
  value : Container
  tag : Tag
deriving DecidableEq, Repr

/-- "{free, 0, int}" (rules R32, R47). -/
def SpecReg.freed : SpecReg := { state := .free, value := 0, tag := .int }

/-- An architectural floating-point register: "a 64-bit container with tag `float` or `double`" (rule R26). -/
structure FReg where
  value : Container
  tag : FTag
deriving DecidableEq, Repr

/-- A rename-table entry `{id, arch, spec}` (rule R33). -/
structure RenameEntry where
  id : Nat
  arch : ArchReg
  spec : Nat
deriving DecidableEq, Repr

/-- A dynamic instruction (rule R31). The fields `window` and `fu` are the source's "issue-window id" and
"function-unit id". -/
structure DynInst where
  id : Nat
  pc : Word
  ins : StaticIns
  predTaken : Bool
  predTarget : Word
  dirPred : Bool
  src : List SrcRef
  dstArch : Option ArchReg
  dstSpec : Option Nat
  window : Option IClass
  fu : Option Nat
  opv : Option (Container × Container)
  actualTaken : Option Bool
  actualTarget : Option Word
  exc : Option ExcKind
  busy : Bool
deriving DecidableEq, Repr

/-- The four issue windows, by instruction id (rule R36). -/
structure Windows where
  intArith : List Nat
  floatArith : List Nat
  jumpBranch : List Nat
  loadStore : List Nat
deriving DecidableEq, Repr

/-- The state of one functional unit (rule R37). -/
structure FuState where
  ins : Option Nat
  counter : Nat
  total : Nat
  failed : List Nat
deriving DecidableEq, Repr

/-- A load- or store-buffer item (rule R38), its instruction by id. -/
structure LsItem where
  id : Nat
  addr : Option Word
  data : Option (List Byte)
  done : Bool
  fwd : Option Nat
  memId : Option Nat
  inMA : Bool
deriving DecidableEq, Repr

/-- A cache line (rule R40). -/
structure Line where
  valid : Bool
  dirty : Bool
  tag : Nat
  base : Nat
  data : List Byte
  set : Nat
  insertedSeq : Nat
  usedSeq : Nat
deriving DecidableEq, Repr

/-- A pending line replacement (rule R41). -/
structure Repl where
  due : Nat
  lineAddr : Nat
deriving DecidableEq, Repr

/-- A history snapshot, keyed by instruction id (rule R42). -/
structure Snapshot where
  id : Nat
  ghr : Nat
deriving DecidableEq, Repr

/-- A branch-target-buffer entry (rules R42, R206). -/
structure BtbEntry where
  tag : Word
  conditional : Bool
  target : Word
  commitId : Nat
deriving DecidableEq, Repr

/-- The status values (rules R19, R43). -/
inductive Status where
  | running
  | callStackHalt
  | exception (k : ExcKind)
  | maxCycles
  | endOfCode
deriving DecidableEq, Repr

/-- The statistics (rule R44). -/
structure Stats where
  committed : Nat
  branches : Nat
  correctDir : Nat
  flushes : Nat
  cacheAccesses : Nat
  cacheHits : Nat
  cacheMisses : Nat
  totalDelay : Nat
  bytesTransferred : Nat
deriving DecidableEq, Repr

/-- The whole machine: the parameters of the run (`cfg`, `prog`, never written by a step; log entry 3) and every
component of `CpuState`. -/
structure State where
  grain : Grain
  cfg : Cfg
  prog : Prog
  x : Vector Word 32
  f : Vector FReg 32
  pc : Word
  nextId : Nat
  tick : Nat
  pool : List SpecReg
  renameTable : List RenameEntry
  fetchBuffer : List DynInst
  fetchStall : Nat
  decodeBuffer : List DynInst
  rob : List DynInst
  win : Windows
  fu : List FuState
  loadBuffer : List LsItem
  storeBuffer : List LsItem
  mainMem : Memory
  cache : List (List Line)
  pendingRepl : List Repl
  accessSeq : Nat
  nextMemId : Nat
  rng : Nat
  pht : List Nat
  ghr : Nat
  snapshots : List Snapshot
  btb : List (Option BtbEntry)
  status : Status
  haltSeen : Bool
  excSeen : Option ExcKind
  stats : Stats
deriving DecidableEq, Repr

/-- A reason `validate` gives for refusing a configuration or a program (rules R16, R376). -/
inductive Violation where
  /-- a field of rule R8 outside its legal values -/
  | illegalField (name : String)
  /-- an instruction name that neither `ISA_TABLE` nor `FP_TABLE` holds, at this index of the code -/
  | unknownInstruction (index : Nat) (name : String)
  /-- an image that matches no row of the opcode table (rule R116) -/
  | undecodableWord (index : Nat) (w : Word)
  /-- an operand outside the ranges of rule R104 -/
  | operandOutOfRange (index : Nat)
  /-- no functional unit able to execute this instruction -/
  | noUnit (index : Nat)
  /-- the program has a load and `cfg.fus` no `MA` unit -/
  | noMemoryAccessUnit
  /-- `entryPoint` names no label, or an address that is not a multiple of 4 (rule R401) -/
  | entryPointUnresolved
  /-- `exitAddress` is the address of a program instruction -/
  | exitAddressInProgram
  /-- a span that is not aligned as it says, or not inside the data memory (rule R20) -/
  | illegalSpan (name : String)
  /-- two spans that overlap (rule R20) -/
  | overlappingSpans
deriving DecidableEq, Repr

/-- Why a step faults. The core itself has no fault: a runtime exception is a terminal status (rules R373, R386). -/
inductive Fault where
  /-- Raised by `step` in a state of grain `instruction` whose pipeline holds instructions: the sequential level has no
  instruction in flight. No rule of the spec gives such a state (log entry 12). Safe. -/
  | inFlight
deriving DecidableEq, Repr

/-- Why a step is refused. -/
inductive Refusal where
  /-- Raised by an arm of `exec` whose instruction has no meaning yet. Safe. -/
  | notModelled (mnemonic : String)
  /-- Raised by `step`: the configuration or the program fails validation, so "simulation never begins"; all violations
  are reported together (rules R16, R376). Safe. -/
  | invalid (violations : List Violation)
deriving DecidableEq, Repr

/-- `entryAddress(cfg.entryPoint)` (rule R401). An unknown label, which validation refuses, gives 0. -/
def entryAddress (cfg : Cfg) (prog : Prog) : Word := resolveEntry cfg.entryPoint prog.labels

/-- An idle unit with an empty failed stack (rule R37). -/
def FuState.idle : FuState := { ins := none, counter := 0, total := 0, failed := [] }

/-- An invalid, zero line of the given set (rule R40). -/
def Line.empty (cfg : Cfg) (set : Nat) : Line :=
  { valid := false, dirty := false, tag := 0, base := 0, data := List.replicate cfg.cacheLineSize 0, set := set,
    insertedSeq := 0, usedSeq := 0 }

/-- All statistics 0 (rule R44). -/
def Stats.zero : Stats :=
  { committed := 0, branches := 0, correctDir := 0, flushes := 0, cacheAccesses := 0, cacheHits := 0, cacheMisses := 0,
    totalDelay := 0, bytesTransferred := 0 }

/-- The cache at reset (rule R40): no set where `cfg.useCache` is false. -/
def initialCache (cfg : Cfg) : List (List Line) :=
  if cfg.useCache then
    (List.range (cacheSets cfg)).map fun i => List.replicate cfg.cacheAssoc (Line.empty cfg i)
  else []

/-- `x` at reset (rule R25): `x1 = initialRa`, `x2 = initialSp`, every other register 0. -/
def initialX (cfg : Cfg) : Vector Word 32 :=
  ((Vector.replicate 32 (0 : Word)).set 1 cfg.initialRa).set 2 cfg.initialSp

/-- `Reset(cfg, prog)`, the state at tick 0 (rules R47, R400). -/
def State.init (cfg : Cfg) (prog : Prog) : State where
  grain := .tick
  cfg := cfg
  prog := prog
  x := initialX cfg
  f := Vector.replicate 32 { value := 0, tag := .float }
  pc := entryAddress cfg prog
  nextId := 0
  tick := 0
  pool := List.replicate cfg.specRegs SpecReg.freed
  renameTable := []
  fetchBuffer := []
  fetchStall := 0
  decodeBuffer := []
  rob := []
  win := { intArith := [], floatArith := [], jumpBranch := [], loadStore := [] }
  fu := cfg.fus.map fun _ => FuState.idle
  loadBuffer := []
  storeBuffer := []
  mainMem := initialMemory prog.initMem
  cache := initialCache cfg
  pendingRepl := []
  accessSeq := 0
  nextMemId := 0
  rng := cfg.seed
  pht := List.replicate cfg.phtSize (initialCounter cfg)
  ghr := 0
  snapshots := []
  btb := List.replicate cfg.btbSize none
  status := .running
  haltSeen := false
  excSeen := none
  stats := Stats.zero

/-- The machine right after reset: `Reset(CFG_REF, prog)` with no program loaded (log entries 2, 3). -/
def State.reset : State := State.init cfgRef Prog.empty

end Sys2Proof.Machine
end

