-- ==== Sys2Proof/Machine/Operands.lean ====
section
/-! DEFINITION. The operand forms: which registers an instruction reads and writes, by format (`51_rename_dispatch.md`
rules R233, R235, `44_system_float_refused.md` rule R193), the 64-bit container an integer travels in (rule R23), the
effective address and the extension of a load (`43_load_store.md` rule R180), and `Meaning`, the architectural meaning
of an instruction as a function of its operand values (`00_scope.md` rule R12). -/

namespace Sys2Proof.Machine

/-- The architectural meaning of one instruction on given operand values: "the function from operand values to a
result, a branch outcome, a memory request or an exception kind" (rule R12). -/
inductive Meaning where
  /-- a 32-bit result for `rd` -/
  | result (v : Word)
  /-- the instruction raises -/
  | raise (k : ExcKind)
  /-- a resolved transfer, and the link value of `jal` and `jalr` (rule R170) -/
  | transfer (taken : Bool) (target : Word) (link : Option Word)
  /-- a load of `n` bytes at `ea`, sign- or zero-extended -/
  | load (ea : Word) (n : Nat) (signed : Bool)
  /-- a store of these bytes at `ea` -/
  | store (ea : Word) (data : List Byte)
deriving DecidableEq, Repr

/-! ## Formats -/

/-- The formats that read `rs1` (rule R233). -/
def readsRs1 : Format → Bool
  | .R => true
  | .I => true
  | .SH => true
  | .IL => true
  | .S => true
  | .B => true
  | .U => false
  | .J => false

/-- The formats that read `rs2` (rule R233). -/
def readsRs2 : Format → Bool
  | .R => true
  | .S => true
  | .B => true
  | .I => false
  | .SH => false
  | .IL => false
  | .U => false
  | .J => false

/-- The formats that write a register: all but `S` and `B` (rule R235). -/
def writesRd (f : Format) : Bool := decide (f ≠ .S ∧ f ≠ .B)

/-! ## Static instructions, those of `FP_TABLE` included -/

/-- The row of `FP_TABLE` with this name (rule R191), the first where a table names it twice (DESIGN CHOICE, log entry 6).
Only a `named` instruction asks for it: where `ISA_TABLE` holds the same name, the constructor of `StaticIns` says which
table gives the meaning (DESIGN CHOICE, log entry 6). -/
def fpRow (cfg : Cfg) (name : String) : Option FpRow := cfg.fpTable.find? fun r => decide (r.mnemonic = name)

/-- The class: the window and unit type (rules R193, R240). -/
def insClass : StaticIns → IClass
  | .isa i => (classAndCaps i).1
  | .named _ _ _ _ _ => .floatArith

/-- The required capabilities (rules R103, R191). -/
def insCaps (cfg : Cfg) : StaticIns → List Cap
  | .isa i => (classAndCaps i).2
  | .named n _ _ _ _ => ((fpRow cfg n).map (·.caps)).getD []

/-- A load: class `loadStore`, format `IL`. -/
def isLoad : StaticIns → Bool
  | .isa i => decide (format i = .IL)
  | .named _ _ _ _ _ => false

/-- A store: format `S`. -/
def isStore : StaticIns → Bool
  | .isa i => decide (format i = .S)
  | .named _ _ _ _ _ => false

/-- The jump/branch class. -/
def isTransfer (i : StaticIns) : Bool := decide (insClass i = .jumpBranch)

/-- The source registers, in the order `rs1`, `rs2` (rules R233, R191). -/
def insSources (cfg : Cfg) : StaticIns → List ArchReg
  | .isa i =>
    let (_, rs1, rs2, _) := operands i
    (if readsRs1 (format i) then [ArchReg.mk .x rs1] else []) ++
      (if readsRs2 (format i) then [ArchReg.mk .x rs2] else [])
  | .named n _ rs1 rs2 _ =>
    match fpRow cfg n with
    | none => []
    | some r => (r.rs1File.map (ArchReg.mk · rs1)).toList ++ (r.rs2File.map (ArchReg.mk · rs2)).toList

/-- `x0`, the register with the constant flag (rules R23, R25). -/
def ArchReg.isZero (r : ArchReg) : Bool := decide (r = { file := .x, idx := 0 })

/-- The tag of a pool register whose destination is in `f` (rule R193). -/
def fpTag : FTag → Tag
  | .float => .float
  | .double => .double

/-- The register `rd` of an `FP_TABLE` row's destination, with the tag of its speculative register: `float` or `double`
for a register of `f`, `int` for one of `x`, none for `x0` (rules R25, R193). -/
def fpDestReg (dest : FpDest) (rd : Reg) : Option (ArchReg × Tag) :=
  match dest with
  | .x => if rd = 0 then none else some ({ file := .x, idx := rd }, .int)
  | .f tag => some ({ file := .f, idx := rd }, fpTag tag)

/-- The destination register and the tag it gives its speculative register: none for formats `S` and `B` and for
`rd = x0` (rules R234, R235, R193). -/
def insDest (cfg : Cfg) : StaticIns → Option (ArchReg × Tag)
  | .isa i =>
    if writesRd (format i) && decide ((operands i).1 ≠ 0) then some ({ file := .x, idx := (operands i).1 }, .int)
    else none
  | .named n rd _ _ _ =>
    match fpRow cfg n with
    | none => none
    | some r => if writesRd r.format then fpDestReg r.dest rd else none

/-! ## Values -/

/-- An integer in its 64-bit container; the upper half is read by no rule (rule R25, log entry 7). -/
def toContainer (v : Word) : Container := v.setWidth 64

/-- The integer a container holds. -/
def ofContainer (c : Container) : Word := c.setWidth 32

/-- What a register of a file holds of a 64-bit result of `FP_TABLE`: a register of `x` an integer, so its low 32 bits in
their container (rule R25), a register of `f` all of it. The spec does not say what bits 63 to 32 of a pool register with
a destination in `x` are before commit; the model makes them zero, as they read after it, so that "the value a reference
denotes never changes once it is ready" (rule R237; DESIGN CHOICE, log entries 6, 7). -/
def heldIn (file : RegFile) (v : Container) : Container :=
  match file with
  | .x => toContainer (ofContainer v)
  | .f => v

/-- `ea <- a + sext_32(imm)` modulo 2^32 (rule R180). -/
def effectiveAddress (a : Word) (imm : Int) : Word := a + immWord imm

/-- The value a load of `n` bytes gives, sign- or zero-extended to 32 bits (rules R181 to R185). -/
def extendLoad (n : Nat) (signed : Bool) (bytes : List Byte) : Word :=
  let v := wordOfBytes bytes
  if signed then
    match n with
    | 1 => (v.setWidth 8).signExtend 32
    | 2 => (v.setWidth 16).signExtend 32
    | _ => v
  else v

/-- The checks of an access of `n` bytes, alignment first (rules R71, R75, R180). -/
def accessFault (cfg : Cfg) (ea : Word) (n : Nat) : Option ExcKind :=
  if ea.toNat % n ≠ 0 then some .memMisaligned
  else if ea.toNat + n > cfg.memSize then some .memOutOfRange
  else none

/-- A taken transfer to an address that is not a multiple of 4 raises (rule R170). -/
def targetFault (taken : Bool) (target : Word) : Option ExcKind :=
  if taken && decide (target.toNat % 4 ≠ 0) then some .instrAddrMisaligned else none

end Sys2Proof.Machine
end

