-- ==== Sys2Proof/Machine/Ops.lean ====
section
/-! DEFINITION. The named operations over registers and memory (`00_scope.md` rule R11): reads and writes of `x` and `f`,
the memory view (`20_memory.md` rule R74), taking an exception (`55_rob_commit.md` rule R333), and the effect of one
instruction's meaning at the architectural level (rule R12). There is no return from an exception: "It has no trap
entry: nothing is saved, no mode changes ... There is no trap-return instruction" (`60_exceptions.md` rule R390). -/

namespace Sys2Proof.Machine

/-! ## Registers -/

/-- `x[i]`; `x[0]` reads as 0 (rules R11, R25). -/
def State.readX (s : State) (r : Reg) : Word := if r = 0 then 0 else s.x.get r

/-- `x[i] <- v`; a write to `x[0]` has no effect (rules R11, R25). -/
def State.writeX (s : State) (r : Reg) (v : Word) : State :=
  if r = 0 then s else { s with x := s.x.set r v }

/-- An architectural register in its container (rules R23, R237). -/
def State.readReg (s : State) (r : ArchReg) : Container :=
  match r.file with
  | .x => toContainer (s.readX r.idx)
  | .f => (s.f.get r.idx).value

/-- The tag a register of `f` has after a commit from a pool register with this tag: `float` or `double` (rules R26, R193).
A pool register with a destination in `f` never has the tag `int` (`fpDestReg`); where one has, in a state no run
reaches, the old tag stays (log entry 10). -/
def committedTag (tag : Tag) (old : FTag) : FTag :=
  match tag with
  | .float => .float
  | .double => .double
  | .int => old

/-- An architectural register written from a container; a register of `f` takes the tag too (rules R193, R335). -/
def State.writeReg (s : State) (r : ArchReg) (v : Container) (tag : Tag) : State :=
  match r.file with
  | .x => s.writeX r.idx (ofContainer v)
  | .f => { s with f := s.f.set r.idx { value := v, tag := committedTag tag (s.f.get r.idx).tag } }

/-! ## The memory view -/

/-- `base <= a < base + cacheLineSize`, for a valid line; `data` has `cacheLineSize` bytes (rules R40, R74). -/
def Line.covers (l : Line) (a : Nat) : Bool := l.valid && decide (l.base ≤ a ∧ a < l.base + l.data.length)

/-- The valid line that holds the byte at `a`, if the cache is present and has one (rule R74). -/
def State.lineAt (s : State) (a : Nat) : Option Line :=
  if s.cfg.useCache then s.cache.flatten.find? (·.covers a) else none

/-- `MemView(a)` (rule R74). -/
def State.memView (s : State) (a : Nat) : Byte :=
  match s.lineAt a with
  | some l => l.data.getD (a - l.base) 0
  | none => s.mainMem.read a

/-- The bytes `MemView(a) .. MemView(a+n-1)` of `MemRead(a, n)` (rules R11, R74). -/
def State.memRead (s : State) (a : Nat) : Nat → List Byte
  | 0 => []
  | n + 1 => s.memView a :: s.memRead (a + 1) n

/-- A line with the byte at `a` written, and then dirty, if it holds that byte (rules R305, R315). -/
def Line.patch (a : Nat) (b : Byte) (l : Line) : Line :=
  if l.covers a then { l with data := l.data.set (a - l.base) b, dirty := true } else l

/-- One byte stored into the memory view: into the line that holds it, else into main memory (rules R11, R74). -/
def State.memViewWrite (s : State) (a : Nat) (b : Byte) : State :=
  match s.lineAt a with
  | some _ => { s with cache := s.cache.map fun set => set.map (Line.patch a b) }
  | none => { s with mainMem := s.mainMem.write a b }

/-- `MemWrite(a, n, v)` with the bytes of `v` (rule R11). -/
def State.memWrite (s : State) (a : Nat) : List Byte → State
  | [] => s
  | b :: bs => (s.memViewWrite a b).memWrite (a + 1) bs

/-! ## Exceptions -/

/-- Taking an exception, the one thing the core does when a failed instruction reaches commit: `excSeen <- kind`
(rule R333). The instruction is not committed, nothing is saved, no register and no memory is written, control goes
nowhere; `stopReason` then makes the status `exception(kind)` (rules R378, R384, R386, R390, R395). -/
def State.takeException (s : State) (k : ExcKind) : State := { s with excSeen := some k }

/-! ## The architectural level (rule R12) -/

/-- The instruction commits: the count of committed instructions, and the address of the next one (rules R44, R130). -/
def State.retire (s : State) (next : Word) : State :=
  { s with pc := next, stats := { s.stats with committed := s.stats.committed + 1 } }

/-- A transfer commits: also counted as a branch, and a taken transfer to `exitAddress` sets `haltSeen` (rules R170,
R338, R344). -/
def State.retireTransfer (s : State) (taken : Bool) (target next : Word) : State :=
  { s with
    pc := next
    haltSeen := s.haltSeen || (taken && decide (target = s.cfg.exitAddress))
    stats := { s.stats with committed := s.stats.committed + 1, branches := s.stats.branches + 1 } }

/-- The effect of one instruction, at `pc`, whose meaning on its operand values is `m` (rules R12, R130, R160, R170,
R180): a result is written to `rd`; a raising instruction writes nothing and takes its exception; a taken transfer to a
misaligned target raises before its link value is written; a load or store is checked before it accesses memory. -/
def State.perform (s : State) (rd : Reg) (m : Meaning) : State :=
  match m with
  | .result v => (s.writeX rd v).retire (s.pc + 4)
  | .raise k => s.takeException k
  | .transfer taken target link =>
    match targetFault taken target with
    | some k => s.takeException k
    | none =>
      ((link.map (s.writeX rd)).getD s).retireTransfer taken target (if taken then target else s.pc + 4)
  | .load ea n signed =>
    match accessFault s.cfg ea n with
    | some k => s.takeException k
    | none => (s.writeX rd (extendLoad n signed (s.memRead ea.toNat n))).retire (s.pc + 4)
  | .store ea data =>
    match accessFault s.cfg ea data.length with
    | some k => s.takeException k
    | none => (s.memWrite ea.toNat data).retire (s.pc + 4)

/-- The values `opv` an instruction's sources give: 0 for an absent one (rule R255); an only source is the first value, be
it `rs2` (DESIGN CHOICE, log entry 6). -/
def operandValues (read : ArchReg → Container) (srcs : List ArchReg) : Container × Container :=
  ((srcs[0]?.map read).getD 0, (srcs[1]?.map read).getD 0)

/-- The effect of an instruction of `FP_TABLE` (rules R191, R193): `eval`'s result goes to the destination, its
exception is taken. -/
def State.performNamed (s : State) (i : StaticIns) (name : String) : State :=
  let (a, b) := operandValues s.readReg (insSources s.cfg i)
  match Config.fpEval name a b with
  | .error k => s.takeException k
  | .ok v =>
    (match insDest s.cfg i with
      | some (r, tag) => s.writeReg r v tag
      | none => s).retire (s.pc + 4)

/-! ## The code space and the stop reasons -/

/-- The static instruction at a code address, if there is one (rules R70, R202). -/
def instructionAt (prog : Prog) (pc : Word) : Option StaticIns :=
  if pc.toNat % 4 ≠ 0 then none
  else
    match prog.code[pc.toNat / 4]? with
    | some (.ins i) => some i
    | some (.undecodable _) => none
    | none => none

/-- No instruction is in `rob`, `decodeBuffer` or `fetchBuffer` (rule R388). -/
def State.drained (s : State) : Bool := s.rob.isEmpty && s.decodeBuffer.isEmpty && s.fetchBuffer.isEmpty

/-- The status stage 8 gives: the first reason, in the fixed priority order, whose condition holds (rules R384 to
R388). -/
def State.stopReason (s : State) : Status :=
  if s.haltSeen then .callStackHalt
  else
    match s.excSeen with
    | some k => .exception k
    | none =>
      if s.cfg.maxCycles ≤ s.tick then .maxCycles
      else if (instructionAt s.prog s.pc).isNone && s.drained then .endOfCode
      else .running

/-- Stage 8 (rule R384). -/
def State.evalStop (s : State) : State := { s with status := s.stopReason }

end Sys2Proof.Machine
end

