-- ==== Sys2Proof/Machine/ControlTransfer.lean ====
section
/-! DEFINITION. The eight control-transfer instructions (`42_control_transfer.md` rules R170 to R179). -/

namespace Sys2Proof.Machine

/-- A conditional branch: `target <- P + sext_32(imm)`, no register written (rule R170 and the six branch rules). -/
def branchMeaning (taken : Bool) (P : Word) (imm : Int) : Meaning := .transfer taken (P + immWord imm) none

/-- `taken <- true; target <- P + sext_32(imm); x[rd] <- P + 4` (rule R171). -/
def jalMeaning (P : Word) (imm : Int) : Meaning :=
  .transfer true (P + immWord imm) (some (P + 4))

/-- `jal` at the architectural level (rule R171). -/
def execJal (rd : Reg) (imm : Int) (s : State) : Host.Outcome State Fault Refusal :=
  .next (s.perform rd (jalMeaning s.pc imm))

/-- `target <- (a + sext_32(imm)) AND 0xFFFFFFFE; x[rd] <- P + 4` (rule R172). -/
def jalrMeaning (P a : Word) (imm : Int) : Meaning :=
  .transfer true ((a + immWord imm) &&& 0xFFFFFFFE) (some (P + 4))

/-- `jalr` at the architectural level (rule R172). -/
def execJalr (rd rs1 : Reg) (imm : Int) (s : State) : Host.Outcome State Fault Refusal :=
  .next (s.perform rd (jalrMeaning s.pc (s.readX rs1) imm))

/-- `taken <- (a = b)` (rule R173). -/
def beqMeaning (P a b : Word) (imm : Int) : Meaning :=
  branchMeaning (decide (a = b)) P imm

/-- `beq` at the architectural level (rule R173). -/
def execBeq (rs1 rs2 : Reg) (imm : Int) (s : State) : Host.Outcome State Fault Refusal :=
  .next (s.perform 0 (beqMeaning s.pc (s.readX rs1) (s.readX rs2) imm))

/-- `taken <- (a != b)` (rule R174). -/
def bneMeaning (P a b : Word) (imm : Int) : Meaning :=
  branchMeaning (decide (a ≠ b)) P imm

/-- `bne` at the architectural level (rule R174). -/
def execBne (rs1 rs2 : Reg) (imm : Int) (s : State) : Host.Outcome State Fault Refusal :=
  .next (s.perform 0 (bneMeaning s.pc (s.readX rs1) (s.readX rs2) imm))

/-- `taken <- (signed(a) < signed(b))` (rule R175). -/
def bltMeaning (P a b : Word) (imm : Int) : Meaning :=
  branchMeaning (signedLt a b) P imm

/-- `blt` at the architectural level (rule R175). -/
def execBlt (rs1 rs2 : Reg) (imm : Int) (s : State) : Host.Outcome State Fault Refusal :=
  .next (s.perform 0 (bltMeaning s.pc (s.readX rs1) (s.readX rs2) imm))

/-- `taken <- (signed(a) >= signed(b))` (rule R176). -/
def bgeMeaning (P a b : Word) (imm : Int) : Meaning :=
  branchMeaning (!signedLt a b) P imm

/-- `bge` at the architectural level (rule R176). -/
def execBge (rs1 rs2 : Reg) (imm : Int) (s : State) : Host.Outcome State Fault Refusal :=
  .next (s.perform 0 (bgeMeaning s.pc (s.readX rs1) (s.readX rs2) imm))

/-- `taken <- (unsigned(a) < unsigned(b))` (rule R177). -/
def bltuMeaning (P a b : Word) (imm : Int) : Meaning :=
  branchMeaning (unsignedLt a b) P imm

/-- `bltu` at the architectural level (rule R177). -/
def execBltu (rs1 rs2 : Reg) (imm : Int) (s : State) : Host.Outcome State Fault Refusal :=
  .next (s.perform 0 (bltuMeaning s.pc (s.readX rs1) (s.readX rs2) imm))

/-- `taken <- (unsigned(a) >= unsigned(b))` (rule R178). -/
def bgeuMeaning (P a b : Word) (imm : Int) : Meaning :=
  branchMeaning (!unsignedLt a b) P imm

/-- `bgeu` at the architectural level (rule R178). -/
def execBgeu (rs1 rs2 : Reg) (imm : Int) (s : State) : Host.Outcome State Fault Refusal :=
  .next (s.perform 0 (bgeuMeaning s.pc (s.readX rs1) (s.readX rs2) imm))

end Sys2Proof.Machine
end

