-- ==== Sys2Proof/Machine/IntComputational.lean ====
section
/-! DEFINITION. The 21 integer computational instructions (`40_int_computational.md` rules R130 to R152). Each has its
meaning as a function of its operand values, which the `FX` units evaluate too, and its effect in program order. -/

namespace Sys2Proof.Machine

/-- `imm << 12`, the low 12 bits zero (rules R131, R132). -/
def upperImmediate (imm : Int) : Word := immWord imm <<< 12

/-- The shift amount of a register shift: "only the low 5 bits of `b` count" (rules R144, R152). -/
def shiftAmount (b : Word) : Nat := b.toNat % 32

/-- `x[rd] <- imm << 12` (rule R131). -/
def luiMeaning (imm : Int) : Meaning :=
  .result (upperImmediate imm)

/-- `lui` at the architectural level (rule R131). -/
def execLui (rd : Reg) (imm : Int) (s : State) : Host.Outcome State Fault Refusal :=
  .next (s.perform rd (luiMeaning imm))

/-- `x[rd] <- d.pc + (imm << 12)` (rule R132). -/
def auipcMeaning (P : Word) (imm : Int) : Meaning :=
  .result (P + upperImmediate imm)

/-- `auipc` at the architectural level (rule R132). -/
def execAuipc (rd : Reg) (imm : Int) (s : State) : Host.Outcome State Fault Refusal :=
  .next (s.perform rd (auipcMeaning s.pc imm))

/-- `x[rd] <- a + sext_32(imm)` (rule R133). -/
def addiMeaning (a : Word) (imm : Int) : Meaning :=
  .result (a + immWord imm)

/-- `addi` at the architectural level (rule R133). -/
def execAddi (rd rs1 : Reg) (imm : Int) (s : State) : Host.Outcome State Fault Refusal :=
  .next (s.perform rd (addiMeaning (s.readX rs1) imm))

/-- `x[rd] <- (signed(a) < imm) ? 1 : 0` (rule R134). -/
def sltiMeaning (a : Word) (imm : Int) : Meaning :=
  .result (boolWord (decide (a.toInt < imm)))

/-- `slti` at the architectural level (rule R134). -/
def execSlti (rd rs1 : Reg) (imm : Int) (s : State) : Host.Outcome State Fault Refusal :=
  .next (s.perform rd (sltiMeaning (s.readX rs1) imm))

/-- `x[rd] <- (unsigned(a) < unsigned(sext_32(imm))) ? 1 : 0` (rule R135). -/
def sltiuMeaning (a : Word) (imm : Int) : Meaning :=
  .result (boolWord (unsignedLt a (immWord imm)))

/-- `sltiu` at the architectural level (rule R135). -/
def execSltiu (rd rs1 : Reg) (imm : Int) (s : State) : Host.Outcome State Fault Refusal :=
  .next (s.perform rd (sltiuMeaning (s.readX rs1) imm))

/-- `x[rd] <- a XOR sext_32(imm)` (rule R136). -/
def xoriMeaning (a : Word) (imm : Int) : Meaning :=
  .result (a ^^^ immWord imm)

/-- `xori` at the architectural level (rule R136). -/
def execXori (rd rs1 : Reg) (imm : Int) (s : State) : Host.Outcome State Fault Refusal :=
  .next (s.perform rd (xoriMeaning (s.readX rs1) imm))

/-- `x[rd] <- a OR sext_32(imm)` (rule R137). -/
def oriMeaning (a : Word) (imm : Int) : Meaning :=
  .result (a ||| immWord imm)

/-- `ori` at the architectural level (rule R137). -/
def execOri (rd rs1 : Reg) (imm : Int) (s : State) : Host.Outcome State Fault Refusal :=
  .next (s.perform rd (oriMeaning (s.readX rs1) imm))

/-- `x[rd] <- a AND sext_32(imm)` (rule R138). -/
def andiMeaning (a : Word) (imm : Int) : Meaning :=
  .result (a &&& immWord imm)

/-- `andi` at the architectural level (rule R138). -/
def execAndi (rd rs1 : Reg) (imm : Int) (s : State) : Host.Outcome State Fault Refusal :=
  .next (s.perform rd (andiMeaning (s.readX rs1) imm))

/-- `x[rd] <- (a << shamt)[31:0]`, zeros shifted in (rule R139). -/
def slliMeaning (a : Word) (imm : Int) : Meaning :=
  .result (a <<< imm.toNat)

/-- `slli` at the architectural level (rule R139). -/
def execSlli (rd rs1 : Reg) (imm : Int) (s : State) : Host.Outcome State Fault Refusal :=
  .next (s.perform rd (slliMeaning (s.readX rs1) imm))

/-- `x[rd] <- unsigned(a) >> shamt`, zeros shifted in (rule R140). -/
def srliMeaning (a : Word) (imm : Int) : Meaning :=
  .result (a >>> imm.toNat)

/-- `srli` at the architectural level (rule R140). -/
def execSrli (rd rs1 : Reg) (imm : Int) (s : State) : Host.Outcome State Fault Refusal :=
  .next (s.perform rd (srliMeaning (s.readX rs1) imm))

/-- `x[rd] <- (signed(a) >> shamt)[31:0]`, copies of bit 31 shifted in (rule R141). -/
def sraiMeaning (a : Word) (imm : Int) : Meaning :=
  .result (a.sshiftRight imm.toNat)

/-- `srai` at the architectural level (rule R141). -/
def execSrai (rd rs1 : Reg) (imm : Int) (s : State) : Host.Outcome State Fault Refusal :=
  .next (s.perform rd (sraiMeaning (s.readX rs1) imm))

/-- `x[rd] <- a + b` (rule R142). -/
def addMeaning (a b : Word) : Meaning :=
  .result (a + b)

/-- `add` at the architectural level (rule R142). -/
def execAdd (rd rs1 rs2 : Reg) (s : State) : Host.Outcome State Fault Refusal :=
  .next (s.perform rd (addMeaning (s.readX rs1) (s.readX rs2)))

/-- `x[rd] <- a - b` (rule R143). -/
def subMeaning (a b : Word) : Meaning :=
  .result (a - b)

/-- `sub` at the architectural level (rule R143). -/
def execSub (rd rs1 rs2 : Reg) (s : State) : Host.Outcome State Fault Refusal :=
  .next (s.perform rd (subMeaning (s.readX rs1) (s.readX rs2)))

/-- `x[rd] <- (a << b[4:0])[31:0]` (rule R144). -/
def sllMeaning (a b : Word) : Meaning :=
  .result (a <<< shiftAmount b)

/-- `sll` at the architectural level (rule R144). -/
def execSll (rd rs1 rs2 : Reg) (s : State) : Host.Outcome State Fault Refusal :=
  .next (s.perform rd (sllMeaning (s.readX rs1) (s.readX rs2)))

/-- `x[rd] <- (signed(a) < signed(b)) ? 1 : 0` (rule R145). -/
def sltMeaning (a b : Word) : Meaning :=
  .result (boolWord (signedLt a b))

/-- `slt` at the architectural level (rule R145). -/
def execSlt (rd rs1 rs2 : Reg) (s : State) : Host.Outcome State Fault Refusal :=
  .next (s.perform rd (sltMeaning (s.readX rs1) (s.readX rs2)))

/-- `x[rd] <- (unsigned(a) < unsigned(b)) ? 1 : 0` (rule R146). -/
def sltuMeaning (a b : Word) : Meaning :=
  .result (boolWord (unsignedLt a b))

/-- `sltu` at the architectural level (rule R146). -/
def execSltu (rd rs1 rs2 : Reg) (s : State) : Host.Outcome State Fault Refusal :=
  .next (s.perform rd (sltuMeaning (s.readX rs1) (s.readX rs2)))

/-- `x[rd] <- a XOR b` (rule R147). -/
def xorMeaning (a b : Word) : Meaning :=
  .result (a ^^^ b)

/-- `xor` at the architectural level (rule R147). -/
def execXor (rd rs1 rs2 : Reg) (s : State) : Host.Outcome State Fault Refusal :=
  .next (s.perform rd (xorMeaning (s.readX rs1) (s.readX rs2)))

/-- `x[rd] <- unsigned(a) >> b[4:0]` (rule R148). -/
def srlMeaning (a b : Word) : Meaning :=
  .result (a >>> shiftAmount b)

/-- `srl` at the architectural level (rule R148). -/
def execSrl (rd rs1 rs2 : Reg) (s : State) : Host.Outcome State Fault Refusal :=
  .next (s.perform rd (srlMeaning (s.readX rs1) (s.readX rs2)))

/-- `x[rd] <- (signed(a) >> b[4:0])[31:0]`, arithmetic (rule R149). -/
def sraMeaning (a b : Word) : Meaning :=
  .result (a.sshiftRight (shiftAmount b))

/-- `sra` at the architectural level (rule R149). -/
def execSra (rd rs1 rs2 : Reg) (s : State) : Host.Outcome State Fault Refusal :=
  .next (s.perform rd (sraMeaning (s.readX rs1) (s.readX rs2)))

/-- `x[rd] <- a OR b` (rule R150). -/
def orMeaning (a b : Word) : Meaning :=
  .result (a ||| b)

/-- `or` at the architectural level (rule R150). -/
def execOr (rd rs1 rs2 : Reg) (s : State) : Host.Outcome State Fault Refusal :=
  .next (s.perform rd (orMeaning (s.readX rs1) (s.readX rs2)))

/-- `x[rd] <- a AND b` (rule R151). -/
def andMeaning (a b : Word) : Meaning :=
  .result (a &&& b)

/-- `and` at the architectural level (rule R151). -/
def execAnd (rd rs1 rs2 : Reg) (s : State) : Host.Outcome State Fault Refusal :=
  .next (s.perform rd (andMeaning (s.readX rs1) (s.readX rs2)))

end Sys2Proof.Machine
end

