-- ==== Sys2Proof/Machine/LoadStore.lean ====
section
/-! DEFINITION. The eight load and store instructions (`43_load_store.md` rules R180 to R188), in the order of rule R103. -/

namespace Sys2Proof.Machine

/-- `x[rd] <- sext_32(MemRead(ea, 1))` (rule R181). -/
def lbMeaning (a : Word) (imm : Int) : Meaning :=
  .load (effectiveAddress a imm) 1 true

/-- `lb` at the architectural level (rule R181). -/
def execLb (rd rs1 : Reg) (imm : Int) (s : State) : Host.Outcome State Fault Refusal :=
  .next (s.perform rd (lbMeaning (s.readX rs1) imm))

/-- `x[rd] <- sext_32(MemRead(ea, 2))` (rule R182). -/
def lhMeaning (a : Word) (imm : Int) : Meaning :=
  .load (effectiveAddress a imm) 2 true

/-- `lh` at the architectural level (rule R182). -/
def execLh (rd rs1 : Reg) (imm : Int) (s : State) : Host.Outcome State Fault Refusal :=
  .next (s.perform rd (lhMeaning (s.readX rs1) imm))

/-- `x[rd] <- MemRead(ea, 4)` (rule R183). -/
def lwMeaning (a : Word) (imm : Int) : Meaning :=
  .load (effectiveAddress a imm) 4 false

/-- `lw` at the architectural level (rule R183). -/
def execLw (rd rs1 : Reg) (imm : Int) (s : State) : Host.Outcome State Fault Refusal :=
  .next (s.perform rd (lwMeaning (s.readX rs1) imm))

/-- `x[rd] <- zext_32(MemRead(ea, 1))` (rule R184). -/
def lbuMeaning (a : Word) (imm : Int) : Meaning :=
  .load (effectiveAddress a imm) 1 false

/-- `lbu` at the architectural level (rule R184). -/
def execLbu (rd rs1 : Reg) (imm : Int) (s : State) : Host.Outcome State Fault Refusal :=
  .next (s.perform rd (lbuMeaning (s.readX rs1) imm))

/-- `x[rd] <- zext_32(MemRead(ea, 2))` (rule R185). -/
def lhuMeaning (a : Word) (imm : Int) : Meaning :=
  .load (effectiveAddress a imm) 2 false

/-- `lhu` at the architectural level (rule R185). -/
def execLhu (rd rs1 : Reg) (imm : Int) (s : State) : Host.Outcome State Fault Refusal :=
  .next (s.perform rd (lhuMeaning (s.readX rs1) imm))

/-- `MemWrite(ea, 1, b[7:0])` (rule R186). -/
def sbMeaning (a b : Word) (imm : Int) : Meaning :=
  .store (effectiveAddress a imm) (bytesOfWord b 1)

/-- `sb` at the architectural level (rule R186). -/
def execSb (rs1 rs2 : Reg) (imm : Int) (s : State) : Host.Outcome State Fault Refusal :=
  .next (s.perform 0 (sbMeaning (s.readX rs1) (s.readX rs2) imm))

/-- `MemWrite(ea, 2, b[15:0])` (rule R187). -/
def shMeaning (a b : Word) (imm : Int) : Meaning :=
  .store (effectiveAddress a imm) (bytesOfWord b 2)

/-- `sh` at the architectural level (rule R187). -/
def execSh (rs1 rs2 : Reg) (imm : Int) (s : State) : Host.Outcome State Fault Refusal :=
  .next (s.perform 0 (shMeaning (s.readX rs1) (s.readX rs2) imm))

/-- `MemWrite(ea, 4, b)` (rule R188). -/
def swMeaning (a b : Word) (imm : Int) : Meaning :=
  .store (effectiveAddress a imm) (bytesOfWord b 4)

/-- `sw` at the architectural level (rule R188). -/
def execSw (rs1 rs2 : Reg) (imm : Int) (s : State) : Host.Outcome State Fault Refusal :=
  .next (s.perform 0 (swMeaning (s.readX rs1) (s.readX rs2) imm))

end Sys2Proof.Machine
end

