-- ==== Sys2Proof/Machine/MulDiv.lean ====
section
/-! DEFINITION. The eight multiply and divide instructions (`41_muldiv.md` rules R160 to R168): products and quotients are
computed exactly on integers and narrowed at the end. -/

namespace Sys2Proof.Machine

/-- The high 32 bits of a 64-bit product (rules R162 to R164). -/
def highWord (p : Int) : Word := BitVec.ofInt 32 (p / 2 ^ 32)

/-- The four divisions raise `DivideByZero` when `b = 0` (rules R160, R379). -/
def unlessZero (b v : Word) : Meaning := if b = 0 then .raise .divideByZero else .result v

/-- `x[rd] <- (a * b)[31:0]` (rule R161). -/
def mulMeaning (a b : Word) : Meaning :=
  .result (a * b)

/-- `mul` at the architectural level (rule R161). -/
def execMul (rd rs1 rs2 : Reg) (s : State) : Host.Outcome State Fault Refusal :=
  .next (s.perform rd (mulMeaning (s.readX rs1) (s.readX rs2)))

/-- `x[rd] <- (signed(a) * signed(b))[63:32]` (rule R162). -/
def mulhMeaning (a b : Word) : Meaning :=
  .result (highWord (a.toInt * b.toInt))

/-- `mulh` at the architectural level (rule R162). -/
def execMulh (rd rs1 rs2 : Reg) (s : State) : Host.Outcome State Fault Refusal :=
  .next (s.perform rd (mulhMeaning (s.readX rs1) (s.readX rs2)))

/-- `x[rd] <- (signed(a) * unsigned(b))[63:32]` (rule R163). -/
def mulhsuMeaning (a b : Word) : Meaning :=
  .result (highWord (a.toInt * b.toNat))

/-- `mulhsu` at the architectural level (rule R163). -/
def execMulhsu (rd rs1 rs2 : Reg) (s : State) : Host.Outcome State Fault Refusal :=
  .next (s.perform rd (mulhsuMeaning (s.readX rs1) (s.readX rs2)))

/-- `x[rd] <- (unsigned(a) * unsigned(b))[63:32]` (rule R164). -/
def mulhuMeaning (a b : Word) : Meaning :=
  .result (highWord (a.toNat * b.toNat))

/-- `mulhu` at the architectural level (rule R164). -/
def execMulhu (rd rs1 rs2 : Reg) (s : State) : Host.Outcome State Fault Refusal :=
  .next (s.perform rd (mulhuMeaning (s.readX rs1) (s.readX rs2)))

/-- `trunc(signed(a) / signed(b))[31:0]`, rounding toward zero (rule R165). -/
def divMeaning (a b : Word) : Meaning :=
  unlessZero b (BitVec.ofInt 32 (a.toInt.tdiv b.toInt))

/-- `div` at the architectural level (rule R165). -/
def execDiv (rd rs1 rs2 : Reg) (s : State) : Host.Outcome State Fault Refusal :=
  .next (s.perform rd (divMeaning (s.readX rs1) (s.readX rs2)))

/-- `unsigned(a) div unsigned(b)` (rule R166). -/
def divuMeaning (a b : Word) : Meaning :=
  unlessZero b (BitVec.ofNat 32 (a.toNat / b.toNat))

/-- `divu` at the architectural level (rule R166). -/
def execDivu (rd rs1 rs2 : Reg) (s : State) : Host.Outcome State Fault Refusal :=
  .next (s.perform rd (divuMeaning (s.readX rs1) (s.readX rs2)))

/-- `(signed(a) - trunc(signed(a) / signed(b)) * signed(b))[31:0]` (rule R167). -/
def remMeaning (a b : Word) : Meaning :=
  unlessZero b (BitVec.ofInt 32 (a.toInt - a.toInt.tdiv b.toInt * b.toInt))

/-- `rem` at the architectural level (rule R167). -/
def execRem (rd rs1 rs2 : Reg) (s : State) : Host.Outcome State Fault Refusal :=
  .next (s.perform rd (remMeaning (s.readX rs1) (s.readX rs2)))

/-- `unsigned(a) mod unsigned(b)` (rule R168). -/
def remuMeaning (a b : Word) : Meaning :=
  unlessZero b (BitVec.ofNat 32 (a.toNat % b.toNat))

/-- `remu` at the architectural level (rule R168). -/
def execRemu (rd rs1 rs2 : Reg) (s : State) : Host.Outcome State Fault Refusal :=
  .next (s.perform rd (remuMeaning (s.readX rs1) (s.readX rs2)))

end Sys2Proof.Machine
end

