-- ==== Sys2Proof/Machine/Meaning.lean ====
section
/-! DEFINITION. The meaning of every row of `ISA_TABLE` on operand values, as the functional units evaluate it
(`52_issue_execute.md` rules R262, R264, R265), by the same function each instruction's own meaning uses. -/

namespace Sys2Proof.Machine

/-- The architectural meaning of an instruction at address `P` on operand values `a`, `b`: the one function both levels
of rule R12 evaluate (rules R262, R264, R265). -/
def insMeaning (i : Instr) (P a b : Word) : Meaning :=
  match i with
  | .lui _ imm => luiMeaning imm
  | .auipc _ imm => auipcMeaning P imm
  | .addi _ _ imm => addiMeaning a imm
  | .slti _ _ imm => sltiMeaning a imm
  | .sltiu _ _ imm => sltiuMeaning a imm
  | .xori _ _ imm => xoriMeaning a imm
  | .ori _ _ imm => oriMeaning a imm
  | .andi _ _ imm => andiMeaning a imm
  | .slli _ _ imm => slliMeaning a imm
  | .srli _ _ imm => srliMeaning a imm
  | .srai _ _ imm => sraiMeaning a imm
  | .add _ _ _ => addMeaning a b
  | .sub _ _ _ => subMeaning a b
  | .sll _ _ _ => sllMeaning a b
  | .slt _ _ _ => sltMeaning a b
  | .sltu _ _ _ => sltuMeaning a b
  | .xor _ _ _ => xorMeaning a b
  | .srl _ _ _ => srlMeaning a b
  | .sra _ _ _ => sraMeaning a b
  | .or _ _ _ => orMeaning a b
  | .and _ _ _ => andMeaning a b
  | .mul _ _ _ => mulMeaning a b
  | .mulh _ _ _ => mulhMeaning a b
  | .mulhsu _ _ _ => mulhsuMeaning a b
  | .mulhu _ _ _ => mulhuMeaning a b
  | .div _ _ _ => divMeaning a b
  | .divu _ _ _ => divuMeaning a b
  | .rem _ _ _ => remMeaning a b
  | .remu _ _ _ => remuMeaning a b
  | .jal _ imm => jalMeaning P imm
  | .jalr _ _ imm => jalrMeaning P a imm
  | .beq _ _ imm => beqMeaning P a b imm
  | .bne _ _ imm => bneMeaning P a b imm
  | .blt _ _ imm => bltMeaning P a b imm
  | .bge _ _ imm => bgeMeaning P a b imm
  | .bltu _ _ imm => bltuMeaning P a b imm
  | .bgeu _ _ imm => bgeuMeaning P a b imm
  | .lb _ _ imm => lbMeaning a imm
  | .lh _ _ imm => lhMeaning a imm
  | .lw _ _ imm => lwMeaning a imm
  | .lbu _ _ imm => lbuMeaning a imm
  | .lhu _ _ imm => lhuMeaning a imm
  | .sb _ _ imm => sbMeaning a b imm
  | .sh _ _ imm => shMeaning a b imm
  | .sw _ _ imm => swMeaning a b imm

/-- The access size of a load or store (rule R75); 0 for any other instruction. -/
def accessSize (i : StaticIns) : Nat :=
  match i with
  | .isa i =>
    match insMeaning i 0 0 0 with
    | .load _ n _ => n
    | .store _ data => data.length
    | .result _ => 0
    | .raise _ => 0
    | .transfer _ _ _ => 0
  | .named _ _ _ _ _ => 0

/-- Whether a load sign-extends (rules R181 to R185). -/
def loadSigned (i : StaticIns) : Bool :=
  match i with
  | .isa i =>
    match insMeaning i 0 0 0 with
    | .load _ _ signed => signed
    | .store _ _ => false
    | .result _ => false
    | .raise _ => false
    | .transfer _ _ _ => false
  | .named _ _ _ _ _ => false

end Sys2Proof.Machine
end

