-- ==== Sys2Proof/Machine/Validate.lean ====
section
/-! DEFINITION. Validation before a run (`00_scope.md` rules R8, R16, `60_exceptions.md` rule R376): "all violations are
collected and reported together, not fail-fast". A pair with a violation has no state; `step` refuses it. -/

namespace Sys2Proof.Machine

/-- One check: the violation if the condition fails. -/
def require (ok : Bool) (v : Violation) : List Violation := if ok then [] else [v]

/-- Some power of two up to `2^32`, at least 4 (rule R8). -/
def isLineSize (n : Nat) : Bool := (List.range 31).any fun k => decide (n = 2 ^ (k + 2))

/-- The legal values of `predictorDefault` for the predictor type (rule R217). -/
def defaultLegal : PredictorType → PredictorDefault → Bool
  | .twoBit, d => decide (d = .stronglyNotTaken ∨ d = .weaklyNotTaken ∨ d = .weaklyTaken ∨ d = .stronglyTaken)
  | .oneBit, d => decide (d = .taken ∨ d = .notTaken)
  | .zeroBit, d => decide (d = .taken ∨ d = .notTaken)

/-- The legal-values column of rule R8. -/
def cfgViolations (c : Cfg) : List Violation :=
  require (decide (1 ≤ c.robSize)) (.illegalField "robSize") ++
  require (decide (1 ≤ c.commitWidth)) (.illegalField "commitWidth") ++
  require (decide (1 ≤ c.fetchWidth)) (.illegalField "fetchWidth") ++
  require (decide (1 ≤ c.branchFollowLimit)) (.illegalField "branchFollowLimit") ++
  require (decide (1 ≤ c.btbSize)) (.illegalField "btbSize") ++
  require (decide (1 ≤ c.phtSize)) (.illegalField "phtSize") ++
  require (decide (c.ghrBits ≤ 32)) (.illegalField "ghrBits") ++
  require (defaultLegal c.predictorType c.predictorDefault) (.illegalField "predictorDefault") ++
  require (c.fus.all fun u => decide (1 ≤ u.delay)) (.illegalField "fus") ++
  require (decide (1 ≤ c.iwSize)) (.illegalField "iwSize") ++
  require (decide (1 ≤ c.lbSize)) (.illegalField "lbSize") ++
  require (decide (1 ≤ c.sbSize)) (.illegalField "sbSize") ++
  require (decide (c.fetchWidth ≤ c.specRegs)) (.illegalField "specRegs") ++
  require (decide (1 ≤ c.cacheLines ∧ c.cacheLines % c.cacheAssoc = 0)) (.illegalField "cacheLines") ++
  require (isLineSize c.cacheLineSize) (.illegalField "cacheLineSize") ++
  require (decide (1 ≤ c.cacheAssoc)) (.illegalField "cacheAssoc") ++
  require (decide (c.cacheWritePolicy = .writeBack)) (.illegalField "cacheWritePolicy") ++
  require (decide (1 ≤ c.memSize ∧ c.memSize ≤ 2 ^ 32 ∧ c.memSize % c.cacheLineSize = 0)) (.illegalField "memSize") ++
  require (decide (1 ≤ c.maxCycles)) (.illegalField "maxCycles") ++
  require (decide (c.exitAddress.toNat % 4 = 0)) (.illegalField "exitAddress")

/-- The unit type that executes a class (rule R240); a load needs an `MA` unit besides. -/
def unitType : IClass → FuType
  | .intArith => .FX
  | .floatArith => .FP
  | .jumpBranch => .BR
  | .loadStore => .LS

/-- Units of type `BR`, `LS` and `MA` have no capability set (rule R257). -/
def hasCaps : FuType → Bool
  | .FX => true
  | .FP => true
  | .BR => false
  | .LS => false
  | .MA => false

/-- A unit is compatible with an instruction: its type executes the class and, for `FX` and `FP`, its capability set
contains the required one (rules R254, R257). -/
def compatible (cfg : Cfg) (i : StaticIns) (u : FuncUnit) : Bool :=
  decide (u.type = unitType (insClass i)) && (!hasCaps u.type || (insCaps cfg i).all fun c => u.caps.contains c)

/-- The immediates a format admits (rule R104); a format without one has 0 there (rule R101). -/
def formatImmOk : Format → Int → Bool
  | .R, imm => decide (imm = 0)
  | .I, imm => immIOk imm
  | .IL, imm => immIOk imm
  | .S, imm => immIOk imm
  | .SH, imm => shamtOk imm
  | .B, imm => immBOk imm
  | .U, imm => immUOk imm
  | .J, imm => immJOk imm

/-- The operands of an instruction of `FP_TABLE`: the immediate within its format's range (rule R104), and 0 in every
register field its format does not have (rule R101). Rule R104 speaks of "a valid static instruction" and gives the
ranges by format; that they bind an added instruction by its row's format is the model's reading (DEDUCED, log entry 18).
-/
def namedOperandsOk (row : FpRow) (rd rs1 rs2 : Reg) (imm : Int) : Bool :=
  formatImmOk row.format imm && (writesRd row.format || decide (rd = 0)) &&
    (readsRs1 row.format || decide (rs1 = 0)) && (readsRs2 row.format || decide (rs2 = 0))

/-- The checks of one instruction of the code (rules R16, R104). A name that no table holds has no operand shape and no
class, so nothing else is checked of it. A `named` instruction is looked up in `FP_TABLE` alone, an overlap of the two
tables being no violation (DESIGN CHOICE, log entry 6). -/
def slotViolations (cfg : Cfg) (k : Nat) : CodeSlot → List Violation
  | .undecodable w => [.undecodableWord k w]
  | .ins (.isa i) =>
    require i.wf (.operandOutOfRange k) ++ require (cfg.fus.any (compatible cfg (.isa i))) (.noUnit k)
  | .ins (.named n rd rs1 rs2 imm) =>
    match fpRow cfg n with
    | none => [.unknownInstruction k n]
    | some row =>
      require (namedOperandsOk row rd rs1 rs2 imm) (.operandOutOfRange k) ++
        require (cfg.fus.any (compatible cfg (.named n rd rs1 rs2 imm))) (.noUnit k)

/-- The checks of the code, from index `k` on. -/
def codeViolations (cfg : Cfg) (k : Nat) : List CodeSlot → List Violation
  | [] => []
  | c :: cs => slotViolations cfg k c ++ codeViolations cfg (k + 1) cs

/-- Whether a slot is a load. -/
def slotIsLoad : CodeSlot → Bool
  | .ins i => isLoad i
  | .undecodable _ => false

/-- The entry point resolves: a label of the program, or an address, and a multiple of 4 (rule R401). -/
def entryResolves (cfg : Cfg) (prog : Prog) : Bool :=
  match cfg.entryPoint with
  | .address a => decide (a.toNat % 4 = 0)
  | .label n =>
    match lookupLabel n prog.labels with
    | some a => decide (a.toNat % 4 = 0)
    | none => false

/-- `address` a multiple of `alignment`, the span inside `0 .. memSize-1` (rule R20). -/
def spanLegal (cfg : Cfg) (sp : Span) : Bool :=
  decide (sp.address % sp.alignment = 0 ∧ sp.address + sp.bytes.length ≤ cfg.memSize)

/-- Two spans share no byte. -/
def spansDisjoint (a b : Span) : Bool :=
  decide (a.bytes = [] ∨ b.bytes = [] ∨ a.address + a.bytes.length ≤ b.address ∨
    b.address + b.bytes.length ≤ a.address)

/-- No two spans overlap (rule R20). -/
def allDisjoint : List Span → Bool
  | [] => true
  | sp :: rest => rest.all (spansDisjoint sp) && allDisjoint rest

/-- The checks of the spans (rule R20). -/
def spanViolations (cfg : Cfg) (spans : List Span) : List Violation :=
  spans.flatMap (fun sp => require (spanLegal cfg sp) (.illegalSpan sp.name)) ++
    require (allDisjoint spans) .overlappingSpans

/-- `exitAddress` is not the address of a program instruction (rules R8, R385). -/
def exitOutside (cfg : Cfg) (prog : Prog) : Bool := decide (4 * prog.code.length ≤ cfg.exitAddress.toNat)

/-- All violations of a configuration and a program, collected (rules R16, R376). -/
def validate (cfg : Cfg) (prog : Prog) : List Violation :=
  cfgViolations cfg ++ codeViolations cfg 0 prog.code ++
  require (!prog.code.any slotIsLoad || cfg.fus.any fun u => decide (u.type = .MA)) .noMemoryAccessUnit ++
  require (entryResolves cfg prog) .entryPointUnresolved ++
  require (exitOutside cfg prog) .exitAddressInProgram ++
  spanViolations cfg prog.initMem

end Sys2Proof.Machine
end

