-- ==== Sys2Proof/Machine/Sequential.lean ====
section
/-! DEFINITION. The sequential level (`00_scope.md` rule R12, log entry 1): one instruction of the program at a time, in
program order, each followed by the evaluation of the stop reasons (`60_exceptions.md` rule R384); and the placing of one
image in the code space (log entry 16). -/

namespace Sys2Proof.Machine

/-- "A configuration or program that fails validation never runs" (rule R16): the step of a valid pair, or the refusal
with all violations. -/
def ifValid (s : State) (next : Host.Outcome State Fault Refusal) : Host.Outcome State Fault Refusal :=
  match validate s.cfg s.prog with
  | [] => next
  | v :: vs => .refused (.invalid (v :: vs))

/-- After the instruction's effect, the stop reasons are evaluated (rule R384). -/
def settle : Host.Outcome State Fault Refusal → Host.Outcome State Fault Refusal
  | .next s => .next s.evalStop
  | .fault f => .fault f
  | .refused r => .refused r

/-- The instruction at `pc` executed, whichever table holds it. -/
def runStatic (i : StaticIns) (s : State) : Host.Outcome State Fault Refusal :=
  match i with
  | .isa i => exec i s
  | .named n rd rs1 rs2 imm => .next (s.performNamed (.named n rd rs1 rs2 imm) n)

/-- One instruction in program order. A terminal state is frozen (rule R389); where `pc` holds no instruction only the
stop reasons are evaluated (rule R388); the number of ticks does not advance (log entry 12). -/
def instructionStep (s : State) : Host.Outcome State Fault Refusal :=
  if s.status = .running then
    if s.drained then
      match instructionAt s.prog s.pc with
      | some i => settle (runStatic i s)
      | none => .next s.evalStop
    else .fault .inFlight
  else .next s

/-- `addi x0, x0, 0`, "the canonical no-op" (rule R117). -/
def nopSlot : CodeSlot := .ins (.isa (.addi 0 0 0))

/-- The code with this slot at index `k`, the slots before it filled with no-ops where there are none. -/
def placeSlot (code : List CodeSlot) (k : Nat) (slot : CodeSlot) : List CodeSlot :=
  (code ++ List.replicate (k + 1 - code.length) nopSlot).set k slot

/-- The slot the four bytes of an image give, by the decoder (rules R105, R114, R116). -/
def slotOfBytes (w : Word) : CodeSlot :=
  match (decodeBytes (imageBytes w)).1 with
  | .instr i => .ins (.isa i)
  | .refused _ => .undecodable w

/-- The state with image `w` at `pc`, about to execute it in program order: no instruction in flight, the state running
(log entry 16). -/
def State.placeWord (s : State) (w : Word) : State :=
  let pc := s.pc &&& 0xFFFFFFFC
  { s with
    grain := .instruction
    pc := pc
    prog := { s.prog with code := placeSlot s.prog.code (pc.toNat / 4) (slotOfBytes w) }
    rob := []
    decodeBuffer := []
    fetchBuffer := []
    status := .running }

end Sys2Proof.Machine
end

