-- ==== Sys2Proof/Machine/Cache.lean ====
section
/-! DEFINITION. The cache and memory-latency model (`54_cache_memory_latency.md`): geometry, the procedure `Access`, line
replacement, and stage 1 of the tick. -/

namespace Sys2Proof.Machine

/-! ## Geometry (rule R302) -/

/-- `la = a div cacheLineSize`. -/
def lineAddress (cfg : Cfg) (a : Nat) : Nat := a / cfg.cacheLineSize

/-- `off = a mod cacheLineSize`. -/
def lineOffset (cfg : Cfg) (a : Nat) : Nat := a % cfg.cacheLineSize

/-- `set = la mod sets`. -/
def setIndex (cfg : Cfg) (la : Nat) : Nat := la % cacheSets cfg

/-- `tag = la div sets`. -/
def lineTag (cfg : Cfg) (la : Nat) : Nat := la / cacheSets cfg

/-- A line of the right set holds `la` when it is valid and has its tag. -/
def Line.holds (l : Line) (tag : Nat) : Bool := l.valid && decide (l.tag = tag)

/-- The first way of a set a condition picks. -/
def findWay (p : Line → Bool) (ways : List Line) : Option Nat := ways.findIdx? p

/-- The ways of a set; none where there is no such set. -/
def State.ways (s : State) (set : Nat) : List Line := s.cache.getD set []

/-- One way replaced by another line. -/
def State.setWay (s : State) (set way : Nat) (l : Line) : State :=
  { s with cache := s.cache.set set ((s.ways set).set way l) }

/-- The `n` bytes of a line from an offset on. -/
def sliceBytes (data : List Byte) (off n : Nat) : List Byte := (data.drop off).take n

/-- `data[off .. off+n-1] <- bs`. -/
def patchBytes (data : List Byte) (off : Nat) : List Byte → List Byte
  | [] => data
  | b :: bs => patchBytes (data.set off b) (off + 1) bs

/-! ## Replacement (rules R307, R308, R310, R312) -/

/-- The generator of the test vectors (rule R312). -/
def testRandNext (r : Nat) : Nat × Nat :=
  let r' := (r * 6364136223846793005 + 1442695040888963407) % 2 ^ 64
  (r', r' / 2 ^ 33)

/-- `cfg.RandNext` (rule R312). -/
def randNext : RandGen → Nat → Nat × Nat
  | .testVectors, r => testRandNext r
  | .other k, r => Config.randNext k r

/-- The first way whose stamp is smallest (rule R312; stamps of valid lines are distinct). -/
def oldestWay (stamp : Line → Nat) : List Line → Nat
  | [] => 0
  | [_] => 0
  | l :: ls =>
    let k := oldestWay stamp ls
    match ls[k]? with
    | some m => if stamp l ≤ stamp m then 0 else k + 1
    | none => 0

/-- The victim of a set and the generator's next state: the first invalid way, else the way the policy picks (rules
R308, R312). -/
def victim (cfg : Cfg) (rng : Nat) (ways : List Line) : Nat × Nat :=
  match findWay (fun l => !l.valid) ways with
  | some k => (k, rng)
  | none =>
    match cfg.cacheReplacement with
    | .lru => (oldestWay (·.usedSeq) ways, rng)
    | .fifo => (oldestWay (·.insertedSeq) ways, rng)
    | .random => let (rng', r) := randNext cfg.randNext rng; (r % cfg.cacheAssoc, rng')

/-- A dirty victim is written back (rule R308). -/
def writeBack (l : Line) (m : Memory) : Memory := if l.valid && l.dirty then m.writeBytes l.base l.data else m

/-- `Replace(la)` (rule R308). -/
def State.replace (s : State) (la : Nat) : State :=
  let set := setIndex s.cfg la
  let tag := lineTag s.cfg la
  if (s.ways set).any (·.holds tag) then s
  else
    let (way, rng) := victim s.cfg s.rng (s.ways set)
    let mem := (((s.ways set)[way]?).map (writeBack · s.mainMem)).getD s.mainMem
    let base := la * s.cfg.cacheLineSize
    let line : Line :=
      { valid := true, dirty := false, tag := tag, base := base, data := mem.readBytes base s.cfg.cacheLineSize,
        set := set, insertedSeq := s.accessSeq + 1, usedSeq := s.accessSeq + 1 }
    { (s.setWay set way line) with mainMem := mem, rng := rng, accessSeq := s.accessSeq + 1 }

/-- Triggering the replacement after a miss (rule R307). -/
def State.triggerReplacement (s : State) (la : Nat) : State :=
  if s.pendingRepl.any fun r => decide (r.lineAddr = la) then s
  else if s.cfg.laneReplacementDelay = 0 then s.replace la
  else { s with pendingRepl := s.pendingRepl ++ [{ due := s.tick + s.cfg.laneReplacementDelay, lineAddr := la }] }

/-- Stage 1, the memory simulate step: the replacements that are due, in the order they were triggered (rule R310). -/
def State.memorySimulate (s : State) : State :=
  if s.cfg.useCache then
    let isDue := fun r : Repl => decide (r.due ≤ s.tick)
    (s.pendingRepl.filter isDue).foldl (fun s r => s.replace r.lineAddr)
      { s with pendingRepl := s.pendingRepl.filter fun r => !isDue r }
  else s

/-! ## Access (rules R303 to R306, R314) -/

/-- What a request to memory is: a load, or a store of these bytes. -/
inductive Request where
  | load
  | store (data : List Byte)
deriving DecidableEq, Repr

/-- The main-memory latency of a request (rule R304). -/
def memoryLatency (cfg : Cfg) : Request → Nat
  | .load => cfg.loadLatency
  | .store _ => cfg.storeLatency

/-- A request served from main memory: a store writes its bytes there (rules R306, R314). -/
def State.serveFromMemory (s : State) (a : Nat) : Request → State
  | .load => s
  | .store data => { s with mainMem := s.mainMem.writeBytes a data }

/-- A request that hits line `l` (rule R305). -/
def hitLine (cfg : Cfg) (a seq : Nat) (l : Line) : Request → Line
  | .load => { l with usedSeq := seq }
  | .store data => { l with usedSeq := seq, data := patchBytes l.data (lineOffset cfg a) data, dirty := true }

/-- The delay and byte counts every access adds (rules R303, R314). -/
def State.countAccess (s : State) (lat n : Nat) : State :=
  { s with stats := { s.stats with
      totalDelay := s.stats.totalDelay + lat, bytesTransferred := s.stats.bytesTransferred + n } }

/-- `Access` with a cache, on a hit in way `way` (rules R303, R305): next state, latency, bytes. -/
def State.accessHit (s : State) (a n : Nat) (req : Request) (set way : Nat) (l : Line) : State × Nat × List Byte :=
  let l' := hitLine s.cfg a s.accessSeq l req
  let lat := s.cfg.cacheAccessDelay
  let s := s.setWay set way l'
  (({ s with stats := { s.stats with cacheHits := s.stats.cacheHits + 1 } }).countAccess lat n, lat,
    sliceBytes l'.data (lineOffset s.cfg a) n)

/-- `Access` with a cache, on a miss (rules R303, R306, R307). -/
def State.accessMiss (s : State) (a n : Nat) (req : Request) (la : Nat) : State × Nat × List Byte :=
  let lat := s.cfg.cacheAccessDelay + memoryLatency s.cfg req
  let s := ({ s with stats := { s.stats with cacheMisses := s.stats.cacheMisses + 1 } }).serveFromMemory a req
  let bytes := s.mainMem.readBytes a n
  ((s.triggerReplacement la).countAccess lat n, lat, bytes)

/-- `Access(a, n, kind, data)` (rules R303, R314): the next state, the latency in ticks, and the `n` bytes at `a`. -/
def State.access (s : State) (a n : Nat) (req : Request) : State × Nat × List Byte :=
  let s := { s with nextMemId := s.nextMemId + 1 }
  if s.cfg.useCache then
    let s := { s with
      accessSeq := s.accessSeq + 1, stats := { s.stats with cacheAccesses := s.stats.cacheAccesses + 1 } }
    let la := lineAddress s.cfg a
    let set := setIndex s.cfg la
    match findWay (·.holds (lineTag s.cfg la)) (s.ways set) with
    | some way =>
      match (s.ways set)[way]? with
      | some l => s.accessHit a n req set way l
      | none => s.accessMiss a n req la
    | none => s.accessMiss a n req la
  else
    let lat := memoryLatency s.cfg req
    let s := s.serveFromMemory a req
    (s.countAccess lat n, lat, s.mainMem.readBytes a n)

end Sys2Proof.Machine
end

