-- ==== Sys2Proof/Machine/Rename.lean ====
section
/-! DEFINITION. Stage 6: dispatch, then rename (`51_rename_dispatch.md` rules R231 to R243). -/

namespace Sys2Proof.Machine

/-! ## Windows -/

/-- `win[c]`. -/
def Windows.at (w : Windows) : IClass → List Nat
  | .intArith => w.intArith
  | .floatArith => w.floatArith
  | .jumpBranch => w.jumpBranch
  | .loadStore => w.loadStore

/-- `win[c] <- ids`. -/
def Windows.put (w : Windows) (c : IClass) (ids : List Nat) : Windows :=
  match c with
  | .intArith => { w with intArith := ids }
  | .floatArith => { w with floatArith := ids }
  | .jumpBranch => { w with jumpBranch := ids }
  | .loadStore => { w with loadStore := ids }

/-- Every window through one function. -/
def Windows.each (w : Windows) (g : List Nat → List Nat) : Windows :=
  { intArith := g w.intArith, floatArith := g w.floatArith, jumpBranch := g w.jumpBranch, loadStore := g w.loadStore }

/-! ## Dispatch (rules R241, R242) -/

/-- A buffer item with everything unknown (rules R242, R281). -/
def LsItem.fresh (id : Nat) : LsItem :=
  { id := id, addr := none, data := none, done := false, fwd := none, memId := none, inMA := false }

/-- The reorder buffer, the target window or the target buffer has no room for `d` (rule R241). -/
def State.dispatchBlocked (s : State) (d : DynInst) : Bool :=
  decide (s.cfg.robSize ≤ s.rob.length) ||
  decide (s.cfg.iwSize ≤ (s.win.at (insClass d.ins)).length) ||
  (isLoad d.ins && decide (s.cfg.lbSize ≤ s.loadBuffer.length)) ||
  (isStore d.ins && decide (s.cfg.sbSize ≤ s.storeBuffer.length))

/-- Dispatching `d`, already taken off the decode buffer (rule R242). -/
def State.dispatchOne (s : State) (d : DynInst) : State :=
  let c := insClass d.ins
  { s with
    rob := s.rob ++ [{ d with window := some c }]
    win := s.win.put c (s.win.at c ++ [d.id])
    loadBuffer := if isLoad d.ins then s.loadBuffer ++ [LsItem.fresh d.id] else s.loadBuffer
    storeBuffer := if isStore d.ins then s.storeBuffer ++ [LsItem.fresh d.id] else s.storeBuffer }

/-- The dispatch loop over the decode buffer: in order, stopping at the first that does not fit (rule R241). -/
def dispatchLoop : List DynInst → State → State
  | [], s => { s with decodeBuffer := [] }
  | d :: ds, s =>
    if s.dispatchBlocked d then { s with decodeBuffer := d :: ds } else dispatchLoop ds (s.dispatchOne d)

/-- Dispatch. -/
def State.dispatch (s : State) : State := dispatchLoop s.decodeBuffer s

/-! ## Rename (rules R231 to R236) -/

/-- The current mapping of a register: the entry with the greatest id, the last of the list (rule R33). -/
def currentMapping (table : List RenameEntry) (r : ArchReg) : Option RenameEntry :=
  table.reverse.find? fun e => decide (e.arch = r)

/-- The reference of one source register (rule R233). -/
def sourceRef (table : List RenameEntry) (r : ArchReg) : SrcRef :=
  if r.isZero then .arch r
  else
    match currentMapping table r with
    | some e => .spec e.spec
    | none => .arch r

/-- The free pool register with the lowest index (rule R234). -/
def lowestFree (pool : List SpecReg) : Option Nat := pool.findIdx? fun p => decide (p.state = .free)

/-- How many pool registers are free (rule R231). -/
def freeCount (pool : List SpecReg) : Nat := pool.countP fun p => decide (p.state = .free)

/-- Renaming one instruction: sources, then destination, then table (rules R232 to R236); it goes to the decode buffer.
-/
def State.renameOne (s : State) (d : DynInst) : State :=
  let src := (insSources s.cfg d.ins).map (sourceRef s.renameTable)
  match insDest s.cfg d.ins, lowestFree s.pool with
  | some (r, tag), some k =>
    { s with
      pool := s.pool.set k { state := .allocated, value := 0, tag := tag }
      renameTable := s.renameTable ++ [{ id := d.id, arch := r, spec := k }]
      decodeBuffer := s.decodeBuffer ++ [{ d with src := src, dstArch := some r, dstSpec := some k }] }
  | _, _ => { s with decodeBuffer := s.decodeBuffer ++ [{ d with src := src, dstArch := none, dstSpec := none }] }

/-- How many instructions of the group get a destination (rule R231). -/
def renameNeed (cfg : Cfg) (group : List DynInst) : Nat := group.countP fun d => (insDest cfg d.ins).isSome

/-- Rename: the whole group or nothing (rule R231). -/
def State.rename (s : State) : State :=
  if s.decodeBuffer.isEmpty && !s.fetchBuffer.isEmpty &&
      decide (renameNeed s.cfg s.fetchBuffer ≤ freeCount s.pool) then
    s.fetchBuffer.foldl State.renameOne { s with fetchBuffer := [] }
  else s

end Sys2Proof.Machine
end

