-- ==== Sys2Proof/Machine/Issue.lean ====
section
/-! DEFINITION. Stage 5: the issue windows (`52_issue_execute.md` rules R251 to R258). -/

namespace Sys2Proof.Machine

/-- The instruction of the reorder buffer with this id. -/
def State.robFind (s : State) (id : Nat) : Option DynInst := s.rob.find? fun d => decide (d.id = id)

/-- The instruction of the reorder buffer with this id, changed. -/
def State.robUpdate (s : State) (id : Nat) (g : DynInst → DynInst) : State :=
  { s with rob := s.rob.map fun d => if d.id = id then g d else d }

/-- One functional unit's state, changed. -/
def State.fuUpdate (s : State) (u : Nat) (g : FuState → FuState) : State :=
  { s with fu := s.fu.modify u g }

/-- `ready(ref)` (rule R237). -/
def State.refReady (s : State) : SrcRef → Bool
  | .arch _ => true
  | .spec k => decide ((s.pool[k]?.map (·.state)) = some .executed)

/-- `val(ref)` (rule R237). -/
def State.refValue (s : State) : SrcRef → Container
  | .arch r => s.readReg r
  | .spec k => ((s.pool[k]?).map (·.value)).getD 0

/-- `d` is ready (rule R253). -/
def State.ready (s : State) (d : DynInst) : Bool := d.src.all s.refReady

/-- Unit `u` is idle and satisfies a condition on its configuration. -/
def State.unitFree (s : State) (p : FuncUnit → Bool) (u : Nat) : Bool :=
  match s.cfg.fus[u]?, s.fu[u]? with
  | some c, some f => p c && f.ins.isNone
  | _, _ => false

/-- The idle unit earliest in `cfg.fus` that satisfies the condition (rules R254, R290). -/
def State.pickUnit (s : State) (p : FuncUnit → Bool) : Option Nat :=
  (List.range s.cfg.fus.length).find? (s.unitFree p)

/-- The hold time of a unit: `cfg.fus[u].delay` (rule R268). -/
def unitDelay (cfg : Cfg) (u : Nat) : Nat := ((cfg.fus[u]?).map (·.delay)).getD 0

/-- A unit takes an instruction for `total` ticks (rules R255, R290). -/
def State.occupy (s : State) (u id total : Nat) : State :=
  (s.fuUpdate u fun f => { f with ins := some id, counter := 0, total := total }).robUpdate id
    fun d => { d with fu := some u }

/-- The operand values latched at issue: the first and the second of the sources (rule R255). For a row of `FP_TABLE` whose
only source is `rs2` the rule's formula and its sentence that `v1` is the value of `rs2` disagree; the model takes the
formula, so `rs2` is in `v0` and `v1` is 0 (DESIGN CHOICE, log entry 6). -/
def State.latchOperands (s : State) (d : DynInst) : Container × Container :=
  ((d.src[0]?.map s.refValue).getD 0, (d.src[1]?.map s.refValue).getD 0)

/-- Issuing `d` from window `c` to unit `u` (rule R255). -/
def State.issueTo (s : State) (c : IClass) (d : DynInst) (u : Nat) : State :=
  let opv := s.latchOperands d
  let s := { s with win := s.win.put c ((s.win.at c).filter fun i => decide (i ≠ d.id)) }
  (s.occupy u d.id (unitDelay s.cfg u)).robUpdate d.id fun d => { d with opv := some opv, window := none }

/-- One instruction of a window examined: issued if it is ready and a compatible unit is idle (rule R252). -/
def State.issueOne (c : IClass) (s : State) (id : Nat) : State :=
  match s.robFind id with
  | none => s
  | some d =>
    if s.ready d then
      match s.pickUnit (compatible s.cfg d.ins) with
      | some u => s.issueTo c d u
      | none => s
    else s

/-- One window, oldest first, each instruction examined once (rule R252). -/
def State.issueWindow (s : State) (c : IClass) : State := (s.win.at c).foldl (State.issueOne c) s

/-- Stage 5: the four windows in their fixed order (rule R251). -/
def State.issue (s : State) : State :=
  (((s.issueWindow .intArith).issueWindow .floatArith).issueWindow .jumpBranch).issueWindow .loadStore

end Sys2Proof.Machine
end

