-- ==== Sys2Proof/Machine/Units.lean ====
section
/-! DEFINITION. Stage 3: the functional units (`52_issue_execute.md` rules R259 to R268). -/

namespace Sys2Proof.Machine

/-- `p[k].value <- v; p[k].state <- executed` for the destination of `d`, if it has one (rule R262). -/
def State.writeSpec (s : State) (d : DynInst) (v : Container) : State :=
  match d.dstSpec with
  | some k => { s with pool := s.pool.modify k fun p => { p with value := v, state := .executed } }
  | none => s

/-- `d.busy <- false` (rule R271). -/
def State.notBusy (s : State) (id : Nat) : State := s.robUpdate id fun d => { d with busy := false }

/-- The instruction unit `u` finishes fails (rule R263). -/
def State.failUnit (s : State) (u id : Nat) (k : ExcKind) : State :=
  (s.fuUpdate u fun f => { f with failed := f.failed ++ [id] }).robUpdate id
    fun d => { d with exc := some k, busy := false }

/-- `d.actualTaken <- taken; d.actualTarget <- target`, also when not taken (rule R264). -/
def State.recordOutcome (s : State) (id : Nat) (taken : Bool) (target : Word) : State :=
  s.robUpdate id fun d => { d with actualTaken := some taken, actualTarget := some target }

/-- Unit `u` lets go of its instruction (rule R259). -/
def State.releaseUnit (s : State) (u id : Nat) : State :=
  (s.fuUpdate u fun f => { f with ins := none, counter := 0, total := 0 }).robUpdate id fun d => { d with fu := none }

/-- One item of a buffer, that of instruction `id`, changed. -/
def updateItem (id : Nat) (g : LsItem → LsItem) (items : List LsItem) : List LsItem :=
  items.map fun it => if it.id = id then g it else it

/-- The load-buffer item of instruction `id`, changed. -/
def State.loadUpdate (s : State) (id : Nat) (g : LsItem → LsItem) : State :=
  { s with loadBuffer := updateItem id g s.loadBuffer }

/-- The store-buffer item of instruction `id`, changed. -/
def State.storeUpdate (s : State) (id : Nat) (g : LsItem → LsItem) : State :=
  { s with storeBuffer := updateItem id g s.storeBuffer }

/-- The load-buffer item of instruction `id`. -/
def State.loadItem (s : State) (id : Nat) : Option LsItem := s.loadBuffer.find? fun it => decide (it.id = id)

/-- The instruction's meaning on its latched operands (rules R255, R262, R264, R265). -/
def latchedMeaning (i : Instr) (d : DynInst) : Meaning :=
  let (v0, v1) := d.opv.getD (0, 0)
  insMeaning i d.pc (ofContainer v0) (ofContainer v1)

/-- A load is complete: its extended value is written and the instruction is no longer busy (rules R266, R288). -/
def State.completeLoad (s : State) (d : DynInst) (bytes : List Byte) : State :=
  (s.writeSpec d (toContainer (extendLoad (accessSize d.ins) (loadSigned d.ins) bytes))).notBusy d.id

/-- `FX` and `BR` and `LS` units finishing a baseline instruction (rules R262 to R265): the meaning says which. -/
def State.finishIsa (s : State) (u : Nat) (d : DynInst) (i : Instr) : State :=
  match latchedMeaning i d with
  | .result v => (s.writeSpec d (toContainer v)).notBusy d.id
  | .raise k => s.failUnit u d.id k
  | .transfer taken target link =>
    let s := s.recordOutcome d.id taken target
    match targetFault taken target with
    | some k => s.failUnit u d.id k
    | none => ((link.map fun v => s.writeSpec d (toContainer v)).getD s).notBusy d.id
  | .load ea n _ =>
    match accessFault s.cfg ea n with
    | some k => s.failUnit u d.id k
    | none => s.loadUpdate d.id fun it => { it with addr := some ea }
  | .store ea data =>
    match accessFault s.cfg ea data.length with
    | some k => s.failUnit u d.id k
    | none => (s.storeUpdate d.id fun it => { it with addr := some ea, data := some data }).notBusy d.id

/-- `FP` unit finishing `d` (rule R267). Of `eval`'s result the pool register holds what the destination's file holds: for
a destination in `x` the low 32 bits with zeros above (DESIGN CHOICE, log entries 6, 7). -/
def State.finishNamed (s : State) (u : Nat) (d : DynInst) (name : String) : State :=
  let (v0, v1) := d.opv.getD (0, 0)
  match Config.fpEval name v0 v1 with
  | .error k => s.failUnit u d.id k
  | .ok v => (s.writeSpec d ((d.dstArch.map fun r => heldIn r.file v).getD v)).notBusy d.id

/-- `MA` unit finishing load `d` (rule R266). -/
def State.finishMemory (s : State) (d : DynInst) : State :=
  let bytes := ((s.loadItem d.id).bind (·.data)).getD []
  (s.completeLoad d bytes).loadUpdate d.id fun it => { it with done := true, inMA := false }

/-- A unit of the given type finishes `d` (rules R262 to R267). -/
def State.finish (s : State) (u : Nat) (t : FuType) (d : DynInst) : State :=
  match t with
  | .MA => s.finishMemory d
  | .FX | .FP | .BR | .LS =>
    match d.ins with
    | .isa i => s.finishIsa u d i
    | .named n _ _ _ _ => s.finishNamed u d n

/-- One unit in stage 3 (rule R259). -/
def State.unitTick (s : State) (u : Nat) : State :=
  match s.cfg.fus[u]?, s.fu[u]? with
  | some c, some f =>
    match f.ins with
    | none => s
    | some id =>
      if f.counter + 1 < f.total then s.fuUpdate u fun f => { f with counter := f.counter + 1 }
      else
        let s := s.releaseUnit u id
        match s.robFind id with
        | some d => s.finish u c.type d
        | none => s
  | _, _ => s

/-- Stage 3: the units in the order of `cfg.fus` (rules R259, R261). -/
def State.units (s : State) : State := (List.range s.cfg.fus.length).foldl State.unitTick s

end Sys2Proof.Machine
end

