-- ==== Sys2Proof/Machine/Lsq.lean ====
section
/-! DEFINITION. Stage 4: resolution of the load and store buffers (`53_load_store_queue.md` rules R282 to R290). -/

namespace Sys2Proof.Machine

/-- The items of the store buffer older than a load (rule R285). -/
def State.olderStores (s : State) (id : Nat) : List LsItem := s.storeBuffer.filter fun it => decide (it.id < id)

/-- The size of a store whose data is known (rules R265, R288). -/
def LsItem.size (it : LsItem) : Nat := (it.data.getD []).length

/-- A store overlaps the bytes `a .. a+n-1` (rule R288). -/
def LsItem.overlaps (it : LsItem) (a n : Nat) : Bool :=
  match it.addr with
  | some b => decide (b.toNat < a + n ∧ a < b.toNat + it.size)
  | none => false

/-- The youngest item of a list in increasing id, its last (rule R288). -/
def youngest (items : List LsItem) : Option LsItem := items.getLast?

/-- The load takes its bytes from store `y` (rule R288). -/
def State.forwardLoad (s : State) (d : DynInst) (y : LsItem) : State :=
  (s.completeLoad d (y.data.getD [])).loadUpdate d.id
    fun it => { it with done := true, fwd := some y.id, data := y.data }

/-- The load starts its memory access on `MA` unit `u` (rule R290). -/
def State.startAccess (s : State) (d : DynInst) (a : Word) (n u : Nat) : State :=
  let (s, lat, bytes) := s.access a.toNat n .load
  let memId := s.nextMemId
  (s.loadUpdate d.id fun it => { it with data := some bytes, memId := some memId, inMA := true }).occupy u d.id
    (unitDelay s.cfg u + lat)

/-- A candidate load with address `a` and `n` bytes: the first of rules R287 to R290 that applies. -/
def State.resolveCandidate (s : State) (d : DynInst) (a : Word) (n : Nat) : State :=
  let older := s.olderStores d.id
  if older.any fun it => it.addr.isNone then s
  else
    match youngest (older.filter (·.overlaps a.toNat n)) with
    | some y => if y.addr = some a ∧ y.size = n then s.forwardLoad d y else s
    | none =>
      match s.pickUnit fun c => decide (c.type = .MA) with
      | some u => s.startAccess d a n u
      | none => s

/-- One item of the load buffer examined (rule R285). -/
def State.resolveLoad (s : State) (it : LsItem) : State :=
  match it.addr, s.robFind it.id with
  | some a, some d => if it.done || it.inMA then s else s.resolveCandidate d a (accessSize d.ins)
  | _, _ => s

/-- Load resolution: the items in increasing id (rule R285). -/
def State.resolveLoads (s : State) : State := s.loadBuffer.foldl State.resolveLoad s

/-- Store resolution "does nothing in this spec" (rule R283). -/
def State.resolveStores (s : State) : State := s

/-- The store buffer holds the older head (rule R282). -/
def State.storeHeadOlder (s : State) : Bool :=
  match s.storeBuffer, s.loadBuffer with
  | [], _ => false
  | _ :: _, [] => true
  | st :: _, ld :: _ => decide (st.id < ld.id)

/-- Stage 4: whichever buffer holds the older head first (rule R282). -/
def State.resolveBuffers (s : State) : State :=
  if s.storeHeadOlder then s.resolveStores.resolveLoads else s.resolveLoads.resolveStores

end Sys2Proof.Machine
end

