-- ==== Sys2Proof/Machine/Predict.lean ====
section
/-! DEFINITION. The branch predictor's functions (`50_fetch_predict.md` rules R206 to R219): table indices, counters,
history, the lookup fetch makes and the training commit runs. -/

namespace Sys2Proof.Machine

/-- `phtIndex(P, g)` (rule R211). -/
def phtIndex (cfg : Cfg) (P : Word) (g : Nat) : Nat :=
  if cfg.useGlobalHistory then ((P.toNat % cfg.phtSize) ^^^ g) % cfg.phtSize else P.toNat % cfg.phtSize

/-- `shift(g, b)` (rule R212). -/
def shiftHistory (cfg : Cfg) (g : Nat) (b : Bool) : Nat := ((g <<< 1) ||| (if b then 1 else 0)) % 2 ^ cfg.ghrBits

/-- `predictsTaken(s)` (rule R213). -/
def predictsTaken : PredictorType → Nat → Bool
  | .twoBit, c => decide (2 ≤ c)
  | .oneBit, c => decide (c = 1)
  | .zeroBit, c => decide (c = 1)

/-- `up(s)`, `upTheProbability` (rule R213). -/
def counterUp : PredictorType → Nat → Nat
  | .twoBit, c => min 3 (c + 1)
  | .oneBit, _ => 1
  | .zeroBit, c => c

/-- `down(s)`, `downTheProbability` (rule R213). -/
def counterDown : PredictorType → Nat → Nat
  | .twoBit, c => c - 1
  | .oneBit, _ => 0
  | .zeroBit, c => c

/-- `pc mod btbSize` (rule R206). -/
def btbIndex (cfg : Cfg) (P : Word) : Nat := P.toNat % cfg.btbSize

/-- The entry that hits: the indexed one, if its tag is `P` (rules R205, R206). -/
def State.btbLookup (s : State) (P : Word) : Option BtbEntry :=
  match s.btb.getD (btbIndex s.cfg P) none with
  | some e => if e.tag = P then some e else none
  | none => none

/-- The direction reading of the counter (rules R205, R207). -/
def State.directionAt (s : State) (P : Word) : Bool :=
  predictsTaken s.cfg.predictorType (s.pht.getD (phtIndex s.cfg P s.ghr) 0)

/-- `snapshots[id]`; 0 where there is none. -/
def State.snapshotOf (s : State) (id : Nat) : Nat :=
  ((s.snapshots.find? fun e => decide (e.id = id)).map (·.ghr)).getD 0

/-- Training (rule R214): the counter that was read moves toward the real outcome, and the snapshot is discarded. -/
def State.train (s : State) (id : Nat) (P : Word) (taken : Bool) : State :=
  let i := phtIndex s.cfg P (s.snapshotOf id)
  let c := s.pht.getD i 0
  { s with
    snapshots := s.snapshots.filter fun e => decide (e.id ≠ id)
    pht := s.pht.set i (if taken then counterUp s.cfg.predictorType c else counterDown s.cfg.predictorType c) }

/-- BTB update (rule R215): only a taken transfer writes. -/
def State.updateBtb (s : State) (id : Nat) (P : Word) (conditional taken : Bool) (target : Word) : State :=
  if taken then
    let e : BtbEntry := { tag := P, conditional := conditional, target := target, commitId := id }
    { s with btb := s.btb.set (btbIndex s.cfg P) (some e) }
  else s

end Sys2Proof.Machine
end

