-- ==== Sys2Proof/Machine/Commit.lean ====
section
/-! DEFINITION. Stage 2: commit and flush (`55_rob_commit.md` rules R332 to R345). -/

namespace Sys2Proof.Machine

/-- A source reference `Spec(k)` becomes `Arch(r)` (rule R335). -/
def retarget (k : Nat) (r : ArchReg) (ref : SrcRef) : SrcRef := if ref = .spec k then .arch r else ref

/-- The references of an instruction retargeted. -/
def DynInst.retargetAll (k : Nat) (r : ArchReg) (d : DynInst) : DynInst := { d with src := d.src.map (retarget k r) }

/-- Register commit (rule R335). -/
def State.commitRegister (s : State) (d : DynInst) : State :=
  match d.dstSpec, d.dstArch with
  | some k, some r =>
    let p := (s.pool[k]?).getD SpecReg.freed
    let s := s.writeReg r p.value p.tag
    { s with
      decodeBuffer := s.decodeBuffer.map (DynInst.retargetAll k r)
      rob := s.rob.map (DynInst.retargetAll k r)
      renameTable := s.renameTable.filter fun e => decide (e.id ≠ d.id)
      pool := s.pool.set k SpecReg.freed }
  | _, _ => s

/-- Store commit (rule R337): the one point where a store changes the memory view. -/
def State.commitStore (s : State) (d : DynInst) : State :=
  match s.storeBuffer with
  | [] => s
  | it :: rest =>
    (({ s with storeBuffer := rest }).access ((it.addr.getD 0).toNat) (accessSize d.ins)
      (.store (it.data.getD []))).1

/-- Load commit (rule R336). -/
def State.commitLoad (s : State) : State := { s with loadBuffer := s.loadBuffer.tail }

/-- `Flush(b)` (rule R342): everything younger than id `b` is discarded. -/
def State.flush (s : State) (b : Nat) : State :=
  let old := fun id : Nat => decide (id ≤ b)
  { s with
    fetchBuffer := []
    decodeBuffer := s.decodeBuffer.filter fun d => old d.id
    win := s.win.each fun ids => ids.filter old
    loadBuffer := s.loadBuffer.filter fun it => old it.id
    storeBuffer := s.storeBuffer.filter fun it => old it.id
    rob := s.rob.filter fun d => old d.id
    fu := s.fu.map fun f =>
      let f := { f with failed := f.failed.filter old }
      match f.ins with
      | some id => if old id then f else { f with ins := none, counter := 0, total := 0 }
      | none => f
    pool := (s.renameTable.filter fun e => !old e.id).foldl (fun p e => p.set e.spec SpecReg.freed) s.pool
    renameTable := s.renameTable.filter fun e => old e.id
    snapshots := s.snapshots.filter fun e => old e.id }

/-- `d` is mispredicted (rule R340). -/
def mispredicted (d : DynInst) (taken : Bool) (target : Word) : Bool :=
  decide (d.predTaken ≠ taken) || (taken && decide (d.predTarget ≠ target))

/-- Recovery after a misprediction with history `g` before `d` (rules R216, R342, R343). -/
def State.recover (s : State) (d : DynInst) (g : Nat) (taken : Bool) (target : Word) : State :=
  let s := s.flush d.id
  { s with
    ghr := shiftHistory s.cfg g taken
    pc := if taken then target else d.pc + 4
    fetchStall := s.cfg.flushPenalty
    stats := { s.stats with flushes := s.stats.flushes + 1 } }

/-- Whether the instruction is a conditional branch, for the BTB entry it writes (rules R179, R215). -/
def insConditional : StaticIns → Bool
  | .isa i => isConditional i
  | .named _ _ _ _ _ => false

/-- Commit of a jump/branch-class instruction, after rules R334 and R335 (rule R345); the flag says that commit stops
for this tick. -/
def State.commitTransfer (s : State) (d : DynInst) : State × Bool :=
  let g := s.snapshotOf d.id
  let taken := d.actualTaken.getD false
  let target := d.actualTarget.getD 0
  let s := s.train d.id d.pc taken
  let s := { s with stats := { s.stats with
    branches := s.stats.branches + 1
    correctDir := if d.dirPred = taken then s.stats.correctDir + 1 else s.stats.correctDir } }
  let s := s.updateBtb d.id d.pc (insConditional d.ins) taken target
  let halt := taken && decide (target = s.cfg.exitAddress)
  let s := if halt then { s with haltSeen := true } else s
  if mispredicted d taken target then (s.recover d g taken target, true) else (s, halt)

/-- Committing `d`, the head (rule R334): the state, and whether commit stops for this tick. -/
def State.commitOne (s : State) (d : DynInst) : State × Bool :=
  let s := { s with rob := s.rob.tail, stats := { s.stats with committed := s.stats.committed + 1 } }
  let s := s.commitRegister d
  let s := if isStore d.ins then s.commitStore d else s
  let s := if isLoad d.ins then s.commitLoad else s
  if isTransfer d.ins then s.commitTransfer d else (s, false)

/-- The commit loop (rule R332). -/
def commitLoop : Nat → State → State
  | 0, s => s
  | n + 1, s =>
    match s.rob with
    | [] => s
    | d :: _ =>
      if d.busy then s
      else
        match d.exc with
        | some k => s.takeException k
        | none =>
          match s.commitOne d with
          | (s', true) => s'
          | (s', false) => commitLoop n s'

/-- Stage 2 (rule R332): at most `commitWidth` commits. -/
def State.commit (s : State) : State := commitLoop s.cfg.commitWidth s

end Sys2Proof.Machine
end

