-- ==== Sys2Proof/Machine/Fetch.lean ====
section
/-! DEFINITION. Stage 7: fetch (`50_fetch_predict.md` rules R201 to R210). -/

namespace Sys2Proof.Machine

/-- A dynamic instruction as fetch creates it, not predicted (rule R203). -/
def DynInst.fetched (id : Nat) (pc : Word) (ins : StaticIns) : DynInst :=
  { id := id, pc := pc, ins := ins, predTaken := false, predTarget := 0, dirPred := false, src := [],
    dstArch := none, dstSpec := none, window := none, fu := none, opv := none, actualTaken := none,
    actualTarget := none, exc := none, busy := true }

/-- Fetching an instruction that is not of the jump/branch class (rule R203). -/
def State.fetchPlain (s : State) (ins : StaticIns) : State :=
  { s with
    fetchBuffer := s.fetchBuffer ++ [DynInst.fetched s.nextId s.pc ins]
    nextId := s.nextId + 1
    pc := s.pc + 4 }

/-- Fetching a jump/branch-class instruction (rules R205, R208 to R210). -/
def State.fetchTransfer (s : State) (ins : StaticIns) : State :=
  let hit := s.btbLookup s.pc
  let dir := s.directionAt s.pc
  let predTaken :=
    match hit with
    | some e => !e.conditional || dir
    | none => false
  let predTarget := (hit.map (·.target)).getD 0
  { s with
    fetchBuffer := s.fetchBuffer ++
      [{ DynInst.fetched s.nextId s.pc ins with predTaken := predTaken, predTarget := predTarget, dirPred := dir }]
    nextId := s.nextId + 1
    snapshots := s.snapshots ++ [{ id := s.nextId, ghr := s.ghr }]
    ghr := shiftHistory s.cfg s.ghr predTaken
    pc := if predTaken then predTarget else s.pc + 4 }

/-- The fetch loop: at most so many more instructions, `followed` transfers of the group so far (rules R202, R204). -/
def fetchLoop : Nat → Nat → State → State
  | 0, _, s => s
  | n + 1, followed, s =>
    match instructionAt s.prog s.pc with
    | none => s
    | some ins =>
      if isTransfer ins then
        if followed = s.cfg.branchFollowLimit then s else fetchLoop n (followed + 1) (s.fetchTransfer ins)
      else fetchLoop n followed (s.fetchPlain ins)

/-- Stage 7 (rule R201). -/
def State.fetch (s : State) : State :=
  if !s.fetchBuffer.isEmpty then s
  else if 0 < s.fetchStall then { s with fetchStall := s.fetchStall - 1 }
  else fetchLoop s.cfg.fetchWidth 0 s

end Sys2Proof.Machine
end

