-- ==== Sys2Proof/Machine/Tick.lean ====
section
/-! DEFINITION. The tick (`56_cycle_and_rollback.md` rules R355, R356): the stages in their fixed order, each seeing the
writes of the earlier ones. -/

namespace Sys2Proof.Machine

/-- Stage 0 (rule R355). -/
def State.startTick (s : State) : State := { s with tick := s.tick + 1 }

/-- Stages 0 to 8 of one tick (rule R355). -/
def State.stages (s : State) : State :=
  let s := s.startTick
  let s := s.memorySimulate
  let s := s.commit
  let s := s.units
  let s := s.resolveBuffers
  let s := s.issue
  let s := s.dispatch.rename
  let s := s.fetch
  s.evalStop

/-- `Step(cfg, prog, S)` of a valid pair (rule R356): a terminal state is frozen. -/
def tickStep (s : State) : State := if s.status = .running then s.stages else s

end Sys2Proof.Machine
end

