-- ==== Sys2Proof/Machine/Step.lean ====
section
/-! DEFINITION. One step of the model: a refusal of an invalid pair (`00_scope.md` rule R16), else one tick of the core
(`56_cycle_and_rollback.md` rule R356) or, in a state of grain `instruction`, one instruction in program order
(log entry 1). -/

namespace Sys2Proof.Machine

def step (s : State) : Host.Outcome State Fault Refusal :=
  match s.grain with
  | .tick => ifValid s (.next (tickStep s))
  | .instruction => ifValid s (instructionStep s)

/-- The state whose very next step fetches and runs the opcode table's instruction with the bits `w` (log entry 16). -/
def State.withFetchWord (s : State) (nbits w : Nat) : State := s.placeWord (BitVec.ofNat 32 (w % 2 ^ nbits))

end Sys2Proof.Machine
end

