-- ==== Sys2Proof/Machine/Pseudo.lean ====
section
/-! DEFINITION. The pseudo-instructions the external pass expands (`30_encoding.md` rule R120). "The core never sees
one": they are no constructors of `Instr`, only lists of them. A label operand is the byte offset it stands for
(rule R101). -/

namespace Sys2Proof.Machine

/-- `lo = sext_32(imm[11:0])`. -/
def liLow (imm : Int) : Int := (BitVec.ofInt 12 imm).toInt

/-- `hi = ((imm - lo) >> 12)[19:0]`. -/
def liHigh (imm : Int) : Int := ((imm - liLow imm) / 4096) % 2 ^ 20

/-- `li rd, imm`. -/
def pseudoLi (rd : Reg) (imm : Int) : List Instr :=
  if -2048 ≤ imm ∧ imm ≤ 2047 then [.addi rd 0 imm]
  else if liLow imm = 0 then [.lui rd (liHigh imm)]
  else [.lui rd (liHigh imm), .addi rd rd (liLow imm)]

def pseudoMv (rd rs : Reg) : List Instr := [.addi rd rs 0]
def pseudoNop : List Instr := [.addi 0 0 0]
def pseudoNot (rd rs : Reg) : List Instr := [.xori rd rs (-1)]
def pseudoNeg (rd rs : Reg) : List Instr := [.sub rd 0 rs]
def pseudoSeqz (rd rs : Reg) : List Instr := [.sltiu rd rs 1]
def pseudoSnez (rd rs : Reg) : List Instr := [.sltu rd 0 rs]
def pseudoJ (offset : Int) : List Instr := [.jal 0 offset]
def pseudoJr (rs : Reg) : List Instr := [.jalr 0 rs 0]
def pseudoRet : List Instr := [.jalr 0 1 0]
def pseudoCall (offset : Int) : List Instr := [.jal 1 offset]
def pseudoBeqz (rs : Reg) (offset : Int) : List Instr := [.beq rs 0 offset]
def pseudoBnez (rs : Reg) (offset : Int) : List Instr := [.bne rs 0 offset]
def pseudoBgt (rs rt : Reg) (offset : Int) : List Instr := [.blt rt rs offset]
def pseudoBle (rs rt : Reg) (offset : Int) : List Instr := [.bge rt rs offset]
def pseudoBgtu (rs rt : Reg) (offset : Int) : List Instr := [.bltu rt rs offset]
def pseudoBleu (rs rt : Reg) (offset : Int) : List Instr := [.bgeu rt rs offset]

end Sys2Proof.Machine
end

