-- ==== Sys2Proof/Machine/Sim.lean ====
section
/-! DEFINITION. Backward stepping and the stepping interface (`56_cycle_and_rollback.md` rules R361 to R373). Every
operation of the host validates the pair first: "for an invalid pair it returns the list of violations and no state"
(`60_exceptions.md` rule R376), so no state of an invalid pair is ever given out or stepped (rule R16). -/

namespace Sys2Proof.Machine

/-- A typed result of the interface: a value, or all violations of the pair (rules R373, R376). -/
abbrev Checked (α : Type) := Except (List Violation) α

/-- The result for a valid pair, else the violations and nothing else (rules R16, R376). -/
def ifLegal {α : Type} (cfg : Cfg) (prog : Prog) (result : Checked α) : Checked α :=
  match validate cfg prog with
  | [] => result
  | v :: vs => .error (v :: vs)

/-- `Step` applied `t` times (rule R363). -/
def ticks : Nat → State → State
  | 0, s => s
  | t + 1, s => tickStep (ticks t s)

/-- `StateAt(cfg, prog, t)`: `Step` applied `t` times to `Reset(cfg, prog)` (rule R363). -/
def stateAt (cfg : Cfg) (prog : Prog) (t : Nat) : Checked State :=
  ifLegal cfg prog (.ok (ticks t (State.init cfg prog)))

/-- The simulator value the host holds (rule R364). The log's last element comes first. -/
structure Sim where
  cur : State
  hist : List State
deriving DecidableEq, Repr

/-- The value a run starts from: `Reset(cfg, prog)` with an empty log (rule R368). -/
def Sim.start (cfg : Cfg) (prog : Prog) : Checked Sim := ifLegal cfg prog (.ok { cur := State.init cfg prog, hist := [] })

/-- The value a prior snapshot gives: "A state loaded from a snapshot has no `hist`" (rules R366, R368, R370). -/
def Sim.load (s : State) : Checked Sim := ifLegal s.cfg s.prog (.ok { cur := s, hist := [] })

/-- `Forward(sim)` (rule R364). -/
def Sim.forward (m : Sim) : Checked Sim :=
  ifLegal m.cur.cfg m.cur.prog
    (.ok (if m.cur.status = .running then { cur := tickStep m.cur, hist := m.cur :: m.hist } else m))

/-- `Backward` of a state that has no log: `StateAt(n - 1)`, recomputed from reset; the state at tick 0 stays (rules R365,
R366). -/
def recomputeBackward (s : State) : Checked State :=
  match s.tick with
  | 0 => .ok s
  | n + 1 => stateAt s.cfg s.prog n

/-- `Backward(sim)` (rule R365); without a log, by recomputing (rule R366). -/
def Sim.backward (m : Sim) : Checked Sim :=
  ifLegal m.cur.cfg m.cur.prog
    (match m.hist with
      | s :: rest => .ok { cur := s, hist := rest }
      | [] => (recomputeBackward m.cur).map fun s => { cur := s, hist := [] })

/-- `n` times a step of the simulator. -/
def Sim.repeat (g : Sim → Checked Sim) : Nat → Sim → Checked Sim
  | 0, m => .ok m
  | n + 1, m => (g m).bind (Sim.repeat g n)

/-- The report of `StepTo` (rule R369). -/
structure Report where
  forwardSteps : Nat
  backwardSteps : Nat
  tick : Nat
  status : Status
deriving DecidableEq, Repr

/-- While a condition holds, a step of the simulator: at most `fuel` times; with the number of steps done. -/
def Sim.loop (p : State → Bool) (g : Sim → Checked Sim) : Nat → Sim → Checked (Sim × Nat)
  | 0, m => .ok (m, 0)
  | fuel + 1, m =>
    if p m.cur then (g m).bind fun m' => (Sim.loop p g fuel m').map fun r => (r.1, r.2 + 1) else .ok (m, 0)

/-- While `cur.tick < target` and running, `Forward` (rule R368). A tick advances `tick` by one, so the distance to the
target bounds the steps. -/
def Sim.forwardTo (m : Sim) (target : Nat) : Checked (Sim × Nat) :=
  Sim.loop (fun s => decide (s.tick < target ∧ s.status = .running)) Sim.forward (target - m.cur.tick) m

/-- While `cur.tick > target`, `Backward`, with a log or without (rules R366, R368). -/
def Sim.backwardTo (m : Sim) (target : Nat) : Checked (Sim × Nat) :=
  Sim.loop (fun s => decide (target < s.tick)) Sim.backward (m.cur.tick - target) m

/-- `StepTo(sim, target)` with its report (rules R368, R369). -/
def Sim.stepTo (m : Sim) (target : Nat) : Checked (Sim × Report) :=
  ifLegal m.cur.cfg m.cur.prog
    ((m.forwardTo target).bind fun (m1, fwd) =>
      (m1.backwardTo target).map fun (m2, bwd) =>
        (m2, { forwardSteps := fwd, backwardSteps := bwd, tick := m2.cur.tick, status := m2.cur.status }))

end Sys2Proof.Machine
end

