-- ==== Sys2Proof/Safety.lean ====
section
/-! DEFINITION. The terms the statements about the machine are written in: what an instruction leaves unchanged, what a
safe run is, and the invariants of `10_state.md` rules R45, R46 and `60_exceptions.md` rule R394. -/

namespace Sys2Proof.Machine

/-! ## Outcomes -/

/-- The outcome is a next state, and it has the property. -/
def Completes (o : Host.Outcome State Fault Refusal) (P : State → Prop) : Prop := ∃ t, o = .next t ∧ P t

/-- Validation finds nothing (rules R16, R376). -/
def Valid (cfg : Cfg) (prog : Prog) : Prop := validate cfg prog = []

/-- A state whose status is not `running` (rules R43, R389). -/
def State.terminal (s : State) : Prop := s.status ≠ .running

/-- No exception has reached commit: what a safe run is (rules R378, R386). -/
def State.safe (s : State) : Prop := s.excSeen = none ∧ ∀ k, s.status ≠ .exception k

/-! ## Frames of the architectural level -/

/-- `t` is `s` after an instruction that gave `rd` the value `v` (discarded for `x0`) and went on at `next`: every other
register, every byte of memory and every other component is unchanged; the instruction is counted (rules R25, R130; the
count and the frame: DEDUCED, log entry 11). -/
def State.WroteRegister (s t : State) (rd : Reg) (v next : Word) : Prop :=
  (∀ r, t.readX r = if r = rd ∧ r ≠ 0 then v else s.readX r) ∧
  t.pc = next ∧
  t.stats = { s.stats with committed := s.stats.committed + 1 } ∧
  (∀ a, t.memView a = s.memView a) ∧
  t = { s with x := t.x, pc := t.pc, stats := t.stats }

/-- `t` is `s` after a transfer that went to `next`, gave `rd` the link value, if any, and is counted as a branch; the
run is marked halted if it is taken to the exit address (rules R170, R338, R344; which counts move and the frame: DEDUCED,
log entry 11). -/
def State.Transferred (s t : State) (rd : Reg) (link : Option Word) (taken : Bool) (next : Word) : Prop :=
  (∀ r, t.readX r = if r = rd ∧ r ≠ 0 then link.getD (s.readX r) else s.readX r) ∧
  t.pc = next ∧
  (t.haltSeen = true ↔ s.haltSeen = true ∨ (taken = true ∧ next = s.cfg.exitAddress)) ∧
  t.stats = { s.stats with committed := s.stats.committed + 1, branches := s.stats.branches + 1 } ∧
  (∀ a, t.memView a = s.memView a) ∧
  t = { s with x := t.x, pc := t.pc, haltSeen := t.haltSeen, stats := t.stats }

/-- `t` is `s` after a store of the bytes `data` at `ea`: those bytes read as `data`, every other byte reads as before,
no register changes; a byte goes to its cache line or to main memory (rules R11, R74, R186 to R188; that it goes there at
once, the count and the frame: DEDUCED, log entry 11). -/
def State.Stored (s t : State) (ea : Nat) (data : List Byte) : Prop :=
  (∀ a, t.memView a = if ea ≤ a ∧ a < ea + data.length then data.getD (a - ea) 0 else s.memView a) ∧
  (∀ r, t.readX r = s.readX r) ∧
  t.pc = s.pc + 4 ∧
  t.stats = { s.stats with committed := s.stats.committed + 1 } ∧
  t = { s with mainMem := t.mainMem, cache := t.cache, pc := t.pc, stats := t.stats }

/-- An instruction has this format, its image this opcode, `funct3` and `funct7` (those the format has), and its
descriptor this class and these capabilities (rules R103, R106, R113). -/
def Described (i : Instr) (fmt : Format) (op : BitVec 7) (f3 : Option (BitVec 3)) (f7 : Option (BitVec 7)) (c : IClass)
    (caps : List Cap) : Prop :=
  format i = fmt ∧ fieldOpcode (encode i) = op ∧ (∀ b ∈ f3, fieldFunct3 (encode i) = b) ∧
  (∀ b ∈ f7, fieldFunct7 (encode i) = b) ∧ classAndCaps i = (c, caps)

/-! ## Invariants of the state -/

/-- Strictly increasing. -/
def Increasing (ids : List Nat) : Prop := ids.Pairwise (· < ·)

/-- The ids in flight, oldest first: reorder buffer, decode buffer, fetch buffer (rule R46). -/
def State.idsInFlight (s : State) : List Nat :=
  s.rob.map (·.id) ++ s.decodeBuffer.map (·.id) ++ s.fetchBuffer.map (·.id)

/-- Ids are unique, increase in program order through the three latches, and are below `nextId` (rules R29, R45, R46 (b)).
-/
def State.IdsOrdered (s : State) : Prop := Increasing s.idsInFlight ∧ ∀ id ∈ s.idsInFlight, id < s.nextId

/-- No structure holds more than its capacity (rules R34, R35, R36, R38, R346). -/
def State.WithinCapacity (s : State) : Prop :=
  s.rob.length ≤ s.cfg.robSize ∧ s.fetchBuffer.length ≤ s.cfg.fetchWidth ∧
  s.decodeBuffer.length ≤ s.cfg.fetchWidth ∧ (∀ c, (s.win.at c).length ≤ s.cfg.iwSize) ∧
  s.loadBuffer.length ≤ s.cfg.lbSize ∧ s.storeBuffer.length ≤ s.cfg.sbSize

/-- The statistics' inequalities (rule R394 (c), (f)). -/
def State.StatsConsistent (s : State) : Prop :=
  s.stats.correctDir ≤ s.stats.branches ∧ s.stats.branches ≤ s.stats.committed ∧
  s.stats.flushes ≤ s.stats.branches ∧ s.stats.cacheHits + s.stats.cacheMisses = s.stats.cacheAccesses

/-- An instruction that a unit has resolved as taken, and that has not failed, goes to a multiple of 4 (rule R264). -/
def DynInst.TargetAligned (d : DynInst) : Prop :=
  d.pc.toNat % 4 = 0 ∧
  (d.exc = none → d.actualTaken = some true → ∀ t, d.actualTarget = some t → t.toNat % 4 = 0)

/-- "`pc` is always a multiple of 4" (rules R382, R388), with what keeps it so: every address in flight, every target a
unit or the branch target buffer holds. -/
def State.PcAligned (s : State) : Prop :=
  s.pc.toNat % 4 = 0 ∧
  (∀ d ∈ s.rob ++ s.decodeBuffer ++ s.fetchBuffer, d.TargetAligned) ∧
  ∀ e ∈ s.btb, ∀ b ∈ e, b.target.toNat % 4 = 0

/-- A pool register that is free holds 0 (rule R32). -/
def State.FreeIsZero (s : State) : Prop := ∀ p ∈ s.pool, p.state = .free → p.value = 0

/-- Every counter of the pattern history table is a state of the configured type (rules R42, R213). -/
def State.CountersLegal (s : State) : Prop :=
  ∀ c ∈ s.pht, c ≤ (match s.cfg.predictorType with | .twoBit => 3 | .oneBit => 1 | .zeroBit => 1)

/-- The history register and its snapshots fit in `ghrBits` bits (rules R42, R212). -/
def State.HistoryFits (s : State) : Prop :=
  s.ghr < 2 ^ s.cfg.ghrBits ∧ ∀ e ∈ s.snapshots, e.ghr < 2 ^ s.cfg.ghrBits

/-- One way of a set is as the geometry says: it has `cacheLineSize` bytes, its set index, and, if valid, the base its tag
and set give; a valid clean line equals main memory (rules R40, R46 (g), R302). -/
def LineOk (cfg : Cfg) (mem : Memory) (set : Nat) (l : Line) : Prop :=
  l.data.length = cfg.cacheLineSize ∧ l.set = set ∧
  (l.valid = true → l.base = (l.tag * cacheSets cfg + set) * cfg.cacheLineSize) ∧
  (l.valid = true → l.dirty = false → l.data = mem.readBytes l.base cfg.cacheLineSize)

/-- At most one valid line of a set holds a given tag (rule R46 (h)). -/
def TagsDistinct (ways : List Line) : Prop :=
  ways.Pairwise fun l m => l.valid = true → m.valid = true → l.tag ≠ m.tag

/-- The cache is coherent with its geometry and with main memory (rule R46 (g), (h)). -/
def State.CacheCoherent (s : State) : Prop :=
  s.cfg.useCache = true → 0 < s.cfg.cacheLineSize ∧ 0 < cacheSets s.cfg ∧ s.cache.length = cacheSets s.cfg ∧
    ∀ set ways, s.cache[set]? = some ways →
      ways.length = s.cfg.cacheAssoc ∧ TagsDistinct ways ∧ ∀ l ∈ ways, LineOk s.cfg s.mainMem set l

/-- What a store-buffer item writes is a whole access: 1, 2 or 4 bytes at a multiple of their number, or nothing yet
(rule R265). -/
def LsItem.WholeAccess (it : LsItem) : Prop :=
  let n := (it.data.getD []).length
  n = 0 ∨ ((n = 1 ∨ n = 2 ∨ n = 4) ∧ (it.addr.getD 0).toNat % n = 0)

/-- Every store in flight is a whole access, so none crosses a cache line (rule R303). -/
def State.StoresWhole (s : State) : Prop := ∀ it ∈ s.storeBuffer, it.WholeAccess

/-- A valid line of the cache holds the line with this line address (rule R302). -/
def State.cached (s : State) (la : Nat) : Prop :=
  ∃ l ∈ s.ways (setIndex s.cfg la), l.valid = true ∧ l.tag = lineTag s.cfg la

/-- Where fetch goes after an instruction: its predicted target if predicted taken, else the next address (rules R203,
R209). -/
def DynInst.predictedNext (d : DynInst) : Word := if d.predTaken then d.predTarget else d.pc + 4

end Sys2Proof.Machine
end

