-- ==== Sys2Proof/Certificates/Slice0/Obligations.lean ====
section
/-! DEFINITION. The statements for the provers, by the rule of spec/ each formalises. Where a statement has hypotheses, a
theorem of `Sys2Proof/Tests/Slice0.lean` shows a state and operands that meet them. -/

open Sys2Proof Sys2Proof.Machine

/-! ## The architectural level: what each instruction does (`00_scope.md` rule R12)

Each statement says, for every state and all operands the encoding admits, that `exec` answers a next state, what that
state's registers, memory and `pc` are, and that nothing else changed. -/

/-- `addi`, `slti`, `sltiu`, `add`, `sub`, `slt`, `sltu`: the results of rules R133 to R135, R142, R143, R145, R146.
That the instruction is counted and that every other component of the state stays is the model's reading of the
architectural level (DEDUCED, log entry 11), not these rules'. -/
def Obligations.AddAndCompare : Prop :=
  (∀ (s : State) (rd rs1 : Reg) (imm : Int), immIOk imm = true →
    (Described (.addi rd rs1 imm) .I 0b0010011#7 (some 0b000#3) none .intArith [.addition] ∧
      Completes (exec (.addi rd rs1 imm) s) fun t =>
        s.WroteRegister t rd (BitVec.ofInt 32 ((s.readX rs1).toInt + imm)) (s.pc + 4)) ∧
    (Described (.slti rd rs1 imm) .I 0b0010011#7 (some 0b010#3) none .intArith [.addition] ∧
      Completes (exec (.slti rd rs1 imm) s) fun t =>
        s.WroteRegister t rd (if (s.readX rs1).toInt < imm then 1 else 0) (s.pc + 4)) ∧
    (Described (.sltiu rd rs1 imm) .I 0b0010011#7 (some 0b011#3) none .intArith [.addition] ∧
      Completes (exec (.sltiu rd rs1 imm) s) fun t =>
        s.WroteRegister t rd (if ((s.readX rs1).toNat : Int) < imm % 2 ^ 32 then 1 else 0) (s.pc + 4))) ∧
  (∀ (s : State) (rd rs1 rs2 : Reg),
    (Described (.add rd rs1 rs2) .R 0b0110011#7 (some 0b000#3) (some 0b0000000#7) .intArith [.addition] ∧
      Completes (exec (.add rd rs1 rs2) s) fun t =>
        s.WroteRegister t rd (BitVec.ofNat 32 ((s.readX rs1).toNat + (s.readX rs2).toNat)) (s.pc + 4)) ∧
    (Described (.sub rd rs1 rs2) .R 0b0110011#7 (some 0b000#3) (some 0b0100000#7) .intArith [.addition] ∧
      Completes (exec (.sub rd rs1 rs2) s) fun t =>
        s.WroteRegister t rd (BitVec.ofInt 32 ((s.readX rs1).toInt - (s.readX rs2).toInt)) (s.pc + 4)) ∧
    (Described (.slt rd rs1 rs2) .R 0b0110011#7 (some 0b010#3) (some 0b0000000#7) .intArith [.addition] ∧
      Completes (exec (.slt rd rs1 rs2) s) fun t =>
        s.WroteRegister t rd (if (s.readX rs1).toInt < (s.readX rs2).toInt then 1 else 0) (s.pc + 4)) ∧
    (Described (.sltu rd rs1 rs2) .R 0b0110011#7 (some 0b011#3) (some 0b0000000#7) .intArith [.addition] ∧
      Completes (exec (.sltu rd rs1 rs2) s) fun t =>
        s.WroteRegister t rd (if (s.readX rs1).toNat < (s.readX rs2).toNat then 1 else 0) (s.pc + 4)))

/-- `xori`, `ori`, `andi` with the 12-bit immediate sign-extended, and `xor`, `or`, `and` bit by bit: the results of rules
R136 to R138, R147, R150, R151. That the instruction is counted and that every other component of the state stays is the
model's reading of the architectural level (DEDUCED, log entry 11), not these rules'. -/
def Obligations.Bitwise : Prop :=
  (∀ (s : State) (rd rs1 : Reg) (imm : Int), immIOk imm = true →
    (Described (.xori rd rs1 imm) .I 0b0010011#7 (some 0b100#3) none .intArith [.bitwise] ∧
      Completes (exec (.xori rd rs1 imm) s) fun t =>
        s.WroteRegister t rd (s.readX rs1 ^^^ (BitVec.ofInt 12 imm).signExtend 32) (s.pc + 4)) ∧
    (Described (.ori rd rs1 imm) .I 0b0010011#7 (some 0b110#3) none .intArith [.bitwise] ∧
      Completes (exec (.ori rd rs1 imm) s) fun t =>
        s.WroteRegister t rd (s.readX rs1 ||| (BitVec.ofInt 12 imm).signExtend 32) (s.pc + 4)) ∧
    (Described (.andi rd rs1 imm) .I 0b0010011#7 (some 0b111#3) none .intArith [.bitwise] ∧
      Completes (exec (.andi rd rs1 imm) s) fun t =>
        s.WroteRegister t rd (s.readX rs1 &&& (BitVec.ofInt 12 imm).signExtend 32) (s.pc + 4))) ∧
  (∀ (s : State) (rd rs1 rs2 : Reg),
    (Described (.xor rd rs1 rs2) .R 0b0110011#7 (some 0b100#3) (some 0b0000000#7) .intArith [.bitwise] ∧
      Completes (exec (.xor rd rs1 rs2) s) fun t => ∃ v : Word, s.WroteRegister t rd v (s.pc + 4) ∧
        ∀ k < 32, v.getLsbD k = ((s.readX rs1).getLsbD k ^^ (s.readX rs2).getLsbD k)) ∧
    (Described (.or rd rs1 rs2) .R 0b0110011#7 (some 0b110#3) (some 0b0000000#7) .intArith [.bitwise] ∧
      Completes (exec (.or rd rs1 rs2) s) fun t => ∃ v : Word, s.WroteRegister t rd v (s.pc + 4) ∧
        ∀ k < 32, v.getLsbD k = ((s.readX rs1).getLsbD k || (s.readX rs2).getLsbD k)) ∧
    (Described (.and rd rs1 rs2) .R 0b0110011#7 (some 0b111#3) (some 0b0000000#7) .intArith [.bitwise] ∧
      Completes (exec (.and rd rs1 rs2) s) fun t => ∃ v : Word, s.WroteRegister t rd v (s.pc + 4) ∧
        ∀ k < 32, v.getLsbD k = ((s.readX rs1).getLsbD k && (s.readX rs2).getLsbD k)))

/-- The shifts as multiplication and floor division by a power of two: by the immediate, and by the low five bits of `rs2`:
the results of rules R139 to R141, R144, R148, R149. That the instruction is counted and that every other component of the
state stays is the model's reading of the architectural level (DEDUCED, log entry 11), not these rules'. -/
def Obligations.Shift : Prop :=
  (∀ (s : State) (rd rs1 : Reg) (n : Nat), n ≤ 31 →
    (Described (.slli rd rs1 n) .SH 0b0010011#7 (some 0b001#3) (some 0b0000000#7) .intArith [.bitwise] ∧
      Completes (exec (.slli rd rs1 n) s) fun t =>
        s.WroteRegister t rd (BitVec.ofNat 32 ((s.readX rs1).toNat * 2 ^ n)) (s.pc + 4)) ∧
    (Described (.srli rd rs1 n) .SH 0b0010011#7 (some 0b101#3) (some 0b0000000#7) .intArith [.bitwise] ∧
      Completes (exec (.srli rd rs1 n) s) fun t =>
        s.WroteRegister t rd (BitVec.ofNat 32 ((s.readX rs1).toNat / 2 ^ n)) (s.pc + 4)) ∧
    (Described (.srai rd rs1 n) .SH 0b0010011#7 (some 0b101#3) (some 0b0100000#7) .intArith [.bitwise] ∧
      Completes (exec (.srai rd rs1 n) s) fun t =>
        s.WroteRegister t rd (BitVec.ofInt 32 ((s.readX rs1).toInt / 2 ^ n)) (s.pc + 4))) ∧
  (∀ (s : State) (rd rs1 rs2 : Reg), let n := ((s.readX rs2).extractLsb' 0 5).toNat
    (Described (.sll rd rs1 rs2) .R 0b0110011#7 (some 0b001#3) (some 0b0000000#7) .intArith [.bitwise] ∧
      Completes (exec (.sll rd rs1 rs2) s) fun t =>
        s.WroteRegister t rd (BitVec.ofNat 32 ((s.readX rs1).toNat * 2 ^ n)) (s.pc + 4)) ∧
    (Described (.srl rd rs1 rs2) .R 0b0110011#7 (some 0b101#3) (some 0b0000000#7) .intArith [.bitwise] ∧
      Completes (exec (.srl rd rs1 rs2) s) fun t =>
        s.WroteRegister t rd (BitVec.ofNat 32 ((s.readX rs1).toNat / 2 ^ n)) (s.pc + 4)) ∧
    (Described (.sra rd rs1 rs2) .R 0b0110011#7 (some 0b101#3) (some 0b0100000#7) .intArith [.bitwise] ∧
      Completes (exec (.sra rd rs1 rs2) s) fun t =>
        s.WroteRegister t rd (BitVec.ofInt 32 ((s.readX rs1).toInt / 2 ^ n)) (s.pc + 4)))

/-- `lui`, `auipc`: the results of rules R131 and R132.
That the instruction is counted and that every other component of the state stays is the model's reading of the
architectural level (DEDUCED, log entry 11), not these rules'. -/
def Obligations.UpperImmediate : Prop :=
  ∀ (s : State) (rd : Reg) (imm : Int), immUOk imm = true →
    (Described (.lui rd imm) .U 0b0110111#7 none none .intArith [.addition] ∧
      Completes (exec (.lui rd imm) s) fun t =>
        s.WroteRegister t rd (BitVec.ofInt 32 (imm * 4096)) (s.pc + 4)) ∧
    (Described (.auipc rd imm) .U 0b0010111#7 none none .intArith [.addition] ∧
      Completes (exec (.auipc rd imm) s) fun t =>
        s.WroteRegister t rd (BitVec.ofInt 32 (s.pc.toNat + imm * 4096)) (s.pc + 4))

/-- The four multiplies: the low word, and the exact high words read as signed or unsigned: the
results of rules R161 to R164. That the instruction is counted and that every other component of the state stays is the
model's reading of the architectural level (DEDUCED, log entry 11), not these rules'. -/
def Obligations.Multiply : Prop :=
  ∀ (s : State) (rd rs1 rs2 : Reg),
    (Described (.mul rd rs1 rs2) .R 0b0110011#7 (some 0b000#3) (some 0b0000001#7) .intArith [.multiplication] ∧
      Completes (exec (.mul rd rs1 rs2) s) fun t => ∃ v : Word, s.WroteRegister t rd v (s.pc + 4) ∧
        v = BitVec.ofInt 32 ((s.readX rs1).toInt * (s.readX rs2).toInt) ∧
        v = BitVec.ofNat 32 ((s.readX rs1).toNat * (s.readX rs2).toNat)) ∧
    (Described (.mulh rd rs1 rs2) .R 0b0110011#7 (some 0b001#3) (some 0b0000001#7) .intArith [.multiplication] ∧
      Completes (exec (.mulh rd rs1 rs2) s) fun t => ∃ v : Word, s.WroteRegister t rd v (s.pc + 4) ∧
        v.toInt = (s.readX rs1).toInt * (s.readX rs2).toInt / 2 ^ 32) ∧
    (Described (.mulhsu rd rs1 rs2) .R 0b0110011#7 (some 0b010#3) (some 0b0000001#7) .intArith [.multiplication] ∧
      Completes (exec (.mulhsu rd rs1 rs2) s) fun t => ∃ v : Word, s.WroteRegister t rd v (s.pc + 4) ∧
        v.toInt = (s.readX rs1).toInt * (s.readX rs2).toNat / 2 ^ 32) ∧
    (Described (.mulhu rd rs1 rs2) .R 0b0110011#7 (some 0b011#3) (some 0b0000001#7) .intArith [.multiplication] ∧
      Completes (exec (.mulhu rd rs1 rs2) s) fun t => ∃ v : Word, s.WroteRegister t rd v (s.pc + 4) ∧
        v.toNat = (s.readX rs1).toNat * (s.readX rs2).toNat / 2 ^ 32)

/-- The four divisions: on a zero divisor `DivideByZero` and nothing else; else the exact quotient rounded toward zero
and its remainder, the signed overflow aside, which gives `0x80000000` and 0: the results and exceptions of rules R165 to
R168. That a completed instruction is counted, that a raising one leaves `pc` and the count, and that every other component
stays is the model's reading of the architectural level (DEDUCED, log entry 11), not these rules'. -/
def Obligations.Divide : Prop :=
  ∀ (s : State) (rd rs1 rs2 : Reg),
    (Described (.div rd rs1 rs2) .R 0b0110011#7 (some 0b100#3) (some 0b0000001#7) .intArith [.division] ∧
      Described (.divu rd rs1 rs2) .R 0b0110011#7 (some 0b101#3) (some 0b0000001#7) .intArith [.division] ∧
      Described (.rem rd rs1 rs2) .R 0b0110011#7 (some 0b110#3) (some 0b0000001#7) .intArith [.division] ∧
      Described (.remu rd rs1 rs2) .R 0b0110011#7 (some 0b111#3) (some 0b0000001#7) .intArith [.division]) ∧
    (s.readX rs2 = 0 → ∀ i ∈ [Instr.div rd rs1 rs2, .divu rd rs1 rs2, .rem rd rs1 rs2, .remu rd rs1 rs2],
      exec i s = .next { s with excSeen := some .divideByZero }) ∧
    (s.readX rs2 ≠ 0 →
      (Completes (exec (.div rd rs1 rs2) s) fun t => ∃ v : Word, s.WroteRegister t rd v (s.pc + 4) ∧
        if s.readX rs1 = 0x80000000 ∧ s.readX rs2 = 0xFFFFFFFF then v = 0x80000000
        else v.toInt = (s.readX rs1).toInt.tdiv (s.readX rs2).toInt) ∧
      (Completes (exec (.divu rd rs1 rs2) s) fun t => ∃ v : Word, s.WroteRegister t rd v (s.pc + 4) ∧
        v.toNat = (s.readX rs1).toNat / (s.readX rs2).toNat) ∧
      (Completes (exec (.rem rd rs1 rs2) s) fun t => ∃ v : Word, s.WroteRegister t rd v (s.pc + 4) ∧
        v.toInt = (s.readX rs1).toInt.tmod (s.readX rs2).toInt) ∧
      (Completes (exec (.remu rd rs1 rs2) s) fun t => ∃ v : Word, s.WroteRegister t rd v (s.pc + 4) ∧
        v.toNat = (s.readX rs1).toNat % (s.readX rs2).toNat))

/-- The division identity of rule R160: quotient and remainder rebuild the dividend, the remainder is smaller than the
divisor and has the sign of the dividend; signed and unsigned. The count and the frame in `WroteRegister` are the model's
reading (DEDUCED, log entry 11), not rule R160's. -/
def Obligations.DivisionIdentity : Prop :=
  ∀ (s : State) (rd rs1 rs2 : Reg), s.readX rs2 ≠ 0 →
    (∃ q r : Word,
      (Completes (exec (.div rd rs1 rs2) s) fun t => s.WroteRegister t rd q (s.pc + 4)) ∧
      (Completes (exec (.rem rd rs1 rs2) s) fun t => s.WroteRegister t rd r (s.pc + 4)) ∧
      q * s.readX rs2 + r = s.readX rs1 ∧ r.toInt.natAbs < (s.readX rs2).toInt.natAbs ∧
      (r ≠ 0 → (r.toInt < 0 ↔ (s.readX rs1).toInt < 0))) ∧
    (∃ q r : Word,
      (Completes (exec (.divu rd rs1 rs2) s) fun t => s.WroteRegister t rd q (s.pc + 4)) ∧
      (Completes (exec (.remu rd rs1 rs2) s) fun t => s.WroteRegister t rd r (s.pc + 4)) ∧
      q * s.readX rs2 + r = s.readX rs1 ∧ r.toNat < (s.readX rs2).toNat)

/-- `jal` and `jalr`: link and jump, or `InstrAddrMisaligned` with nothing written (rules R170 to R172). Which counts move,
that predictor, history and `correctDir` do not, and that a raising jump leaves `pc` is the model's reading of the
architectural level (DEDUCED, log entry 11), not these rules'. -/
def Obligations.Jumps : Prop :=
  ∀ (s : State) (rd rs1 : Reg) (imm : Int),
    (immJOk imm = true →
      Described (.jal rd imm) .J 0b1101111#7 none none .jumpBranch [] ∧
      let target := BitVec.ofInt 32 (s.pc.toNat + imm)
      (target.toNat % 4 = 0 → Completes (exec (.jal rd imm) s) fun t =>
        s.Transferred t rd (some (s.pc + 4)) true target) ∧
      (target.toNat % 4 ≠ 0 → exec (.jal rd imm) s = .next { s with excSeen := some .instrAddrMisaligned })) ∧
    (immIOk imm = true →
      Described (.jalr rd rs1 imm) .I 0b1100111#7 (some 0b000#3) none .jumpBranch [] ∧
      let target := BitVec.ofNat 32 ((BitVec.ofInt 32 ((s.readX rs1).toInt + imm)).toNat / 2 * 2)
      (target.toNat % 4 = 0 → Completes (exec (.jalr rd rs1 imm) s) fun t =>
        s.Transferred t rd (some (s.pc + 4)) true target) ∧
      (target.toNat % 4 ≠ 0 → exec (.jalr rd rs1 imm) s = .next { s with excSeen := some .instrAddrMisaligned }))

/-- The six conditional branches: when taken, to `pc + imm`, or `InstrAddrMisaligned`; when not, to `pc + 4` whatever the
offset; no register is written (rules R173 to R178). Which counts move, that predictor, history and `correctDir` do not,
and that a raising branch leaves `pc` is the model's reading of the architectural level (DEDUCED, log entry 11), not these
rules'. -/
def Obligations.Branches : Prop :=
  ∀ (s : State) (rs1 rs2 : Reg) (imm : Int), immBOk imm = true →
    let a := s.readX rs1
    let b := s.readX rs2
    let target := BitVec.ofInt 32 (s.pc.toNat + imm)
    ∀ e ∈ [(Instr.beq rs1 rs2 imm, 0b000#3, decide (a = b)), (.bne rs1 rs2 imm, 0b001#3, decide (a ≠ b)),
        (.blt rs1 rs2 imm, 0b100#3, decide (a.toInt < b.toInt)), (.bge rs1 rs2 imm, 0b101#3, decide (b.toInt ≤ a.toInt)),
        (.bltu rs1 rs2 imm, 0b110#3, decide (a.toNat < b.toNat)),
        (.bgeu rs1 rs2 imm, 0b111#3, decide (b.toNat ≤ a.toNat))],
      Described e.1 .B 0b1100011#7 (some e.2.1) none .jumpBranch [] ∧
      (e.2.2 = false → Completes (exec e.1 s) fun t => s.Transferred t 0 none false (s.pc + 4)) ∧
      (e.2.2 = true → target.toNat % 4 = 0 →
        Completes (exec e.1 s) fun t => s.Transferred t 0 none true target) ∧
      (e.2.2 = true → target.toNat % 4 ≠ 0 →
        exec e.1 s = .next { s with excSeen := some .instrAddrMisaligned })

/-- The five loads: an access that is not a multiple of its size raises `MemMisaligned`, else one past `memSize` raises
`MemOutOfRange`, both with nothing else changed; else `rd` gets the little-endian bytes, sign- or zero-extended (rules
R181 to R185). That the load is counted as committed and leaves cache stamps, access counts and latencies alone is the
model's reading of the architectural level (DEDUCED, log entry 11, unsafe for such readings), not these rules'. -/
def Obligations.Loads : Prop :=
  ∀ (s : State) (rd rs1 : Reg) (imm : Int), immIOk imm = true →
    let ea := (BitVec.ofInt 32 ((s.readX rs1).toInt + imm)).toNat
    let byte := fun k => s.memView (ea + k)
    ∀ e ∈ [(Instr.lb rd rs1 imm, 0b000#3, 1, (byte 0).signExtend 32),
        (.lh rd rs1 imm, 0b001#3, 2, (byte 1 ++ byte 0 : BitVec 16).signExtend 32),
        (.lw rd rs1 imm, 0b010#3, 4, (byte 3 ++ byte 2 ++ byte 1 ++ byte 0 : BitVec 32)),
        (.lbu rd rs1 imm, 0b100#3, 1, (byte 0).setWidth 32),
        (.lhu rd rs1 imm, 0b101#3, 2, (byte 1 ++ byte 0 : BitVec 16).setWidth 32)],
      Described e.1 .IL 0b0000011#7 (some e.2.1) none .loadStore [] ∧
      (ea % e.2.2.1 ≠ 0 → exec e.1 s = .next { s with excSeen := some .memMisaligned }) ∧
      (ea % e.2.2.1 = 0 → s.cfg.memSize < ea + e.2.2.1 →
        exec e.1 s = .next { s with excSeen := some .memOutOfRange }) ∧
      (ea % e.2.2.1 = 0 → ea + e.2.2.1 ≤ s.cfg.memSize →
        Completes (exec e.1 s) fun t => s.WroteRegister t rd e.2.2.2 (s.pc + 4))

/-- The three stores: the same checks; else the low bytes of `rs2`, least significant first, at the effective address,
and no other byte of memory and no register changes (rules R186, R187, R188). That the store writes the memory view at
once and moves the count of commits and no statistic of the cache is the model's reading of the architectural level
(DEDUCED, log entry 11), not these rules'. -/
def Obligations.Stores : Prop :=
  ∀ (s : State) (rs1 rs2 : Reg) (imm : Int), immIOk imm = true →
    let ea := (BitVec.ofInt 32 ((s.readX rs1).toInt + imm)).toNat
    let byte := fun k => (s.readX rs2).extractLsb' (8 * k) 8
    ∀ e ∈ [(Instr.sb rs1 rs2 imm, 0b000#3, [byte 0]), (.sh rs1 rs2 imm, 0b001#3, [byte 0, byte 1]),
        (.sw rs1 rs2 imm, 0b010#3, [byte 0, byte 1, byte 2, byte 3])],
      Described e.1 .S 0b0100011#7 (some e.2.1) none .loadStore [] ∧
      (ea % e.2.2.length ≠ 0 → exec e.1 s = .next { s with excSeen := some .memMisaligned }) ∧
      (ea % e.2.2.length = 0 → s.cfg.memSize < ea + e.2.2.length →
        exec e.1 s = .next { s with excSeen := some .memOutOfRange }) ∧
      (ea % e.2.2.length = 0 → ea + e.2.2.length ≤ s.cfg.memSize →
        Completes (exec e.1 s) fun t => s.Stored t ea e.2.2)

/-- "after a word store of `v` at `a`, a byte load at `a+i` returns `v[8i+7:8i]`" (rule R73): `sw` then `lbu`. -/
def Obligations.WordStoreThenByteLoad : Prop :=
  ∀ (s : State) (rd rs1 rs2 : Reg) (imm : Int) (i : Nat), i < 4 → -2048 ≤ imm → imm + i ≤ 2047 → rd ≠ 0 →
    let ea := (BitVec.ofInt 32 ((s.readX rs1).toInt + imm)).toNat
    ea % 4 = 0 → ea + 4 ≤ s.cfg.memSize →
      Completes (exec (.sw rs1 rs2 imm) s) fun t =>
        Completes (exec (.lbu rd rs1 (imm + i)) t) fun u =>
          u.readX rd = ((s.readX rs2).extractLsb' (8 * i) 8).setWidth 32

/-- `li rd, imm` expands to `addi`, to `lui`, or to `lui` and `addi`; run in order they leave `imm` in `rd` and every
other register and all of memory alone (rule R120). -/
def Obligations.LoadImmediateExpansion : Prop :=
  ∀ (s : State) (rd : Reg) (imm : Int), -2 ^ 31 ≤ imm → imm < 2 ^ 31 →
    (∀ i ∈ pseudoLi rd imm, i.wf = true) ∧
    Completes ((pseudoLi rd imm).foldl (fun o i => match o with | .next t => exec i t | o => o) (.next s)) fun t =>
      (∀ r, t.readX r = if r = rd ∧ r ≠ 0 then BitVec.ofInt 32 imm else s.readX r) ∧
      (∀ a, t.memView a = s.memView a) ∧ t.pc = s.pc + 4 * BitVec.ofNat 32 (pseudoLi rd imm).length

/-! ## Encoding (`30_encoding.md`) -/

/-- Rule R104: the operand ranges of each format, and "every valid static instruction has an image and the image decodes
back to it". -/
def Obligations.EveryValidInstructionHasAnImage : Prop :=
  ∀ i : Instr,
    (i.wf = true ↔
      match format i, (operands i).2.2.2 with
      | .I, imm => -2048 ≤ imm ∧ imm ≤ 2047
      | .IL, imm => -2048 ≤ imm ∧ imm ≤ 2047
      | .S, imm => -2048 ≤ imm ∧ imm ≤ 2047
      | .SH, imm => 0 ≤ imm ∧ imm ≤ 31
      | .U, imm => 0 ≤ imm ∧ imm ≤ 0xFFFFF
      | .B, imm => -4096 ≤ imm ∧ imm ≤ 4094 ∧ 2 ∣ imm
      | .J, imm => -1048576 ≤ imm ∧ imm ≤ 1048574 ∧ 2 ∣ imm
      | .R, _ => True) ∧
    (i.wf = true → decodeWord (encode i) = .instr i)

/-- The other direction: a word that decodes is the image of the instruction it decodes to, which is valid; so no two
words stand for one instruction and no bit of a word is ignored (rules R104, R114). -/
def Obligations.DecodedWordIsTheImage : Prop :=
  ∀ (w : Word) (i : Instr), decodeWord w = .instr i → i.wf = true ∧ encode i = w

/-- Where each format puts its fields, read off the image of every valid instruction (rules R106 to R112). -/
def Obligations.ImageFields : Prop :=
  ∀ i : Instr, i.wf = true →
    let w := encode i
    let rd := (operands i).1
    let rs1 := (operands i).2.1
    let rs2 := (operands i).2.2.1
    let imm := (operands i).2.2.2
    (writesRd (format i) = true → (w.extractLsb' 7 5).toNat = rd.val) ∧
    (readsRs1 (format i) = true → (w.extractLsb' 15 5).toNat = rs1.val) ∧
    (readsRs2 (format i) = true → (w.extractLsb' 20 5).toNat = rs2.val) ∧
    match format i with
    | .R => True
    | .I => imm = (w.extractLsb' 20 12).toInt
    | .IL => imm = (w.extractLsb' 20 12).toInt
    | .SH => imm = (w.extractLsb' 20 5).toNat ∧ (w.extractLsb' 25 7 = 0b0000000#7 ∨ w.extractLsb' 25 7 = 0b0100000#7)
    | .S => imm = (w.extractLsb' 25 7 ++ w.extractLsb' 7 5 : BitVec 12).toInt
    | .B => imm = (w.extractLsb' 31 1 ++ w.extractLsb' 7 1 ++ w.extractLsb' 25 6 ++ w.extractLsb' 8 4 ++ 0#1 :
        BitVec 13).toInt
    | .U => imm = (w.extractLsb' 12 20).toNat
    | .J => imm = (w.extractLsb' 31 1 ++ w.extractLsb' 12 8 ++ w.extractLsb' 20 1 ++ w.extractLsb' 21 10 ++ 0#1 :
        BitVec 21).toInt

/-- Rule R116: the words that decode to nothing: every opcode but the nine of the table, and under these every `funct3` and
`funct7` of no row; a slot filled with one holds no instruction, and a program that
holds one never runs: every step is a refusal that lists it. -/
def Obligations.WordsThatAreNoInstruction : Prop :=
  (∀ w : Word, w.extractLsb' 0 2 ≠ 0b11#2 → ∀ i, decodeWord w ≠ .instr i) ∧
  (∀ w : Word, fieldOpcode w ∈ [0b0001111#7, 0b1110011#7] → ∀ i, decodeWord w ≠ .instr i) ∧
  (∀ w : Word, fieldOpcode w ∉ [0b0110111#7, 0b0010111#7, 0b0010011#7, 0b0110011#7, 0b1101111#7, 0b1100111#7,
    0b1100011#7, 0b0000011#7, 0b0100011#7] → ∀ i, decodeWord w ≠ .instr i) ∧
  (∀ w : Word, fieldOpcode w = 0b0110011#7 → fieldFunct7 w ∉ [0b0000000#7, 0b0100000#7, 0b0000001#7] →
    ∀ i, decodeWord w ≠ .instr i) ∧
  (∀ w : Word, fieldOpcode w = 0b0110011#7 → fieldFunct7 w = 0b0100000#7 → fieldFunct3 w ∉ [0b000#3, 0b101#3] →
    ∀ i, decodeWord w ≠ .instr i) ∧
  (∀ w : Word, fieldOpcode w = 0b0000011#7 → fieldFunct3 w ∈ [0b011#3, 0b110#3, 0b111#3] →
    ∀ i, decodeWord w ≠ .instr i) ∧
  (∀ w : Word, fieldOpcode w = 0b0100011#7 → 3 ≤ (fieldFunct3 w).toNat → ∀ i, decodeWord w ≠ .instr i) ∧
  (∀ w : Word, fieldOpcode w = 0b1100011#7 → fieldFunct3 w ∈ [0b010#3, 0b011#3] → ∀ i, decodeWord w ≠ .instr i) ∧
  (∀ w : Word, fieldOpcode w = 0b1100111#7 → fieldFunct3 w ≠ 0b000#3 → ∀ i, decodeWord w ≠ .instr i) ∧
  (∀ w : Word, fieldOpcode w = 0b0010011#7 → fieldFunct3 w = 0b001#3 → fieldFunct7 w ≠ 0b0000000#7 →
    ∀ i, decodeWord w ≠ .instr i) ∧
  (∀ w : Word, fieldOpcode w = 0b0010011#7 → fieldFunct3 w = 0b101#3 →
    fieldFunct7 w ∉ [0b0000000#7, 0b0100000#7] → ∀ i, decodeWord w ≠ .instr i) ∧
  (∀ w : Word, (∀ i, decodeWord w ≠ .instr i) → slotOfWord w = .undecodable w) ∧
  (∀ (s : State) (k : Nat) (w : Word), s.prog.code[k]? = some (.undecodable w) →
    ∃ vs, step s = .refused (.invalid vs) ∧ Violation.undecodableWord k w ∈ vs)

/-- A few words written out bit by bit from the encoding tables decode to the instructions they stand for. -/
def Obligations.WordsDecode : Prop :=
  decodeWord 0b00000000101101010000010100110011#32 = .instr (.add 10 10 11) ∧
  decodeWord 0b11111111111101011000010110010011#32 = .instr (.addi 11 11 (-1)) ∧
  decodeWord 0b01000001111100110101001010010011#32 = .instr (.srai 5 6 31) ∧
  decodeWord 0b00000000000011101100111100000011#32 = .instr (.lbu 30 29 0) ∧
  decodeWord 0b00000000000100010010011000100011#32 = .instr (.sw 2 1 12) ∧
  decodeWord 0b11111110000001011001110011100011#32 = .instr (.bne 11 0 (-8)) ∧
  decodeWord 0b00010010001101000101001010110111#32 = .instr (.lui 5 0x12345) ∧
  decodeWord 0b11111000000111111111000011101111#32 = .instr (.jal 1 (-128)) ∧
  decodeWord 0b00000010011100111101001010110011#32 = .instr (.divu 5 7 7)

/-! ## One step, the stop reasons, validation -/

/-- A step runs the decoded instruction. In a running state of the instruction level with nothing in flight, where the
code slot at `pc` holds the instruction that the word `w` decodes to, `step` is `exec` of it followed by the evaluation
of the stop reasons, and that instruction is a valid one (rules R12, R70, R384; the grain is the model's, log entry 1). -/
def Obligations.StepRunsTheDecodedInstruction : Prop :=
  ∀ (s : State) (w : Word) (i : Instr), Valid s.cfg s.prog → s.grain = .instruction → s.status = .running →
    s.rob = [] → s.decodeBuffer = [] → s.fetchBuffer = [] → s.pc.toNat % 4 = 0 → decodeWord w = .instr i →
    s.prog.code[s.pc.toNat / 4]? = some (slotOfWord w) →
      i.wf = true ∧
      step s = (match exec i s with
        | .next t => .next { t with status := t.stopReason }
        | .fault r => .fault r
        | .refused r => .refused r)

/-- Rules R355 and R356: a terminal state is a fixed point of `step`, and a running state of the tick grain steps to the
state after stages 0 to 8, each seeing the writes of the earlier ones, so `step` of a valid pair is total at that grain.
The grains are the model's own (DESIGN CHOICE, log entry 1), and with them that a terminal state is frozen at the
instruction grain too, where a step of a running state can fault (log entry 12). -/
def Obligations.TickStagesAndFrozenStates : Prop :=
  (∀ s : State, Valid s.cfg s.prog → s.status ≠ .running → step s = .next s) ∧
  (∀ s : State, Valid s.cfg s.prog → s.grain = .tick → s.status = .running →
    let s0 := { s with tick := s.tick + 1 }
    let s1 := s0.memorySimulate
    let s2 := s1.commit
    let s3 := s2.units
    let s4 := s3.resolveBuffers
    let s5 := s4.issue
    let s6 := s5.dispatch.rename
    let s7 := s6.fetch
    step s = .next { s7 with status := s7.stopReason })

/-- "simulation never begins; all violations are collected and reported together" (rule R376): a step of an invalid pair
is the refusal with the whole list, and a step of a valid pair is never a refusal. The host's interface gives no state
either: starting, loading a snapshot, recomputing, and every operation on a state of such a pair answer the list (rules
R366, R368, R373). -/
def Obligations.InvalidNeverRuns : Prop :=
  ∀ s : State,
    (validate s.cfg s.prog ≠ [] → step s = .refused (.invalid (validate s.cfg s.prog))) ∧
    (validate s.cfg s.prog = [] → ∀ r, step s ≠ .refused r) ∧
    (validate s.cfg s.prog ≠ [] → ∀ (hist : List State) (n : Nat),
      let m : Sim := { cur := s, hist := hist }
      let refused := validate s.cfg s.prog
      Sim.start s.cfg s.prog = .error refused ∧ Sim.load s = .error refused ∧
      stateAt s.cfg s.prog n = .error refused ∧ m.forward = .error refused ∧ m.backward = .error refused ∧
      m.stepTo n = .error refused)

/-- What a passed validation guarantees: the configuration is legal and each instruction of the program is known, within
its operand ranges and executable by some unit (rules R8, R16, R104, R257). That the ranges bind an instruction of
`FP_TABLE` by its row's format is the model's reading (DEDUCED, log entry 18). -/
def Obligations.ValidationChecks : Prop :=
  ∀ (cfg : Cfg) (prog : Prog), Valid cfg prog →
    1 ≤ cfg.robSize ∧ 1 ≤ cfg.commitWidth ∧ 1 ≤ cfg.fetchWidth ∧ 1 ≤ cfg.branchFollowLimit ∧ 1 ≤ cfg.btbSize ∧
    1 ≤ cfg.phtSize ∧ cfg.ghrBits ≤ 32 ∧ 1 ≤ cfg.iwSize ∧ 1 ≤ cfg.lbSize ∧ 1 ≤ cfg.sbSize ∧
    cfg.fetchWidth ≤ cfg.specRegs ∧ 1 ≤ cfg.cacheAssoc ∧ 1 ≤ cfg.cacheLines ∧ cfg.cacheAssoc ∣ cfg.cacheLines ∧
    (∃ k, 2 ≤ k ∧ cfg.cacheLineSize = 2 ^ k) ∧ 1 ≤ cfg.memSize ∧ cfg.memSize ≤ 2 ^ 32 ∧
    cfg.cacheLineSize ∣ cfg.memSize ∧ cfg.cacheWritePolicy = .writeBack ∧ 1 ≤ cfg.maxCycles ∧
    (∀ u ∈ cfg.fus, 1 ≤ u.delay) ∧ (entryAddress cfg prog).toNat % 4 = 0 ∧ cfg.exitAddress.toNat % 4 = 0 ∧
    (∀ (k : Nat) (i : Instr), prog.code[k]? = some (.ins (.isa i)) → i.wf = true ∧ ∃ u ∈ cfg.fus,
      u.type = unitType (classAndCaps i).1 ∧ ((u.type = .FX ∨ u.type = .FP) → ∀ c ∈ (classAndCaps i).2, c ∈ u.caps)) ∧
    (∀ (k : Nat) (w : Word), prog.code[k]? ≠ some (.undecodable w)) ∧
    (∀ (k : Nat) (n : String) (rd rs1 rs2 : Reg) (imm : Int), prog.code[k]? = some (.ins (.named n rd rs1 rs2 imm)) →
      ∃ row ∈ cfg.fpTable, row.mnemonic = n ∧
        (writesRd row.format = false → rd = 0) ∧ (readsRs1 row.format = false → rs1 = 0) ∧
        (readsRs2 row.format = false → rs2 = 0) ∧
        (match row.format with
          | .I => -2048 ≤ imm ∧ imm ≤ 2047
          | .IL => -2048 ≤ imm ∧ imm ≤ 2047
          | .S => -2048 ≤ imm ∧ imm ≤ 2047
          | .SH => 0 ≤ imm ∧ imm ≤ 31
          | .U => 0 ≤ imm ∧ imm ≤ 0xFFFFF
          | .B => -4096 ≤ imm ∧ imm ≤ 4094 ∧ 2 ∣ imm
          | .J => -1048576 ≤ imm ∧ imm ≤ 1048574 ∧ 2 ∣ imm
          | .R => imm = 0) ∧
        ∃ u ∈ cfg.fus, u.type = .FP ∧ ∀ c ∈ row.caps, c ∈ u.caps) ∧
    ((∃ (k : Nat) (i : Instr), prog.code[k]? = some (.ins (.isa i)) ∧ format i = .IL) → ∃ u ∈ cfg.fus, u.type = .MA) ∧
    (∀ k < prog.code.length, cfg.exitAddress ≠ BitVec.ofNat 32 (4 * k))

/-- Rule R384: the status stage 8 gives is the first of the five reasons, in their order, whose condition holds; the
conditions are those of rules R385 to R388. -/
def Obligations.StopPriority : Prop :=
  ∀ s : State,
    let noCode := s.pc.toNat % 4 ≠ 0 ∨ s.prog.code.length ≤ s.pc.toNat / 4
    (∀ (k : Nat) (w : Word), s.prog.code[k]? ≠ some (.undecodable w)) →
    s.evalStop = { s with status := s.evalStop.status } ∧
    (s.haltSeen = true → s.evalStop.status = .callStackHalt) ∧
    (s.haltSeen = false → ∀ k, s.excSeen = some k → s.evalStop.status = .exception k) ∧
    (s.haltSeen = false → s.excSeen = none →
      (s.cfg.maxCycles ≤ s.tick → s.evalStop.status = .maxCycles) ∧
      (s.tick < s.cfg.maxCycles →
        (noCode ∧ s.rob = [] ∧ s.decodeBuffer = [] ∧ s.fetchBuffer = [] → s.evalStop.status = .endOfCode) ∧
        (¬(noCode ∧ s.rob = [] ∧ s.decodeBuffer = [] ∧ s.fetchBuffer = []) → s.evalStop.status = .running)))

/-- The program is "immutable for the run" (rule R85). That the configuration is a field of the state and stays too is rules
R8 and R356 in the form log entry 3 gives them, and that the grain stays is the model's own (DESIGN CHOICE, log entry 1).
-/
def Obligations.ParametersNeverChange : Prop :=
  ∀ s t : State, step s = .next t → t.cfg = s.cfg ∧ t.prog = s.prog ∧ t.grain = s.grain


/-! ## Reset (`70_reset_and_hazards.md`) -/

/-- Rule R400: what `Reset(cfg, prog)` leaves in every component, for a valid pair. -/
def Obligations.ResetState : Prop :=
  ∀ (cfg : Cfg) (prog : Prog), Valid cfg prog →
    let s := State.init cfg prog
    s.tick = 0 ∧ s.nextId = 0 ∧ s.fetchStall = 0 ∧ s.accessSeq = 0 ∧ s.nextMemId = 0 ∧ s.rng = cfg.seed ∧ s.ghr = 0 ∧
    s.fetchBuffer = [] ∧ s.decodeBuffer = [] ∧ s.rob = [] ∧ s.renameTable = [] ∧ s.loadBuffer = [] ∧
    s.storeBuffer = [] ∧ s.pendingRepl = [] ∧ s.snapshots = [] ∧ (∀ c, s.win.at c = []) ∧
    s.status = .running ∧ s.haltSeen = false ∧ s.excSeen = none ∧
    s.stats = Stats.mk 0 0 0 0 0 0 0 0 0 ∧
    (match cfg.entryPoint with
      | .address a => s.pc = a
      | .label n => lookupLabel n prog.labels = some s.pc) ∧
    (∀ r : Reg, s.readX r = if r = 0 then 0 else if r = 1 then cfg.initialRa else if r = 2 then cfg.initialSp else 0) ∧
    (∀ r : Reg, s.f.get r = { value := 0, tag := .float }) ∧
    s.pool.length = cfg.specRegs ∧ (∀ p ∈ s.pool, p = { state := .free, value := 0, tag := .int }) ∧
    s.fu.length = cfg.fus.length ∧ (∀ f ∈ s.fu, f = { ins := none, counter := 0, total := 0, failed := [] }) ∧
    s.pht.length = cfg.phtSize ∧
    (∀ c ∈ s.pht, match cfg.predictorType, cfg.predictorDefault with
      | .twoBit, .stronglyNotTaken => c = 0
      | .twoBit, .weaklyNotTaken => c = 1
      | .twoBit, .weaklyTaken => c = 2
      | .twoBit, .stronglyTaken => c = 3
      | .twoBit, _ => False
      | _, .taken => c = if defaultIsTaken cfg.defaultIsTaken "Taken" then 1 else 0
      | _, .notTaken => c = if defaultIsTaken cfg.defaultIsTaken "Not Taken" then 1 else 0
      | _, _ => False) ∧
    s.btb.length = cfg.btbSize ∧ (∀ e ∈ s.btb, e = none) ∧
    (cfg.useCache = true → s.cache.length = cfg.cacheLines / cfg.cacheAssoc ∧
      ∀ (set : Nat) (ways : List Line), s.cache[set]? = some ways → ways.length = cfg.cacheAssoc ∧
        ∀ l ∈ ways, l.valid = false ∧ l.dirty = false ∧ l.tag = 0 ∧ l.base = 0 ∧
          l.data = List.replicate cfg.cacheLineSize 0 ∧ l.set = set ∧ l.insertedSeq = 0 ∧ l.usedSeq = 0) ∧
    (∀ sp ∈ prog.initMem, ∀ (k : Nat) (b : Byte), sp.bytes[k]? = some b → s.mainMem.read (sp.address + k) = b) ∧
    (∀ a : Nat, (∀ sp ∈ prog.initMem, ¬(sp.address ≤ a ∧ a < sp.address + sp.bytes.length)) → s.mainMem.read a = 0)

/-- Rule R403: in the first tick after reset stages 1 to 6 find nothing to do, stage 7 fetches at the entry address,
where the first instruction gets id 0, and stage 8 gives the status. -/
def Obligations.FirstTick : Prop :=
  ∀ (cfg : Cfg) (prog : Prog), Valid cfg prog →
    let s := State.init cfg prog
    let s1 := { s with tick := 1 }
    s1.memorySimulate = s1 ∧ s1.commit = s1 ∧ s1.units = s1 ∧ s1.resolveBuffers = s1 ∧ s1.issue = s1 ∧
    s1.dispatch.rename = s1 ∧ step s = .next s1.fetch.evalStop ∧
    ∀ d, s1.fetch.fetchBuffer.head? = some d → d.id = 0 ∧ d.pc = s.pc

/-! ## Fetch and prediction (`50_fetch_predict.md`) -/

/-- Rules R211, R212 and R213: what each counter type reads and where each outcome moves it; the table index, which is in
range; the history shift, where "the newest outcome enters at bit 0 and the oldest falls off the top". -/
def Obligations.PredictorArithmetic : Prop :=
  ([0, 1, 2, 3].map (predictsTaken .twoBit) = [false, false, true, true] ∧
  [0, 1, 2, 3].map (counterUp .twoBit) = [1, 2, 3, 3] ∧ [0, 1, 2, 3].map (counterDown .twoBit) = [0, 0, 1, 2] ∧
  [0, 1].map (predictsTaken .oneBit) = [false, true] ∧
  [0, 1].map (counterUp .oneBit) = [1, 1] ∧ [0, 1].map (counterDown .oneBit) = [0, 0] ∧
  [0, 1].map (predictsTaken .zeroBit) = [false, true] ∧
  [0, 1].map (counterUp .zeroBit) = [0, 1] ∧ [0, 1].map (counterDown .zeroBit) = [0, 1]) ∧
  (∀ (cfg : Cfg) (P : Word) (g : Nat), 1 ≤ cfg.phtSize →
    (cfg.useGlobalHistory = true → phtIndex cfg P g = ((P.toNat % cfg.phtSize) ^^^ g) % cfg.phtSize) ∧
    (cfg.useGlobalHistory = false → phtIndex cfg P g = P.toNat % cfg.phtSize) ∧
    phtIndex cfg P g < cfg.phtSize) ∧
  (∀ (cfg : Cfg) (g : Nat) (b : Bool),
    (∀ k, (shiftHistory cfg g b).testBit k =
      (decide (k < cfg.ghrBits) && (if k = 0 then b else g.testBit (k - 1)))) ∧
    shiftHistory cfg g b < 2 ^ cfg.ghrBits ∧ (cfg.ghrBits = 0 → shiftHistory cfg g b = 0))

/-- Rules R205 and R208: fetching a jump/branch-class instruction. The direction is the counter's reading whatever the
branch target buffer holds; it is predicted taken on a hit whose entry is unconditional or whose direction is taken; the
history before the shift is the snapshot. Nothing else changes, and the loop goes on at the new `pc` if the group may hold
another transfer (rule R204). -/
def Obligations.FetchTransfer : Prop :=
  ∀ (s : State) (ins : StaticIns),
    let P := s.pc
    let e := s.btb.getD (P.toNat % s.cfg.btbSize) none
    let hit := e.any fun e => decide (e.tag = P)
    let dir := predictsTaken s.cfg.predictorType (s.pht.getD (phtIndex s.cfg P s.ghr) 0)
    let taken := hit && (!(e.any (·.conditional)) || dir)
    let target := if hit then (e.map (·.target)).getD 0 else 0
    (s.fetchTransfer ins =
      { s with
        fetchBuffer := s.fetchBuffer ++ [{
          id := s.nextId, pc := P, ins := ins, predTaken := taken, predTarget := target, dirPred := dir, src := [],
          dstArch := none, dstSpec := none, window := none, fu := none, opv := none, actualTaken := none,
          actualTarget := none, exc := none, busy := true }]
        nextId := s.nextId + 1
        snapshots := s.snapshots ++ [{ id := s.nextId, ghr := s.ghr }]
        ghr := shiftHistory s.cfg s.ghr taken
        pc := if taken then target else P + 4 }) ∧
    (∀ n followed : Nat, instructionAt s.prog s.pc = some ins → isTransfer ins = true →
      fetchLoop (n + 1) followed s =
        if followed = s.cfg.branchFollowLimit then s else fetchLoop n (followed + 1) (s.fetchTransfer ins))

/-- Rules R201 to R205: the gating of fetch, and the group it fetches: at most `fetchWidth` instructions with consecutive
ids, each the code's instruction at its address, which is where the prediction of the one before it goes; at most
`branchFollowLimit` transfers; the group ends early only where there is no code or before one transfer too many. An
instruction that is no transfer is predicted nothing and leaves the history alone (rule R203); a transfer takes the history
that those of the group before it leave as its snapshot and shifts its prediction in. Nothing else changes. -/
def Obligations.FetchGroup : Prop :=
  ∀ s : State,
    let t := s.fetch
    (s.fetchBuffer ≠ [] → t = s) ∧
    (s.fetchBuffer = [] → 0 < s.fetchStall → t = { s with fetchStall := s.fetchStall - 1 }) ∧
    (s.fetchBuffer = [] → s.fetchStall = 0 →
      let path := s.pc :: t.fetchBuffer.map (·.predictedNext)
      let transfers := t.fetchBuffer.countP (fun d => isTransfer d.ins)
      let history := fun k => ((t.fetchBuffer.take k).filter fun d => isTransfer d.ins).foldl
        (fun g d => shiftHistory s.cfg g d.predTaken) s.ghr
      t = { s with
        fetchBuffer := t.fetchBuffer
        nextId := t.nextId
        pc := t.pc
        ghr := history t.fetchBuffer.length
        snapshots := s.snapshots ++ (t.fetchBuffer.zipIdx.filter fun e => isTransfer e.1.ins).map
          fun e => { id := e.1.id, ghr := history e.2 } } ∧
      t.fetchBuffer.length ≤ s.cfg.fetchWidth ∧
      transfers ≤ s.cfg.branchFollowLimit ∧
      t.nextId = s.nextId + t.fetchBuffer.length ∧
      (∀ k d, t.fetchBuffer[k]? = some d → d.id = s.nextId + k ∧ path[k]? = some d.pc ∧
        instructionAt s.prog d.pc = some d.ins ∧
        d = {
          id := d.id, pc := d.pc, ins := d.ins, predTaken := d.predTaken, predTarget := d.predTarget,
          dirPred := d.dirPred, src := [], dstArch := none, dstSpec := none, window := none, fu := none, opv := none,
          actualTaken := none, actualTarget := none, exc := none, busy := true } ∧
        (isTransfer d.ins = false → d.predTaken = false ∧ d.predTarget = 0 ∧ d.dirPred = false)) ∧
      path.getLast? = some t.pc ∧
      (t.fetchBuffer.length < s.cfg.fetchWidth →
        instructionAt s.prog t.pc = none ∨
        ∃ ins, instructionAt s.prog t.pc = some ins ∧ isTransfer ins = true ∧ transfers = s.cfg.branchFollowLimit))

/-- A zero-bit predictor is static: no step changes a counter (rule R219, whose accuracy property follows). -/
def Obligations.ZeroBitStatic : Prop :=
  ∀ s t : State, s.cfg.predictorType = .zeroBit → step s = .next t → t.pht = s.pht

/-! ## Rename and dispatch (`51_rename_dispatch.md`) -/

/-- Rules R233 and R235: the source registers by format, and the reference of one: `x0` and a register with no entry are
architectural, any other register names the pool register of its entry with the greatest id; and the register an
instruction writes, its `rd` unless the format is `S` or `B` or `rd` is `x0`. The last clause is the model's reading of
rules R191, R193 and R235 (DEDUCED and DESIGN CHOICE, log entry 6): an instruction of `FP_TABLE` writes the file that the
first row of its name says, `f[0]` is a destination as any other register of `f`, and the pool register has the tag
`float` or `double` the row names exactly where that file is `f`. -/
def Obligations.OperandRegisters : Prop :=
  ((∀ (cfg : Cfg) (i : Instr),
    let rs1 : ArchReg := { file := .x, idx := (operands i).2.1 }
    let rs2 : ArchReg := { file := .x, idx := (operands i).2.2.1 }
    insSources cfg (.isa i) = match format i with
      | .U => []
      | .J => []
      | .I => [rs1]
      | .IL => [rs1]
      | .SH => [rs1]
      | .R => [rs1, rs2]
      | .S => [rs1, rs2]
      | .B => [rs1, rs2]) ∧
  (∀ (s : State) (d : DynInst), ∃ d', (s.renameOne d).decodeBuffer = s.decodeBuffer ++ [d'] ∧
    d'.src = (insSources s.cfg d.ins).map (sourceRef s.renameTable)) ∧
  (∀ (table : List RenameEntry) (r : ArchReg), Increasing (table.map (·.id)) →
    (r = { file := .x, idx := 0 } → sourceRef table r = .arch r) ∧
    ((∀ e ∈ table, e.arch ≠ r) → sourceRef table r = .arch r) ∧
    (r ≠ { file := .x, idx := 0 } → ∀ e ∈ table, e.arch = r → (∀ e' ∈ table, e'.arch = r → e'.id ≤ e.id) →
      sourceRef table r = .spec e.spec))) ∧
  (∀ (cfg : Cfg) (i : Instr),
    insDest cfg (.isa i) =
      if format i = .S ∨ format i = .B ∨ (operands i).1 = 0 then none
      else some ({ file := .x, idx := (operands i).1 }, .int)) ∧
  (∀ (cfg : Cfg) (n : String) (rd rs1 rs2 : Reg) (imm : Int) (row : FpRow), fpRow cfg n = some row →
    insDest cfg (.named n rd rs1 rs2 imm) =
      if row.format = .S ∨ row.format = .B then none
      else match row.dest with
        | .x => if rd = 0 then none else some ({ file := .x, idx := rd }, .int)
        | .f .float => some ({ file := .f, idx := rd }, .float)
        | .f .double => some ({ file := .f, idx := rd }, .double))

/-- Rules R231 to R236: rename takes the whole group or nothing. The instructions are renamed one after another: the
sources of one see the table with the entries of the older ones of its own group (rule R232), and its destination is the
lowest free index of the pool that these left (rule R234), now allocated with value 0 and the destination's tag, with an
entry of the table. An instruction that writes no register gets none. Every other pool register, everything else in the
instructions and every other component of the state is kept. -/
def Obligations.RenameGroup : Prop :=
  ∀ s : State,
    let t := s.rename
    let need := s.fetchBuffer.countP fun d => (insDest s.cfg d.ins).isSome
    let free := s.pool.countP fun p => decide (p.state = .free)
    let entry := fun d : DynInst => d.dstArch.bind fun r => d.dstSpec.map fun j => RenameEntry.mk d.id r j
    (¬(s.decodeBuffer = [] ∧ s.fetchBuffer ≠ [] ∧ need ≤ free) → t = s) ∧
    (s.decodeBuffer = [] → s.fetchBuffer ≠ [] → need ≤ free →
      t = { s with fetchBuffer := [], decodeBuffer := t.decodeBuffer, renameTable := t.renameTable, pool := t.pool } ∧
      t.decodeBuffer.length = s.fetchBuffer.length ∧
      (∀ (k : Nat) (d0 d : DynInst), s.fetchBuffer[k]? = some d0 → t.decodeBuffer[k]? = some d →
        let older := t.decodeBuffer.take k
        d = { d0 with src := d.src, dstArch := d.dstArch, dstSpec := d.dstSpec } ∧
        d.src = (insSources s.cfg d0.ins).map (sourceRef (s.renameTable ++ older.filterMap entry)) ∧
        (insDest s.cfg d0.ins = none → d.dstArch = none ∧ d.dstSpec = none) ∧
        (∀ r tag, insDest s.cfg d0.ins = some (r, tag) → d.dstArch = some r ∧
          ∃ j, d.dstSpec = some j ∧ (s.pool[j]?).map (·.state) = some .free ∧ (∀ e ∈ older, e.dstSpec ≠ some j) ∧
            (∀ i < j, (s.pool[i]?).map (·.state) = some .free → ∃ e ∈ older, e.dstSpec = some i) ∧
            t.pool[j]? = some { state := .allocated, value := 0, tag := tag })) ∧
      t.renameTable = s.renameTable ++ t.decodeBuffer.filterMap entry ∧
      t.pool.length = s.pool.length ∧
      (∀ j, (∀ d ∈ t.decodeBuffer, d.dstSpec ≠ some j) → t.pool[j]? = s.pool[j]?) ∧
      t.pool.countP (fun p => decide (p.state = .free)) + need = free)

/-- Rules R241 and R242: dispatch moves instructions in order from the decode buffer to the reorder buffer, their window
and, for loads and stores, their buffer. Each that goes had a free place in every one of these when it went; it stops
before the first that has not; nothing is dropped. -/
def Obligations.DispatchInOrder : Prop :=
  ∀ s : State,
    let t := s.dispatch
    ∃ gone rest, s.decodeBuffer = gone ++ rest ∧
      t = { s with
        rob := s.rob ++ gone.map fun d => { d with window := some (insClass d.ins) }
        win := t.win
        loadBuffer := s.loadBuffer ++ (gone.filter (fun d => isLoad d.ins)).map fun d =>
          { id := d.id, addr := none, data := none, done := false, fwd := none, memId := none, inMA := false }
        storeBuffer := s.storeBuffer ++ (gone.filter (fun d => isStore d.ins)).map fun d =>
          { id := d.id, addr := none, data := none, done := false, fwd := none, memId := none, inMA := false }
        decodeBuffer := rest } ∧
      (∀ c, t.win.at c = s.win.at c ++ (gone.filter fun d => decide (insClass d.ins = c)).map (·.id)) ∧
      (∀ (k : Nat) (d : DynInst), gone[k]? = some d →
        let before := gone.take k
        s.rob.length + k < s.cfg.robSize ∧
        (s.win.at (insClass d.ins)).length + before.countP (fun e => decide (insClass e.ins = insClass d.ins)) <
          s.cfg.iwSize ∧
        (isLoad d.ins = true → s.loadBuffer.length + before.countP (fun e => isLoad e.ins) < s.cfg.lbSize) ∧
        (isStore d.ins = true → s.storeBuffer.length + before.countP (fun e => isStore e.ins) < s.cfg.sbSize)) ∧
      (∀ d, rest.head? = some d →
        s.cfg.robSize ≤ t.rob.length ∨ s.cfg.iwSize ≤ (t.win.at (insClass d.ins)).length ∨
        (isLoad d.ins = true ∧ s.cfg.lbSize ≤ t.loadBuffer.length) ∨
        (isStore d.ins = true ∧ s.cfg.sbSize ≤ t.storeBuffer.length))

/-! ## Issue and the functional units (`52_issue_execute.md`) -/

/-- Rule R254: the candidates are the idle units of the class's type whose capabilities contain those the instruction
requires; the one earliest in `cfg.fus` is taken, and none is taken only if there is no candidate. -/
def Obligations.UnitSelection : Prop :=
  ∀ (s : State) (i : StaticIns),
    let type := match insClass i with
      | .intArith => FuType.FX
      | .floatArith => .FP
      | .jumpBranch => .BR
      | .loadStore => .LS
    let candidate := fun u : Nat => ∃ c f, s.cfg.fus[u]? = some c ∧ s.fu[u]? = some f ∧ f.ins = none ∧ c.type = type ∧
      ((type = .FX ∨ type = .FP) → ∀ cap ∈ insCaps s.cfg i, cap ∈ c.caps)
    (∀ u, s.pickUnit (compatible s.cfg i) = some u ↔ candidate u ∧ ∀ v < u, ¬candidate v) ∧
    (s.pickUnit (compatible s.cfg i) = none ↔ ∀ u, ¬candidate u)

/-- Rules R251 to R255. One instruction of a window examined: it stays unless it is ready and a compatible unit is idle;
issued, its operand values are latched, the unit holds it for the unit's delay, it leaves the window; nothing else
changes. Stage 5 takes the windows `intArith`, `floatArith`, `jumpBranch`, `loadStore` in this order, and examines each
instruction of a window once, in the window's order, which is that of dispatch, oldest first (rule R242), each on the state
the older ones leave. After it every instruction that has left its window is held by a unit that was idle, and none that
is left is ready while a compatible unit is idle: a younger one passes an older one that waits. -/
def Obligations.IssueOne : Prop :=
  (∀ s : State,
    let t := s.issue
    let examined := fun (c : IClass) (s : State) => (s.win.at c).foldl (fun u id => u.issueOne c id) s
    t = examined .loadStore (examined .jumpBranch (examined .floatArith (examined .intArith s))) ∧
    ∀ (c : IClass) (id : Nat),
      (id ∈ t.win.at c → id ∈ s.win.at c ∧ ∀ d, t.robFind id = some d →
        (∃ k, SrcRef.spec k ∈ d.src ∧ (t.pool[k]?).map (·.state) ≠ some .executed) ∨
        t.pickUnit (compatible s.cfg d.ins) = none) ∧
      (id ∈ s.win.at c → id ∉ t.win.at c → ∃ (u : Nat) (f g : FuState), s.fu[u]? = some f ∧ t.fu[u]? = some g ∧
        f.ins = none ∧ g.ins = some id)) ∧
  (∀ (s : State) (c : IClass) (d : DynInst), s.robFind d.id = some d →
    let ready := ∀ k, SrcRef.spec k ∈ d.src → (s.pool[k]?).map (·.state) = some .executed
    let unit := s.pickUnit (compatible s.cfg d.ins)
    (¬ready → s.issueOne c d.id = s) ∧ (unit = none → s.issueOne c d.id = s) ∧
    (ready → ∀ u, unit = some u →
      let v0 := (d.src[0]?.map s.refValue).getD 0
      let v1 := (d.src[1]?.map s.refValue).getD 0
      s.issueOne c d.id =
        { s with
          win := s.win.put c ((s.win.at c).filter fun i => decide (i ≠ d.id))
          fu := s.fu.modify u fun f =>
            { f with ins := some d.id, counter := 0, total := ((s.cfg.fus[u]?).map (·.delay)).getD 0 }
          rob := s.rob.map fun e =>
            if e.id = d.id then { e with opv := some (v0, v1), fu := some u, window := none } else e }))

/-- Rules R259 and R261: a unit in stage 3. An idle one does nothing; one that holds an instruction counts a tick, or, when
it has held it long enough, lets it go and finishes it. Stage 3 does so once for every unit of `cfg.fus`, in the order of
that list, each on the state the earlier ones leave, and what it leaves in one unit no other unit touches: an idle one is
as it was, a holding one has counted a tick or is idle, its failed stack as it was or with its own instruction on top. -/
def Obligations.UnitHolds : Prop :=
  (∀ s : State,
    let t := s.units
    t = (List.range s.cfg.fus.length).foldl (fun v u => v.unitTick u) s ∧ t.fu.length = s.fu.length ∧
    ∀ (u : Nat) (f : FuState), u < s.cfg.fus.length → s.fu[u]? = some f →
      (f.ins = none → t.fu[u]? = some f) ∧
      (∀ id, f.ins = some id →
        (f.counter + 1 < f.total → t.fu[u]? = some { f with counter := f.counter + 1 }) ∧
        (f.total ≤ f.counter + 1 → ∃ failed, (failed = f.failed ∨ failed = f.failed ++ [id]) ∧
          t.fu[u]? = some { ins := none, counter := 0, total := 0, failed := failed }))) ∧
  (∀ (s : State) (u : Nat) (c : FuncUnit) (f : FuState), s.cfg.fus[u]? = some c → s.fu[u]? = some f →
    (f.ins = none → s.unitTick u = s) ∧
    (∀ d, f.ins = some d.id → s.robFind d.id = some d →
      (f.counter + 1 < f.total →
        s.unitTick u = { s with fu := s.fu.set u { f with counter := f.counter + 1 } }) ∧
      (f.total ≤ f.counter + 1 → ∃ s1 : State,
        s1 = { s with
          fu := s.fu.set u { f with ins := none, counter := 0, total := 0 }
          rob := s.rob.map fun e => if e.id = d.id then { e with fu := none } else e } ∧
        s.unitTick u = s1.finish u c.type { d with fu := none })))

/-- Rules R262, R263 and R264 against the instructions' meaning: where the latched operands are the register values of
the architectural state, an `FX` or `BR` unit writes to the pool what executing the instruction writes to `rd`, and raises
exactly where executing it raises: then no result is written, the kind is recorded and the id goes on the unit's failed
stack. A `BR` unit records whether the transfer is taken and its target, the target also where it is not taken or
misaligned, and executing the transfer goes where these say; an `FX` unit records neither. Nothing else changes. That bits
63 to 32 of the pool register are zero (`toContainer`) is the model's choice of its container (DEDUCED, log entry 7). Loads and stores are `AddressGeneration`. -/
def Obligations.UnitsComputeTheMeaning : Prop :=
  ∀ (s t : State) (u : Nat) (f : FuState) (i : Instr) (d : DynInst), s.excSeen = none → s.fu[u]? = some f →
    (classAndCaps i).1 ≠ .loadStore → d.ins = .isa i → d.pc = s.pc →
    d.opv = some (toContainer (s.readX (operands i).2.1), toContainer (s.readX (operands i).2.2.1)) →
    exec i s = .next t →
      let v := s.finish u (if (classAndCaps i).1 = .jumpBranch then .BR else .FX) d
      let (rd, rs1, rs2, imm) := operands i
      let a := s.readX rs1
      let b := s.readX rs2
      let target := BitVec.ofInt 32 (s.pc.toNat + imm)
      let outcomes := [(Instr.jal rd imm, true, target),
        (.jalr rd rs1 imm, true, BitVec.ofNat 32 ((BitVec.ofInt 32 (a.toInt + imm)).toNat / 2 * 2)),
        (.beq rs1 rs2 imm, decide (a = b), target), (.bne rs1 rs2 imm, decide (a ≠ b), target),
        (.blt rs1 rs2 imm, decide (a.toInt < b.toInt), target), (.bge rs1 rs2 imm, decide (b.toInt ≤ a.toInt), target),
        (.bltu rs1 rs2 imm, decide (a.toNat < b.toNat), target), (.bgeu rs1 rs2 imm, decide (b.toNat ≤ a.toNat), target)]
      let outcome := (outcomes.find? fun e => decide (e.1 = i)).map (·.2)
      let finished := fun e : DynInst => { e with
        busy := false
        exc := t.excSeen.or e.exc
        actualTaken := (outcome.map (·.1)).or e.actualTaken
        actualTarget := (outcome.map (·.2)).or e.actualTarget }
      v = { s with
        pool := v.pool
        fu := v.fu
        rob := s.rob.map fun e => if e.id = d.id then finished e else e } ∧
      (outcome.isSome = true ↔ (classAndCaps i).1 = .jumpBranch) ∧
      (t.excSeen = none → v.fu = s.fu ∧
        (∀ k p, d.dstSpec = some k → s.pool[k]? = some p → insDest s.cfg d.ins ≠ none →
          v.pool[k]? = some { p with value := toContainer (t.readX rd), state := .executed }) ∧
        (∀ k, d.dstSpec ≠ some k → v.pool[k]? = s.pool[k]?) ∧
        (∀ e, outcome = some e → t.pc = if e.1 then e.2 else s.pc + 4)) ∧
      (∀ k, t.excSeen = some k → v.pool = s.pool ∧ v.fu = s.fu.set u { f with failed := f.failed ++ [d.id] })

/-- Rule R265: an `LS` unit finishing. The effective address is checked, alignment first; a load's item gets its address
and the load stays busy; a store's item gets its address and its low bytes, least significant first, and the store is no
longer busy. -/
def Obligations.AddressGeneration : Prop :=
  ∀ (s : State) (u : Nat) (f : FuState) (i : Instr) (d : DynInst) (a b : Word) (imm : Int) (n : Nat),
    s.fu[u]? = some f → d.ins = .isa i → d.opv = some (toContainer a, toContainer b) → imm = (operands i).2.2.2 →
    n = accessSize d.ins → (classAndCaps i).1 = .loadStore →
      let ea := BitVec.ofInt 32 (a.toInt + imm)
      let v := s.finish u .LS d
      let fails := fun k => v = { s with
        fu := s.fu.set u { f with failed := f.failed ++ [d.id] }
        rob := s.rob.map fun e => if e.id = d.id then { e with exc := some k, busy := false } else e }
      (n = 1 ∨ n = 2 ∨ n = 4) ∧
      (ea.toNat % n ≠ 0 → fails .memMisaligned) ∧
      (ea.toNat % n = 0 → s.cfg.memSize < ea.toNat + n → fails .memOutOfRange) ∧
      (ea.toNat % n = 0 → ea.toNat + n ≤ s.cfg.memSize →
        (format i = .IL → v = { s with
          loadBuffer := s.loadBuffer.map fun it => if it.id = d.id then { it with addr := some ea } else it }) ∧
        (format i = .S → v = { s with
          storeBuffer := s.storeBuffer.map fun it => if it.id = d.id then { it with
            addr := some ea, data := some ((List.range n).map fun k => b.extractLsb' (8 * k) 8) } else it
          rob := s.rob.map fun e => if e.id = d.id then { e with busy := false } else e }))

/-! ## The load/store queue (`53_load_store_queue.md`) -/

/-- Rules R282 to R290. Stage 4 examines the load buffer's items, as they then are, in increasing id. An item is a candidate
where its address is known and it is neither done nor in memory access; any other is skipped. A candidate load waits while an older store's address is unknown; else it takes its bytes from the
youngest older overlapping store if that one matches exactly; else it waits for that store; else, with no overlap, it
starts a memory access on the first idle `MA` unit, or waits if there is none. -/
def Obligations.LoadResolution : Prop :=
  (∀ s : State, Increasing (s.loadBuffer.map (·.id)) →
    s.resolveBuffers = (s.loadBuffer.map (·.id)).foldl (fun u id =>
      match u.loadBuffer.find? fun it => decide (it.id = id) with
      | some it => u.resolveLoad it
      | none => u) s) ∧
  (∀ (s : State) (it : LsItem), (it.addr = none ∨ it.done = true ∨ it.inMA = true → s.resolveLoad it = s) ∧
    (∀ (d : DynInst) (a : Word), s.robFind it.id = some d → it.addr = some a → it.done = false → it.inMA = false →
      s.resolveLoad it = s.resolveCandidate d a (accessSize d.ins))) ∧
  (∀ (s : State) (d : DynInst) (a : Word) (n : Nat), Increasing (s.storeBuffer.map (·.id)) →
    let older := fun it : LsItem => it ∈ s.storeBuffer ∧ it.id < d.id
    let size := fun it : LsItem => (it.data.getD []).length
    let overlaps := fun it : LsItem => older it ∧ ∃ b, it.addr = some b ∧ b.toNat < a.toNat + n ∧
      a.toNat < b.toNat + size it
    let t := s.resolveCandidate d a n
    ((∃ it, older it ∧ it.addr = none) → t = s) ∧
    ((∀ it, older it → it.addr ≠ none) →
      (∀ y, overlaps y → (∀ it, overlaps it → it.id ≤ y.id) →
        (y.addr = some a → size y = n →
          t = (s.completeLoad d (y.data.getD [])).loadUpdate d.id
            fun it => { it with done := true, fwd := some y.id, data := y.data }) ∧
        (¬(y.addr = some a ∧ size y = n) → t = s)) ∧
      ((∀ it, ¬overlaps it) →
        (s.pickUnit (fun c => decide (c.type = .MA)) = none → t = s) ∧
        (∀ u, s.pickUnit (fun c => decide (c.type = .MA)) = some u →
          let r := s.access a.toNat n .load
          t = (r.1.loadUpdate d.id fun it =>
              { it with data := some r.2.2, memId := some (s.nextMemId + 1), inMA := true }).occupy u d.id
            (((s.cfg.fus[u]?).map (·.delay)).getD 0 + r.2.1)))))

/-- Rules R266 and R288: what completing a load writes: the extended value to its pool register, which is then executed,
and the end of its `busy`. An `MA` unit finishing a load takes the bytes of the load's own item, completes the load with
them, and sets the item's `done` and clears its `inMA` (rule R266). That bits 63 to 32 of the pool register are zero
(`toContainer`) is the model's choice of its container (DEDUCED, log entry 7). -/
def Obligations.CompleteLoad : Prop :=
  ∀ (s : State) (d : DynInst) (rd rs1 : Reg) (imm : Int) (b0 b1 b2 b3 : Byte),
    ∀ e ∈ [(Instr.lb rd rs1 imm, [b0], b0.signExtend 32),
        (.lh rd rs1 imm, [b0, b1], (b1 ++ b0 : BitVec 16).signExtend 32),
        (.lw rd rs1 imm, [b0, b1, b2, b3], (b3 ++ b2 ++ b1 ++ b0 : BitVec 32)),
        (.lbu rd rs1 imm, [b0], b0.setWidth 32),
        (.lhu rd rs1 imm, [b0, b1], (b1 ++ b0 : BitVec 16).setWidth 32)],
      d.ins = .isa e.1 →
        let pool := match d.dstSpec with
          | some k => s.pool.modify k fun p => { p with value := toContainer e.2.2, state := .executed }
          | none => s.pool
        let rob := s.rob.map fun x => if x.id = d.id then { x with busy := false } else x
        s.completeLoad d e.2.1 = { s with pool := pool, rob := rob } ∧
        (∀ (u : Nat) (it : LsItem), Increasing (s.loadBuffer.map (·.id)) → it ∈ s.loadBuffer → it.id = d.id →
          it.data = some e.2.1 →
            s.finish u .MA d = { s with
              pool := pool
              rob := rob
              loadBuffer := s.loadBuffer.map fun x => if x.id = d.id then { x with done := true, inMA := false } else x })

/-! ## The cache and memory latency (`54_cache_memory_latency.md`) -/

/-- Rules R303 to R306 and R314: the latency of an access, the counters it moves, and what it does to the cache and to main
memory. With a cache it advances the access counter; a hit sets the line's stamp of use to it, and a store's hit writes its
bytes there and makes the line dirty; a miss is served from main memory and triggers the replacement of its line; without a
cache main memory serves it. Nothing else changes. -/
def Obligations.AccessLatency : Prop :=
  ∀ (s : State) (a n : Nat) (req : Request),
    let (t, lat, _) := s.access a n req
    let memory := match req with
      | .load => s.cfg.loadLatency
      | .store _ => s.cfg.storeLatency
    let mainMem := match req with
      | .load => s.mainMem
      | .store data => s.mainMem.writeBytes a data
    let la := a / s.cfg.cacheLineSize
    let off := a % s.cfg.cacheLineSize
    let set := la % (s.cfg.cacheLines / s.cfg.cacheAssoc)
    let tag := la / (s.cfg.cacheLines / s.cfg.cacheAssoc)
    let ways := s.cache.getD set []
    let holds := fun l : Line => l.valid = true ∧ l.tag = tag
    let counted := { s.stats with
      totalDelay := s.stats.totalDelay + lat, bytesTransferred := s.stats.bytesTransferred + n }
    (s.cfg.useCache = false → lat = memory ∧
      t = { s with nextMemId := s.nextMemId + 1, mainMem := mainMem, stats := counted }) ∧
    (s.cfg.useCache = true →
      (∀ (k : Nat) (l : Line), ways[k]? = some l → holds l → (∀ j < k, ∀ m, ways[j]? = some m → ¬holds m) →
        let used := match req with
          | .load => { l with usedSeq := s.accessSeq + 1 }
          | .store data => { l with
              usedSeq := s.accessSeq + 1
              dirty := true
              data := (List.range l.data.length).map fun j =>
                if off ≤ j ∧ j < off + data.length then data.getD (j - off) 0 else l.data.getD j 0 }
        lat = s.cfg.cacheAccessDelay ∧
        t = { s with
          nextMemId := s.nextMemId + 1
          accessSeq := s.accessSeq + 1
          cache := s.cache.set set (ways.set k used)
          stats := { counted with
            cacheAccesses := s.stats.cacheAccesses + 1, cacheHits := s.stats.cacheHits + 1 } }) ∧
      (¬s.cached la → lat = s.cfg.cacheAccessDelay + memory ∧
        t = ({ s with
          nextMemId := s.nextMemId + 1
          accessSeq := s.accessSeq + 1
          mainMem := mainMem
          stats := { counted with
            cacheAccesses := s.stats.cacheAccesses + 1
            cacheMisses := s.stats.cacheMisses + 1 } } : State).triggerReplacement la))

/-- Rule R307: a miss triggers one replacement per line in flight, due `laneReplacementDelay` ticks later, or performed at
once where that delay is 0. Rule R308: `Replace` does nothing where the line is present; else a dirty victim is written
back, the victim's way becomes the valid, clean line of its address with the bytes of main memory and both stamps at the
access counter, which advances, and nothing else changes. Rule R310: stage 1 takes out exactly the due replacements, keeps
the others in order, and performs those in the order they were triggered. Rules R308 and R312: the victim is the first way
that is not valid; else by the policy the least recently used or the oldest, or the way the generator gives, which then
advances. -/
def Obligations.Replacement : Prop :=
  (∀ (s : State) (la : Nat),
    ((∃ r ∈ s.pendingRepl, r.lineAddr = la) → s.triggerReplacement la = s) ∧
    ((∀ r ∈ s.pendingRepl, r.lineAddr ≠ la) →
      (s.cfg.laneReplacementDelay = 0 → s.triggerReplacement la = s.replace la) ∧
      (0 < s.cfg.laneReplacementDelay → s.triggerReplacement la =
        { s with pendingRepl := s.pendingRepl ++ [{ due := s.tick + s.cfg.laneReplacementDelay, lineAddr := la }] }))) ∧
  (∀ (s : State) (la : Nat),
    let sets := s.cfg.cacheLines / s.cfg.cacheAssoc
    let size := s.cfg.cacheLineSize
    let ways := s.cache.getD (la % sets) []
    let v := victim s.cfg s.rng ways
    let t := s.replace la
    ((∃ l ∈ ways, l.valid = true ∧ l.tag = la / sets) → t = s) ∧
    ((∀ l ∈ ways, l.valid = true → l.tag ≠ la / sets) → ∀ old, ways[v.1]? = some old →
      t = { s with
        mainMem := t.mainMem
        rng := v.2
        accessSeq := s.accessSeq + 1
        cache := s.cache.set (la % sets) (ways.set v.1 {
          valid := true, dirty := false, tag := la / sets, base := la * size,
          data := (List.range size).map fun k => t.mainMem.read (la * size + k), set := la % sets,
          insertedSeq := s.accessSeq + 1, usedSeq := s.accessSeq + 1 }) } ∧
      ∀ a, t.mainMem.read a =
        if old.valid = true ∧ old.dirty = true ∧ old.base ≤ a ∧ a < old.base + old.data.length then
          old.data.getD (a - old.base) 0
        else s.mainMem.read a)) ∧
  (∀ s : State,
    let due := s.pendingRepl.filter fun r => decide (r.due ≤ s.tick)
    let waiting := s.pendingRepl.filter fun r => decide (s.tick < r.due)
    (s.cfg.useCache = false → s.memorySimulate = s) ∧
    (s.cfg.useCache = true → s.memorySimulate.pendingRepl = waiting ∧
      s.memorySimulate = (due.map (·.lineAddr)).foldl State.replace { s with pendingRepl := waiting })) ∧
  (∀ (cfg : Cfg) (rng : Nat) (ways : List Line), ways ≠ [] →
    let v := victim cfg rng ways
    (∀ k l, ways[k]? = some l → l.valid = false → (∀ j < k, ∀ m, ways[j]? = some m → m.valid = true) → v = (k, rng)) ∧
    ((∀ l ∈ ways, l.valid = true) →
      (cfg.cacheReplacement = .lru → v.2 = rng ∧ ∃ l, ways[v.1]? = some l ∧ ∀ m ∈ ways, l.usedSeq ≤ m.usedSeq) ∧
      (cfg.cacheReplacement = .fifo → v.2 = rng ∧ ∃ l, ways[v.1]? = some l ∧ ∀ m ∈ ways, l.insertedSeq ≤ m.insertedSeq) ∧
      (cfg.cacheReplacement = .random →
        v = ((randNext cfg.randNext rng).2 % cfg.cacheAssoc, (randNext cfg.randNext rng).1))))

/-- Rule R309: the cache never changes what memory reads as. `Replace` and stage 1 leave every byte of the memory view as
it was; a load's `Access` too, and it returns the view's bytes; a store's `Access` changes the view at exactly its bytes,
to its data. The cache is coherent and the access lies within one line (rule R303). -/
def Obligations.AccessKeepsTheView : Prop :=
  ∀ s : State, s.CacheCoherent →
    (s.cfg.useCache = true → ∀ la b, (s.replace la).memView b = s.memView b) ∧
    (∀ b, s.memorySimulate.memView b = s.memView b) ∧
    (∀ a n : Nat, (n = 1 ∨ n = 2 ∨ n = 4) → a % n = 0 → 4 ∣ s.cfg.cacheLineSize →
      (∀ b, (s.access a n .load).1.memView b = s.memView b) ∧
      (s.access a n .load).2.2 = (List.range n).map fun k => s.memView (a + k)) ∧
    (∀ (a : Nat) (data : List Byte), (data.length = 1 ∨ data.length = 2 ∨ data.length = 4) → a % data.length = 0 →
      4 ∣ s.cfg.cacheLineSize →
      ∀ b, (s.access a data.length (.store data)).1.memView b =
        if a ≤ b ∧ b < a + data.length then data.getD (b - a) 0 else s.memView b)

/-! ## Commit and flush (`55_rob_commit.md`) -/

/-- Rule R335: register commit. The architectural register gets the pool register's value, every reference to the pool
register becomes one to the architectural register, the rename entry goes and the pool register is freed; nothing else
changes. Writes to `x0` are discarded (rule R25); a register of `f` takes the tag too, `float` or `double` (rules R26, R193; from a
pool register with tag `int`, which no run gives it, the old tag stays, log entry 10). -/
def Obligations.RegisterCommit : Prop :=
  ∀ (s : State) (d : DynInst) (k : Nat) (r : ArchReg) (p : SpecReg), d.dstSpec = some k → d.dstArch = some r →
    s.pool[k]? = some p →
      let t := s.commitRegister d
      let retarget := fun e : DynInst => { e with src := e.src.map fun ref => if ref = .spec k then .arch r else ref }
      t = { s with
        x := t.x
        f := t.f
        decodeBuffer := s.decodeBuffer.map retarget
        rob := s.rob.map retarget
        renameTable := s.renameTable.filter fun e => decide (e.id ≠ d.id)
        pool := s.pool.set k { state := .free, value := 0, tag := .int } } ∧
      (∀ q, t.readX q = if r = { file := .x, idx := q } ∧ q ≠ 0 then p.value.setWidth 32 else s.readX q) ∧
      (∀ q, t.f.get q = if r = { file := .f, idx := q } then { value := p.value, tag := match p.tag with
        | .float => .float
        | .double => .double
        | .int => (s.f.get q).tag } else s.f.get q)

/-- Rule R345: commit of a jump/branch-class instruction that was predicted correctly. The counter it was predicted with
moves toward the outcome, its snapshot goes, the statistics count it, a taken one writes its branch-target-buffer entry,
and a taken transfer to the exit address halts and ends commit for the tick (rules R214, R215, R338, R339, R344). -/
def Obligations.CommitPredictedTransfer : Prop :=
  ∀ (s : State) (d : DynInst) (i : Instr) (taken : Bool) (target : Word), d.ins = .isa i →
    d.actualTaken = some taken → d.actualTarget = some target → d.predTaken = taken →
    (taken = true → d.predTarget = target) →
      let index := phtIndex s.cfg d.pc (s.snapshotOf d.id)
      let (t, stop) := s.commitTransfer d
      t = { s with
        pht := t.pht
        snapshots := s.snapshots.filter fun e => decide (e.id ≠ d.id)
        btb := t.btb
        haltSeen := s.haltSeen || (taken && decide (target = s.cfg.exitAddress))
        stats := { s.stats with
          branches := s.stats.branches + 1
          correctDir := s.stats.correctDir + (if d.dirPred = taken then 1 else 0) } } ∧
      (∀ j, t.pht[j]? = if j = index then (s.pht[j]?).map (if taken then counterUp s.cfg.predictorType else
        counterDown s.cfg.predictorType) else s.pht[j]?) ∧
      (taken = false → t.btb = s.btb) ∧
      (taken = true → ∀ j < s.btb.length, t.btb[j]? = if j = d.pc.toNat % s.cfg.btbSize then
          some (some { tag := d.pc, conditional := decide (format i = .B), target := target, commitId := d.id })
        else s.btb[j]?) ∧
      (stop = true ↔ taken = true ∧ target = s.cfg.exitAddress)

/-- Rules R340 and R343: commit of a mispredicted transfer. It is counted as a flush, everything younger is discarded,
the history is the one before it extended by its outcome, fetch resumes at the corrected address after `flushPenalty`
ticks, and commit ends for the tick; its training and its branch-target-buffer entry are those of a correct one. -/
def Obligations.CommitMispredictedTransfer : Prop :=
  ∀ (s : State) (d : DynInst) (taken : Bool) (target : Word), d.actualTaken = some taken →
    d.actualTarget = some target → (d.predTaken ≠ taken ∨ (taken = true ∧ d.predTarget ≠ target)) →
      let trained := (s.commitTransfer { d with predTaken := taken, predTarget := target }).1
      s.commitTransfer d =
        ({ trained.flush d.id with
          ghr := shiftHistory s.cfg (s.snapshotOf d.id) taken
          pc := if taken then target else d.pc + 4
          fetchStall := s.cfg.flushPenalty
          stats := { trained.stats with flushes := s.stats.flushes + 1 } }, true)

/-- Rules R342 and R348: `Flush(b)` discards exactly what is younger than `b` and frees its pool registers; the registers,
memory, cache, predictor tables, ids, tick and statistics are left alone. -/
def Obligations.FlushDiscardsTheYounger : Prop :=
  ∀ (s : State) (b : Nat),
    let t := s.flush b
    t.fetchBuffer = [] ∧
    (∀ d, d ∈ t.decodeBuffer ↔ d ∈ s.decodeBuffer ∧ d.id ≤ b) ∧ (∀ d, d ∈ t.rob ↔ d ∈ s.rob ∧ d.id ≤ b) ∧
    (∀ c id, id ∈ t.win.at c ↔ id ∈ s.win.at c ∧ id ≤ b) ∧
    (∀ it, it ∈ t.loadBuffer ↔ it ∈ s.loadBuffer ∧ it.id ≤ b) ∧
    (∀ it, it ∈ t.storeBuffer ↔ it ∈ s.storeBuffer ∧ it.id ≤ b) ∧
    (∀ e, e ∈ t.renameTable ↔ e ∈ s.renameTable ∧ e.id ≤ b) ∧
    (∀ e, e ∈ t.snapshots ↔ e ∈ s.snapshots ∧ e.id ≤ b) ∧
    t.fu.length = s.fu.length ∧
    (∀ (u : Nat) (f g : FuState), s.fu[u]? = some f → t.fu[u]? = some g →
      (∀ id, id ∈ g.failed ↔ id ∈ f.failed ∧ id ≤ b) ∧
      (∀ id, f.ins = some id → id ≤ b → g.ins = f.ins ∧ g.counter = f.counter ∧ g.total = f.total) ∧
      (∀ id, f.ins = some id → b < id → g.ins = none ∧ g.counter = 0 ∧ g.total = 0) ∧
      (f.ins = none → g.ins = none)) ∧
    t.pool.length = s.pool.length ∧
    (∀ (k : Nat) (p q : SpecReg), s.pool[k]? = some p → t.pool[k]? = some q →
      q = if ∃ e ∈ s.renameTable, b < e.id ∧ e.spec = k then { state := .free, value := 0, tag := .int } else p) ∧
    t = { s with fetchBuffer := t.fetchBuffer, decodeBuffer := t.decodeBuffer, rob := t.rob, win := t.win, fu := t.fu,
                 loadBuffer := t.loadBuffer, storeBuffer := t.storeBuffer, pool := t.pool,
                 renameTable := t.renameTable, snapshots := t.snapshots }

/-- Only commit writes the registers and trains the predictor (rules R25, R215, R335): in a tick whose commit finds no
instruction ready to commit at the head, no register of `x` or `f`, no counter, no branch-target-buffer entry and no
count of commits, branches or flushes changes. And only the commit of a store writes memory (rule R80): a tick that commits
no store leaves every byte of the memory view, whatever the cache and the loads in flight do. -/
def Obligations.OnlyCommitWrites : Prop :=
  (∀ s t : State, s.grain = .tick → (∀ d, s.rob.head? = some d → d.busy = true ∨ d.exc ≠ none) → step s = .next t →
    t.x = s.x ∧ t.f = s.f ∧ t.pht = s.pht ∧ t.btb = s.btb ∧ t.stats.committed = s.stats.committed ∧
    t.stats.branches = s.stats.branches ∧ t.stats.correctDir = s.stats.correctDir ∧
    t.stats.flushes = s.stats.flushes) ∧
  (∀ s t : State, s.grain = .tick → s.CacheCoherent → step s = .next t →
    (∀ d ∈ s.rob.take (t.stats.committed - s.stats.committed), isStore d.ins = false) →
    ∀ b, t.memView b = s.memView b)

/-- Taking an exception (rules R333, R378, R386, R389, R390): in the tick in which a failed instruction is found at the
head, it stays there uncommitted, no register is written, every byte of the memory view is kept, and the run ends: the
status becomes `exception` of its kind and the next step changes nothing. -/
def Obligations.FailedHeadEndsTheRun : Prop :=
  ∀ (s : State) (d : DynInst) (k : ExcKind), Valid s.cfg s.prog → s.grain = .tick → s.status = .running →
    s.haltSeen = false → s.CacheCoherent → s.rob.head? = some d → d.busy = false → d.exc = some k →
      Completes (step s) fun t =>
        t.excSeen = some k ∧ t.status = .exception k ∧ t.x = s.x ∧ t.f = s.f ∧ (∀ b, t.memView b = s.memView b) ∧
        t.stats.committed = s.stats.committed ∧ (∃ e, t.rob.head? = some e ∧ e.id = d.id) ∧
        step t = .next t

/-- Rules R332 and R334 to R337. The commit of a store: it leaves both lists, every byte of the memory view but its own is
kept, and its own read as its data. The commit of a load takes the head of the load buffer, that of any other instruction
but a transfer nothing besides its register; a transfer goes on to its outcome. The commit loop commits heads only, in
order, at most `commitWidth` of them, none that is busy or has failed; it stops early only at an empty buffer, before a
busy or a failed head, whose exception it takes, or after a mispredicted transfer or one to the exit address; and what
stays in the reorder buffer stays in order, all of it where no transfer was mispredicted. -/
def Obligations.CommitInOrder : Prop :=
  (∀ (s : State) (d : DynInst) (it : LsItem) (a : Word) (data : List Byte), s.CacheCoherent →
    4 ∣ s.cfg.cacheLineSize → s.rob.head? = some d → isStore d.ins = true → d.dstSpec = none →
    s.storeBuffer.head? = some it → it.addr = some a → it.data = some data → data.length = accessSize d.ins →
    a.toNat % data.length = 0 →
      let t := (s.commitOne d).1
      t.rob = s.rob.tail ∧ t.storeBuffer = s.storeBuffer.tail ∧ t.loadBuffer = s.loadBuffer ∧
      t.stats.committed = s.stats.committed + 1 ∧ t.x = s.x ∧ t.f = s.f ∧ (s.commitOne d).2 = false ∧
      (∀ b, t.memView b = if a.toNat ≤ b ∧ b < a.toNat + data.length then data.getD (b - a.toNat) 0
        else s.memView b)) ∧
  (∀ (s : State) (d : DynInst),
    let r := ({ s with
      rob := s.rob.tail
      stats := { s.stats with committed := s.stats.committed + 1 } } : State).commitRegister d
    (isStore d.ins = false → isLoad d.ins = false → isTransfer d.ins = false → s.commitOne d = (r, false)) ∧
    (isLoad d.ins = true → s.commitOne d = ({ r with loadBuffer := s.loadBuffer.tail }, false)) ∧
    (isTransfer d.ins = true → s.commitOne d = r.commitTransfer d)) ∧
  (∀ s : State, ∃ k ≤ s.cfg.commitWidth,
    let t := s.commit
    let wrong := fun d : DynInst => isTransfer d.ins = true ∧
      (d.predTaken ≠ d.actualTaken.getD false ∨ (d.actualTaken = some true ∧ d.predTarget ≠ d.actualTarget.getD 0))
    let leaves := fun d : DynInst => isTransfer d.ins = true ∧ d.actualTaken = some true ∧
      d.actualTarget.getD 0 = s.cfg.exitAddress
    t.stats.committed = s.stats.committed + k ∧ k ≤ s.rob.length ∧
    (∀ d ∈ s.rob.take k, d.busy = false ∧ d.exc = none) ∧
    (∀ d ∈ s.rob.take (k - 1), ¬wrong d ∧ ¬leaves d) ∧
    (t.rob.map (·.id)).Sublist ((s.rob.drop k).map (·.id)) ∧
    ((∀ d ∈ s.rob.take k, ¬wrong d) → t.rob.map (·.id) = (s.rob.drop k).map (·.id)) ∧
    (t.excSeen = s.excSeen ∨
      ∃ d e, (s.rob.drop k).head? = some d ∧ d.busy = false ∧ d.exc = some e ∧ t.excSeen = some e) ∧
    (k < s.cfg.commitWidth →
      s.rob.drop k = [] ∨ (∃ d, (s.rob.drop k).head? = some d ∧ d.busy = true) ∨
      (∃ d e, (s.rob.drop k).head? = some d ∧ d.busy = false ∧ d.exc = some e ∧ t.excSeen = some e) ∨
      (∃ d, (s.rob.take k).getLast? = some d ∧ (wrong d ∨ leaves d))))

/-! ## Invariants that every step keeps (`10_state.md` rules R45, R46, `60_exceptions.md` rule R394) -/

/-- The reset state of every valid pair satisfies every invariant below, and so does the model's reset state (its
configuration and its empty program are the model's choice, log entries 2 and 3). -/
def Obligations.InvariantsAtReset : Prop :=
  (∀ (cfg : Cfg) (prog : Prog), Valid cfg prog →
    let s := State.init cfg prog
    s.mainMem.wf = true ∧ s.WithinCapacity ∧ s.IdsOrdered ∧ s.StatsConsistent ∧ s.PcAligned ∧ s.FreeIsZero ∧
    s.CountersLegal ∧ s.HistoryFits ∧ s.CacheCoherent ∧ s.StoresWhole ∧ s.x.get 0 = 0) ∧
  Valid State.reset.cfg State.reset.prog ∧ State.reset = State.init State.reset.cfg State.reset.prog

/-- Every step keeps the canonical form of main memory: strictly rising addresses, no stored zero (the form is the
model's; that an unlisted address reads 0 is rule R39). -/
def Obligations.MemoryFormIsKept : Prop :=
  ∀ s t : State, s.mainMem.wf = true → step s = .next t → t.mainMem.wf = true

/-- Every step keeps every structure within its capacity: "ROB occupancy never exceeds `robSize`" (rules R34 to R38,
R346). -/
def Obligations.CapacityIsKept : Prop :=
  ∀ s t : State, s.WithinCapacity → step s = .next t → t.WithinCapacity

/-- Every step keeps ids unique and increasing in program order through reorder, decode and fetch buffer, below
`nextId`, and never takes `nextId` back (rules R29, R45, R46 (b)). -/
def Obligations.IdOrderIsKept : Prop :=
  ∀ s t : State, s.IdsOrdered → step s = .next t → t.IdsOrdered ∧ s.nextId ≤ t.nextId

/-- Every step keeps the inequalities of the statistics (rule R394 (c), (f)); "at most `commitWidth` commits per tick"
(rule R394 (a)), and none of the nine counts goes back. That at the instruction grain at most one instruction commits and
`tick` stays is the model's own (DESIGN CHOICE, log entries 1 and 12). -/
def Obligations.StatisticsAreKept : Prop :=
  (∀ s t : State, s.StatsConsistent → step s = .next t → t.StatsConsistent) ∧
  (∀ s t : State, step s = .next t →
    s.stats.committed ≤ t.stats.committed ∧ s.stats.branches ≤ t.stats.branches ∧
    s.stats.correctDir ≤ t.stats.correctDir ∧ s.stats.flushes ≤ t.stats.flushes ∧
    s.stats.cacheAccesses ≤ t.stats.cacheAccesses ∧ s.stats.cacheHits ≤ t.stats.cacheHits ∧
    s.stats.cacheMisses ≤ t.stats.cacheMisses ∧ s.stats.totalDelay ≤ t.stats.totalDelay ∧
    s.stats.bytesTransferred ≤ t.stats.bytesTransferred ∧
    (s.grain = .tick → t.stats.committed ≤ s.stats.committed + s.cfg.commitWidth ∧ s.tick ≤ t.tick ∧
      (s.status = .running → t.tick = s.tick + 1)) ∧
    (s.grain = .instruction → t.stats.committed ≤ s.stats.committed + 1 ∧ t.tick = s.tick))

/-- Every step keeps `pc`, every address in flight and every target that fetch may follow a multiple of 4 (rules R382,
R388). -/
def Obligations.PcAlignmentIsKept : Prop :=
  ∀ s t : State, s.PcAligned → step s = .next t → t.PcAligned

/-- `x0` reads as 0 in every state and no step writes its storage (rule R25); every step keeps the value 0 in free pool
registers (rule R32), and the predictor's counters states of their type and its histories within `ghrBits` bits (rule
R42). -/
def Obligations.RangesAreKept : Prop :=
  (∀ s : State, s.readX 0 = 0) ∧ (∀ s t : State, step s = .next t → t.x.get 0 = s.x.get 0) ∧
  (∀ s t : State, s.FreeIsZero → step s = .next t → t.FreeIsZero) ∧
  (∀ s t : State, s.CountersLegal → s.HistoryFits → step s = .next t → t.CountersLegal ∧ t.HistoryFits)

/-- Every step keeps the cache coherent with its geometry and with main memory, and the stores in flight whole accesses
(rule R46 (g), (h), rule R265). -/
def Obligations.CacheCoherenceIsKept : Prop :=
  ∀ s t : State, s.CacheCoherent → s.StoresWhole → step s = .next t → t.CacheCoherent ∧ t.StoresWhole

/-! ## Backward stepping and the stepping interface (`56_cycle_and_rollback.md`) -/

/-- Rules R363 to R367: `Backward` undoes `Forward` of a running state exactly, and changes nothing at tick 0; forward `n`,
backward `n`, forward `n` from the start gives `StateAt(n)`, with one logged state for each tick; and a snapshot of a run,
which has no log, goes backward to the same state as the run itself, `StateAt(tick - 1)`. That loading a snapshot gives an
empty log and that `Backward` without a log leaves it empty is the model's reading (DEDUCED, log entry 19). -/
def Obligations.RoundTrip : Prop :=
  (∀ m : Sim, Valid m.cur.cfg m.cur.prog →
    (m.cur.status = .running → m.forward.bind Sim.backward = .ok m) ∧
    (m.hist = [] → m.cur.tick = 0 → m.backward = .ok m)) ∧
  (∀ (cfg : Cfg) (prog : Prog) (n : Nat), Valid cfg prog → ∃ there earlier,
    (Sim.start cfg prog).bind (Sim.repeat Sim.forward n) = .ok there ∧ stateAt cfg prog n = .ok there.cur ∧
    there.hist.length = there.cur.tick ∧
    (Sim.repeat Sim.backward n there).bind (Sim.repeat Sim.forward n) = .ok there ∧
    there.backward = .ok earlier ∧ stateAt cfg prog (there.cur.tick - 1) = .ok earlier.cur ∧
    Sim.load there.cur = .ok { there with hist := [] } ∧
    ({ there with hist := [] } : Sim).backward = .ok { earlier with hist := [] })

/-- Rules R363, R366, R368 and R369: from wherever a run of a valid pair stands, with its log or as a snapshot of it without
one, `StepTo` gives the state at the target tick, or the terminal state if the run stops before it, and reports the steps
it made in each direction, the final tick and the status. That each step back of a snapshot counts as one `Backward` step
and that no tick its recomputation makes counts as a `Forward` step is the model's reading (DEDUCED, log entry 19). -/
def Obligations.StepToReachesTheTarget : Prop :=
  ∀ (cfg : Cfg) (prog : Prog) (n target : Nat), Valid cfg prog → ∃ m : Sim,
    (Sim.start cfg prog).bind (Sim.repeat Sim.forward n) = .ok m ∧
    ∀ m0 ∈ [m, { m with hist := [] }], ∃ m' report,
      m0.stepTo target = .ok (m', report) ∧ stateAt cfg prog target = .ok m'.cur ∧
      report.tick = m'.cur.tick ∧ report.status = m'.cur.status ∧
      report.forwardSteps = m'.cur.tick - m.cur.tick ∧ report.backwardSteps = m.cur.tick - m'.cur.tick ∧
      (m'.cur.tick = target ∨ (m'.cur.tick < target ∧ m'.cur.status ≠ .running))
end

