-- ==== Sys2Proof/Laws/Bytes.lean ====
section
/-! SUPPORT. The little-endian byte order (`20_memory.md` rule R73): what a word of bytes is, what the bytes of a word are,
and the value each load extends its bytes to (`43_load_store.md` rules R181 to R185). -/

namespace Sys2Proof.Machine

theorem wordOfBytes_one (b : Byte) : wordOfBytes [b] = b.setWidth 32 := by simp [wordOfBytes]

theorem wordOfBytes_two (b0 b1 : Byte) : wordOfBytes [b0, b1] = (b1 ++ b0 : BitVec 16).setWidth 32 := by
  simp only [wordOfBytes]
  ext k hk
  simp
  grind

theorem wordOfBytes_four (b0 b1 b2 b3 : Byte) : wordOfBytes [b0, b1, b2, b3] = (b3 ++ b2 ++ b1 ++ b0 : BitVec 32) := by
  simp only [wordOfBytes]
  ext k hk
  simp
  grind

/-- `lb` (rule R181). -/
theorem extendLoad_byte_signed (b : Byte) : extendLoad 1 true [b] = b.signExtend 32 := by
  simp [extendLoad, wordOfBytes_one]

/-- `lbu` (rule R184). -/
theorem extendLoad_byte_unsigned (b : Byte) : extendLoad 1 false [b] = b.setWidth 32 := by
  simp [extendLoad, wordOfBytes_one]

/-- `lh` (rule R182). -/
theorem extendLoad_half_signed (b0 b1 : Byte) : extendLoad 2 true [b0, b1] = (b1 ++ b0 : BitVec 16).signExtend 32 := by
  simp [extendLoad, wordOfBytes_two]

/-- `lhu` (rule R185). -/
theorem extendLoad_half_unsigned (b0 b1 : Byte) : extendLoad 2 false [b0, b1] = (b1 ++ b0 : BitVec 16).setWidth 32 := by
  simp [extendLoad, wordOfBytes_two]

/-- `lw` (rule R183). -/
theorem extendLoad_word (b0 b1 b2 b3 : Byte) (signed : Bool) :
    extendLoad 4 signed [b0, b1, b2, b3] = (b3 ++ b2 ++ b1 ++ b0 : BitVec 32) := by
  simp [extendLoad, wordOfBytes_four]

/-- The bytes of a word, least significant first. -/
theorem bytesOfWord_eq (n : Nat) : ∀ v : Word, bytesOfWord v n = (List.range n).map fun k => v.extractLsb' (8 * k) 8 := by
  induction n with
  | zero => intro v; rfl
  | succ n ih =>
    intro v
    rw [List.range_succ_eq_map, List.map_cons, List.map_map, bytesOfWord, ih]
    congr 1
    apply List.map_congr_left
    intro k _
    ext j hj
    simp [Function.comp]
    congr 1
    omega

end Sys2Proof.Machine
end

