-- ==== Sys2Proof/Laws/Frames.lean ====
section
/-! SUPPORT. What each stage of the tick may write, said once per stage as one equation: the state after is the state
before with the named components replaced. -/

namespace Sys2Proof.Machine

theorem foldl_rel {α β : Type} {R : β → β → Prop} (hr : ∀ b, R b b) (ht : ∀ {a b c}, R a b → R b c → R a c)
    {g : β → α → β} (h : ∀ b a, R b (g b a)) (l : List α) : ∀ b, R b (l.foldl g b) := by
  induction l with
  | nil => intro b; exact hr b
  | cons a l ih => intro b; exact ht (h b a) (ih (g b a))

/-- Units, reorder buffer, pool, buffer items and windows: what stages 3 and 5 may write (rules R250 to R268). -/
def UnitFrame (s t : State) : Prop :=
  t = { s with
    fu := t.fu, rob := t.rob, pool := t.pool, loadBuffer := t.loadBuffer, storeBuffer := t.storeBuffer, win :=
    t.win }

theorem UnitFrame.refl (s : State) : UnitFrame s s := rfl

theorem UnitFrame.trans {s t u : State} (h1 : UnitFrame s t) (h2 : UnitFrame t u) : UnitFrame s u := by
  unfold UnitFrame at *
  rw [h2, h1]

/-- The memory hierarchy and its statistics: what `Access` and `Replace` may write (rules R303 to R314). -/
def MemFrame (s t : State) : Prop :=
  t = { s with
    mainMem := t.mainMem, cache := t.cache, pendingRepl := t.pendingRepl, accessSeq := t.accessSeq, nextMemId :=
    t.nextMemId, rng := t.rng, stats := t.stats }

theorem MemFrame.refl (s : State) : MemFrame s s := rfl

theorem MemFrame.trans {s t u : State} (h1 : MemFrame s t) (h2 : MemFrame t u) : MemFrame s u := by
  unfold MemFrame at *
  rw [h2, h1]

/-- What stage 4 may write (rules R282 to R290). -/
def LsqFrame (s t : State) : Prop :=
  t = { s with
    fu := t.fu, rob := t.rob, pool := t.pool, loadBuffer := t.loadBuffer, storeBuffer := t.storeBuffer, win :=
    t.win, mainMem := t.mainMem, cache := t.cache, pendingRepl := t.pendingRepl, accessSeq := t.accessSeq,
    nextMemId := t.nextMemId, rng := t.rng, stats := t.stats }

theorem LsqFrame.refl (s : State) : LsqFrame s s := rfl

theorem LsqFrame.trans {s t u : State} (h1 : LsqFrame s t) (h2 : LsqFrame t u) : LsqFrame s u := by
  unfold LsqFrame at *
  rw [h2, h1]

/-- What stage 6 may write (rules R231 to R242). -/
def FrontFrame (s t : State) : Prop :=
  t = { s with
    rob := t.rob, win := t.win, loadBuffer := t.loadBuffer, storeBuffer := t.storeBuffer, decodeBuffer :=
    t.decodeBuffer, pool := t.pool, renameTable := t.renameTable, fetchBuffer := t.fetchBuffer }

theorem FrontFrame.refl (s : State) : FrontFrame s s := rfl

theorem FrontFrame.trans {s t u : State} (h1 : FrontFrame s t) (h2 : FrontFrame t u) : FrontFrame s u := by
  unfold FrontFrame at *
  rw [h2, h1]

/-- What stage 7 may write (rules R201 to R210). -/
def FetchFrame (s t : State) : Prop :=
  t = { s with
    fetchBuffer := t.fetchBuffer, nextId := t.nextId, pc := t.pc, snapshots := t.snapshots, ghr := t.ghr,
    fetchStall := t.fetchStall }

theorem FetchFrame.refl (s : State) : FetchFrame s s := rfl

theorem FetchFrame.trans {s t u : State} (h1 : FetchFrame s t) (h2 : FetchFrame t u) : FetchFrame s u := by
  unfold FetchFrame at *
  rw [h2, h1]

/-- What stages 3 to 7 together may write: no register file, no predictor table, no status (rule R335). -/
def BackFrame (s t : State) : Prop :=
  t = { s with
    fu := t.fu, rob := t.rob, pool := t.pool, loadBuffer := t.loadBuffer, storeBuffer := t.storeBuffer, win :=
    t.win, mainMem := t.mainMem, cache := t.cache, pendingRepl := t.pendingRepl, accessSeq := t.accessSeq,
    nextMemId := t.nextMemId, rng := t.rng, stats := t.stats, decodeBuffer := t.decodeBuffer, renameTable :=
    t.renameTable, fetchBuffer := t.fetchBuffer, nextId := t.nextId, pc := t.pc, snapshots := t.snapshots, ghr
    := t.ghr, fetchStall := t.fetchStall }

theorem BackFrame.refl (s : State) : BackFrame s s := rfl

theorem BackFrame.trans {s t u : State} (h1 : BackFrame s t) (h2 : BackFrame t u) : BackFrame s u := by
  unfold BackFrame at *
  rw [h2, h1]

theorem UnitFrame.grain {s t : State} (h : UnitFrame s t) : t.grain = s.grain := by rw [h]
theorem UnitFrame.cfg {s t : State} (h : UnitFrame s t) : t.cfg = s.cfg := by rw [h]
theorem UnitFrame.prog {s t : State} (h : UnitFrame s t) : t.prog = s.prog := by rw [h]
theorem UnitFrame.x {s t : State} (h : UnitFrame s t) : t.x = s.x := by rw [h]
theorem UnitFrame.f {s t : State} (h : UnitFrame s t) : t.f = s.f := by rw [h]
theorem UnitFrame.pc {s t : State} (h : UnitFrame s t) : t.pc = s.pc := by rw [h]
theorem UnitFrame.nextId {s t : State} (h : UnitFrame s t) : t.nextId = s.nextId := by rw [h]
theorem UnitFrame.tick {s t : State} (h : UnitFrame s t) : t.tick = s.tick := by rw [h]
theorem UnitFrame.renameTable {s t : State} (h : UnitFrame s t) : t.renameTable = s.renameTable := by rw [h]
theorem UnitFrame.fetchBuffer {s t : State} (h : UnitFrame s t) : t.fetchBuffer = s.fetchBuffer := by rw [h]
theorem UnitFrame.fetchStall {s t : State} (h : UnitFrame s t) : t.fetchStall = s.fetchStall := by rw [h]
theorem UnitFrame.decodeBuffer {s t : State} (h : UnitFrame s t) : t.decodeBuffer = s.decodeBuffer := by rw [h]
theorem UnitFrame.mainMem {s t : State} (h : UnitFrame s t) : t.mainMem = s.mainMem := by rw [h]
theorem UnitFrame.cache {s t : State} (h : UnitFrame s t) : t.cache = s.cache := by rw [h]
theorem UnitFrame.pendingRepl {s t : State} (h : UnitFrame s t) : t.pendingRepl = s.pendingRepl := by rw [h]
theorem UnitFrame.accessSeq {s t : State} (h : UnitFrame s t) : t.accessSeq = s.accessSeq := by rw [h]
theorem UnitFrame.nextMemId {s t : State} (h : UnitFrame s t) : t.nextMemId = s.nextMemId := by rw [h]
theorem UnitFrame.rng {s t : State} (h : UnitFrame s t) : t.rng = s.rng := by rw [h]
theorem UnitFrame.pht {s t : State} (h : UnitFrame s t) : t.pht = s.pht := by rw [h]
theorem UnitFrame.ghr {s t : State} (h : UnitFrame s t) : t.ghr = s.ghr := by rw [h]
theorem UnitFrame.snapshots {s t : State} (h : UnitFrame s t) : t.snapshots = s.snapshots := by rw [h]
theorem UnitFrame.btb {s t : State} (h : UnitFrame s t) : t.btb = s.btb := by rw [h]
theorem UnitFrame.status {s t : State} (h : UnitFrame s t) : t.status = s.status := by rw [h]
theorem UnitFrame.haltSeen {s t : State} (h : UnitFrame s t) : t.haltSeen = s.haltSeen := by rw [h]
theorem UnitFrame.excSeen {s t : State} (h : UnitFrame s t) : t.excSeen = s.excSeen := by rw [h]
theorem UnitFrame.stats {s t : State} (h : UnitFrame s t) : t.stats = s.stats := by rw [h]

theorem MemFrame.grain {s t : State} (h : MemFrame s t) : t.grain = s.grain := by rw [h]
theorem MemFrame.cfg {s t : State} (h : MemFrame s t) : t.cfg = s.cfg := by rw [h]
theorem MemFrame.prog {s t : State} (h : MemFrame s t) : t.prog = s.prog := by rw [h]
theorem MemFrame.x {s t : State} (h : MemFrame s t) : t.x = s.x := by rw [h]
theorem MemFrame.f {s t : State} (h : MemFrame s t) : t.f = s.f := by rw [h]
theorem MemFrame.pc {s t : State} (h : MemFrame s t) : t.pc = s.pc := by rw [h]
theorem MemFrame.nextId {s t : State} (h : MemFrame s t) : t.nextId = s.nextId := by rw [h]
theorem MemFrame.tick {s t : State} (h : MemFrame s t) : t.tick = s.tick := by rw [h]
theorem MemFrame.pool {s t : State} (h : MemFrame s t) : t.pool = s.pool := by rw [h]
theorem MemFrame.renameTable {s t : State} (h : MemFrame s t) : t.renameTable = s.renameTable := by rw [h]
theorem MemFrame.fetchBuffer {s t : State} (h : MemFrame s t) : t.fetchBuffer = s.fetchBuffer := by rw [h]
theorem MemFrame.fetchStall {s t : State} (h : MemFrame s t) : t.fetchStall = s.fetchStall := by rw [h]
theorem MemFrame.decodeBuffer {s t : State} (h : MemFrame s t) : t.decodeBuffer = s.decodeBuffer := by rw [h]
theorem MemFrame.rob {s t : State} (h : MemFrame s t) : t.rob = s.rob := by rw [h]
theorem MemFrame.win {s t : State} (h : MemFrame s t) : t.win = s.win := by rw [h]
theorem MemFrame.fu {s t : State} (h : MemFrame s t) : t.fu = s.fu := by rw [h]
theorem MemFrame.loadBuffer {s t : State} (h : MemFrame s t) : t.loadBuffer = s.loadBuffer := by rw [h]
theorem MemFrame.storeBuffer {s t : State} (h : MemFrame s t) : t.storeBuffer = s.storeBuffer := by rw [h]
theorem MemFrame.pht {s t : State} (h : MemFrame s t) : t.pht = s.pht := by rw [h]
theorem MemFrame.ghr {s t : State} (h : MemFrame s t) : t.ghr = s.ghr := by rw [h]
theorem MemFrame.snapshots {s t : State} (h : MemFrame s t) : t.snapshots = s.snapshots := by rw [h]
theorem MemFrame.btb {s t : State} (h : MemFrame s t) : t.btb = s.btb := by rw [h]
theorem MemFrame.status {s t : State} (h : MemFrame s t) : t.status = s.status := by rw [h]
theorem MemFrame.haltSeen {s t : State} (h : MemFrame s t) : t.haltSeen = s.haltSeen := by rw [h]
theorem MemFrame.excSeen {s t : State} (h : MemFrame s t) : t.excSeen = s.excSeen := by rw [h]

theorem LsqFrame.grain {s t : State} (h : LsqFrame s t) : t.grain = s.grain := by rw [h]
theorem LsqFrame.cfg {s t : State} (h : LsqFrame s t) : t.cfg = s.cfg := by rw [h]
theorem LsqFrame.prog {s t : State} (h : LsqFrame s t) : t.prog = s.prog := by rw [h]
theorem LsqFrame.x {s t : State} (h : LsqFrame s t) : t.x = s.x := by rw [h]
theorem LsqFrame.f {s t : State} (h : LsqFrame s t) : t.f = s.f := by rw [h]
theorem LsqFrame.pc {s t : State} (h : LsqFrame s t) : t.pc = s.pc := by rw [h]
theorem LsqFrame.nextId {s t : State} (h : LsqFrame s t) : t.nextId = s.nextId := by rw [h]
theorem LsqFrame.tick {s t : State} (h : LsqFrame s t) : t.tick = s.tick := by rw [h]
theorem LsqFrame.renameTable {s t : State} (h : LsqFrame s t) : t.renameTable = s.renameTable := by rw [h]
theorem LsqFrame.fetchBuffer {s t : State} (h : LsqFrame s t) : t.fetchBuffer = s.fetchBuffer := by rw [h]
theorem LsqFrame.fetchStall {s t : State} (h : LsqFrame s t) : t.fetchStall = s.fetchStall := by rw [h]
theorem LsqFrame.decodeBuffer {s t : State} (h : LsqFrame s t) : t.decodeBuffer = s.decodeBuffer := by rw [h]
theorem LsqFrame.pht {s t : State} (h : LsqFrame s t) : t.pht = s.pht := by rw [h]
theorem LsqFrame.ghr {s t : State} (h : LsqFrame s t) : t.ghr = s.ghr := by rw [h]
theorem LsqFrame.snapshots {s t : State} (h : LsqFrame s t) : t.snapshots = s.snapshots := by rw [h]
theorem LsqFrame.btb {s t : State} (h : LsqFrame s t) : t.btb = s.btb := by rw [h]
theorem LsqFrame.status {s t : State} (h : LsqFrame s t) : t.status = s.status := by rw [h]
theorem LsqFrame.haltSeen {s t : State} (h : LsqFrame s t) : t.haltSeen = s.haltSeen := by rw [h]
theorem LsqFrame.excSeen {s t : State} (h : LsqFrame s t) : t.excSeen = s.excSeen := by rw [h]

theorem FrontFrame.grain {s t : State} (h : FrontFrame s t) : t.grain = s.grain := by rw [h]
theorem FrontFrame.cfg {s t : State} (h : FrontFrame s t) : t.cfg = s.cfg := by rw [h]
theorem FrontFrame.prog {s t : State} (h : FrontFrame s t) : t.prog = s.prog := by rw [h]
theorem FrontFrame.x {s t : State} (h : FrontFrame s t) : t.x = s.x := by rw [h]
theorem FrontFrame.f {s t : State} (h : FrontFrame s t) : t.f = s.f := by rw [h]
theorem FrontFrame.pc {s t : State} (h : FrontFrame s t) : t.pc = s.pc := by rw [h]
theorem FrontFrame.nextId {s t : State} (h : FrontFrame s t) : t.nextId = s.nextId := by rw [h]
theorem FrontFrame.tick {s t : State} (h : FrontFrame s t) : t.tick = s.tick := by rw [h]
theorem FrontFrame.fetchStall {s t : State} (h : FrontFrame s t) : t.fetchStall = s.fetchStall := by rw [h]
theorem FrontFrame.fu {s t : State} (h : FrontFrame s t) : t.fu = s.fu := by rw [h]
theorem FrontFrame.mainMem {s t : State} (h : FrontFrame s t) : t.mainMem = s.mainMem := by rw [h]
theorem FrontFrame.cache {s t : State} (h : FrontFrame s t) : t.cache = s.cache := by rw [h]
theorem FrontFrame.pendingRepl {s t : State} (h : FrontFrame s t) : t.pendingRepl = s.pendingRepl := by rw [h]
theorem FrontFrame.accessSeq {s t : State} (h : FrontFrame s t) : t.accessSeq = s.accessSeq := by rw [h]
theorem FrontFrame.nextMemId {s t : State} (h : FrontFrame s t) : t.nextMemId = s.nextMemId := by rw [h]
theorem FrontFrame.rng {s t : State} (h : FrontFrame s t) : t.rng = s.rng := by rw [h]
theorem FrontFrame.pht {s t : State} (h : FrontFrame s t) : t.pht = s.pht := by rw [h]
theorem FrontFrame.ghr {s t : State} (h : FrontFrame s t) : t.ghr = s.ghr := by rw [h]
theorem FrontFrame.snapshots {s t : State} (h : FrontFrame s t) : t.snapshots = s.snapshots := by rw [h]
theorem FrontFrame.btb {s t : State} (h : FrontFrame s t) : t.btb = s.btb := by rw [h]
theorem FrontFrame.status {s t : State} (h : FrontFrame s t) : t.status = s.status := by rw [h]
theorem FrontFrame.haltSeen {s t : State} (h : FrontFrame s t) : t.haltSeen = s.haltSeen := by rw [h]
theorem FrontFrame.excSeen {s t : State} (h : FrontFrame s t) : t.excSeen = s.excSeen := by rw [h]
theorem FrontFrame.stats {s t : State} (h : FrontFrame s t) : t.stats = s.stats := by rw [h]

theorem FetchFrame.grain {s t : State} (h : FetchFrame s t) : t.grain = s.grain := by rw [h]
theorem FetchFrame.cfg {s t : State} (h : FetchFrame s t) : t.cfg = s.cfg := by rw [h]
theorem FetchFrame.prog {s t : State} (h : FetchFrame s t) : t.prog = s.prog := by rw [h]
theorem FetchFrame.x {s t : State} (h : FetchFrame s t) : t.x = s.x := by rw [h]
theorem FetchFrame.f {s t : State} (h : FetchFrame s t) : t.f = s.f := by rw [h]
theorem FetchFrame.tick {s t : State} (h : FetchFrame s t) : t.tick = s.tick := by rw [h]
theorem FetchFrame.pool {s t : State} (h : FetchFrame s t) : t.pool = s.pool := by rw [h]
theorem FetchFrame.renameTable {s t : State} (h : FetchFrame s t) : t.renameTable = s.renameTable := by rw [h]
theorem FetchFrame.decodeBuffer {s t : State} (h : FetchFrame s t) : t.decodeBuffer = s.decodeBuffer := by rw [h]
theorem FetchFrame.rob {s t : State} (h : FetchFrame s t) : t.rob = s.rob := by rw [h]
theorem FetchFrame.win {s t : State} (h : FetchFrame s t) : t.win = s.win := by rw [h]
theorem FetchFrame.fu {s t : State} (h : FetchFrame s t) : t.fu = s.fu := by rw [h]
theorem FetchFrame.loadBuffer {s t : State} (h : FetchFrame s t) : t.loadBuffer = s.loadBuffer := by rw [h]
theorem FetchFrame.storeBuffer {s t : State} (h : FetchFrame s t) : t.storeBuffer = s.storeBuffer := by rw [h]
theorem FetchFrame.mainMem {s t : State} (h : FetchFrame s t) : t.mainMem = s.mainMem := by rw [h]
theorem FetchFrame.cache {s t : State} (h : FetchFrame s t) : t.cache = s.cache := by rw [h]
theorem FetchFrame.pendingRepl {s t : State} (h : FetchFrame s t) : t.pendingRepl = s.pendingRepl := by rw [h]
theorem FetchFrame.accessSeq {s t : State} (h : FetchFrame s t) : t.accessSeq = s.accessSeq := by rw [h]
theorem FetchFrame.nextMemId {s t : State} (h : FetchFrame s t) : t.nextMemId = s.nextMemId := by rw [h]
theorem FetchFrame.rng {s t : State} (h : FetchFrame s t) : t.rng = s.rng := by rw [h]
theorem FetchFrame.pht {s t : State} (h : FetchFrame s t) : t.pht = s.pht := by rw [h]
theorem FetchFrame.btb {s t : State} (h : FetchFrame s t) : t.btb = s.btb := by rw [h]
theorem FetchFrame.status {s t : State} (h : FetchFrame s t) : t.status = s.status := by rw [h]
theorem FetchFrame.haltSeen {s t : State} (h : FetchFrame s t) : t.haltSeen = s.haltSeen := by rw [h]
theorem FetchFrame.excSeen {s t : State} (h : FetchFrame s t) : t.excSeen = s.excSeen := by rw [h]
theorem FetchFrame.stats {s t : State} (h : FetchFrame s t) : t.stats = s.stats := by rw [h]

theorem BackFrame.grain {s t : State} (h : BackFrame s t) : t.grain = s.grain := by rw [h]
theorem BackFrame.cfg {s t : State} (h : BackFrame s t) : t.cfg = s.cfg := by rw [h]
theorem BackFrame.prog {s t : State} (h : BackFrame s t) : t.prog = s.prog := by rw [h]
theorem BackFrame.x {s t : State} (h : BackFrame s t) : t.x = s.x := by rw [h]
theorem BackFrame.f {s t : State} (h : BackFrame s t) : t.f = s.f := by rw [h]
theorem BackFrame.tick {s t : State} (h : BackFrame s t) : t.tick = s.tick := by rw [h]
theorem BackFrame.pht {s t : State} (h : BackFrame s t) : t.pht = s.pht := by rw [h]
theorem BackFrame.btb {s t : State} (h : BackFrame s t) : t.btb = s.btb := by rw [h]
theorem BackFrame.status {s t : State} (h : BackFrame s t) : t.status = s.status := by rw [h]
theorem BackFrame.haltSeen {s t : State} (h : BackFrame s t) : t.haltSeen = s.haltSeen := by rw [h]
theorem BackFrame.excSeen {s t : State} (h : BackFrame s t) : t.excSeen = s.excSeen := by rw [h]

theorem UnitFrame.toLsqFrame {s t : State} (h : UnitFrame s t) : LsqFrame s t := by
  unfold UnitFrame LsqFrame at *
  rw [h]

theorem MemFrame.toLsqFrame {s t : State} (h : MemFrame s t) : LsqFrame s t := by
  unfold MemFrame LsqFrame at *
  rw [h]

theorem LsqFrame.toBackFrame {s t : State} (h : LsqFrame s t) : BackFrame s t := by
  unfold LsqFrame BackFrame at *
  rw [h]

theorem FrontFrame.toBackFrame {s t : State} (h : FrontFrame s t) : BackFrame s t := by
  unfold FrontFrame BackFrame at *
  rw [h]

theorem FetchFrame.toBackFrame {s t : State} (h : FetchFrame s t) : BackFrame s t := by
  unfold FetchFrame BackFrame at *
  rw [h]

/-! ## Stages 3 and 5 -/

theorem robUpdate_frame (s : State) (id : Nat) (g : DynInst → DynInst) : UnitFrame s (s.robUpdate id g) := rfl
theorem fuUpdate_frame (s : State) (u : Nat) (g : FuState → FuState) : UnitFrame s (s.fuUpdate u g) := rfl
theorem loadUpdate_frame (s : State) (id : Nat) (g : LsItem → LsItem) : UnitFrame s (s.loadUpdate id g) := rfl
theorem storeUpdate_frame (s : State) (id : Nat) (g : LsItem → LsItem) : UnitFrame s (s.storeUpdate id g) := rfl
theorem recordOutcome_frame (s : State) (id : Nat) (b : Bool) (t : Word) : UnitFrame s (s.recordOutcome id b t) := rfl
theorem releaseUnit_frame (s : State) (u id : Nat) : UnitFrame s (s.releaseUnit u id) := rfl
theorem notBusy_frame (s : State) (id : Nat) : UnitFrame s (s.notBusy id) := rfl
theorem occupy_frame (s : State) (u id total : Nat) : UnitFrame s (s.occupy u id total) := rfl
theorem failUnit_frame (s : State) (u id : Nat) (k : ExcKind) : UnitFrame s (s.failUnit u id k) := rfl

theorem writeSpec_frame (s : State) (d : DynInst) (v : Container) : UnitFrame s (s.writeSpec d v) := by
  unfold State.writeSpec; split <;> rfl

theorem completeLoad_frame (s : State) (d : DynInst) (bytes : List Byte) : UnitFrame s (s.completeLoad d bytes) :=
  (writeSpec_frame _ _ _).trans (notBusy_frame _ _)

theorem finishIsa_frame (s : State) (u : Nat) (d : DynInst) (i : Instr) : UnitFrame s (s.finishIsa u d i) := by
  unfold State.finishIsa
  split
  · exact (writeSpec_frame _ _ _).trans (notBusy_frame _ _)
  · exact failUnit_frame _ _ _ _
  · rename_i taken target link _
    refine (recordOutcome_frame s d.id taken target).trans ?_
    simp only
    split
    · exact failUnit_frame _ _ _ _
    · cases link with
      | none => exact notBusy_frame _ _
      | some v => exact (writeSpec_frame _ _ _).trans (notBusy_frame _ _)
  · split
    · exact failUnit_frame _ _ _ _
    · exact loadUpdate_frame _ _ _
  · split
    · exact failUnit_frame _ _ _ _
    · exact (storeUpdate_frame _ _ _).trans (notBusy_frame _ _)

theorem finishNamed_frame (s : State) (u : Nat) (d : DynInst) (n : String) : UnitFrame s (s.finishNamed u d n) := by
  unfold State.finishNamed
  simp only
  split
  · exact failUnit_frame _ _ _ _
  · exact (writeSpec_frame _ _ _).trans (notBusy_frame _ _)

theorem finishMemory_frame (s : State) (d : DynInst) : UnitFrame s (s.finishMemory d) :=
  (completeLoad_frame _ _ _).trans (loadUpdate_frame _ _ _)

theorem finish_frame (s : State) (u : Nat) (t : FuType) (d : DynInst) : UnitFrame s (s.finish u t d) := by
  unfold State.finish
  split
  · exact finishMemory_frame _ _
  all_goals
    split
    · exact finishIsa_frame _ _ _ _
    · exact finishNamed_frame _ _ _ _

theorem unitTick_frame (s : State) (u : Nat) : UnitFrame s (s.unitTick u) := by
  unfold State.unitTick
  split
  · split
    · rfl
    · split
      · rfl
      · rename_i id _ _
        refine (releaseUnit_frame s u id).trans ?_
        simp only
        split
        · exact finish_frame _ _ _ _
        · rfl
  · rfl

/-- Stage 3. -/
theorem units_frame (s : State) : UnitFrame s s.units :=
  foldl_rel UnitFrame.refl UnitFrame.trans unitTick_frame _ s

theorem issueOne_frame (c : IClass) (s : State) (id : Nat) : UnitFrame s (s.issueOne c id) := by
  unfold State.issueOne
  split
  · rfl
  · split
    · split
      · rfl
      · rfl
    · rfl

theorem issueWindow_frame (s : State) (c : IClass) : UnitFrame s (s.issueWindow c) :=
  foldl_rel UnitFrame.refl UnitFrame.trans (issueOne_frame c) _ s

/-- Stage 5. -/
theorem issue_frame (s : State) : UnitFrame s s.issue :=
  (((issueWindow_frame s _).trans (issueWindow_frame _ _)).trans (issueWindow_frame _ _)).trans (issueWindow_frame _ _)

/-! ## The memory hierarchy -/

theorem replace_frame (s : State) (la : Nat) : MemFrame s (s.replace la) := by
  unfold State.replace
  simp only
  split
  · rfl
  · rfl

theorem triggerReplacement_frame (s : State) (la : Nat) : MemFrame s (s.triggerReplacement la) := by
  unfold State.triggerReplacement
  split
  · rfl
  · split
    · exact replace_frame _ _
    · rfl

theorem serveFromMemory_frame (s : State) (a : Nat) (r : Request) : MemFrame s (s.serveFromMemory a r) := by
  cases r <;> rfl

theorem countAccess_frame (s : State) (lat n : Nat) : MemFrame s (s.countAccess lat n) := rfl

theorem accessHit_frame (s : State) (a n : Nat) (r : Request) (set way : Nat) (l : Line) :
    MemFrame s (s.accessHit a n r set way l).1 := rfl

theorem accessMiss_frame (s : State) (a n : Nat) (r : Request) (la : Nat) :
    MemFrame s (s.accessMiss a n r la).1 := by
  unfold State.accessMiss
  refine MemFrame.trans ?_ (countAccess_frame _ _ _)
  refine MemFrame.trans ?_ (triggerReplacement_frame _ _)
  exact MemFrame.trans (t := { s with stats := { s.stats with cacheMisses := s.stats.cacheMisses + 1 } }) rfl
    (serveFromMemory_frame _ _ _)

/-- `Access`. -/
theorem access_frame (s : State) (a n : Nat) (r : Request) : MemFrame s (s.access a n r).1 := by
  unfold State.access
  simp only
  refine MemFrame.trans (t := { s with nextMemId := s.nextMemId + 1 }) rfl ?_
  split
  · refine MemFrame.trans (t := { s with
      nextMemId := s.nextMemId + 1, accessSeq := s.accessSeq + 1,
      stats := { s.stats with cacheAccesses := s.stats.cacheAccesses + 1 } }) rfl ?_
    split
    · split
      · exact accessHit_frame _ _ _ _ _ _ _
      · exact accessMiss_frame _ _ _ _ _
    · exact accessMiss_frame _ _ _ _ _
  · exact (serveFromMemory_frame _ _ _).trans (countAccess_frame _ _ _)

/-- Stage 1. -/
theorem memorySimulate_frame (s : State) : MemFrame s s.memorySimulate := by
  unfold State.memorySimulate
  split
  · simp only
    refine MemFrame.trans (t := { s with pendingRepl := s.pendingRepl.filter fun r => !decide (r.due ≤ s.tick) }) rfl ?_
    exact foldl_rel MemFrame.refl MemFrame.trans (fun b a => replace_frame b _) _ _
  · rfl

/-! ## Stage 4 -/

theorem forwardLoad_frame (s : State) (d : DynInst) (y : LsItem) : UnitFrame s (s.forwardLoad d y) :=
  (completeLoad_frame _ _ _).trans (loadUpdate_frame _ _ _)

theorem startAccess_frame (s : State) (d : DynInst) (a : Word) (n u : Nat) : LsqFrame s (s.startAccess d a n u) := by
  unfold State.startAccess
  simp only
  exact (access_frame s a.toNat n .load).toLsqFrame.trans
    ((loadUpdate_frame _ _ _).trans (occupy_frame _ _ _ _)).toLsqFrame

theorem resolveCandidate_frame (s : State) (d : DynInst) (a : Word) (n : Nat) :
    LsqFrame s (s.resolveCandidate d a n) := by
  unfold State.resolveCandidate
  simp only
  split
  · rfl
  · split
    · split
      · exact (forwardLoad_frame _ _ _).toLsqFrame
      · rfl
    · split
      · exact startAccess_frame _ _ _ _ _
      · rfl

theorem resolveLoad_frame (s : State) (it : LsItem) : LsqFrame s (s.resolveLoad it) := by
  unfold State.resolveLoad
  split
  · split
    · rfl
    · exact resolveCandidate_frame _ _ _ _
  · rfl

/-- Stage 4. -/
theorem resolveBuffers_frame (s : State) : LsqFrame s s.resolveBuffers := by
  unfold State.resolveBuffers State.resolveStores
  have : LsqFrame s s.resolveLoads := foldl_rel LsqFrame.refl LsqFrame.trans resolveLoad_frame _ s
  split <;> exact this

/-! ## Stages 6 and 7 -/

theorem dispatchOne_frame (s : State) (d : DynInst) : FrontFrame s (s.dispatchOne d) := rfl

@[simp] theorem Windows.at_put (w : Windows) (c c' : IClass) (ids : List Nat) :
    (w.put c ids).at c' = if c' = c then ids else w.at c' := by
  cases c <;> cases c' <;> rfl

/-- An instruction is not blocked exactly where everything it goes to has a free place (rule R241). -/
theorem dispatchBlocked_eq_false_iff (s : State) (d : DynInst) :
    s.dispatchBlocked d = false ↔
      s.rob.length < s.cfg.robSize ∧ (s.win.at (insClass d.ins)).length < s.cfg.iwSize ∧
      (isLoad d.ins = true → s.loadBuffer.length < s.cfg.lbSize) ∧
      (isStore d.ins = true → s.storeBuffer.length < s.cfg.sbSize) := by
  unfold State.dispatchBlocked
  simp only [Bool.or_eq_false_iff, Bool.and_eq_false_imp, decide_eq_false_iff_not, Nat.not_le, and_assoc]

theorem dispatchLoop_frame (ds : List DynInst) : ∀ s, FrontFrame s (dispatchLoop ds s) := by
  induction ds with
  | nil => intro s; rfl
  | cons d ds ih =>
    intro s
    unfold dispatchLoop
    split
    · rfl
    · exact (dispatchOne_frame s d).trans (ih _)

theorem dispatch_frame (s : State) : FrontFrame s s.dispatch := dispatchLoop_frame _ s

theorem renameOne_frame (s : State) (d : DynInst) : FrontFrame s (s.renameOne d) := by
  unfold State.renameOne
  simp only
  split <;> rfl

theorem rename_frame (s : State) : FrontFrame s s.rename := by
  unfold State.rename
  split
  · exact FrontFrame.trans (t := { s with fetchBuffer := [] }) rfl
      (foldl_rel FrontFrame.refl FrontFrame.trans renameOne_frame _ _)
  · rfl

/-- Stage 6. -/
theorem dispatch_rename_frame (s : State) : FrontFrame s s.dispatch.rename :=
  (dispatchLoop_frame _ s).trans (rename_frame _)

theorem fetchLoop_frame (n : Nat) : ∀ k s, FetchFrame s (fetchLoop n k s) := by
  induction n with
  | zero => intro k s; rfl
  | succ n ih =>
    intro k s
    unfold fetchLoop
    split
    · rfl
    · split
      · split
        · rfl
        · exact FetchFrame.trans (t := s.fetchTransfer _) rfl (ih _ _)
      · exact FetchFrame.trans (t := s.fetchPlain _) rfl (ih _ _)

/-- Stage 7. -/
theorem fetch_frame (s : State) : FetchFrame s s.fetch := by
  unfold State.fetch
  split
  · rfl
  · split
    · rfl
    · exact fetchLoop_frame _ _ _

/-! ## Stages 3 to 7 -/

/-- Stages 3 to 7 of a tick (rule R355). -/
def State.afterCommit (s : State) : State := s.units.resolveBuffers.issue.dispatch.rename.fetch

theorem afterCommit_frame (s : State) : BackFrame s s.afterCommit :=
  ((((units_frame s).toLsqFrame.toBackFrame.trans (resolveBuffers_frame _).toBackFrame).trans
    (issue_frame _).toLsqFrame.toBackFrame).trans (dispatch_rename_frame _).toBackFrame).trans
    (fetch_frame _).toBackFrame

theorem stages_eq (s : State) : s.stages = s.startTick.memorySimulate.commit.afterCommit.evalStop := rfl

end Sys2Proof.Machine
end

