-- ==== Sys2Proof/Laws/Memory.lean ====
section
/-! SUPPORT. The laws of main memory: read after write, and every operation keeps the canonical form. -/

namespace Sys2Proof.Machine

theorem Memory.read_filter_ne (m : Memory) (a c : Nat) :
    Memory.read (m.filter fun e => decide (e.1 ≠ a)) c = if c = a then unlistedByte else m.read c := by
  induction m with
  | nil => simp [Memory.read]
  | cons e m ih =>
    obtain ⟨k, v⟩ := e
    by_cases hk : k = a
    · subst hk
      simp only [ne_eq, not_true, decide_false, Bool.false_eq_true, not_false_eq_true, List.filter_cons_of_neg, ih,
        Memory.read]
      split
      · rfl
      · rw [if_neg (by omega)]
    · simp only [ne_eq, hk, not_false_eq_true, decide_true, List.filter_cons_of_pos, Memory.read]
      by_cases hc : k = c
      · subst hc; simp [hk]
      · simp only [hc, if_false]; exact ih

theorem Memory.read_insert (m : Memory) (a c : Nat) (b : Byte) (h : m.read a = unlistedByte) (hm : ∀ e ∈ m, e.1 ≠ a) :
    Memory.read (Memory.insert m a b) c = if c = a then b else m.read c := by
  induction m with
  | nil => simp only [Memory.insert, Memory.read, eq_comm]
  | cons e m ih =>
    obtain ⟨k, v⟩ := e
    have hk : k ≠ a := hm (k, v) (by simp)
    simp only [Memory.insert]
    split
    · simp only [Memory.read, eq_comm]
    · have hr : Memory.read m a = unlistedByte := by simpa [Memory.read, hk] using h
      have := ih hr (fun e he => hm e (by simp [he]))
      simp only [Memory.read]
      by_cases hc : k = c
      · subst hc; simp [hk]
      · simp only [hc, if_false]; exact this

/-- Read after write: the byte written at its address, every other byte as before. -/
theorem Memory.read_write (m : Memory) (a c : Nat) (b : Byte) :
    Memory.read (m.write a b) c = if c = a then b else m.read c := by
  unfold Memory.write
  have hf := Memory.read_filter_ne m a
  simp only
  split
  · rename_i hb; rw [hf, hb]
  · rw [Memory.read_insert _ _ _ _ (by rw [hf]; simp) (by simp [List.mem_filter]), hf]
    split <;> simp_all

theorem Memory.read_writeBytes (bs : List Byte) : ∀ (m : Memory) (a c : Nat),
    Memory.read (m.writeBytes a bs) c = if a ≤ c ∧ c < a + bs.length then bs.getD (c - a) 0 else m.read c := by
  induction bs with
  | nil => intro m a c; simp [Memory.writeBytes]
  | cons b bs ih =>
    intro m a c
    simp only [Memory.writeBytes, ih, Memory.read_write, List.length_cons]
    by_cases h : c = a
    · subst h
      rw [if_neg (by omega), if_pos rfl, if_pos (by omega)]; simp
    · by_cases h2 : a + 1 ≤ c ∧ c < a + 1 + bs.length
      · rw [if_pos h2, if_pos (by omega)]
        obtain ⟨n, rfl⟩ : ∃ n, c = a + 1 + n := ⟨c - a - 1, by omega⟩
        simp [show a + 1 + n - a = n + 1 by omega]
      · rw [if_neg h2, if_neg h, if_neg (by omega)]

@[simp] theorem Memory.length_readBytes (m : Memory) (n : Nat) : ∀ a, (m.readBytes a n).length = n := by
  induction n with
  | zero => intro a; rfl
  | succ n ih => intro a; simp [Memory.readBytes, ih]

theorem Memory.getD_readBytes (m : Memory) (n : Nat) : ∀ a i, i < n → (m.readBytes a n).getD i 0 = m.read (a + i) := by
  induction n with
  | zero => intro a i h; omega
  | succ n ih =>
    intro a i h
    cases i with
    | zero => simp [Memory.readBytes]
    | succ i =>
      simp only [Memory.readBytes, List.getD_cons_succ]
      rw [ih (a + 1) i (by omega)]; congr 1; omega

/-! ## The canonical form -/

theorem Memory.wf_cons {k : Nat} {v : Byte} {m : Memory} :
    Memory.wf ((k, v) :: m) = true ↔ v ≠ unlistedByte ∧ (∀ c ∈ m, k < c.1) ∧ Memory.wf m = true := by
  simp [Memory.wf, and_assoc]

theorem Memory.wf_filter (p : Host.Cell → Bool) {m : Memory} (h : m.wf = true) :
    Memory.wf (m.filter p) = true := by
  induction m with
  | nil => rfl
  | cons e m ih =>
    obtain ⟨k, v⟩ := e
    obtain ⟨hv, hk, hm⟩ := Memory.wf_cons.mp h
    by_cases hp : p (k, v) = true
    · rw [List.filter_cons_of_pos hp, Memory.wf_cons]
      exact ⟨hv, fun c hc => hk c (List.mem_filter.mp hc).1, ih hm⟩
    · rw [List.filter_cons_of_neg hp]; exact ih hm

theorem Memory.mem_insert {m : Memory} {a : Nat} {b : Byte} {c : Host.Cell} (h : c ∈ Memory.insert m a b) :
    c = (a, b) ∨ c ∈ m := by
  induction m with
  | nil => simpa [Memory.insert] using h
  | cons e m ih =>
    obtain ⟨k, v⟩ := e
    simp only [Memory.insert] at h
    split at h
    · simpa using h
    · rcases List.mem_cons.mp h with h | h
      · exact .inr (by simp [h])
      · rcases ih h with h | h
        · exact .inl h
        · exact .inr (by simp [h])

theorem Memory.wf_insert {m : Memory} {a : Nat} {b : Byte} (h : m.wf = true) (hb : b ≠ unlistedByte)
    (hm : ∀ e ∈ m, e.1 ≠ a) : Memory.wf (Memory.insert m a b) = true := by
  induction m with
  | nil => simp [Memory.insert, Memory.wf, hb]
  | cons e m ih =>
    obtain ⟨k, v⟩ := e
    obtain ⟨hv, hk, hm'⟩ := Memory.wf_cons.mp h
    have hka : k ≠ a := hm (k, v) (by simp)
    simp only [Memory.insert]
    split
    · rw [Memory.wf_cons]
      refine ⟨hb, ?_, h⟩
      intro c hc
      rcases List.mem_cons.mp hc with rfl | hc
      · assumption
      · have := hk c hc; omega
    · rw [Memory.wf_cons]
      refine ⟨hv, ?_, ih hm' (fun e he => hm e (by simp [he]))⟩
      intro c hc
      rcases Memory.mem_insert hc with rfl | hc
      · show k < a; omega
      · exact hk c hc

/-- A write keeps the canonical form. -/
theorem Memory.wf_write {m : Memory} (h : m.wf = true) (a : Nat) (b : Byte) : Memory.wf (m.write a b) = true := by
  unfold Memory.write
  simp only
  split
  · exact Memory.wf_filter _ h
  · exact Memory.wf_insert (Memory.wf_filter _ h) (by assumption) (by simp [List.mem_filter])

/-- So does a write of several bytes. -/
theorem Memory.wf_writeBytes (bs : List Byte) : ∀ {m : Memory}, m.wf = true → ∀ a, Memory.wf (m.writeBytes a bs) = true := by
  induction bs with
  | nil => intro m h a; exact h
  | cons b bs ih => intro m h a; exact ih (Memory.wf_write h a b) (a + 1)

theorem Memory.read_eq_unlisted {m : Memory} {a : Nat} (h : ∀ c ∈ m, c.1 ≠ a) : m.read a = unlistedByte := by
  induction m with
  | nil => rfl
  | cons e m ih =>
    obtain ⟨k, v⟩ := e
    have hk : k ≠ a := h (k, v) (by simp)
    simp only [Memory.read, hk, if_false]
    exact ih fun c hc => h c (by simp [hc])

/-- In the canonical form, equal reads are equal data. -/
theorem Memory.eq_of_read {m : Memory} : ∀ {n : Memory}, m.wf = true → n.wf = true → (∀ a, m.read a = n.read a) → m = n := by
  induction m with
  | nil =>
    intro n _ hn h
    cases n with
    | nil => rfl
    | cons e n =>
      obtain ⟨k, v⟩ := e
      have := h k
      simp only [Memory.read, if_true] at this
      exact absurd this.symm (Memory.wf_cons.mp hn).1
  | cons e m ih =>
    obtain ⟨k, v⟩ := e
    intro n hm hn h
    cases n with
    | nil =>
      have := h k
      simp only [Memory.read, if_true] at this
      exact absurd this (Memory.wf_cons.mp hm).1
    | cons e' n =>
      obtain ⟨k', v'⟩ := e'
      obtain ⟨hv, hk, hm'⟩ := Memory.wf_cons.mp hm
      obtain ⟨hv', hk', hn'⟩ := Memory.wf_cons.mp hn
      have low : ∀ {j : Nat} {l : Memory}, (∀ c ∈ l, j < c.1) → l.read j = unlistedByte := fun hl =>
        Memory.read_eq_unlisted fun c hc => by have := hl c hc; omega
      have hkk : k = k' := by
        rcases Nat.lt_trichotomy k k' with hlt | heq | hgt
        · have h1 := h k
          simp only [Memory.read, if_true, show ¬ k' = k by omega, if_false] at h1
          rw [low fun c hc => by have := hk' c hc; omega] at h1
          exact absurd h1 hv
        · exact heq
        · have h1 := h k'
          simp only [Memory.read, if_true, show ¬ k = k' by omega, if_false] at h1
          rw [low fun c hc => by have := hk c hc; omega] at h1
          exact absurd h1.symm hv'
      subst hkk
      have hvv : v = v' := by simpa [Memory.read] using h k
      subst hvv
      congr 1
      refine ih hm' hn' fun a => ?_
      by_cases ha : k = a
      · subst ha; rw [low hk, low hk']
      · simpa [Memory.read, ha] using h a

/-! ## Bytes and words -/

@[simp] theorem length_bytesOfWord (n : Nat) : ∀ v, (bytesOfWord v n).length = n := by
  induction n with
  | zero => intro v; rfl
  | succ n ih => intro v; simp [bytesOfWord, ih]

end Sys2Proof.Machine
end

