-- ==== Sys2Proof/Laws/State.lean ====
section
/-! SUPPORT. One lemma per field of `State` for each update of the architectural level, so that no proof unfolds a record
update; then what `writeX` leaves. -/

namespace Sys2Proof.Machine

variable (s : State)

@[simp] theorem State.takeException_grain (k : ExcKind) : (s.takeException k).grain = s.grain := rfl
@[simp] theorem State.takeException_cfg (k : ExcKind) : (s.takeException k).cfg = s.cfg := rfl
@[simp] theorem State.takeException_prog (k : ExcKind) : (s.takeException k).prog = s.prog := rfl
@[simp] theorem State.takeException_x (k : ExcKind) : (s.takeException k).x = s.x := rfl
@[simp] theorem State.takeException_f (k : ExcKind) : (s.takeException k).f = s.f := rfl
@[simp] theorem State.takeException_pc (k : ExcKind) : (s.takeException k).pc = s.pc := rfl
@[simp] theorem State.takeException_nextId (k : ExcKind) : (s.takeException k).nextId = s.nextId := rfl
@[simp] theorem State.takeException_tick (k : ExcKind) : (s.takeException k).tick = s.tick := rfl
@[simp] theorem State.takeException_pool (k : ExcKind) : (s.takeException k).pool = s.pool := rfl
@[simp] theorem State.takeException_renameTable (k : ExcKind) : (s.takeException k).renameTable = s.renameTable := rfl
@[simp] theorem State.takeException_fetchBuffer (k : ExcKind) : (s.takeException k).fetchBuffer = s.fetchBuffer := rfl
@[simp] theorem State.takeException_fetchStall (k : ExcKind) : (s.takeException k).fetchStall = s.fetchStall := rfl
@[simp] theorem State.takeException_decodeBuffer (k : ExcKind) : (s.takeException k).decodeBuffer = s.decodeBuffer := rfl
@[simp] theorem State.takeException_rob (k : ExcKind) : (s.takeException k).rob = s.rob := rfl
@[simp] theorem State.takeException_win (k : ExcKind) : (s.takeException k).win = s.win := rfl
@[simp] theorem State.takeException_fu (k : ExcKind) : (s.takeException k).fu = s.fu := rfl
@[simp] theorem State.takeException_loadBuffer (k : ExcKind) : (s.takeException k).loadBuffer = s.loadBuffer := rfl
@[simp] theorem State.takeException_storeBuffer (k : ExcKind) : (s.takeException k).storeBuffer = s.storeBuffer := rfl
@[simp] theorem State.takeException_mainMem (k : ExcKind) : (s.takeException k).mainMem = s.mainMem := rfl
@[simp] theorem State.takeException_cache (k : ExcKind) : (s.takeException k).cache = s.cache := rfl
@[simp] theorem State.takeException_pendingRepl (k : ExcKind) : (s.takeException k).pendingRepl = s.pendingRepl := rfl
@[simp] theorem State.takeException_accessSeq (k : ExcKind) : (s.takeException k).accessSeq = s.accessSeq := rfl
@[simp] theorem State.takeException_nextMemId (k : ExcKind) : (s.takeException k).nextMemId = s.nextMemId := rfl
@[simp] theorem State.takeException_rng (k : ExcKind) : (s.takeException k).rng = s.rng := rfl
@[simp] theorem State.takeException_pht (k : ExcKind) : (s.takeException k).pht = s.pht := rfl
@[simp] theorem State.takeException_ghr (k : ExcKind) : (s.takeException k).ghr = s.ghr := rfl
@[simp] theorem State.takeException_snapshots (k : ExcKind) : (s.takeException k).snapshots = s.snapshots := rfl
@[simp] theorem State.takeException_btb (k : ExcKind) : (s.takeException k).btb = s.btb := rfl
@[simp] theorem State.takeException_status (k : ExcKind) : (s.takeException k).status = s.status := rfl
@[simp] theorem State.takeException_haltSeen (k : ExcKind) : (s.takeException k).haltSeen = s.haltSeen := rfl
@[simp] theorem State.takeException_excSeen (k : ExcKind) : (s.takeException k).excSeen = some k := rfl
@[simp] theorem State.takeException_stats (k : ExcKind) : (s.takeException k).stats = s.stats := rfl

@[simp] theorem State.retire_grain (n : Word) : (s.retire n).grain = s.grain := rfl
@[simp] theorem State.retire_cfg (n : Word) : (s.retire n).cfg = s.cfg := rfl
@[simp] theorem State.retire_prog (n : Word) : (s.retire n).prog = s.prog := rfl
@[simp] theorem State.retire_x (n : Word) : (s.retire n).x = s.x := rfl
@[simp] theorem State.retire_f (n : Word) : (s.retire n).f = s.f := rfl
@[simp] theorem State.retire_pc (n : Word) : (s.retire n).pc = n := rfl
@[simp] theorem State.retire_nextId (n : Word) : (s.retire n).nextId = s.nextId := rfl
@[simp] theorem State.retire_tick (n : Word) : (s.retire n).tick = s.tick := rfl
@[simp] theorem State.retire_pool (n : Word) : (s.retire n).pool = s.pool := rfl
@[simp] theorem State.retire_renameTable (n : Word) : (s.retire n).renameTable = s.renameTable := rfl
@[simp] theorem State.retire_fetchBuffer (n : Word) : (s.retire n).fetchBuffer = s.fetchBuffer := rfl
@[simp] theorem State.retire_fetchStall (n : Word) : (s.retire n).fetchStall = s.fetchStall := rfl
@[simp] theorem State.retire_decodeBuffer (n : Word) : (s.retire n).decodeBuffer = s.decodeBuffer := rfl
@[simp] theorem State.retire_rob (n : Word) : (s.retire n).rob = s.rob := rfl
@[simp] theorem State.retire_win (n : Word) : (s.retire n).win = s.win := rfl
@[simp] theorem State.retire_fu (n : Word) : (s.retire n).fu = s.fu := rfl
@[simp] theorem State.retire_loadBuffer (n : Word) : (s.retire n).loadBuffer = s.loadBuffer := rfl
@[simp] theorem State.retire_storeBuffer (n : Word) : (s.retire n).storeBuffer = s.storeBuffer := rfl
@[simp] theorem State.retire_mainMem (n : Word) : (s.retire n).mainMem = s.mainMem := rfl
@[simp] theorem State.retire_cache (n : Word) : (s.retire n).cache = s.cache := rfl
@[simp] theorem State.retire_pendingRepl (n : Word) : (s.retire n).pendingRepl = s.pendingRepl := rfl
@[simp] theorem State.retire_accessSeq (n : Word) : (s.retire n).accessSeq = s.accessSeq := rfl
@[simp] theorem State.retire_nextMemId (n : Word) : (s.retire n).nextMemId = s.nextMemId := rfl
@[simp] theorem State.retire_rng (n : Word) : (s.retire n).rng = s.rng := rfl
@[simp] theorem State.retire_pht (n : Word) : (s.retire n).pht = s.pht := rfl
@[simp] theorem State.retire_ghr (n : Word) : (s.retire n).ghr = s.ghr := rfl
@[simp] theorem State.retire_snapshots (n : Word) : (s.retire n).snapshots = s.snapshots := rfl
@[simp] theorem State.retire_btb (n : Word) : (s.retire n).btb = s.btb := rfl
@[simp] theorem State.retire_status (n : Word) : (s.retire n).status = s.status := rfl
@[simp] theorem State.retire_haltSeen (n : Word) : (s.retire n).haltSeen = s.haltSeen := rfl
@[simp] theorem State.retire_excSeen (n : Word) : (s.retire n).excSeen = s.excSeen := rfl
@[simp] theorem State.retire_stats (n : Word) : (s.retire n).stats = { s.stats with committed := s.stats.committed + 1 } := rfl

@[simp] theorem State.retireTransfer_grain (b : Bool) (p n : Word) : (s.retireTransfer b p n).grain = s.grain := rfl
@[simp] theorem State.retireTransfer_cfg (b : Bool) (p n : Word) : (s.retireTransfer b p n).cfg = s.cfg := rfl
@[simp] theorem State.retireTransfer_prog (b : Bool) (p n : Word) : (s.retireTransfer b p n).prog = s.prog := rfl
@[simp] theorem State.retireTransfer_x (b : Bool) (p n : Word) : (s.retireTransfer b p n).x = s.x := rfl
@[simp] theorem State.retireTransfer_f (b : Bool) (p n : Word) : (s.retireTransfer b p n).f = s.f := rfl
@[simp] theorem State.retireTransfer_pc (b : Bool) (p n : Word) : (s.retireTransfer b p n).pc = n := rfl
@[simp] theorem State.retireTransfer_nextId (b : Bool) (p n : Word) : (s.retireTransfer b p n).nextId = s.nextId := rfl
@[simp] theorem State.retireTransfer_tick (b : Bool) (p n : Word) : (s.retireTransfer b p n).tick = s.tick := rfl
@[simp] theorem State.retireTransfer_pool (b : Bool) (p n : Word) : (s.retireTransfer b p n).pool = s.pool := rfl
@[simp] theorem State.retireTransfer_renameTable (b : Bool) (p n : Word) : (s.retireTransfer b p n).renameTable = s.renameTable := rfl
@[simp] theorem State.retireTransfer_fetchBuffer (b : Bool) (p n : Word) : (s.retireTransfer b p n).fetchBuffer = s.fetchBuffer := rfl
@[simp] theorem State.retireTransfer_fetchStall (b : Bool) (p n : Word) : (s.retireTransfer b p n).fetchStall = s.fetchStall := rfl
@[simp] theorem State.retireTransfer_decodeBuffer (b : Bool) (p n : Word) : (s.retireTransfer b p n).decodeBuffer = s.decodeBuffer := rfl
@[simp] theorem State.retireTransfer_rob (b : Bool) (p n : Word) : (s.retireTransfer b p n).rob = s.rob := rfl
@[simp] theorem State.retireTransfer_win (b : Bool) (p n : Word) : (s.retireTransfer b p n).win = s.win := rfl
@[simp] theorem State.retireTransfer_fu (b : Bool) (p n : Word) : (s.retireTransfer b p n).fu = s.fu := rfl
@[simp] theorem State.retireTransfer_loadBuffer (b : Bool) (p n : Word) : (s.retireTransfer b p n).loadBuffer = s.loadBuffer := rfl
@[simp] theorem State.retireTransfer_storeBuffer (b : Bool) (p n : Word) : (s.retireTransfer b p n).storeBuffer = s.storeBuffer := rfl
@[simp] theorem State.retireTransfer_mainMem (b : Bool) (p n : Word) : (s.retireTransfer b p n).mainMem = s.mainMem := rfl
@[simp] theorem State.retireTransfer_cache (b : Bool) (p n : Word) : (s.retireTransfer b p n).cache = s.cache := rfl
@[simp] theorem State.retireTransfer_pendingRepl (b : Bool) (p n : Word) : (s.retireTransfer b p n).pendingRepl = s.pendingRepl := rfl
@[simp] theorem State.retireTransfer_accessSeq (b : Bool) (p n : Word) : (s.retireTransfer b p n).accessSeq = s.accessSeq := rfl
@[simp] theorem State.retireTransfer_nextMemId (b : Bool) (p n : Word) : (s.retireTransfer b p n).nextMemId = s.nextMemId := rfl
@[simp] theorem State.retireTransfer_rng (b : Bool) (p n : Word) : (s.retireTransfer b p n).rng = s.rng := rfl
@[simp] theorem State.retireTransfer_pht (b : Bool) (p n : Word) : (s.retireTransfer b p n).pht = s.pht := rfl
@[simp] theorem State.retireTransfer_ghr (b : Bool) (p n : Word) : (s.retireTransfer b p n).ghr = s.ghr := rfl
@[simp] theorem State.retireTransfer_snapshots (b : Bool) (p n : Word) : (s.retireTransfer b p n).snapshots = s.snapshots := rfl
@[simp] theorem State.retireTransfer_btb (b : Bool) (p n : Word) : (s.retireTransfer b p n).btb = s.btb := rfl
@[simp] theorem State.retireTransfer_status (b : Bool) (p n : Word) : (s.retireTransfer b p n).status = s.status := rfl
@[simp] theorem State.retireTransfer_haltSeen (b : Bool) (p n : Word) : (s.retireTransfer b p n).haltSeen = (s.haltSeen || (b && decide (p = s.cfg.exitAddress))) := rfl
@[simp] theorem State.retireTransfer_excSeen (b : Bool) (p n : Word) : (s.retireTransfer b p n).excSeen = s.excSeen := rfl
@[simp] theorem State.retireTransfer_stats (b : Bool) (p n : Word) : (s.retireTransfer b p n).stats = { s.stats with committed := s.stats.committed + 1, branches := s.stats.branches + 1 } := rfl

@[simp] theorem State.evalStop_grain : (s.evalStop).grain = s.grain := rfl
@[simp] theorem State.evalStop_cfg : (s.evalStop).cfg = s.cfg := rfl
@[simp] theorem State.evalStop_prog : (s.evalStop).prog = s.prog := rfl
@[simp] theorem State.evalStop_x : (s.evalStop).x = s.x := rfl
@[simp] theorem State.evalStop_f : (s.evalStop).f = s.f := rfl
@[simp] theorem State.evalStop_pc : (s.evalStop).pc = s.pc := rfl
@[simp] theorem State.evalStop_nextId : (s.evalStop).nextId = s.nextId := rfl
@[simp] theorem State.evalStop_tick : (s.evalStop).tick = s.tick := rfl
@[simp] theorem State.evalStop_pool : (s.evalStop).pool = s.pool := rfl
@[simp] theorem State.evalStop_renameTable : (s.evalStop).renameTable = s.renameTable := rfl
@[simp] theorem State.evalStop_fetchBuffer : (s.evalStop).fetchBuffer = s.fetchBuffer := rfl
@[simp] theorem State.evalStop_fetchStall : (s.evalStop).fetchStall = s.fetchStall := rfl
@[simp] theorem State.evalStop_decodeBuffer : (s.evalStop).decodeBuffer = s.decodeBuffer := rfl
@[simp] theorem State.evalStop_rob : (s.evalStop).rob = s.rob := rfl
@[simp] theorem State.evalStop_win : (s.evalStop).win = s.win := rfl
@[simp] theorem State.evalStop_fu : (s.evalStop).fu = s.fu := rfl
@[simp] theorem State.evalStop_loadBuffer : (s.evalStop).loadBuffer = s.loadBuffer := rfl
@[simp] theorem State.evalStop_storeBuffer : (s.evalStop).storeBuffer = s.storeBuffer := rfl
@[simp] theorem State.evalStop_mainMem : (s.evalStop).mainMem = s.mainMem := rfl
@[simp] theorem State.evalStop_cache : (s.evalStop).cache = s.cache := rfl
@[simp] theorem State.evalStop_pendingRepl : (s.evalStop).pendingRepl = s.pendingRepl := rfl
@[simp] theorem State.evalStop_accessSeq : (s.evalStop).accessSeq = s.accessSeq := rfl
@[simp] theorem State.evalStop_nextMemId : (s.evalStop).nextMemId = s.nextMemId := rfl
@[simp] theorem State.evalStop_rng : (s.evalStop).rng = s.rng := rfl
@[simp] theorem State.evalStop_pht : (s.evalStop).pht = s.pht := rfl
@[simp] theorem State.evalStop_ghr : (s.evalStop).ghr = s.ghr := rfl
@[simp] theorem State.evalStop_snapshots : (s.evalStop).snapshots = s.snapshots := rfl
@[simp] theorem State.evalStop_btb : (s.evalStop).btb = s.btb := rfl
@[simp] theorem State.evalStop_status : (s.evalStop).status = s.stopReason := rfl
@[simp] theorem State.evalStop_haltSeen : (s.evalStop).haltSeen = s.haltSeen := rfl
@[simp] theorem State.evalStop_excSeen : (s.evalStop).excSeen = s.excSeen := rfl
@[simp] theorem State.evalStop_stats : (s.evalStop).stats = s.stats := rfl

@[simp] theorem State.startTick_grain : (s.startTick).grain = s.grain := rfl
@[simp] theorem State.startTick_cfg : (s.startTick).cfg = s.cfg := rfl
@[simp] theorem State.startTick_prog : (s.startTick).prog = s.prog := rfl
@[simp] theorem State.startTick_x : (s.startTick).x = s.x := rfl
@[simp] theorem State.startTick_f : (s.startTick).f = s.f := rfl
@[simp] theorem State.startTick_pc : (s.startTick).pc = s.pc := rfl
@[simp] theorem State.startTick_nextId : (s.startTick).nextId = s.nextId := rfl
@[simp] theorem State.startTick_tick : (s.startTick).tick = s.tick + 1 := rfl
@[simp] theorem State.startTick_pool : (s.startTick).pool = s.pool := rfl
@[simp] theorem State.startTick_renameTable : (s.startTick).renameTable = s.renameTable := rfl
@[simp] theorem State.startTick_fetchBuffer : (s.startTick).fetchBuffer = s.fetchBuffer := rfl
@[simp] theorem State.startTick_fetchStall : (s.startTick).fetchStall = s.fetchStall := rfl
@[simp] theorem State.startTick_decodeBuffer : (s.startTick).decodeBuffer = s.decodeBuffer := rfl
@[simp] theorem State.startTick_rob : (s.startTick).rob = s.rob := rfl
@[simp] theorem State.startTick_win : (s.startTick).win = s.win := rfl
@[simp] theorem State.startTick_fu : (s.startTick).fu = s.fu := rfl
@[simp] theorem State.startTick_loadBuffer : (s.startTick).loadBuffer = s.loadBuffer := rfl
@[simp] theorem State.startTick_storeBuffer : (s.startTick).storeBuffer = s.storeBuffer := rfl
@[simp] theorem State.startTick_mainMem : (s.startTick).mainMem = s.mainMem := rfl
@[simp] theorem State.startTick_cache : (s.startTick).cache = s.cache := rfl
@[simp] theorem State.startTick_pendingRepl : (s.startTick).pendingRepl = s.pendingRepl := rfl
@[simp] theorem State.startTick_accessSeq : (s.startTick).accessSeq = s.accessSeq := rfl
@[simp] theorem State.startTick_nextMemId : (s.startTick).nextMemId = s.nextMemId := rfl
@[simp] theorem State.startTick_rng : (s.startTick).rng = s.rng := rfl
@[simp] theorem State.startTick_pht : (s.startTick).pht = s.pht := rfl
@[simp] theorem State.startTick_ghr : (s.startTick).ghr = s.ghr := rfl
@[simp] theorem State.startTick_snapshots : (s.startTick).snapshots = s.snapshots := rfl
@[simp] theorem State.startTick_btb : (s.startTick).btb = s.btb := rfl
@[simp] theorem State.startTick_status : (s.startTick).status = s.status := rfl
@[simp] theorem State.startTick_haltSeen : (s.startTick).haltSeen = s.haltSeen := rfl
@[simp] theorem State.startTick_excSeen : (s.startTick).excSeen = s.excSeen := rfl
@[simp] theorem State.startTick_stats : (s.startTick).stats = s.stats := rfl

@[simp] theorem State.writeX_grain (r : Reg) (v : Word) : (s.writeX r v).grain = s.grain := by
  unfold State.writeX; split <;> rfl
@[simp] theorem State.writeX_cfg (r : Reg) (v : Word) : (s.writeX r v).cfg = s.cfg := by
  unfold State.writeX; split <;> rfl
@[simp] theorem State.writeX_prog (r : Reg) (v : Word) : (s.writeX r v).prog = s.prog := by
  unfold State.writeX; split <;> rfl
@[simp] theorem State.writeX_f (r : Reg) (v : Word) : (s.writeX r v).f = s.f := by
  unfold State.writeX; split <;> rfl
@[simp] theorem State.writeX_pc (r : Reg) (v : Word) : (s.writeX r v).pc = s.pc := by
  unfold State.writeX; split <;> rfl
@[simp] theorem State.writeX_nextId (r : Reg) (v : Word) : (s.writeX r v).nextId = s.nextId := by
  unfold State.writeX; split <;> rfl
@[simp] theorem State.writeX_tick (r : Reg) (v : Word) : (s.writeX r v).tick = s.tick := by
  unfold State.writeX; split <;> rfl
@[simp] theorem State.writeX_pool (r : Reg) (v : Word) : (s.writeX r v).pool = s.pool := by
  unfold State.writeX; split <;> rfl
@[simp] theorem State.writeX_renameTable (r : Reg) (v : Word) : (s.writeX r v).renameTable = s.renameTable := by
  unfold State.writeX; split <;> rfl
@[simp] theorem State.writeX_fetchBuffer (r : Reg) (v : Word) : (s.writeX r v).fetchBuffer = s.fetchBuffer := by
  unfold State.writeX; split <;> rfl
@[simp] theorem State.writeX_fetchStall (r : Reg) (v : Word) : (s.writeX r v).fetchStall = s.fetchStall := by
  unfold State.writeX; split <;> rfl
@[simp] theorem State.writeX_decodeBuffer (r : Reg) (v : Word) : (s.writeX r v).decodeBuffer = s.decodeBuffer := by
  unfold State.writeX; split <;> rfl
@[simp] theorem State.writeX_rob (r : Reg) (v : Word) : (s.writeX r v).rob = s.rob := by
  unfold State.writeX; split <;> rfl
@[simp] theorem State.writeX_win (r : Reg) (v : Word) : (s.writeX r v).win = s.win := by
  unfold State.writeX; split <;> rfl
@[simp] theorem State.writeX_fu (r : Reg) (v : Word) : (s.writeX r v).fu = s.fu := by
  unfold State.writeX; split <;> rfl
@[simp] theorem State.writeX_loadBuffer (r : Reg) (v : Word) : (s.writeX r v).loadBuffer = s.loadBuffer := by
  unfold State.writeX; split <;> rfl
@[simp] theorem State.writeX_storeBuffer (r : Reg) (v : Word) : (s.writeX r v).storeBuffer = s.storeBuffer := by
  unfold State.writeX; split <;> rfl
@[simp] theorem State.writeX_mainMem (r : Reg) (v : Word) : (s.writeX r v).mainMem = s.mainMem := by
  unfold State.writeX; split <;> rfl
@[simp] theorem State.writeX_cache (r : Reg) (v : Word) : (s.writeX r v).cache = s.cache := by
  unfold State.writeX; split <;> rfl
@[simp] theorem State.writeX_pendingRepl (r : Reg) (v : Word) : (s.writeX r v).pendingRepl = s.pendingRepl := by
  unfold State.writeX; split <;> rfl
@[simp] theorem State.writeX_accessSeq (r : Reg) (v : Word) : (s.writeX r v).accessSeq = s.accessSeq := by
  unfold State.writeX; split <;> rfl
@[simp] theorem State.writeX_nextMemId (r : Reg) (v : Word) : (s.writeX r v).nextMemId = s.nextMemId := by
  unfold State.writeX; split <;> rfl
@[simp] theorem State.writeX_rng (r : Reg) (v : Word) : (s.writeX r v).rng = s.rng := by
  unfold State.writeX; split <;> rfl
@[simp] theorem State.writeX_pht (r : Reg) (v : Word) : (s.writeX r v).pht = s.pht := by
  unfold State.writeX; split <;> rfl
@[simp] theorem State.writeX_ghr (r : Reg) (v : Word) : (s.writeX r v).ghr = s.ghr := by
  unfold State.writeX; split <;> rfl
@[simp] theorem State.writeX_snapshots (r : Reg) (v : Word) : (s.writeX r v).snapshots = s.snapshots := by
  unfold State.writeX; split <;> rfl
@[simp] theorem State.writeX_btb (r : Reg) (v : Word) : (s.writeX r v).btb = s.btb := by
  unfold State.writeX; split <;> rfl
@[simp] theorem State.writeX_status (r : Reg) (v : Word) : (s.writeX r v).status = s.status := by
  unfold State.writeX; split <;> rfl
@[simp] theorem State.writeX_haltSeen (r : Reg) (v : Word) : (s.writeX r v).haltSeen = s.haltSeen := by
  unfold State.writeX; split <;> rfl
@[simp] theorem State.writeX_excSeen (r : Reg) (v : Word) : (s.writeX r v).excSeen = s.excSeen := by
  unfold State.writeX; split <;> rfl
@[simp] theorem State.writeX_stats (r : Reg) (v : Word) : (s.writeX r v).stats = s.stats := by
  unfold State.writeX; split <;> rfl

end Sys2Proof.Machine
end

