-- ==== Sys2Proof/Laws/View.lean ====
section
/-! SUPPORT. The laws of the registers and of the memory view (`20_memory.md` rules R73, R74): read after write, and what
each operation leaves alone. None needs an invariant of the state. -/

namespace Sys2Proof.Machine

/-! ## Registers -/

theorem State.readX_zero (s : State) : s.readX 0 = 0 := rfl

/-- Reading after a write: the value written, unless the register is `x0`. -/
theorem State.readX_writeX (s : State) (r q : Reg) (v : Word) :
    (s.writeX r v).readX q = if q = r ∧ q ≠ 0 then v else s.readX q := by
  unfold State.readX State.writeX
  by_cases hq : q = 0
  · subst hq; simp
  · by_cases hr : r = 0
    · subst hr; simp [hq]
    · simp only [hr, hq, if_false, ne_eq, not_false_eq_true, and_true]
      show (s.x.set r v r.isLt)[q.val] = if q = r then v else s.x[q.val]
      rw [Vector.getElem_set]
      by_cases h : q = r
      · subst h; simp
      · rw [if_neg h, if_neg (fun e => h (Fin.ext e.symm))]

/-! ## Lines -/

theorem Line.patch_base (a : Nat) (b : Byte) (l : Line) : (l.patch a b).base = l.base := by
  unfold Line.patch; split <;> rfl

theorem Line.covers_patch (a c : Nat) (b : Byte) (l : Line) : (l.patch a b).covers c = l.covers c := by
  unfold Line.patch
  split
  · simp [Line.covers]
  · rfl

theorem Line.covers_iff (l : Line) (a : Nat) :
    l.covers a = true ↔ l.valid = true ∧ l.base ≤ a ∧ a < l.base + l.data.length := by
  simp [Line.covers]

/-- The byte at `c` of a line that covers it, after the byte at `a` is patched. -/
theorem Line.getD_patch (a c : Nat) (b : Byte) (l : Line) (h : l.covers c = true) :
    (l.patch a b).data.getD (c - l.base) 0 = if c = a then b else l.data.getD (c - l.base) 0 := by
  obtain ⟨_, h1, h2⟩ := (l.covers_iff c).mp h
  unfold Line.patch
  by_cases ha : l.covers a = true
  · obtain ⟨_, h3, h4⟩ := (l.covers_iff a).mp ha
    simp only [ha, if_true, List.getD_eq_getElem?_getD, List.getElem?_set]
    by_cases hc : c = a
    · have hb : c - l.base < l.data.length := by omega
      subst hc; simp [hb]
    · rw [if_neg (by omega), if_neg hc]
  · have : c ≠ a := fun e => ha (e ▸ h)
    simp [ha, this]

/-! ## The view -/

theorem State.lineAt_patched (s : State) (a c : Nat) (b : Byte) :
    State.lineAt { s with cache := s.cache.map fun set => set.map (Line.patch a b) } c =
      (s.lineAt c).map (Line.patch a b) := by
  unfold State.lineAt
  simp only
  split
  · rw [← List.map_flatten, List.find?_map]
    congr 1
    congr 1
    funext l
    exact Line.covers_patch a c b l
  · rfl

theorem State.lineAt_mem (s : State) (m : Memory) (c : Nat) : State.lineAt { s with mainMem := m } c = s.lineAt c := rfl

theorem State.covers_of_lineAt {s : State} {a : Nat} {l : Line} (h : s.lineAt a = some l) : l.covers a = true := by
  unfold State.lineAt at h
  split at h
  · exact List.find?_some (p := fun l : Line => l.covers a) h
  · cases h

/-- Reading a byte of the view after one is written (rules R11, R74). -/
theorem State.memView_memViewWrite (s : State) (a c : Nat) (b : Byte) :
    (s.memViewWrite a b).memView c = if c = a then b else s.memView c := by
  unfold State.memViewWrite
  cases ha : s.lineAt a with
  | some l =>
    simp only [State.memView, State.lineAt_patched]
    cases hc : s.lineAt c with
    | some m =>
      simp only [Option.map_some, Line.patch_base]
      exact Line.getD_patch a c b m (State.covers_of_lineAt hc)
    | none =>
      have : c ≠ a := fun e => by subst e; rw [ha] at hc; cases hc
      simp [this]
  | none =>
    simp only [State.memView, State.lineAt_mem]
    cases hc : s.lineAt c with
    | some m =>
      have : c ≠ a := fun e => by subst e; rw [ha] at hc; cases hc
      simp [this]
    | none => simp only; exact Memory.read_write _ _ _ _

/-- Writing one byte of the view changes `mainMem` and `cache` only. -/
theorem State.memViewWrite_frame (s : State) (a : Nat) (b : Byte) :
    s.memViewWrite a b =
      { s with mainMem := (s.memViewWrite a b).mainMem, cache := (s.memViewWrite a b).cache } := by
  unfold State.memViewWrite; split <;> rfl

/-- Reading a byte of the view after `MemWrite` (rules R11, R73, R74). -/
theorem State.memView_memWrite (data : List Byte) : ∀ (s : State) (a c : Nat),
    (s.memWrite a data).memView c = if a ≤ c ∧ c < a + data.length then data.getD (c - a) 0 else s.memView c := by
  induction data with
  | nil => intro s a c; simp [State.memWrite]
  | cons b bs ih =>
    intro s a c
    simp only [State.memWrite, ih, State.memView_memViewWrite, List.length_cons]
    by_cases h : c = a
    · subst h
      rw [if_neg (by omega), if_pos rfl, if_pos (by omega)]; simp
    · by_cases h2 : a + 1 ≤ c ∧ c < a + 1 + bs.length
      · rw [if_pos h2, if_pos (by omega)]
        obtain ⟨n, rfl⟩ : ∃ n, c = a + 1 + n := ⟨c - a - 1, by omega⟩
        simp [show a + 1 + n - a = n + 1 by omega]
      · rw [if_neg h2, if_neg h, if_neg (by omega)]

/-- `MemWrite` changes `mainMem` and `cache` only. -/
theorem State.memWrite_frame (data : List Byte) : ∀ (s : State) (a : Nat),
    s.memWrite a data = { s with mainMem := (s.memWrite a data).mainMem, cache := (s.memWrite a data).cache } := by
  induction data with
  | nil => intro s a; rfl
  | cons b bs ih =>
    intro s a
    simp only [State.memWrite]
    rw [ih, State.memViewWrite_frame]

@[simp] theorem State.length_memRead (s : State) (n : Nat) : ∀ a, (s.memRead a n).length = n := by
  induction n with
  | zero => intro a; rfl
  | succ n ih => intro a; simp [State.memRead, ih]

theorem State.getD_memRead (s : State) (n : Nat) : ∀ a i, i < n → (s.memRead a n).getD i 0 = s.memView (a + i) := by
  induction n with
  | zero => intro a i h; omega
  | succ n ih =>
    intro a i h
    cases i with
    | zero => simp [State.memRead]
    | succ i =>
      simp only [State.memRead, List.getD_cons_succ]
      rw [ih (a + 1) i (by omega)]; congr 1; omega

/-- The view depends on `cfg`, `cache` and `mainMem` alone. -/
theorem State.memView_congr {s t : State} (hc : t.cfg = s.cfg) (hl : t.cache = s.cache) (hm : t.mainMem = s.mainMem)
    (a : Nat) : t.memView a = s.memView a := by
  unfold State.memView State.lineAt
  rw [hc, hl, hm]

@[simp] theorem State.memView_writeX (s : State) (r : Reg) (v : Word) (a : Nat) :
    (s.writeX r v).memView a = s.memView a := State.memView_congr (by simp) (by simp) (by simp) a

@[simp] theorem State.memView_retire (s : State) (n : Word) (a : Nat) : (s.retire n).memView a = s.memView a := rfl

@[simp] theorem State.memView_retireTransfer (s : State) (b : Bool) (p n : Word) (a : Nat) :
    (s.retireTransfer b p n).memView a = s.memView a := rfl

@[simp] theorem State.readX_retire (s : State) (n : Word) (r : Reg) : (s.retire n).readX r = s.readX r := rfl

@[simp] theorem State.readX_retireTransfer (s : State) (b : Bool) (p n : Word) (r : Reg) :
    (s.retireTransfer b p n).readX r = s.readX r := rfl

/-- A register write changes `x` only. -/
theorem State.writeX_frame (s : State) (r : Reg) (v : Word) :
    s.writeX r v = { s with x := (s.writeX r v).x } := by
  unfold State.writeX; split <;> rfl

/-! ## The canonical form of memory -/

/-- Storing bytes into the memory view keeps main memory canonical. -/
theorem State.wf_memViewWrite {s : State} (h : s.mainMem.wf = true) (a : Nat) (b : Byte) :
    (s.memViewWrite a b).mainMem.wf = true := by
  unfold State.memViewWrite
  split
  · exact h
  · exact Memory.wf_write h a b

theorem State.wf_memWrite (data : List Byte) : ∀ {s : State}, s.mainMem.wf = true → ∀ a,
    (s.memWrite a data).mainMem.wf = true := by
  induction data with
  | nil => intro s h _; exact h
  | cons b bs ih => intro s h a; exact ih (State.wf_memViewWrite h a b) (a + 1)

/-- The initial contents of memory are canonical, whatever the spans. -/
theorem initialMemory_wf (spans : List Span) : (initialMemory spans).wf = true := by
  unfold initialMemory
  suffices ∀ m : Memory, m.wf = true →
      Memory.wf (spans.foldl (fun m sp => m.writeBytes sp.address sp.bytes) m) = true from this [] rfl
  induction spans with
  | nil => intro m h; exact h
  | cons sp spans ih => intro m h; exact ih _ (Memory.wf_writeBytes sp.bytes h sp.address)

theorem State.reset_mainMem_wf : State.reset.mainMem.wf = true := rfl

end Sys2Proof.Machine
end

