-- ==== Sys2Proof/Laws/Perform.lean ====
section
/-! SUPPORT. What one instruction can do at the architectural level, once for each shape of meaning: a register write, a
raised exception, a transfer, a load, a store. -/

namespace Sys2Proof.Machine

/-- A result: written to `rd`, and nothing else but `pc` and the count changes. -/
theorem perform_result (s : State) (rd : Reg) (v : Word) :
    s.WroteRegister (s.perform rd (.result v)) rd v (s.pc + 4) := by
  refine ⟨fun r => ?_, rfl, ?_, fun a => ?_, ?_⟩
  · simp [State.perform, State.readX_writeX]
  · simp [State.perform]
  · simp [State.perform]
  · simp only [State.perform]
    rw [State.writeX_frame]; rfl

/-- A raised exception: `excSeen`, and nothing else. -/
theorem perform_raise (s : State) (rd : Reg) (k : ExcKind) :
    s.perform rd (.raise k) = { s with excSeen := some k } := rfl

/-- A taken transfer to a misaligned target raises. -/
theorem perform_transfer_misaligned (s : State) (rd : Reg) (target : Word) (link : Option Word)
    (h : target.toNat % 4 ≠ 0) :
    s.perform rd (.transfer true target link) = { s with excSeen := some .instrAddrMisaligned } := by
  simp [State.perform, targetFault, h, State.takeException]

theorem perform_transfer_eq (s : State) (rd : Reg) (taken : Bool) (target : Word) (link : Option Word)
    (h : taken = true → target.toNat % 4 = 0) :
    s.perform rd (.transfer taken target link) =
      ((link.map (s.writeX rd)).getD s).retireTransfer taken target (if taken then target else s.pc + 4) := by
  have : targetFault taken target = none := by
    unfold targetFault; cases taken <;> simp_all
  simp [State.perform, this]

/-- A transfer that does not raise. -/
theorem perform_transfer (s : State) (rd : Reg) (taken : Bool) (target : Word) (link : Option Word)
    (h : taken = true → target.toNat % 4 = 0) :
    s.Transferred (s.perform rd (.transfer taken target link)) rd link taken (if taken then target else s.pc + 4) := by
  rw [perform_transfer_eq s rd taken target link h]
  cases link with
  | none =>
    refine ⟨fun r => by simp, rfl, ?_, rfl, fun a => rfl, rfl⟩
    cases taken <;> simp
  | some v =>
    refine ⟨fun r => ?_, rfl, ?_, ?_, fun a => ?_, ?_⟩
    · simp [State.readX_writeX]
    · cases taken <;> simp
    · simp
    · simp
    · simp only [Option.map_some, Option.getD_some]
      rw [State.writeX_frame]; rfl

/-- A load that passes its checks. -/
theorem perform_load (s : State) (rd : Reg) (ea : Word) (n : Nat) (signed : Bool) (h1 : ea.toNat % n = 0)
    (h2 : ea.toNat + n ≤ s.cfg.memSize) :
    s.WroteRegister (s.perform rd (.load ea n signed)) rd (extendLoad n signed (s.memRead ea.toNat n)) (s.pc + 4) := by
  have : accessFault s.cfg ea n = none := by simp [accessFault, h1]; omega
  have := perform_result s rd (extendLoad n signed (s.memRead ea.toNat n))
  simpa [State.perform, *] using this

/-- A store that passes its checks. -/
theorem perform_store (s : State) (rd : Reg) (ea : Word) (data : List Byte) (h1 : ea.toNat % data.length = 0)
    (h2 : ea.toNat + data.length ≤ s.cfg.memSize) :
    s.Stored (s.perform rd (.store ea data)) ea.toNat data := by
  have hf : accessFault s.cfg ea data.length = none := by simp [accessFault, h1]; omega
  have fr := State.memWrite_frame data s ea.toNat
  refine ⟨fun a => ?_, fun r => ?_, ?_, ?_, ?_⟩
  · simp [State.perform, hf, State.memView_memWrite]
  · simp only [State.perform, hf, State.readX_retire]; rw [fr]; rfl
  · simp [State.perform, hf]
  · simp only [State.perform, hf, State.retire_stats]; rw [fr]
  · simp only [State.perform, hf]
    generalize s.memWrite ea.toNat data = t at fr
    rw [fr]; rfl

/-- A load or store at an address that is not a multiple of its size raises `MemMisaligned`. -/
theorem accessFault_misaligned (cfg : Cfg) (ea : Word) (n : Nat) (h : ea.toNat % n ≠ 0) :
    accessFault cfg ea n = some .memMisaligned := by simp [accessFault, h]

/-- An aligned access past the data memory raises `MemOutOfRange`. -/
theorem accessFault_outOfRange (cfg : Cfg) (ea : Word) (n : Nat) (h : ea.toNat % n = 0)
    (h2 : cfg.memSize < ea.toNat + n) : accessFault cfg ea n = some .memOutOfRange := by simp [accessFault, h, h2]

end Sys2Proof.Machine
end

