-- ==== Sys2Proof/Laws/Step.lean ====
section
/-! SUPPORT. What one step can do, said once (`step_cases`), and from it the one induction every invariant of the machine
uses: a predicate that each operation of the tick and each shape of meaning keeps is kept by every step (`step_inv`). -/

namespace Sys2Proof.Machine

/-- Every arm of `exec` performs the instruction's meaning on its operands' values. -/
theorem exec_eq (i : Instr) (s : State) :
    exec i s = .next (s.perform (operands i).1
      (insMeaning i s.pc (s.readX (operands i).2.1) (s.readX (operands i).2.2.1))) := by
  cases i <;> rfl

theorem runStatic_eq (i : StaticIns) (s : State) :
    ∃ u, runStatic i s = .next u ∧
      ((∃ rd m, u = s.perform rd m) ∨ ∃ n, u = s.performNamed i n) := by
  cases i with
  | isa i => exact ⟨_, exec_eq i s, .inl ⟨_, _, rfl⟩⟩
  | named n rd rs1 rs2 imm => exact ⟨_, rfl, .inr ⟨n, rfl⟩⟩

/-- Everything a step that answers a next state can have done. -/
theorem step_cases {s t : State} (h : step s = .next t) :
    validate s.cfg s.prog = [] ∧
    ((s.status ≠ .running ∧ t = s) ∨
     (s.grain = .tick ∧ s.status = .running ∧ t = s.stages) ∨
     (s.grain = .instruction ∧ s.status = .running ∧ s.drained = true ∧
       (t = s.evalStop ∨ ∃ u, t = u.evalStop ∧ ((∃ rd m, u = s.perform rd m) ∨ ∃ i n, u = s.performNamed i n)))) := by
  unfold step ifValid at h
  cases hv : validate s.cfg s.prog with
  | cons v vs => rw [hv] at h; split at h <;> cases h
  | nil =>
    refine ⟨rfl, ?_⟩
    rw [hv] at h
    by_cases hr : s.status = .running
    · right
      split at h
      · left
        simp only [tickStep, hr, if_true, Host.Outcome.next.injEq] at h
        exact ⟨‹_›, hr, h.symm⟩
      · right
        unfold instructionStep at h
        simp only [hr, if_true] at h
        split at h
        · refine ⟨‹_›, hr, ‹_›, ?_⟩
          split at h
          · rename_i i _
            obtain ⟨u, hu, hc⟩ := runStatic_eq i s
            rw [hu] at h
            simp only [settle, Host.Outcome.next.injEq] at h
            refine .inr ⟨u, h.symm, ?_⟩
            rcases hc with hc | ⟨n, hn⟩
            · exact .inl hc
            · exact .inr ⟨i, n, hn⟩
          · simp only [Host.Outcome.next.injEq] at h
            exact .inl h.symm
        · cases h
    · left
      refine ⟨hr, ?_⟩
      split at h
      · simp only [tickStep, hr, if_false, Host.Outcome.next.injEq] at h; exact h.symm
      · simp only [instructionStep, hr, if_false, Host.Outcome.next.injEq] at h; exact h.symm

theorem foldl_inv {α β : Type} {P : β → Prop} {g : β → α → β} (h : ∀ b a, P b → P (g b a)) (l : List α) :
    ∀ b, P b → P (l.foldl g b) := by
  induction l with
  | nil => intro b hb; exact hb
  | cons a l ih => intro b hb; exact ih _ (h b a hb)

/-- The commit loop keeps what taking an exception and committing the head keep. -/
theorem commitLoop_inv {P : State → Prop} (hexc : ∀ s k, P s → P (s.takeException k))
    (hone : ∀ s d, s.rob.head? = some d → d.busy = false → d.exc = none → P s → P (s.commitOne d).1) :
    ∀ n s, P s → P (commitLoop n s) := by
  intro n
  induction n with
  | zero => intro s h; exact h
  | succ n ih =>
    intro s h
    unfold commitLoop
    split
    · exact h
    · rename_i d ds hd
      split
      · exact h
      · split
        · exact hexc _ _ h
        · have := hone s d (by rw [hd]; rfl) (by simp_all) ‹_› h
          split
          · rename_i s' e; rw [e] at this; exact this
          · rename_i s' e; rw [e] at this; exact ih _ this

/-- Stage 1 keeps what each replacement keeps. -/
theorem memorySimulate_inv {P : State → Prop} (hpend : ∀ s r, P s → P { s with pendingRepl := r })
    (hreplace : ∀ s la, P s → P (s.replace la)) : ∀ s, P s → P s.memorySimulate := by
  intro s h
  unfold State.memorySimulate
  split
  · simp only
    exact foldl_inv (fun b a hb => hreplace b _ hb) _ _ (hpend _ _ h)
  · exact h

/-- The bytes an instruction stores are 1, 2 or 4. -/
theorem insMeaning_store_length {i : Instr} {P a b ea : Word} {data : List Byte}
    (h : insMeaning i P a b = .store ea data) : data.length = 1 ∨ data.length = 2 ∨ data.length = 4 := by
  cases i <;> simp only [insMeaning] at h <;>
    first
    | (cases h; exact .inl (length_bytesOfWord _ _))
    | (cases h; exact .inr (.inl (length_bytesOfWord _ _)))
    | (cases h; exact .inr (.inr (length_bytesOfWord _ _)))
    | cases h
    | (simp only [divMeaning, divuMeaning, remMeaning, remuMeaning, unlessZero] at h; split at h <;> cases h)

/-- What a unit that finishes `d` can do (rules R262 to R267). -/
theorem finish_cases (s : State) (u : Nat) (t : FuType) (d : DynInst) :
    (∃ v, s.finish u t d = (s.writeSpec d v).notBusy d.id) ∨
    (∃ k, s.finish u t d = s.failUnit u d.id k) ∨
    (∃ taken target k, s.finish u t d = (s.recordOutcome d.id taken target).failUnit u d.id k) ∨
    (∃ taken target, (taken = true → target.toNat % 4 = 0) ∧
      (s.finish u t d = (s.recordOutcome d.id taken target).notBusy d.id ∨
       ∃ v, s.finish u t d = ((s.recordOutcome d.id taken target).writeSpec d v).notBusy d.id)) ∨
    (∃ ea, s.finish u t d = s.loadUpdate d.id fun it => { it with addr := some ea }) ∨
    (∃ ea data, (data.length = 1 ∨ data.length = 2 ∨ data.length = 4) ∧ accessFault s.cfg ea data.length = none ∧
      s.finish u t d =
        (s.storeUpdate d.id fun it => { it with addr := some ea, data := some data }).notBusy d.id) ∨
    (∃ bytes, s.finish u t d =
      (s.completeLoad d bytes).loadUpdate d.id fun it => { it with done := true, inMA := false }) := by
  have hins : (∃ i, s.finish u t d = s.finishIsa u d i) ∨ (∃ n, s.finish u t d = s.finishNamed u d n) ∨
      s.finish u t d = s.finishMemory d := by
    unfold State.finish
    cases hd : d.ins <;> cases t <;>
      first | exact .inr (.inr rfl) | exact .inl ⟨_, rfl⟩ | exact .inr (.inl ⟨_, rfl⟩)
  rcases hins with ⟨i, e⟩ | ⟨n, e⟩ | e <;> rw [e]
  · unfold State.finishIsa
    cases hm : latchedMeaning i d with
    | result v => exact .inl ⟨_, rfl⟩
    | raise k => exact .inr (.inl ⟨_, rfl⟩)
    | transfer taken target link =>
      simp only
      cases hf : targetFault taken target with
      | some k => exact .inr (.inr (.inl ⟨taken, target, k, rfl⟩))
      | none =>
        refine .inr (.inr (.inr (.inl ⟨taken, target, ?_, ?_⟩)))
        · intro h; simp only [targetFault, h] at hf; simpa using hf
        · cases link with
          | none => exact .inl rfl
          | some v => exact .inr ⟨_, rfl⟩
    | load ea n signed =>
      simp only
      cases hf : accessFault s.cfg ea n with
      | some k => exact .inr (.inl ⟨_, rfl⟩)
      | none => exact .inr (.inr (.inr (.inr (.inl ⟨ea, rfl⟩))))
    | store ea data =>
      simp only
      cases hf : accessFault s.cfg ea data.length with
      | some k => exact .inr (.inl ⟨_, rfl⟩)
      | none => exact .inr (.inr (.inr (.inr (.inr (.inl ⟨ea, data, insMeaning_store_length hm, hf, rfl⟩)))))
  · unfold State.finishNamed
    simp only
    split
    · exact .inr (.inl ⟨_, rfl⟩)
    · exact .inl ⟨_, rfl⟩
  · exact .inr (.inr (.inr (.inr (.inr (.inr ⟨_, rfl⟩)))))

/-- What one unit can do in stage 3 (rule R259). -/
theorem unitTick_cases (s : State) (u : Nat) :
    s.unitTick u = s ∨ s.unitTick u = (s.fuUpdate u fun f => { f with counter := f.counter + 1 }) ∨
    (∃ id, s.unitTick u = s.releaseUnit u id) ∨
    ∃ id t d, (s.releaseUnit u id).robFind id = some d ∧ s.unitTick u = (s.releaseUnit u id).finish u t d := by
  unfold State.unitTick
  split
  · split
    · exact .inl rfl
    · rename_i id _
      split
      · exact .inr (.inl rfl)
      · simp only
        split
        · rename_i d hd; exact .inr (.inr (.inr ⟨id, _, d, hd, rfl⟩))
        · exact .inr (.inr (.inl ⟨id, rfl⟩))
  · exact .inl rfl

/-- Stage 3 keeps what a unit's counting, its letting go and each way of finishing keep. -/
theorem unitTick_inv {P : State → Prop} (hfu : ∀ s u g, P s → P (s.fuUpdate u g))
    (hrelease : ∀ s u id, P s → P (s.releaseUnit u id)) (hspec : ∀ s d v, P s → P (s.writeSpec d v))
    (hbusy : ∀ s id, P s → P (s.notBusy id)) (hfail : ∀ s u id k, P s → P (s.failUnit u id k))
    (houtcome : ∀ s id taken target, P s → P (s.recordOutcome id taken target))
    (hload : ∀ s id g, P s → P (s.loadUpdate id g))
    (hstore : ∀ s id ea data, (data.length = 1 ∨ data.length = 2 ∨ data.length = 4) →
      accessFault s.cfg ea data.length = none → P s →
      P (s.storeUpdate id fun it => { it with addr := some ea, data := some data })) :
    ∀ s u, P s → P (s.unitTick u) := by
  intro s u h
  rcases unitTick_cases s u with e | e | ⟨id, e⟩ | ⟨id, t, d, -, e⟩ <;> rw [e]
  · exact h
  · exact hfu _ _ _ h
  · exact hrelease _ _ _ h
  · have h1 := hrelease s u id h
    rcases finish_cases (s.releaseUnit u id) u t d with ⟨v, e⟩ | ⟨k, e⟩ | ⟨a, b, k, e⟩ | ⟨a, b, -, e | ⟨v, e⟩⟩ |
      ⟨ea, e⟩ | ⟨ea, data, h2, h3, e⟩ | ⟨bytes, e⟩ <;> rw [e]
    · exact hbusy _ _ (hspec _ _ _ h1)
    · exact hfail _ _ _ _ h1
    · exact hfail _ _ _ _ (houtcome _ _ _ _ h1)
    · exact hbusy _ _ (houtcome _ _ _ _ h1)
    · exact hbusy _ _ (hspec _ _ _ (houtcome _ _ _ _ h1))
    · exact hload _ _ _ h1
    · exact hbusy _ _ (hstore _ _ _ _ h2 h3 h1)
    · exact hload _ _ _ (hbusy _ _ (hspec _ _ _ h1))

/-- What examining one load-buffer item can do: nothing, a forwarding, or the start of a memory access. -/
theorem resolveLoad_cases (s : State) (it : LsItem) :
    s.resolveLoad it = s ∨
    (∃ d a y, s.robFind it.id = some d ∧ it.addr = some a ∧ y ∈ s.storeBuffer ∧ y.id < d.id ∧ y.addr = some a ∧
      y.size = accessSize d.ins ∧ s.resolveLoad it = s.forwardLoad d y) ∨
    (∃ d a u, s.robFind it.id = some d ∧ it.addr = some a ∧ s.pickUnit (fun c => decide (c.type = .MA)) = some u ∧
      s.resolveLoad it = s.startAccess d a (accessSize d.ins) u) := by
  unfold State.resolveLoad
  split
  · rename_i a d ha hd
    split
    · exact .inl rfl
    · unfold State.resolveCandidate
      simp only
      split
      · exact .inl rfl
      · split
        · rename_i y hy
          split
          · rename_i hm
            have hmem := List.mem_of_getLast? hy
            simp only [State.olderStores, List.mem_filter, decide_eq_true_eq] at hmem
            exact .inr (.inl ⟨d, a, y, hd, ha, hmem.1.1, hmem.1.2, hm.1, hm.2, rfl⟩)
          · exact .inl rfl
        · split
          · rename_i u hu; exact .inr (.inr ⟨d, a, u, hd, ha, hu, rfl⟩)
          · exact .inl rfl
  · exact .inl rfl

/-- Everything performing one meaning can do. -/
theorem perform_cases (s : State) (rd : Reg) (m : Meaning) :
    (∃ k, s.perform rd m = s.takeException k) ∨
    (∃ v, s.perform rd m = (s.writeX rd v).retire (s.pc + 4)) ∨
    (∃ taken target link, m = .transfer taken target link ∧ (taken = true → target.toNat % 4 = 0) ∧
      s.perform rd m = ((link.map (s.writeX rd)).getD s).retireTransfer taken target
        (if taken then target else s.pc + 4)) ∨
    (∃ ea data, m = .store ea data ∧ s.perform rd m = (s.memWrite ea.toNat data).retire (s.pc + 4)) := by
  cases m with
  | result v => exact .inr (.inl ⟨v, rfl⟩)
  | raise k => exact .inl ⟨k, rfl⟩
  | transfer taken target link =>
    by_cases h : taken = true → target.toNat % 4 = 0
    · exact .inr (.inr (.inl ⟨taken, target, link, rfl, h, perform_transfer_eq s rd taken target link h⟩))
    · have : taken = true ∧ target.toNat % 4 ≠ 0 := by simpa using h
      obtain ⟨rfl, h2⟩ := this
      exact .inl ⟨_, perform_transfer_misaligned s rd target link h2⟩
  | load ea n signed =>
    simp only [State.perform]
    split
    · exact .inl ⟨_, rfl⟩
    · exact .inr (.inl ⟨_, rfl⟩)
  | store ea data =>
    simp only [State.perform]
    split
    · exact .inl ⟨_, rfl⟩
    · exact .inr (.inr (.inr ⟨ea, data, rfl, rfl⟩))

/-- Everything performing an added instruction can do. -/
theorem performNamed_cases (s : State) (i : StaticIns) (n : String) :
    (∃ k, s.performNamed i n = s.takeException k) ∨
    s.performNamed i n = s.retire (s.pc + 4) ∨
    ∃ r v tag, insDest s.cfg i = some (r, tag) ∧ s.performNamed i n = (s.writeReg r v tag).retire (s.pc + 4) := by
  unfold State.performNamed
  simp only
  split
  · exact .inl ⟨_, rfl⟩
  · split
    · rename_i r tag h; exact .inr (.inr ⟨r, _, tag, h, rfl⟩)
    · exact .inr (.inl rfl)

/-- A predicate kept by every operation of the tick is kept by the tick. -/
theorem stages_inv {P : State → Prop} (htick : ∀ s, P s → P s.startTick)
    (hsim : ∀ s, P s → P s.memorySimulate) (hcommit : ∀ s, P s → P s.commit)
    (hunit : ∀ s u, P s → P (s.unitTick u)) (hload : ∀ s it, P s → P (s.resolveLoad it))
    (hissue : ∀ s c id, P s → P (s.issueOne c id)) (hdispatch : ∀ s, P s → P s.dispatch)
    (hrename : ∀ s, P s → P s.rename) (hfetch : ∀ s, P s → P s.fetch) (hstop : ∀ s, P s → P s.evalStop) :
    ∀ s, P s → P s.stages := by
  intro s h
  have hw : ∀ s c, P s → P (s.issueWindow c) := fun s c h => foldl_inv (fun b a => hissue b c a) _ _ h
  have hr : ∀ s, P s → P s.resolveBuffers := fun s h => by
    unfold State.resolveBuffers State.resolveStores State.resolveLoads
    split <;> exact foldl_inv hload _ _ h
  exact hstop _ (hfetch _ (hrename _ (hdispatch _ (hw _ _ (hw _ _ (hw _ _ (hw _ _ (hr _ (foldl_inv hunit _ _
    (hcommit _ (hsim _ (htick _ h))))))))))))

/-- A predicate kept by every operation of the tick and by every shape of meaning is kept by every step. -/
theorem step_inv {P : State → Prop} (hstages : ∀ s, P s → P s.stages) (hstop : ∀ s, P s → P s.evalStop)
    (hperform : ∀ s rd m, P s → P (s.perform rd m)) (hnamed : ∀ s i n, P s → P (s.performNamed i n))
    {s t : State} (h : step s = .next t) (hs : P s) : P t := by
  obtain ⟨_, ⟨_, rfl⟩ | ⟨_, _, rfl⟩ | ⟨_, _, _, rfl | ⟨u, rfl, ⟨rd, m, rfl⟩ | ⟨i, n, rfl⟩⟩⟩⟩ := step_cases h
  · exact hs
  · exact hstages _ hs
  · exact hstop _ hs
  · exact hstop _ (hperform _ _ _ hs)
  · exact hstop _ (hnamed _ _ _ hs)

end Sys2Proof.Machine
end

