-- ==== Sys2Proof/Laws/Cache.lean ====
section
/-! SUPPORT. The cache against the memory view (`54_cache_memory_latency.md` rules R302 to R309, `10_state.md` rule R46
(g), (h)): which line holds an address, and what replacement, a load's access and a store's access do to the view and to
the coherence of the cache. -/

namespace Sys2Proof.Machine

/-! ## Which line covers an address -/

theorem mem_flatten_iff {cache : List (List Line)} {l : Line} :
    l ∈ cache.flatten ↔ ∃ (set : Nat) (ways : List Line), cache[set]? = some ways ∧ l ∈ ways := by
  rw [List.mem_flatten]
  constructor
  · rintro ⟨ways, h, hl⟩
    obtain ⟨set, h⟩ := List.mem_iff_getElem?.mp h
    exact ⟨set, ways, h, hl⟩
  · rintro ⟨set, ways, h, hl⟩; exact ⟨ways, List.mem_of_getElem? h, hl⟩

/-- A line that is as its geometry says covers the addresses of its line address. -/
theorem LineOk.covers_iff {cfg : Cfg} {mem : Memory} {set : Nat} {l : Line} (h : LineOk cfg mem set l)
    (hL : 0 < cfg.cacheLineSize) (a : Nat) :
    l.covers a = true ↔ l.valid = true ∧ a / cfg.cacheLineSize = l.tag * cacheSets cfg + set := by
  rw [Line.covers_iff, h.1]
  constructor
  · rintro ⟨hv, h1, h2⟩
    refine ⟨hv, ?_⟩
    rw [h.2.2.1 hv] at h1 h2
    rw [Nat.div_eq_iff hL]
    constructor
    · exact h1
    · omega
  · rintro ⟨hv, h1⟩
    refine ⟨hv, ?_⟩
    rw [h.2.2.1 hv, ← h1]
    have := Nat.div_add_mod a cfg.cacheLineSize
    have := Nat.mod_lt a hL
    rw [Nat.mul_comm]
    omega

/-- Line addresses determine tag and set. -/
theorem lineAddress_inj {S t1 t2 s1 s2 : Nat} (h1 : s1 < S) (h2 : s2 < S) (h : t1 * S + s1 = t2 * S + s2) :
    t1 = t2 ∧ s1 = s2 := by
  have e1 : (t1 * S + s1) % S = s1 := by rw [Nat.add_comm, Nat.add_mul_mod_self_right, Nat.mod_eq_of_lt h1]
  have e2 : (t2 * S + s2) % S = s2 := by rw [Nat.add_comm, Nat.add_mul_mod_self_right, Nat.mod_eq_of_lt h2]
  have hs : s1 = s2 := by rw [← e1, h, e2]
  subst hs
  refine ⟨?_, rfl⟩
  have : t1 * S = t2 * S := by omega
  exact Nat.eq_of_mul_eq_mul_right (by omega) this

theorem TagsDistinct.eq {ways : List Line} (h : TagsDistinct ways) {i j : Nat} {l m : Line} (hl : ways[i]? = some l)
    (hm : ways[j]? = some m) (hv : l.valid = true) (hw : m.valid = true) (ht : l.tag = m.tag) : i = j := by
  obtain ⟨hi, rfl⟩ := List.getElem?_eq_some_iff.mp hl
  obtain ⟨hj, rfl⟩ := List.getElem?_eq_some_iff.mp hm
  have h' := List.pairwise_iff_getElem.mp h
  rcases Nat.lt_trichotomy i j with hlt | he | hgt
  · exact absurd ht (h' i j hi hj hlt hv hw)
  · exact he
  · exact absurd ht.symm (h' j i hj hi hgt hw hv)

/-- The facts a coherent cache gives, with the cache present. -/
structure Coherent (s : State) : Prop where
  on : s.cfg.useCache = true
  line : 0 < s.cfg.cacheLineSize
  sets : 0 < cacheSets s.cfg
  length : s.cache.length = cacheSets s.cfg
  ways : ∀ {set : Nat} {ways : List Line}, s.cache[set]? = some ways → ways.length = s.cfg.cacheAssoc
  tags : ∀ {set : Nat} {ways : List Line}, s.cache[set]? = some ways → TagsDistinct ways
  ok : ∀ {set : Nat} {ways : List Line}, s.cache[set]? = some ways → ∀ l ∈ ways, LineOk s.cfg s.mainMem set l

theorem State.CacheCoherent.coherent {s : State} (h : s.CacheCoherent) (hc : s.cfg.useCache = true) : Coherent s := by
  obtain ⟨h1, h2, h3, h4⟩ := h hc
  exact ⟨hc, h1, h2, h3, fun e => (h4 _ _ e).1, fun e => (h4 _ _ e).2.1, fun e => (h4 _ _ e).2.2⟩

theorem Coherent.cacheCoherent {s : State} (h : Coherent s) : s.CacheCoherent :=
  fun _ => ⟨h.line, h.sets, h.length, fun _ _ e => ⟨h.ways e, h.tags e, h.ok e⟩⟩

theorem Coherent.set_lt {s : State} (h : Coherent s) {set : Nat} {ways : List Line} (e : s.cache[set]? = some ways) :
    set < cacheSets s.cfg := by
  obtain ⟨hi, _⟩ := List.getElem?_eq_some_iff.mp e
  rw [h.length] at hi; exact hi

/-- The line that covers an address is one. -/
theorem Coherent.unique {s : State} (h : Coherent s) {a i j set set' : Nat} {ways ways' : List Line} {l m : Line}
    (e : s.cache[set]? = some ways) (e' : s.cache[set']? = some ways') (hl : ways[i]? = some l)
    (hm : ways'[j]? = some m) (cl : l.covers a = true) (cm : m.covers a = true) : set = set' ∧ i = j ∧ l = m := by
  have ol := h.ok e l (List.mem_of_getElem? hl)
  have om := h.ok e' m (List.mem_of_getElem? hm)
  obtain ⟨vl, al⟩ := (ol.covers_iff h.line a).mp cl
  obtain ⟨vm, am⟩ := (om.covers_iff h.line a).mp cm
  obtain ⟨ht, hs⟩ := lineAddress_inj (h.set_lt e) (h.set_lt e') (al.symm.trans am)
  subst hs
  obtain rfl : ways = ways' := by rw [e] at e'; exact Option.some.inj e'
  have := (h.tags e).eq hl hm vl vm ht
  subst this
  rw [hl] at hm
  exact ⟨rfl, rfl, Option.some.inj hm⟩

/-- The view of an address a line covers. -/
theorem Coherent.view_hit {s : State} (h : Coherent s) {a set : Nat} {ways : List Line} {l : Line}
    (e : s.cache[set]? = some ways) (hl : l ∈ ways) (c : l.covers a = true) :
    s.memView a = l.data.getD (a - l.base) 0 := by
  have hf : s.lineAt a = some l := by
    unfold State.lineAt
    rw [if_pos h.on]
    cases hfind : s.cache.flatten.find? (·.covers a) with
    | none =>
      have := List.find?_eq_none.mp hfind l (mem_flatten_iff.mpr ⟨set, ways, e, hl⟩)
      exact absurd c this
    | some m =>
      have cm : m.covers a = true := List.find?_some (p := fun l : Line => l.covers a) hfind
      obtain ⟨set', ways', e', hm⟩ := mem_flatten_iff.mp (List.mem_of_find?_eq_some hfind)
      obtain ⟨i, hi⟩ := List.mem_iff_getElem?.mp hl
      obtain ⟨j, hj⟩ := List.mem_iff_getElem?.mp hm
      rw [(h.unique e e' hi hj c cm).2.2]
  unfold State.memView
  rw [hf]

/-- The view of an address no line covers. -/
theorem State.view_miss {s : State} {a : Nat}
    (hn : ∀ (set : Nat) (ways : List Line) (l : Line), s.cache[set]? = some ways → l ∈ ways → l.covers a = false) :
    s.memView a = s.mainMem.read a := by
  have hf : s.lineAt a = none := by
    unfold State.lineAt
    split
    · apply List.find?_eq_none.mpr
      intro l hl
      obtain ⟨set, ways, e, h⟩ := mem_flatten_iff.mp hl
      simp [hn set ways l e h]
    · rfl
  unfold State.memView
  rw [hf]

/-- The bytes of a coherent line are the bytes of main memory, if it is clean. -/
theorem LineOk.clean_read {cfg : Cfg} {mem : Memory} {set : Nat} {l : Line} (h : LineOk cfg mem set l) {a : Nat}
    (c : l.covers a = true) (hd : l.dirty = false) : l.data.getD (a - l.base) 0 = mem.read a := by
  obtain ⟨hv, h1, h2⟩ := (Line.covers_iff l a).mp c
  rw [h.2.2.2 hv hd]
  rw [h.1] at h2
  rw [Memory.getD_readBytes _ _ _ _ (by omega)]
  congr 1; omega

theorem readBytes_congr {m n : Memory} (k : Nat) : ∀ a, (∀ b, a ≤ b → b < a + k → m.read b = n.read b) →
    m.readBytes a k = n.readBytes a k := by
  induction k with
  | zero => intro a _; rfl
  | succ k ih =>
    intro a h
    simp only [Memory.readBytes]
    rw [h a (le_refl a) (by omega), ih (a + 1) (fun b h1 h2 => h b (by omega) (by omega))]

/-- A line stays as its geometry says when main memory changes outside it. -/
theorem LineOk.congr {cfg : Cfg} {mem mem' : Memory} {set : Nat} {l : Line} (h : LineOk cfg mem set l)
    (hr : ∀ a, l.covers a = true → mem'.read a = mem.read a) : LineOk cfg mem' set l := by
  refine ⟨h.1, h.2.1, h.2.2.1, fun hv hd => ?_⟩
  rw [h.2.2.2 hv hd]
  refine readBytes_congr _ _ fun b h1 h2 => (hr b ?_).symm
  rw [Line.covers_iff, h.1]
  exact ⟨hv, h1, h2⟩

theorem Coherent.congr {s t : State} (h : Coherent s) (hc : t.cfg = s.cfg) (hl : t.cache = s.cache)
    (hm : t.mainMem = s.mainMem) : Coherent t := by
  refine ⟨by rw [hc]; exact h.on, by rw [hc]; exact h.line, by rw [hc]; exact h.sets, by rw [hc, hl]; exact h.length,
    fun e => ?_, fun e => ?_, fun e => ?_⟩ <;> rw [hl] at e
  · rw [hc]; exact h.ways e
  · exact h.tags e
  · rw [hc, hm]; exact h.ok e

/-- Where no way of its set holds a line address, no line covers an address of that line. -/
theorem Coherent.not_covered {s : State} (h : Coherent s) {la : Nat}
    (htag : ∀ m ∈ s.ways (setIndex s.cfg la), m.valid = true → m.tag ≠ lineTag s.cfg la) {a : Nat}
    (ha : a / s.cfg.cacheLineSize = la) (k : Nat) (ws : List Line) (m : Line) (hk : s.cache[k]? = some ws)
    (hm : m ∈ ws) : m.covers a = false := by
  by_contra cm
  obtain ⟨vm, am⟩ := ((h.ok hk m hm).covers_iff h.line a).mp (by simpa using cm)
  have hs : setIndex s.cfg la < cacheSets s.cfg := Nat.mod_lt _ h.sets
  have hla : la = lineTag s.cfg la * cacheSets s.cfg + setIndex s.cfg la := by
    unfold lineTag setIndex; rw [Nat.mul_comm]; exact (Nat.div_add_mod _ _).symm
  obtain ⟨ht, hsk⟩ := lineAddress_inj (h.set_lt hk) hs (am.symm.trans (ha.trans hla))
  subst hsk
  have : ws = s.ways (setIndex s.cfg la) := by
    unfold State.ways; rw [List.getD_eq_getElem?_getD, hk]; rfl
  subst this
  exact htag m hm vm ht

/-- Bytes of main memory written where no line covers them. -/
theorem Coherent.writeMem {s : State} (h : Coherent s) (a : Nat) (data : List Byte)
    (hn : ∀ b, a ≤ b → b < a + data.length → ∀ (k : Nat) (ws : List Line) (m : Line), s.cache[k]? = some ws → m ∈ ws →
      m.covers b = false) :
    Coherent { s with mainMem := s.mainMem.writeBytes a data } ∧
    ∀ b, State.memView { s with mainMem := s.mainMem.writeBytes a data } b =
      if a ≤ b ∧ b < a + data.length then data.getD (b - a) 0 else s.memView b := by
  constructor
  · refine ⟨h.on, h.line, h.sets, h.length, h.ways, h.tags, fun e l hl => (h.ok e l hl).congr fun b cb => ?_⟩
    rw [Memory.read_writeBytes, if_neg]
    rintro ⟨h1, h2⟩
    rw [hn b h1 h2 _ _ l e hl] at cb; cases cb
  · intro b
    unfold State.memView State.lineAt
    simp only [Memory.read_writeBytes]
    split
    · rename_i l hl
      rw [if_pos h.on] at hl
      have cl : l.covers b = true := List.find?_some (p := fun l : Line => l.covers b) hl
      rw [if_neg]
      rintro ⟨h1, h2⟩
      obtain ⟨k, ws, hk, hm⟩ := mem_flatten_iff.mp (List.mem_of_find?_eq_some hl)
      rw [hn b h1 h2 _ _ l hk hm] at cl; cases cl
    · rfl

/-! ## One way replaced -/

theorem State.ways_of {s : State} {set : Nat} {ways : List Line} (e : s.cache[set]? = some ways) : s.ways set = ways := by
  unfold State.ways
  rw [List.getD_eq_getElem?_getD, e]; rfl

theorem Coherent.has_set {s : State} (h : Coherent s) {set : Nat} (hs : set < cacheSets s.cfg) :
    s.cache[set]? = some (s.ways set) := by
  have : set < s.cache.length := by rw [h.length]; exact hs
  unfold State.ways
  rw [List.getD_eq_getElem?_getD, List.getElem?_eq_getElem this]; rfl

/-- The sets after one way is replaced. -/
theorem getElem?_set_way {cache : List (List Line)} {set way : Nat} {ways : List Line} {n : Line} {k : Nat}
    {ws : List Line} (h : (cache.set set (ways.set way n))[k]? = some ws) :
    (k = set ∧ ws = ways.set way n) ∨ (k ≠ set ∧ cache[k]? = some ws) := by
  rw [List.getElem?_set] at h
  split at h
  · rename_i hk
    subst hk
    split at h
    · exact .inl ⟨rfl, (Option.some.inj h).symm⟩
    · cases h
  · rename_i hk; exact .inr ⟨fun e => hk e.symm, h⟩

theorem TagsDistinct.set {ways : List Line} (h : TagsDistinct ways) {way : Nat} {n : Line}
    (hn : ∀ (j : Nat) (m : Line), ways[j]? = some m → j ≠ way → m.valid = true → n.valid = true → m.tag ≠ n.tag) :
    TagsDistinct (ways.set way n) := by
  unfold TagsDistinct
  rw [List.pairwise_iff_getElem]
  intro i j hi hj hij
  rw [List.length_set] at hi hj
  rw [List.getElem_set, List.getElem_set]
  have h' := List.pairwise_iff_getElem.mp h
  split
  · rename_i hw
    subst hw
    rw [if_neg (by omega)]
    intro hv hv'
    exact fun ht => hn j ways[j] (List.getElem?_eq_getElem hj) (by omega) hv' hv ht.symm
  · split
    · rename_i hw
      subst hw
      intro hv hv'
      exact hn i ways[i] (List.getElem?_eq_getElem hi) (by omega) hv hv'
    · exact h' i j hi hj hij

/-- Replacing one way by a line that is as its geometry says, and whose tag no other way of the set has, keeps the
coherence, when main memory is unchanged wherever another line covers. -/
theorem Coherent.setWay {s : State} (h : Coherent s) {set way : Nat} (hs : set < cacheSets s.cfg) {n : Line}
    {mem : Memory} (hn : LineOk s.cfg mem set n)
    (ht : ∀ (j : Nat) (m : Line), (s.ways set)[j]? = some m → j ≠ way → m.valid = true → n.valid = true → m.tag ≠ n.tag)
    (hm : ∀ (k : Nat) (ws : List Line) (j : Nat) (m : Line), s.cache[k]? = some ws → ws[j]? = some m →
      ¬(k = set ∧ j = way) → ∀ a, m.covers a = true → mem.read a = s.mainMem.read a) :
    Coherent { s.setWay set way n with mainMem := mem } := by
  have e := h.has_set hs
  refine ⟨h.on, h.line, h.sets, ?_, ?_, ?_, ?_⟩
  · simp only [State.setWay, List.length_set]; exact h.length
  · intro k ws hk
    rcases getElem?_set_way hk with ⟨_, rfl⟩ | ⟨_, hk⟩
    · rw [List.length_set]; exact h.ways e
    · exact h.ways hk
  · intro k ws hk
    rcases getElem?_set_way hk with ⟨_, rfl⟩ | ⟨_, hk⟩
    · exact (h.tags e).set ht
    · exact h.tags hk
  · intro k ws hk m hmem
    rcases getElem?_set_way hk with ⟨rfl, rfl⟩ | ⟨hne, hk⟩
    · obtain ⟨j, hj⟩ := List.mem_iff_getElem?.mp hmem
      rw [List.getElem?_set] at hj
      split at hj
      · split at hj
        · cases hj; exact hn
        · cases hj
      · rename_i hjw
        exact (h.ok e m (List.mem_of_getElem? hj)).congr (hm _ _ j m e hj (fun c => hjw c.2.symm))
    · obtain ⟨j, hj⟩ := List.mem_iff_getElem?.mp hmem
      exact (h.ok hk m hmem).congr (hm _ _ j m hk hj (fun c => hne c.1))

/-- The view after one way is replaced: at an address the new line covers it is the new line's, at an address another
line covers it is unchanged. -/
theorem Coherent.setWay_view {s : State} {set way : Nat} {n l : Line} {mem : Memory} (h : Coherent s)
    (h' : Coherent { s.setWay set way n with mainMem := mem }) (hs : set < cacheSets s.cfg)
    (hl : (s.ways set)[way]? = some l) (a : Nat) :
    State.memView { s.setWay set way n with mainMem := mem } a =
      if n.covers a = true then n.data.getD (a - n.base) 0
      else if s.lineAt a = none ∨ l.covers a = true then mem.read a else s.memView a := by
  have e := h.has_set hs
  have e' : State.cache { s.setWay set way n with mainMem := mem } = s.cache.set set ((s.ways set).set way n) := rfl
  have hlen : set < s.cache.length := by rw [h.length]; exact hs
  have hway : way < (s.ways set).length := (List.getElem?_eq_some_iff.mp hl).1
  have es : (State.cache { s.setWay set way n with mainMem := mem })[set]? = some ((s.ways set).set way n) := by
    rw [e', List.getElem?_set_self hlen]
  split
  · rename_i c
    exact h'.view_hit es (List.mem_iff_getElem?.mpr ⟨way, List.getElem?_set_self hway⟩) c
  · rename_i c
    by_cases hc : ∃ (k : Nat) (ws : List Line) (j : Nat) (m : Line), s.cache[k]? = some ws ∧ ws[j]? = some m ∧
        ¬(k = set ∧ j = way) ∧ m.covers a = true
    · obtain ⟨k, ws, j, m, hk, hj, hne, cm⟩ := hc
      have hv := h.view_hit hk (List.mem_of_getElem? hj) cm
      have hnl : ¬(s.lineAt a = none ∨ l.covers a = true) := by
        rintro (hnone | cl)
        · unfold State.lineAt at hnone
          rw [if_pos h.on] at hnone
          exact absurd cm (List.find?_eq_none.mp hnone m (mem_flatten_iff.mpr ⟨k, ws, hk, List.mem_of_getElem? hj⟩))
        · obtain ⟨h1, h2, _⟩ := h.unique hk e hj hl cm cl
          exact hne ⟨h1, h2⟩
      rw [if_neg hnl, hv]
      by_cases hks : k = set
      · subst hks
        obtain rfl : ws = s.ways k := by rw [e] at hk; exact (Option.some.inj hk).symm
        refine h'.view_hit es (List.mem_iff_getElem?.mpr ⟨j, ?_⟩) cm
        rw [List.getElem?_set_ne (fun e => hne ⟨rfl, e.symm⟩)]; exact hj
      · refine h'.view_hit (set := k) (ways := ws) ?_ (List.mem_of_getElem? hj) cm
        rw [e', List.getElem?_set_ne (fun e => hks e.symm)]; exact hk
    · have hmiss : State.memView { s.setWay set way n with mainMem := mem } a = mem.read a := by
        refine State.view_miss (s := { s.setWay set way n with mainMem := mem }) fun k ws m hk hm => ?_
        rcases getElem?_set_way hk with ⟨rfl, rfl⟩ | ⟨hne, hk⟩
        · obtain ⟨j, hj⟩ := List.mem_iff_getElem?.mp hm
          rw [List.getElem?_set] at hj
          split at hj
          · cases hj; simpa using c
          · rename_i hjw
            by_contra hcv
            exact hc ⟨_, _, j, m, e, hj, fun c => hjw c.2.symm, by simpa using hcv⟩
        · obtain ⟨j, hj⟩ := List.mem_iff_getElem?.mp hm
          by_contra hcv
          exact hc ⟨_, _, j, m, hk, hj, fun c => hne c.1, by simpa using hcv⟩
      rw [hmiss]
      split
      · rfl
      · rename_i hnl
        exfalso
        have hsome : s.lineAt a ≠ none := fun e => hnl (.inl e)
        cases hq : s.lineAt a with
        | none => exact hsome hq
        | some m =>
          have cm := State.covers_of_lineAt hq
          unfold State.lineAt at hq
          rw [if_pos h.on] at hq
          obtain ⟨k, ws, hk, hm⟩ := mem_flatten_iff.mp (List.mem_of_find?_eq_some hq)
          obtain ⟨j, hj⟩ := List.mem_iff_getElem?.mp hm
          by_cases hkj : k = set ∧ j = way
          · obtain ⟨rfl, rfl⟩ := hkj
            obtain rfl : ws = s.ways k := by rw [e] at hk; exact (Option.some.inj hk).symm
            rw [hl] at hj; cases hj
            exact hnl (.inr cm)
          · exact hc ⟨k, ws, j, m, hk, hj, hkj, cm⟩

/-! ## Replacement (rule R308) -/

theorem oldestWay_lt (stamp : Line → Nat) : ∀ {ways : List Line}, ways ≠ [] → oldestWay stamp ways < ways.length := by
  intro ways
  induction ways with
  | nil => intro h; exact absurd rfl h
  | cons l ls ih =>
    intro _
    cases ls with
    | nil => simp [oldestWay]
    | cons m ms =>
      have := ih (by simp)
      unfold oldestWay
      simp only
      split
      · split
        · simp
        · simp only [List.length_cons] at *; omega
      · simp

/-- The victim is a way of the set. -/
theorem victim_lt {cfg : Cfg} {rng : Nat} {ways : List Line} (hw : ways.length = cfg.cacheAssoc) (h0 : ways ≠ []) :
    (victim cfg rng ways).1 < ways.length := by
  unfold victim
  split
  · rename_i k hk
    exact (List.findIdx?_eq_some_iff_findIdx_eq.mp hk).1
  · split
    · exact oldestWay_lt _ h0
    · exact oldestWay_lt _ h0
    · simp only
      have : 0 < ways.length := List.length_pos_of_ne_nil h0
      exact hw ▸ Nat.mod_lt _ (hw ▸ this)

/-- What `Replace(la)` does when the line is not in the cache: one way becomes the line filled from main memory, after the
victim's write-back. -/
theorem replace_eq (s : State) (la : Nat) (hn : (s.ways (setIndex s.cfg la)).any (·.holds (lineTag s.cfg la)) = false)
    (l : Line) (hl : (s.ways (setIndex s.cfg la))[(victim s.cfg s.rng (s.ways (setIndex s.cfg la))).1]? = some l) :
    s.replace la =
      { s.setWay (setIndex s.cfg la) (victim s.cfg s.rng (s.ways (setIndex s.cfg la))).1
          { valid := true, dirty := false, tag := lineTag s.cfg la, base := la * s.cfg.cacheLineSize
            data := (writeBack l s.mainMem).readBytes (la * s.cfg.cacheLineSize) s.cfg.cacheLineSize
            set := setIndex s.cfg la, insertedSeq := s.accessSeq + 1, usedSeq := s.accessSeq + 1 } with
        mainMem := writeBack l s.mainMem
        rng := (victim s.cfg s.rng (s.ways (setIndex s.cfg la))).2
        accessSeq := s.accessSeq + 1 } := by
  unfold State.replace
  simp only [hn, hl, Option.map_some, Option.getD_some]
  rfl

theorem read_writeBack {cfg : Cfg} {mem : Memory} {set : Nat} {l : Line} (h : LineOk cfg mem set l) (a : Nat) :
    (writeBack l mem).read a = if l.covers a = true then l.data.getD (a - l.base) 0 else mem.read a := by
  unfold writeBack
  by_cases hv : l.valid = true
  · by_cases hd : l.dirty = true
    · simp only [hv, hd, Bool.and_self, if_true]
      rw [Memory.read_writeBytes]
      by_cases hc : l.base ≤ a ∧ a < l.base + l.data.length
      · rw [if_pos hc, if_pos ((Line.covers_iff l a).mpr ⟨hv, hc⟩)]
      · rw [if_neg hc, if_neg (fun c => hc ((Line.covers_iff l a).mp c).2)]
    · rw [if_neg (by simp [hd])]
      split
      · rename_i c; exact (h.clean_read c (by simpa using hd)).symm
      · rfl
  · have : l.covers a = false := by
      by_contra c
      exact hv ((Line.covers_iff l a).mp (by simpa using c)).1
    simp [hv, this]

theorem div_mod_line {S la : Nat} : la / S * S + la % S = la := by rw [Nat.mul_comm]; exact Nat.div_add_mod la S

/-- `Replace` keeps the cache coherent and leaves every byte of the view (rule R309). -/
theorem Coherent.replace {s : State} (h : Coherent s) (ha : s.cfg.cacheAssoc ≠ 0) (la : Nat) :
    Coherent (s.replace la) ∧ ∀ a, (s.replace la).memView a = s.memView a := by
  by_cases hn : (s.ways (setIndex s.cfg la)).any (·.holds (lineTag s.cfg la)) = true
  · have : s.replace la = s := by unfold State.replace; simp only [hn, if_true]
    rw [this]; exact ⟨h, fun _ => rfl⟩
  · have hn' : (s.ways (setIndex s.cfg la)).any (·.holds (lineTag s.cfg la)) = false := by simpa using hn
    have hs : setIndex s.cfg la < cacheSets s.cfg := Nat.mod_lt _ h.sets
    have e := h.has_set hs
    have hw := h.ways e
    have h0 : s.ways (setIndex s.cfg la) ≠ [] := by
      intro e0; rw [e0] at hw; exact ha hw.symm
    have hlt := victim_lt (rng := s.rng) hw h0
    set way := (victim s.cfg s.rng (s.ways (setIndex s.cfg la))).1 with hway
    obtain ⟨l, hl⟩ : ∃ l, (s.ways (setIndex s.cfg la))[way]? = some l := ⟨_, List.getElem?_eq_getElem hlt⟩
    have hlok := h.ok e l (List.mem_of_getElem? hl)
    rw [replace_eq s la hn' l hl]
    have hrb := read_writeBack hlok
    set mem := writeBack l s.mainMem with hmem
    set n : Line := { valid := true, dirty := false, tag := lineTag s.cfg la, base := la * s.cfg.cacheLineSize
                      data := mem.readBytes (la * s.cfg.cacheLineSize) s.cfg.cacheLineSize
                      set := setIndex s.cfg la, insertedSeq := s.accessSeq + 1, usedSeq := s.accessSeq + 1 } with hnew
    have htag : ∀ m ∈ s.ways (setIndex s.cfg la), m.valid = true → m.tag ≠ lineTag s.cfg la := by
      intro m hm hv ht
      have := List.any_eq_false.mp hn' m hm
      simp [Line.holds, hv, ht] at this
    have hnok : LineOk s.cfg mem (setIndex s.cfg la) n := by
      refine ⟨by simp [hnew], rfl, fun _ => ?_, fun _ _ => rfl⟩
      show la * _ = (la / _ * _ + la % _) * _
      rw [div_mod_line]
    have hco : Coherent { s.setWay (setIndex s.cfg la) way n with mainMem := mem } := by
      refine h.setWay hs hnok (fun j m hj _ hv _ => htag m (List.mem_of_getElem? hj) hv) ?_
      intro k ws j m hk hj hne a cm
      rw [hrb]
      by_cases cl : l.covers a = true
      · obtain ⟨h1, h2, _⟩ := h.unique hk e hj hl cm cl
        exact absurd ⟨h1, h2⟩ hne
      · rw [if_neg cl]
    have hview := h.setWay_view hco hs hl
    refine ⟨⟨hco.on, hco.line, hco.sets, hco.length, hco.ways, hco.tags, hco.ok⟩, fun a => ?_⟩
    refine Eq.trans (b := State.memView { s.setWay (setIndex s.cfg la) way n with mainMem := mem } a)
      (State.memView_congr rfl rfl rfl a) ?_
    rw [hview]
    split
    · rename_i cn
      obtain ⟨_, hal⟩ := (hnok.covers_iff h.line a).mp cn
      have hmiss : s.memView a = s.mainMem.read a := by
        refine State.view_miss fun k ws m hk hm => ?_
        by_contra cm
        have cm : m.covers a = true := by simpa using cm
        obtain ⟨vm, am⟩ := ((h.ok hk m hm).covers_iff h.line a).mp cm
        obtain ⟨ht, hsk⟩ := lineAddress_inj (h.set_lt hk) hs (am.symm.trans hal)
        subst hsk
        obtain rfl : ws = s.ways (setIndex s.cfg la) := by rw [e] at hk; exact (Option.some.inj hk).symm
        exact htag m hm vm ht
      rw [hnok.clean_read cn rfl, hrb, hmiss]
      split
      · rename_i cl
        have := h.view_hit e (List.mem_of_getElem? hl) cl
        rw [← this, hmiss]
      · rfl
    · split
      · rename_i hc
        rw [hrb]
        split
        · rename_i cl; exact (h.view_hit e (List.mem_of_getElem? hl) cl).symm
        · rename_i cl
          rcases hc with hc | hc
          · unfold State.memView; rw [hc]
          · exact absurd hc cl
      · rfl
/-- Triggering a replacement keeps both. -/
theorem Coherent.triggerReplacement {s : State} (h : Coherent s) (ha : s.cfg.cacheAssoc ≠ 0) (la : Nat) :
    Coherent (s.triggerReplacement la) ∧ ∀ a, (s.triggerReplacement la).memView a = s.memView a := by
  unfold State.triggerReplacement
  split
  · exact ⟨h, fun _ => rfl⟩
  · split
    · exact h.replace ha la
    · exact ⟨h.congr rfl rfl rfl, fun _ => rfl⟩

/-! ## Accesses (rules R303 to R306, R309) -/

theorem getD_patchBytes (bs : List Byte) : ∀ (data : List Byte) (off i : Nat), off + bs.length ≤ data.length →
    (patchBytes data off bs).getD i 0 = if off ≤ i ∧ i < off + bs.length then bs.getD (i - off) 0 else data.getD i 0 := by
  induction bs with
  | nil => intro data off i _; rw [if_neg (by simp)]; rfl
  | cons b bs ih =>
    intro data off i h
    simp only [List.length_cons] at h
    unfold patchBytes
    rw [ih _ _ _ (by rw [List.length_set]; omega)]
    simp only [List.length_cons]
    by_cases h1 : off + 1 ≤ i ∧ i < off + 1 + bs.length
    · rw [if_pos h1, if_pos (by omega)]
      obtain ⟨k, rfl⟩ : ∃ k, i = off + 1 + k := ⟨i - off - 1, by omega⟩
      simp [show off + 1 + k - off = k + 1 by omega]
    · rw [if_neg h1]
      by_cases h2 : i = off
      · subst h2
        rw [if_pos (by omega)]
        simp only [List.getD_eq_getElem?_getD]
        rw [List.getElem?_set_self (by omega)]
        simp
      · rw [if_neg (by omega)]
        simp only [List.getD_eq_getElem?_getD]
        rw [List.getElem?_set_ne (by omega)]

@[simp] theorem length_patchBytes (bs : List Byte) : ∀ (data : List Byte) (off : Nat),
    (patchBytes data off bs).length = data.length := by
  induction bs with
  | nil => intro data off; rfl
  | cons b bs ih => intro data off; simp [patchBytes, ih]

@[simp] theorem length_sliceBytes (data : List Byte) (off n : Nat) (h : off + n ≤ data.length) :
    (sliceBytes data off n).length = n := by simp [sliceBytes]; omega

theorem getD_sliceBytes (data : List Byte) (off n i : Nat) (h : i < n) :
    (sliceBytes data off n).getD i 0 = data.getD (off + i) 0 := by
  simp [sliceBytes, List.getD_eq_getElem?_getD, h]

theorem list_eq_range_map {l : List Byte} {n : Nat} {f : Nat → Byte} (hl : l.length = n)
    (h : ∀ i < n, l.getD i 0 = f i) : l = (List.range n).map f := by
  apply List.ext_getElem (by simp [hl])
  intro i h1 h2
  have := h i (hl ▸ h1)
  rw [List.getD_eq_getElem?_getD, List.getElem?_eq_getElem h1] at this
  simpa using this

theorem hitLine_covers (cfg : Cfg) (a seq : Nat) (l : Line) (req : Request) (b : Nat) :
    (hitLine cfg a seq l req).covers b = l.covers b := by
  cases req with
  | load => rfl
  | store data => simp [hitLine, Line.covers]

/-- What the view is to give at `b` after a request at `a`. -/
def State.viewAfter (s : State) (a : Nat) (req : Request) (b : Nat) : Byte :=
  match req with
  | .load => s.memView b
  | .store data => if a ≤ b ∧ b < a + data.length then data.getD (b - a) 0 else s.memView b

/-- A hit: the line is stamped, and a store's bytes go to it. -/
theorem Coherent.hit {s : State} (h : Coherent s) {set way : Nat} {l : Line} (hs : set < cacheSets s.cfg)
    (hl : (s.ways set)[way]? = some l) (a seq : Nat) (req : Request)
    (hr : ∀ data, req = .store data → l.covers a = true ∧ a % s.cfg.cacheLineSize + data.length ≤ s.cfg.cacheLineSize) :
    Coherent (s.setWay set way (hitLine s.cfg a seq l req)) ∧
    ∀ b, (s.setWay set way (hitLine s.cfg a seq l req)).memView b =
      s.viewAfter a req b := by
  have e := h.has_set hs
  have hok := h.ok e l (List.mem_of_getElem? hl)
  have hn : LineOk s.cfg s.mainMem set (hitLine s.cfg a seq l req) := by
    cases req with
    | load => exact hok
    | store data => exact ⟨by simp [hitLine, hok.1], hok.2.1, hok.2.2.1, by simp [hitLine]⟩
  have hco : Coherent (s.setWay set way (hitLine s.cfg a seq l req)) := by
    refine (h.setWay (way := way) hs hn ?_ (fun _ _ _ _ _ _ _ _ _ => rfl)).congr rfl rfl rfl
    intro j m hj hjw hv hv' ht
    have e1 : (hitLine s.cfg a seq l req).valid = l.valid := by cases req <;> rfl
    have e2 : (hitLine s.cfg a seq l req).tag = l.tag := by cases req <;> rfl
    exact hjw ((h.tags e).eq hj hl hv (e1 ▸ hv') (e2 ▸ ht))
  refine ⟨hco, fun b => ?_⟩
  have hview := h.setWay_view (mem := s.mainMem) (hco.congr rfl rfl rfl) hs hl b
  refine Eq.trans (State.memView_congr rfl rfl rfl b) (hview.trans ?_)
  rw [hitLine_covers]
  have hmiss : s.lineAt b = none → s.mainMem.read b = s.memView b := fun hn => by unfold State.memView; rw [hn]
  by_cases cb : l.covers b = true
  · rw [if_pos cb]
    have hvb := h.view_hit e (List.mem_of_getElem? hl) cb
    cases req with
    | load => exact hvb.symm
    | store data =>
      obtain ⟨ca, hfit⟩ := hr data rfl
      obtain ⟨vl, hla⟩ := (hok.covers_iff h.line a).mp ca
      obtain ⟨_, hlb⟩ := (hok.covers_iff h.line b).mp cb
      have hbase : l.base = (a / s.cfg.cacheLineSize) * s.cfg.cacheLineSize := by rw [hok.2.2.1 vl, hla]
      have hda := Nat.div_add_mod a s.cfg.cacheLineSize
      rw [Nat.mul_comm] at hda
      obtain ⟨_, h1, h2⟩ := (Line.covers_iff l b).mp cb
      simp only [hitLine, lineOffset, State.viewAfter]
      rw [getD_patchBytes _ _ _ _ (by rw [hok.1]; exact hfit)]
      by_cases hin : a ≤ b ∧ b < a + data.length
      · rw [if_pos (by omega), if_pos hin]; congr 1; omega
      · rw [if_neg (by omega), if_neg hin, hvb]
  · rw [if_neg cb]
    have : (if s.lineAt b = none ∨ l.covers b = true then s.mainMem.read b else s.memView b) = s.memView b := by
      split
      · rename_i hc; exact hmiss (hc.resolve_right cb)
      · rfl
    rw [this]
    cases req with
    | load => rfl
    | store data =>
      obtain ⟨ca, hfit⟩ := hr data rfl
      simp only [State.viewAfter]
      rw [if_neg]
      rintro ⟨h1, h2⟩
      apply cb
      obtain ⟨vl, hla⟩ := (hok.covers_iff h.line a).mp ca
      refine (hok.covers_iff h.line b).mpr ⟨vl, ?_⟩
      rw [← hla, Nat.div_eq_iff h.line]
      have hda := Nat.div_add_mod a s.cfg.cacheLineSize
      rw [Nat.mul_comm] at hda
      constructor
      · omega
      · have : 0 < s.cfg.cacheLineSize := h.line
        omega

theorem findWay_some {p : Line → Bool} {ways : List Line} {k : Nat} (h : findWay p ways = some k) :
    ∃ l, ways[k]? = some l ∧ p l = true := by
  unfold findWay at h
  obtain ⟨hk, hp, _⟩ := List.findIdx?_eq_some_iff_getElem.mp h
  exact ⟨_, List.getElem?_eq_getElem hk, hp⟩

theorem findWay_none {p : Line → Bool} {ways : List Line} (h : findWay p ways = none) : ∀ l ∈ ways, p l = false := by
  unfold findWay at h
  simpa [List.findIdx?_eq_none_iff] using h

/-- The bytes the view gives from an address on. -/
def State.viewBytes (s : State) (a n : Nat) : List Byte := (List.range n).map fun k => s.memView (a + k)

/-- Rule R309 for `Access`: coherence is kept; a load leaves the view and returns its bytes; a store within a line changes
it at exactly its bytes. -/
theorem Coherent.access {s : State} (h : Coherent s) (ha : s.cfg.cacheAssoc ≠ 0) (a n : Nat) (req : Request)
    (hfit : a % s.cfg.cacheLineSize + n ≤ s.cfg.cacheLineSize ∨ req = .load)
    (hn : ∀ data, req = .store data → data.length = n) :
    Coherent (s.access a n req).1 ∧
    (∀ b, (s.access a n req).1.memView b =
      s.viewAfter a req b) ∧
    (req = .load → a % s.cfg.cacheLineSize + n ≤ s.cfg.cacheLineSize → (s.access a n req).2.2 = s.viewBytes a n) := by
  set s1 : State := { s with
    nextMemId := s.nextMemId + 1, accessSeq := s.accessSeq + 1
    stats := { s.stats with cacheAccesses := s.stats.cacheAccesses + 1 } } with hs1
  have h1 : Coherent s1 := h.congr rfl rfl rfl
  have v1 : ∀ b, s1.memView b = s.memView b := fun b => rfl
  have hs : setIndex s.cfg (lineAddress s.cfg a) < cacheSets s.cfg := Nat.mod_lt _ h.sets
  have hla : lineAddress s.cfg a =
      lineTag s.cfg (lineAddress s.cfg a) * cacheSets s.cfg + setIndex s.cfg (lineAddress s.cfg a) := by
    unfold lineTag setIndex; rw [Nat.mul_comm]; exact (Nat.div_add_mod _ _).symm
  have hmiss : findWay (·.holds (lineTag s.cfg (lineAddress s.cfg a))) (s.ways (setIndex s.cfg (lineAddress s.cfg a)))
        = none →
      Coherent (s1.accessMiss a n req (lineAddress s.cfg a)).1 ∧
      (∀ b, (s1.accessMiss a n req (lineAddress s.cfg a)).1.memView b =
        s.viewAfter a req b) ∧
      (req = .load → a % s.cfg.cacheLineSize + n ≤ s.cfg.cacheLineSize →
        (s1.accessMiss a n req (lineAddress s.cfg a)).2.2 = s.viewBytes a n) := by
    intro hnone
    have hcov : ∀ b, b / s.cfg.cacheLineSize = lineAddress s.cfg a → ∀ (k : Nat) (ws : List Line) (m : Line),
        s.cache[k]? = some ws → m ∈ ws → m.covers b = false := by
      intro b hb
      refine h.not_covered (fun m hm hv ht => ?_) hb
      have := findWay_none hnone m hm
      simp [Line.holds, hv, ht] at this
    have hin : ∀ b, a ≤ b → b < a + n → a % s.cfg.cacheLineSize + n ≤ s.cfg.cacheLineSize →
        b / s.cfg.cacheLineSize = lineAddress s.cfg a := by
      intro b h1 h2 hf
      unfold lineAddress
      rw [Nat.div_eq_iff h.line]
      have hda := Nat.div_add_mod a s.cfg.cacheLineSize
      rw [Nat.mul_comm] at hda
      have := h.line
      constructor <;> omega
    set s2 : State := ({ s1 with stats := { s1.stats with cacheMisses := s1.stats.cacheMisses + 1 } }).serveFromMemory a
      req with hs2
    have hserve : Coherent s2 ∧ s2.cfg = s.cfg ∧ ∀ b, s2.memView b = s.viewAfter a req b := by
      cases req with
      | load => exact ⟨h1.congr rfl rfl rfl, rfl, fun b => rfl⟩
      | store data =>
        have hf := hfit.resolve_right (by simp)
        have := (h1.congr (t := { s1 with stats := { s1.stats with cacheMisses := s1.stats.cacheMisses + 1 } })
          rfl rfl rfl).writeMem a data fun b h2 h3 => hcov b (hin b h2 (hn data rfl ▸ h3) hf)
        exact ⟨this.1, rfl, this.2⟩
    obtain ⟨c2, e2, v2⟩ := hserve
    have ht := c2.triggerReplacement (e2 ▸ ha) (lineAddress s.cfg a)
    refine ⟨ht.1.congr rfl rfl rfl, fun b => ?_, ?_⟩
    · exact (ht.2 b).trans (v2 b)
    · intro hload hf
      subst hload
      refine list_eq_range_map (by exact Memory.length_readBytes _ _ _) fun i hi => ?_
      refine (Memory.getD_readBytes _ _ _ _ hi).trans ?_
      exact (State.view_miss fun k ws m hk hm => hcov (a + i) (hin _ (by omega) (by omega) hf) k ws m hk hm).symm
  unfold State.access
  simp only [h.on, if_true]
  split
  · rename_i way hw
    have hw' : findWay (·.holds (lineTag s.cfg (lineAddress s.cfg a)))
        (s.ways (setIndex s.cfg (lineAddress s.cfg a))) = some way := hw
    obtain ⟨l, hl, hp⟩ := findWay_some hw'
    simp only [Line.holds, Bool.and_eq_true, decide_eq_true_eq] at hp
    have hok := h.ok (h.has_set hs) l (List.mem_of_getElem? hl)
    have hca : l.covers a = true := (hok.covers_iff h.line a).mpr ⟨hp.1, by rw [hp.2]; exact hla⟩
    split
    · rename_i l' hl'
      have hll : l' = l := by
        have : (s.ways (setIndex s.cfg (lineAddress s.cfg a)))[way]? = some l' := hl'
        rw [hl] at this; exact (Option.some.inj this).symm
      subst hll
      have hh := h1.hit (l := l') hs hl a s1.accessSeq req fun data hd =>
        ⟨hca, hn data hd ▸ hfit.resolve_right (by rw [hd]; simp)⟩
      refine ⟨hh.1.congr rfl rfl rfl, hh.2, ?_⟩
      intro hload hf
      subst hload
      refine list_eq_range_map (length_sliceBytes _ _ _ (by simp only [hitLine, hok.1]; exact hf)) fun i hi => ?_
      refine (getD_sliceBytes _ _ _ _ hi).trans ?_
      obtain ⟨vl, hal⟩ := (hok.covers_iff h.line a).mp hca
      have hda := Nat.div_add_mod a s.cfg.cacheLineSize
      rw [Nat.mul_comm] at hda
      have hbase : l'.base = (a / s.cfg.cacheLineSize) * s.cfg.cacheLineSize := by rw [hok.2.2.1 vl, hal]
      have hci : l'.covers (a + i) = true := by
        rw [Line.covers_iff, hok.1]; exact ⟨vl, by omega, by omega⟩
      rw [h.view_hit (h.has_set hs) (List.mem_of_getElem? hl) hci]
      show l'.data.getD (lineOffset s.cfg a + i) 0 = _
      congr 1
      unfold lineOffset
      omega
    · rename_i hl'
      have : (s.ways (setIndex s.cfg (lineAddress s.cfg a)))[way]? = none := hl'
      rw [hl] at this; cases this
  · rename_i hw
    exact hmiss hw

/-! ## Stores of the architectural level, and the pair's validity -/

/-- One byte stored into the view keeps the coherence. -/
theorem Coherent.memViewWrite {s : State} (h : Coherent s) (a : Nat) (b : Byte) : Coherent (s.memViewWrite a b) := by
  unfold State.memViewWrite
  split
  · have hp : ∀ l : Line, (l.patch a b).valid = l.valid ∧ (l.patch a b).tag = l.tag := by
      intro l; unfold Line.patch; split <;> exact ⟨rfl, rfl⟩
    refine ⟨h.on, h.line, h.sets, by simp [h.length], fun e => ?_, fun e => ?_, fun e => ?_⟩ <;>
      (simp only [List.getElem?_map, Option.map_eq_some_iff] at e; obtain ⟨ws, hk, rfl⟩ := e)
    · rw [List.length_map]; exact h.ways hk
    · exact List.pairwise_map.mpr ((h.tags hk).imp fun hlm hv hv' => by
        rw [(hp _).1] at hv hv'; rw [(hp _).2, (hp _).2]; exact hlm hv hv')
    · intro m hm
      obtain ⟨l, hl, rfl⟩ := List.mem_map.mp hm
      have ok := h.ok hk l hl
      unfold Line.patch
      split
      · exact ⟨by simp [ok.1], ok.2.1, ok.2.2.1, by simp⟩
      · exact ok
  · rename_i hn
    refine (h.writeMem a [b] ?_).1
    intro c h1 h2 k ws m hk hm
    obtain rfl : c = a := by simp at h2; omega
    unfold State.lineAt at hn
    rw [if_pos h.on] at hn
    simpa using List.find?_eq_none.mp hn m (mem_flatten_iff.mpr ⟨k, ws, hk, hm⟩)

theorem Coherent.memWrite (data : List Byte) : ∀ {s : State}, Coherent s → ∀ a, Coherent (s.memWrite a data) := by
  induction data with
  | nil => intro s h a; exact h
  | cons b bs ih => intro s h a; exact ih (h.memViewWrite a b) (a + 1)

theorem Coherent.assoc_ne_zero {s : State} (h : Coherent s) : s.cfg.cacheAssoc ≠ 0 := by
  intro e
  have := h.sets
  unfold cacheSets at this
  rw [e, Nat.div_zero] at this
  exact absurd this (Nat.lt_irrefl 0)

/-- A valid pair's line size is a multiple of 4 (rule R8). -/
theorem line_of_valid {cfg : Cfg} {prog : Prog} (h : validate cfg prog = []) : 4 ∣ cfg.cacheLineSize := by
  unfold validate at h
  simp only [List.append_eq_nil_iff] at h
  have h0 := h.1.1.1.1.1
  unfold cfgViolations at h0
  simp only [List.append_eq_nil_iff] at h0
  have h1 := h0.1.1.1.1.1.2
  unfold require at h1
  split at h1
  · rename_i h2
    simp only [isLineSize, List.any_eq_true, decide_eq_true_eq] at h2
    obtain ⟨k, _, h3⟩ := h2
    rw [h3, Nat.pow_add]
    exact Dvd.intro_left _ rfl
  · cases h1

/-- An aligned access of 1, 2 or 4 bytes lies within one line (rule R303). -/
theorem within_line {L a n : Nat} (hL : 4 ∣ L) (h0 : 0 < L) (hn : n = 1 ∨ n = 2 ∨ n = 4) (ha : a % n = 0) :
    a % L + n ≤ L := by
  have hd : n ∣ L := by rcases hn with rfl | rfl | rfl <;> omega
  have h1 : a % L % n = 0 := by rw [Nat.mod_mod_of_dvd a hd]; exact ha
  have h2 := Nat.mod_lt a h0
  obtain ⟨k, hk⟩ := hd
  obtain ⟨j, hj⟩ := Nat.dvd_of_mod_eq_zero h1
  rw [hj, hk] at h2 ⊢
  have : j < k := Nat.lt_of_mul_lt_mul_left h2
  calc n * j + n = n * (j + 1) := by ring
    _ ≤ n * k := Nat.mul_le_mul_left n this

end Sys2Proof.Machine
end

