-- ==== Sys2Proof/Laws/Commit.lean ====
section
/-! SUPPORT. What each part of committing one instruction may write (`55_rob_commit.md` rules R333 to R345), and the
induction over them. -/

namespace Sys2Proof.Machine

/-- The head of the reorder buffer counted and removed, the first part of rule R334. -/
def State.popHead (s : State) : State :=
  { s with rob := s.rob.tail, stats := { s.stats with committed := s.stats.committed + 1 } }

theorem writeReg_frame (s : State) (r : ArchReg) (v : Container) (tag : Tag) :
    s.writeReg r v tag = { s with x := (s.writeReg r v tag).x, f := (s.writeReg r v tag).f } := by
  unfold State.writeReg State.writeX
  split
  · split <;> rfl
  · rfl

theorem vector_get_set {α : Type} {n : Nat} (v : Vector α n) (i : Fin n) (a : α) : (v.set i a).get i = a := by
  change (v.set i a)[i.val] = a
  exact Vector.getElem_set_self i.isLt

theorem ofContainer_toContainer (v : Word) : ofContainer (toContainer v) = v := by
  simp [ofContainer, toContainer]

/-- A register read after the commit of a value its file can hold gives that value: "the value a reference denotes never
changes once it is ready" (rule R237), for either file and the whole container. -/
theorem readReg_writeReg_heldIn (s : State) (r : ArchReg) (v : Container) (tag : Tag) (h : r.isZero = false) :
    (s.writeReg r (heldIn r.file v) tag).readReg r = heldIn r.file v := by
  obtain ⟨file, idx⟩ := r
  cases file with
  | x =>
    have hidx : idx ≠ 0 := by rintro rfl; simp [ArchReg.isZero] at h
    simp [State.writeReg, State.readReg, State.writeX, State.readX, heldIn, hidx, ofContainer_toContainer, vector_get_set]
  | f => simp [State.writeReg, State.readReg, heldIn, vector_get_set]

/-- Register commit writes `x`, `f`, the references, the rename table and the pool (rule R335). -/
theorem commitRegister_frame (s : State) (d : DynInst) :
    s.commitRegister d =
      { s with
        x := (s.commitRegister d).x, f := (s.commitRegister d).f
        decodeBuffer := (s.commitRegister d).decodeBuffer, rob := (s.commitRegister d).rob
        renameTable := (s.commitRegister d).renameTable, pool := (s.commitRegister d).pool } := by
  unfold State.commitRegister
  split
  · simp only; rw [writeReg_frame]
  · rfl

/-- Store commit writes the store buffer and the memory hierarchy (rule R337). -/
theorem commitStore_cases (s : State) (d : DynInst) :
    s.commitStore d = s ∨ ∃ it rest, s.storeBuffer = it :: rest ∧
      s.commitStore d = (({ s with storeBuffer := rest }).access ((it.addr.getD 0).toNat) (accessSize d.ins)
        (.store (it.data.getD []))).1 := by
  unfold State.commitStore
  split
  · exact .inl rfl
  · rename_i it rest h; exact .inr ⟨it, rest, h, rfl⟩

/-- A transfer's training, statistics and branch-target-buffer entry, before recovery (rules R338, R339, R344). -/
def State.trainTransfer (s : State) (d : DynInst) : State :=
  let taken := d.actualTaken.getD false
  let target := d.actualTarget.getD 0
  let s1 := s.train d.id d.pc taken
  let s2 := { s1 with stats := { s1.stats with
    branches := s1.stats.branches + 1
    correctDir := if d.dirPred = taken then s1.stats.correctDir + 1 else s1.stats.correctDir } }
  let s3 := s2.updateBtb d.id d.pc (insConditional d.ins) taken target
  if taken && decide (target = s3.cfg.exitAddress) then { s3 with haltSeen := true } else s3

/-- What commit of a transfer answers: its training, and on a misprediction the recovery (rule R345). -/
theorem commitTransfer_eq (s : State) (d : DynInst) :
    s.commitTransfer d =
      if mispredicted d (d.actualTaken.getD false) (d.actualTarget.getD 0) then
        ((s.trainTransfer d).recover d (s.snapshotOf d.id) (d.actualTaken.getD false) (d.actualTarget.getD 0), true)
      else (s.trainTransfer d, d.actualTaken.getD false && decide (d.actualTarget.getD 0 = s.cfg.exitAddress)) := by
  unfold State.commitTransfer State.trainTransfer
  simp only
  have : ∀ (s : State) (a : Nat) (P : Word) (c t : Bool) (g : Word), (s.updateBtb a P c t g).cfg = s.cfg := by
    intro s a P c t g; unfold State.updateBtb; split <;> rfl
  simp only [this, State.train]

/-- Training once the outcome is known: the halt is a component of its own. -/
theorem trainTransfer_halt (s : State) (d : DynInst) :
    s.trainTransfer d =
      { ({ s.train d.id d.pc (d.actualTaken.getD false) with stats := { s.stats with
            branches := s.stats.branches + 1
            correctDir := if d.dirPred = d.actualTaken.getD false then s.stats.correctDir + 1
              else s.stats.correctDir } }).updateBtb d.id d.pc (insConditional d.ins) (d.actualTaken.getD false)
            (d.actualTarget.getD 0) with
        haltSeen := s.haltSeen ||
          (d.actualTaken.getD false && decide (d.actualTarget.getD 0 = s.cfg.exitAddress)) } := by
  unfold State.trainTransfer State.updateBtb
  generalize d.actualTaken.getD false = taken
  generalize d.actualTarget.getD 0 = target
  cases taken with
  | false =>
    simp [State.train]
  | true =>
    cases hd : decide (target = s.cfg.exitAddress)
    · show (if (true && decide (target = s.cfg.exitAddress)) = true then _ else _) = _
      rw [hd]; simp [State.train]
    · show (if (true && decide (target = s.cfg.exitAddress)) = true then _ else _) = _
      rw [hd]; simp [State.train]

theorem updateBtb_frame (s : State) (id : Nat) (P : Word) (c t : Bool) (g : Word) :
    s.updateBtb id P c t g = { s with btb := (s.updateBtb id P c t g).btb } := by
  unfold State.updateBtb; split <;> rfl

theorem trainTransfer_frame (s : State) (d : DynInst) :
    s.trainTransfer d =
      { s with
        snapshots := s.snapshots.filter fun e => decide (e.id ≠ d.id)
        pht := (s.trainTransfer d).pht, btb := (s.trainTransfer d).btb, haltSeen := (s.trainTransfer d).haltSeen
        stats := { s.stats with
          branches := s.stats.branches + 1
          correctDir := if d.dirPred = d.actualTaken.getD false then s.stats.correctDir + 1
            else s.stats.correctDir } } := by
  rw [trainTransfer_halt, updateBtb_frame]; rfl

theorem trainTransfer_pht (s : State) (d : DynInst) :
    (s.trainTransfer d).pht = (s.train d.id d.pc (d.actualTaken.getD false)).pht := by
  rw [trainTransfer_halt, updateBtb_frame]

theorem trainTransfer_btb (s : State) (d : DynInst) :
    (s.trainTransfer d).btb = if d.actualTaken.getD false = true then
      s.btb.set (btbIndex s.cfg d.pc) (some { tag := d.pc, conditional := insConditional d.ins,
                                              target := d.actualTarget.getD 0, commitId := d.id })
      else s.btb := by
  rw [trainTransfer_halt]
  show (State.updateBtb _ _ _ _ _ _).btb = _
  unfold State.updateBtb; split <;> rfl

/-- A predicate that each part of a commit keeps is kept by the commit (rule R334). -/
theorem commitOne_inv {P : State → Prop} (s : State) (d : DynInst)
    (hpop : P s → P s.popHead) (hreg : ∀ s, P s → P (s.commitRegister d))
    (hstore : ∀ s, P s → P (s.commitStore d)) (hload : ∀ s, P s → P s.commitLoad)
    (htrain : ∀ s, P s → P (s.trainTransfer d))
    (hrecover : ∀ s g, P s → P (s.recover d g (d.actualTaken.getD false) (d.actualTarget.getD 0))) :
    P s → P (s.commitOne d).1 := by
  intro h
  unfold State.commitOne
  simp only
  have h1 := hreg _ (hpop h)
  unfold State.popHead at h1
  split
  · rw [commitTransfer_eq]
    split
    · refine hrecover _ _ (htrain _ ?_)
      split <;> split <;> first | exact hload _ (hstore _ h1) | exact hload _ h1 | exact hstore _ h1 | exact h1
    · refine htrain _ ?_
      split <;> split <;> first | exact hload _ (hstore _ h1) | exact hload _ h1 | exact hstore _ h1 | exact h1
  · simp only
    split <;> split <;> first | exact hload _ (hstore _ h1) | exact hload _ h1 | exact hstore _ h1 | exact h1

end Sys2Proof.Machine
end

