-- ==== Sys2Proof/Laws/Decode.lean ====
section
/-! SUPPORT. The fields of a packed image (`30_encoding.md` rule R106) and the immediates (rule R108): each field of
`pack` reads back as it was given, so every statement about an image reduces to its fields. -/

namespace Sys2Proof

@[simp] theorem fieldOpcode_pack (hi : BitVec 7) (m a : BitVec 5) (f3 : BitVec 3) (d : BitVec 5) (op : BitVec 7) :
    fieldOpcode (pack hi m a f3 d op) = op := by
  unfold fieldOpcode pack
  ext k hk
  simp
  grind

@[simp] theorem fieldRd_pack (hi : BitVec 7) (m a : BitVec 5) (f3 : BitVec 3) (d : BitVec 5) (op : BitVec 7) :
    fieldRd (pack hi m a f3 d op) = d := by
  unfold fieldRd pack
  ext k hk
  simp [BitVec.getElem_extractLsb']
  grind

@[simp] theorem fieldFunct3_pack (hi : BitVec 7) (m a : BitVec 5) (f3 : BitVec 3) (d : BitVec 5) (op : BitVec 7) :
    fieldFunct3 (pack hi m a f3 d op) = f3 := by
  unfold fieldFunct3 pack
  ext k hk
  simp [BitVec.getElem_extractLsb']
  grind

@[simp] theorem fieldRs1_pack (hi : BitVec 7) (m a : BitVec 5) (f3 : BitVec 3) (d : BitVec 5) (op : BitVec 7) :
    fieldRs1 (pack hi m a f3 d op) = a := by
  unfold fieldRs1 pack
  ext k hk
  simp [BitVec.getElem_extractLsb']
  grind

@[simp] theorem fieldRs2_pack (hi : BitVec 7) (m a : BitVec 5) (f3 : BitVec 3) (d : BitVec 5) (op : BitVec 7) :
    fieldRs2 (pack hi m a f3 d op) = m := by
  unfold fieldRs2 pack
  ext k hk
  simp [BitVec.getElem_extractLsb']
  grind

@[simp] theorem fieldFunct7_pack (hi : BitVec 7) (m a : BitVec 5) (f3 : BitVec 3) (d : BitVec 5) (op : BitVec 7) :
    fieldFunct7 (pack hi m a f3 d op) = hi := by
  unfold fieldFunct7 pack
  ext k hk
  simp [BitVec.getElem_extractLsb']
  grind

/-- A word is its six fields. -/
theorem pack_fields (w : Word) :
    pack (fieldFunct7 w) (fieldRs2 w) (fieldRs1 w) (fieldFunct3 w) (fieldRd w) (fieldOpcode w) = w := by
  unfold pack fieldFunct7 fieldRs2 fieldRs1 fieldFunct3 fieldRd fieldOpcode
  ext k hk
  simp
  grind

/-- Decoding a packed image decodes its fields. -/
theorem decodeWord_pack (hi : BitVec 7) (m a : BitVec 5) (f3 : BitVec 3) (d : BitVec 5) (op : BitVec 7) :
    decodeWord (pack hi m a f3 d op) = decodeFields hi m a f3 d op := by
  simp [decodeWord]

@[simp] theorem regOf_regBits (r : Reg) : regOf (regBits r) = r := rfl

@[simp] theorem regBits_regOf (b : BitVec 5) : regBits (regOf b) = b := rfl

/-- A 12-bit immediate as a word is its field sign-extended (rule R108). -/
theorem immWord_sext {imm : Int} (h : immIOk imm = true) : immWord imm = (BitVec.ofInt 12 imm).signExtend 32 := by
  simp only [immIOk, decide_eq_true_eq] at h
  apply BitVec.eq_of_toInt_eq
  rw [BitVec.toInt_signExtend, BitVec.toInt_ofInt, BitVec.toInt_ofInt]
  simp [Int.bmod]
  omega

/-- The four bytes of a word give the word back (rule R105). -/
theorem decodeBytes_imageBytes (w : Word) (rest : List Byte) :
    decodeBytes (imageBytes w ++ rest) = (decodeWord w, rest) := by
  have e : (w.extractLsb' 24 8 ++ w.extractLsb' 16 8 ++ w.extractLsb' 8 8 ++ w.extractLsb' 0 8 : BitVec 32) = w := by
    ext k hk
    simp
    grind
  simp only [imageBytes, List.cons_append, List.nil_append, decodeBytes]
  rw [e]

end Sys2Proof
end

