-- ==== Sys2Proof/Laws/PerInstr.lean ====
section
/-! SUPPORT. The family `Layout`: every instruction's image has one of its format's opcodes
(`30_encoding.md` rule R113), one lemma per instruction. -/

namespace Sys2Proof.Laws

/-- The opcodes of the opcode map (rule R113), by operand shape. -/
def formatOpcodes : Format → List (BitVec 7)
  | .R => [0b0110011#7]
  | .I => [0b0010011#7, 0b1100111#7]
  | .SH => [0b0010011#7]
  | .IL => [0b0000011#7]
  | .S => [0b0100011#7]
  | .B => [0b1100011#7]
  | .U => [0b0110111#7, 0b0010111#7]
  | .J => [0b1101111#7]

/-- The image has an opcode of the instruction's format. -/
def Layout.Statement (i : Instr) : Prop := fieldOpcode (encode i) ∈ formatOpcodes (Machine.format i)

/-- The one computation all lemmas of the family cite: each encoder puts its opcode into the low seven bits. -/
theorem Layout.holds (i : Instr) : Layout.Statement i := by
  cases i <;>
    simp [Layout.Statement, encode, encodeU, encodeI, encodeSH, encodeR, encodeJ, encodeB, encodeS, formatOpcodes,
      Machine.format]

theorem Layout.lui (rd : Reg) (imm : Int) : Layout.Statement (.lui rd imm) :=
  Layout.holds _

theorem Layout.auipc (rd : Reg) (imm : Int) : Layout.Statement (.auipc rd imm) :=
  Layout.holds _

theorem Layout.addi (rd rs1 : Reg) (imm : Int) : Layout.Statement (.addi rd rs1 imm) :=
  Layout.holds _

theorem Layout.slti (rd rs1 : Reg) (imm : Int) : Layout.Statement (.slti rd rs1 imm) :=
  Layout.holds _

theorem Layout.sltiu (rd rs1 : Reg) (imm : Int) : Layout.Statement (.sltiu rd rs1 imm) :=
  Layout.holds _

theorem Layout.xori (rd rs1 : Reg) (imm : Int) : Layout.Statement (.xori rd rs1 imm) :=
  Layout.holds _

theorem Layout.ori (rd rs1 : Reg) (imm : Int) : Layout.Statement (.ori rd rs1 imm) :=
  Layout.holds _

theorem Layout.andi (rd rs1 : Reg) (imm : Int) : Layout.Statement (.andi rd rs1 imm) :=
  Layout.holds _

theorem Layout.slli (rd rs1 : Reg) (imm : Int) : Layout.Statement (.slli rd rs1 imm) :=
  Layout.holds _

theorem Layout.srli (rd rs1 : Reg) (imm : Int) : Layout.Statement (.srli rd rs1 imm) :=
  Layout.holds _

theorem Layout.srai (rd rs1 : Reg) (imm : Int) : Layout.Statement (.srai rd rs1 imm) :=
  Layout.holds _

theorem Layout.add (rd rs1 rs2 : Reg) : Layout.Statement (.add rd rs1 rs2) :=
  Layout.holds _

theorem Layout.sub (rd rs1 rs2 : Reg) : Layout.Statement (.sub rd rs1 rs2) :=
  Layout.holds _

theorem Layout.sll (rd rs1 rs2 : Reg) : Layout.Statement (.sll rd rs1 rs2) :=
  Layout.holds _

theorem Layout.slt (rd rs1 rs2 : Reg) : Layout.Statement (.slt rd rs1 rs2) :=
  Layout.holds _

theorem Layout.sltu (rd rs1 rs2 : Reg) : Layout.Statement (.sltu rd rs1 rs2) :=
  Layout.holds _

theorem Layout.xor (rd rs1 rs2 : Reg) : Layout.Statement (.xor rd rs1 rs2) :=
  Layout.holds _

theorem Layout.srl (rd rs1 rs2 : Reg) : Layout.Statement (.srl rd rs1 rs2) :=
  Layout.holds _

theorem Layout.sra (rd rs1 rs2 : Reg) : Layout.Statement (.sra rd rs1 rs2) :=
  Layout.holds _

theorem Layout.or (rd rs1 rs2 : Reg) : Layout.Statement (.or rd rs1 rs2) :=
  Layout.holds _

theorem Layout.and (rd rs1 rs2 : Reg) : Layout.Statement (.and rd rs1 rs2) :=
  Layout.holds _

theorem Layout.mul (rd rs1 rs2 : Reg) : Layout.Statement (.mul rd rs1 rs2) :=
  Layout.holds _

theorem Layout.mulh (rd rs1 rs2 : Reg) : Layout.Statement (.mulh rd rs1 rs2) :=
  Layout.holds _

theorem Layout.mulhsu (rd rs1 rs2 : Reg) : Layout.Statement (.mulhsu rd rs1 rs2) :=
  Layout.holds _

theorem Layout.mulhu (rd rs1 rs2 : Reg) : Layout.Statement (.mulhu rd rs1 rs2) :=
  Layout.holds _

theorem Layout.div (rd rs1 rs2 : Reg) : Layout.Statement (.div rd rs1 rs2) :=
  Layout.holds _

theorem Layout.divu (rd rs1 rs2 : Reg) : Layout.Statement (.divu rd rs1 rs2) :=
  Layout.holds _

theorem Layout.rem (rd rs1 rs2 : Reg) : Layout.Statement (.rem rd rs1 rs2) :=
  Layout.holds _

theorem Layout.remu (rd rs1 rs2 : Reg) : Layout.Statement (.remu rd rs1 rs2) :=
  Layout.holds _

theorem Layout.jal (rd : Reg) (imm : Int) : Layout.Statement (.jal rd imm) :=
  Layout.holds _

theorem Layout.jalr (rd rs1 : Reg) (imm : Int) : Layout.Statement (.jalr rd rs1 imm) :=
  Layout.holds _

theorem Layout.beq (rs1 rs2 : Reg) (imm : Int) : Layout.Statement (.beq rs1 rs2 imm) :=
  Layout.holds _

theorem Layout.bne (rs1 rs2 : Reg) (imm : Int) : Layout.Statement (.bne rs1 rs2 imm) :=
  Layout.holds _

theorem Layout.blt (rs1 rs2 : Reg) (imm : Int) : Layout.Statement (.blt rs1 rs2 imm) :=
  Layout.holds _

theorem Layout.bge (rs1 rs2 : Reg) (imm : Int) : Layout.Statement (.bge rs1 rs2 imm) :=
  Layout.holds _

theorem Layout.bltu (rs1 rs2 : Reg) (imm : Int) : Layout.Statement (.bltu rs1 rs2 imm) :=
  Layout.holds _

theorem Layout.bgeu (rs1 rs2 : Reg) (imm : Int) : Layout.Statement (.bgeu rs1 rs2 imm) :=
  Layout.holds _

theorem Layout.lb (rd rs1 : Reg) (imm : Int) : Layout.Statement (.lb rd rs1 imm) :=
  Layout.holds _

theorem Layout.lh (rd rs1 : Reg) (imm : Int) : Layout.Statement (.lh rd rs1 imm) :=
  Layout.holds _

theorem Layout.lw (rd rs1 : Reg) (imm : Int) : Layout.Statement (.lw rd rs1 imm) :=
  Layout.holds _

theorem Layout.lbu (rd rs1 : Reg) (imm : Int) : Layout.Statement (.lbu rd rs1 imm) :=
  Layout.holds _

theorem Layout.lhu (rd rs1 : Reg) (imm : Int) : Layout.Statement (.lhu rd rs1 imm) :=
  Layout.holds _

theorem Layout.sb (rs1 rs2 : Reg) (imm : Int) : Layout.Statement (.sb rs1 rs2 imm) :=
  Layout.holds _

theorem Layout.sh (rs1 rs2 : Reg) (imm : Int) : Layout.Statement (.sh rs1 rs2 imm) :=
  Layout.holds _

theorem Layout.sw (rs1 rs2 : Reg) (imm : Int) : Layout.Statement (.sw rs1 rs2 imm) :=
  Layout.holds _

end Sys2Proof.Laws
end

