-- ==== Sys2Proof/Laws/Sim.lean ====
section
/-! SUPPORT. What the stepping interface gives for a valid and for an invalid pair, and what a tick does to the parameters
of the run and to the tick count (`56_cycle_and_rollback.md` rules R355, R356, R363 to R369). -/

namespace Sys2Proof.Machine

/-! ## Validation -/

theorem ifLegal_valid {α : Type} {cfg : Cfg} {prog : Prog} (h : validate cfg prog = []) (r : Checked α) :
    ifLegal cfg prog r = r := by unfold ifLegal; rw [h]

theorem ifLegal_invalid {α : Type} {cfg : Cfg} {prog : Prog} (h : validate cfg prog ≠ []) (r : Checked α) :
    ifLegal cfg prog r = .error (validate cfg prog) := by
  unfold ifLegal
  cases e : validate cfg prog with
  | nil => exact absurd e h
  | cons v vs => rfl

/-! ## One tick, the parameters of the run and the tick count -/

/-- What commit leaves of the parameters and of the tick count. -/
theorem commit_params (s : State) :
    s.commit.cfg = s.cfg ∧ s.commit.prog = s.prog ∧ s.commit.grain = s.grain ∧ s.commit.tick = s.tick := by
  let P := fun t : State => t.cfg = s.cfg ∧ t.prog = s.prog ∧ t.grain = s.grain ∧ t.tick = s.tick
  refine commitLoop_inv (P := P) (fun t k h => h) ?_ _ _ ⟨rfl, rfl, rfl, rfl⟩
  intro t d _ _ _
  refine commitOne_inv (P := P) t d (fun h => h) ?_ ?_ (fun s h => h) ?_ (fun s g h => h)
  · intro t h; rw [commitRegister_frame]; exact h
  · intro t h
    rcases commitStore_cases t d with e | ⟨it, rest, -, e⟩ <;> rw [e]
    · exact h
    · rw [access_frame]; exact h
  · intro t h; rw [trainTransfer_frame]; exact h

/-- A tick leaves the parameters alone and counts itself (rules R355, R356). -/
theorem stages_params (s : State) :
    s.stages.cfg = s.cfg ∧ s.stages.prog = s.prog ∧ s.stages.grain = s.grain ∧ s.stages.tick = s.tick + 1 := by
  rw [stages_eq]
  have h1 := memorySimulate_frame s.startTick
  have e : s.startTick.cfg = s.cfg ∧ s.startTick.prog = s.prog ∧ s.startTick.grain = s.grain ∧
    s.startTick.tick = s.tick + 1 := ⟨rfl, rfl, rfl, rfl⟩
  generalize s.startTick = r at *
  generalize r.memorySimulate = a at *
  obtain ⟨h2, h3, h4, h5⟩ := commit_params a
  generalize a.commit = b at *
  have h6 := afterCommit_frame b
  generalize b.afterCommit = c at *
  exact ⟨h6.cfg.trans (h2.trans (h1.cfg.trans e.1)), h6.prog.trans (h3.trans (h1.prog.trans e.2.1)),
    h6.grain.trans (h4.trans (h1.grain.trans e.2.2.1)), h6.tick.trans (h5.trans (h1.tick.trans e.2.2.2))⟩

theorem tickStep_running {s : State} (h : s.status = .running) : tickStep s = s.stages := by
  unfold tickStep; rw [if_pos h]

theorem tickStep_terminal {s : State} (h : s.status ≠ .running) : tickStep s = s := by
  unfold tickStep; rw [if_neg h]

theorem tickStep_params (s : State) : (tickStep s).cfg = s.cfg ∧ (tickStep s).prog = s.prog := by
  by_cases h : s.status = .running
  · rw [tickStep_running h]; exact ⟨(stages_params s).1, (stages_params s).2.1⟩
  · rw [tickStep_terminal h]; exact ⟨rfl, rfl⟩

theorem ticks_params (n : Nat) (s : State) : (ticks n s).cfg = s.cfg ∧ (ticks n s).prog = s.prog := by
  induction n with
  | zero => exact ⟨rfl, rfl⟩
  | succ n ih => exact ⟨(tickStep_params _).1.trans ih.1, (tickStep_params _).2.trans ih.2⟩

/-! ## The operations of the host on a valid pair -/

theorem stateAt_valid {cfg : Cfg} {prog : Prog} (h : validate cfg prog = []) (t : Nat) :
    stateAt cfg prog t = .ok (ticks t (State.init cfg prog)) := ifLegal_valid h _

theorem Sim.start_valid {cfg : Cfg} {prog : Prog} (h : validate cfg prog = []) :
    Sim.start cfg prog = .ok { cur := State.init cfg prog, hist := [] } := ifLegal_valid h _

theorem Sim.load_valid {s : State} (h : validate s.cfg s.prog = []) : Sim.load s = .ok { cur := s, hist := [] } :=
  ifLegal_valid h _

theorem Sim.forward_running {m : Sim} (h : validate m.cur.cfg m.cur.prog = []) (hr : m.cur.status = .running) :
    m.forward = .ok { cur := m.cur.stages, hist := m.cur :: m.hist } := by
  unfold Sim.forward; rw [ifLegal_valid h, if_pos hr, tickStep_running hr]

theorem Sim.forward_terminal {m : Sim} (h : validate m.cur.cfg m.cur.prog = []) (hr : m.cur.status ≠ .running) :
    m.forward = .ok m := by
  unfold Sim.forward; rw [ifLegal_valid h, if_neg hr]

theorem Sim.backward_logged {m : Sim} {s : State} {rest : List State} (h : validate m.cur.cfg m.cur.prog = [])
    (hh : m.hist = s :: rest) : m.backward = .ok { cur := s, hist := rest } := by
  unfold Sim.backward; rw [ifLegal_valid h, hh]

theorem Sim.backward_unlogged {m : Sim} {n : Nat} (h : validate m.cur.cfg m.cur.prog = []) (hh : m.hist = [])
    (ht : m.cur.tick = n + 1) :
    m.backward = .ok { cur := ticks n (State.init m.cur.cfg m.cur.prog), hist := [] } := by
  unfold Sim.backward; rw [ifLegal_valid h, hh]; simp only [recomputeBackward, ht, stateAt_valid h]; rfl

theorem Sim.backward_reset {m : Sim} (h : validate m.cur.cfg m.cur.prog = []) (hh : m.hist = []) (ht : m.cur.tick = 0) :
    m.backward = .ok m := by
  unfold Sim.backward; rw [ifLegal_valid h, hh]; simp only [recomputeBackward, ht]
  obtain ⟨cur, hist⟩ := m
  simp only at hh; subst hh; rfl

end Sys2Proof.Machine
end

