-- ==== Sys2Proof/Tests/Slice0.lean ====
section
/-! SUPPORT. Tests on fixed values, and for every statement with hypotheses a state and operands that meet them. Expected
values are the vectors of `95_test_vectors.md` (their ids are named), or are computed by hand from the rules named. -/

namespace Sys2Proof.Tests

open Sys2Proof.Machine

/-! ## The WellFormed checks (`30_encoding.md` rule R104): each refuses a term outside its range -/

theorem test_wf_refuses_immediate_below : (Instr.addi 1 1 (-2049)).wf = false := by decide
theorem test_wf_refuses_load_offset : (Instr.lw 1 1 2048).wf = false := by decide
theorem test_wf_refuses_store_offset : (Instr.sb 1 1 (-2049)).wf = false := by decide
theorem test_wf_refuses_jalr_offset : (Instr.jalr 1 1 2048).wf = false := by decide
theorem test_wf_refuses_shift_amount : (Instr.srai 1 1 32).wf = false ∧ (Instr.slli 1 1 (-1)).wf = false := by decide
theorem test_wf_refuses_upper_immediate : (Instr.lui 1 0x100000).wf = false ∧ (Instr.auipc 1 (-1)).wf = false := by
  decide
theorem test_wf_refuses_odd_branch : (Instr.beq 1 1 3).wf = false := by decide
theorem test_wf_refuses_far_branch : (Instr.bgeu 1 1 4096).wf = false ∧ (Instr.blt 1 1 (-4098)).wf = false := by decide
theorem test_wf_refuses_odd_jump : (Instr.jal 1 1).wf = false := by decide
theorem test_wf_refuses_far_jump : (Instr.jal 1 1048576).wf = false ∧ (Instr.jal 1 (-1048578)).wf = false := by decide

/-! ## Decoding: the images of the vectors, bit by bit (`30_encoding.md` rules R106 to R113) -/

theorem test_decode_lui : decodeWord 0b00010010001101000101001010110111#32 = .instr (.lui 5 0x12345) := by decide
theorem test_decode_auipc : decodeWord 0b00000000000000000001001010010111#32 = .instr (.auipc 5 0x1) := by decide
theorem test_decode_addi : decodeWord 0b00000000010100001000000010010011#32 = .instr (.addi 1 1 5) := by decide
theorem test_decode_slti : decodeWord 0b11111111111100110010001010010011#32 = .instr (.slti 5 6 (-1)) := by decide
theorem test_decode_sltiu : decodeWord 0b11111111111100110011001010010011#32 = .instr (.sltiu 5 6 (-1)) := by decide
theorem test_decode_xori : decodeWord 0b11111111111100110100001010010011#32 = .instr (.xori 5 6 (-1)) := by decide
theorem test_decode_ori : decodeWord 0b10000000000000110110001010010011#32 = .instr (.ori 5 6 (-2048)) := by decide
theorem test_decode_andi : decodeWord 0b11111111000000110111001010010011#32 = .instr (.andi 5 6 (-16)) := by decide
theorem test_decode_slli : decodeWord 0b00000000000000110001001010010011#32 = .instr (.slli 5 6 0) := by decide
theorem test_decode_srli : decodeWord 0b00000000000100110101001010010011#32 = .instr (.srli 5 6 1) := by decide
theorem test_decode_srai : decodeWord 0b01000000000100110101001010010011#32 = .instr (.srai 5 6 1) := by decide
theorem test_decode_add : decodeWord 0b00000000011100110000001010110011#32 = .instr (.add 5 6 7) := by decide
theorem test_decode_sub : decodeWord 0b01000000011100110000001010110011#32 = .instr (.sub 5 6 7) := by decide
theorem test_decode_sll : decodeWord 0b00000000011100110001001010110011#32 = .instr (.sll 5 6 7) := by decide
theorem test_decode_slt : decodeWord 0b00000000011100110010001010110011#32 = .instr (.slt 5 6 7) := by decide
theorem test_decode_sltu : decodeWord 0b00000000011100110011001010110011#32 = .instr (.sltu 5 6 7) := by decide
theorem test_decode_xor : decodeWord 0b00000000011100110100001010110011#32 = .instr (.xor 5 6 7) := by decide
theorem test_decode_srl : decodeWord 0b00000000011100110101001010110011#32 = .instr (.srl 5 6 7) := by decide
theorem test_decode_sra : decodeWord 0b01000000011100110101001010110011#32 = .instr (.sra 5 6 7) := by decide
theorem test_decode_or : decodeWord 0b00000000011100110110001010110011#32 = .instr (.or 5 6 7) := by decide
theorem test_decode_and : decodeWord 0b00000000011100110111001010110011#32 = .instr (.and 5 6 7) := by decide
theorem test_decode_mul : decodeWord 0b00000010011100110000001010110011#32 = .instr (.mul 5 6 7) := by decide
theorem test_decode_mulh : decodeWord 0b00000010011100110001001010110011#32 = .instr (.mulh 5 6 7) := by decide
theorem test_decode_mulhsu : decodeWord 0b00000010011100110010001010110011#32 = .instr (.mulhsu 5 6 7) := by decide
theorem test_decode_mulhu : decodeWord 0b00000010011100110011001010110011#32 = .instr (.mulhu 5 6 7) := by decide
theorem test_decode_div : decodeWord 0b00000010011100110100001010110011#32 = .instr (.div 5 6 7) := by decide
theorem test_decode_divu : decodeWord 0b00000010011100110101001010110011#32 = .instr (.divu 5 6 7) := by decide
theorem test_decode_rem : decodeWord 0b00000010011100110110001010110011#32 = .instr (.rem 5 6 7) := by decide
theorem test_decode_remu : decodeWord 0b00000010011100110111001010110011#32 = .instr (.remu 5 6 7) := by decide
theorem test_decode_jal : decodeWord 0b00000001000000000000000011101111#32 = .instr (.jal 1 16) := by decide
theorem test_decode_jalr : decodeWord 0b00000000000000001000000001100111#32 = .instr (.jalr 0 1 0) := by decide
theorem test_decode_beq : decodeWord 0b00000000011000101000010001100011#32 = .instr (.beq 5 6 8) := by decide
theorem test_decode_bne : decodeWord 0b11111110000001011001110011100011#32 = .instr (.bne 11 0 (-8)) := by decide
theorem test_decode_blt : decodeWord 0b10000000011000101100000001100011#32 = .instr (.blt 5 6 (-4096)) := by decide
theorem test_decode_bge : decodeWord 0b01111110011000101101111111100011#32 = .instr (.bge 5 6 4094) := by decide
theorem test_decode_bltu : decodeWord 0b00000000011000101110011001100011#32 = .instr (.bltu 5 6 12) := by decide
theorem test_decode_bgeu : decodeWord 0b00000000011000101111011001100011#32 = .instr (.bgeu 5 6 12) := by decide
theorem test_decode_lw : decodeWord 0b00000000000000110010001010000011#32 = .instr (.lw 5 6 0) := by decide
theorem test_decode_lh : decodeWord 0b00000000010000110001001010000011#32 = .instr (.lh 5 6 4) := by decide
theorem test_decode_lhu : decodeWord 0b00000000010000110101001010000011#32 = .instr (.lhu 5 6 4) := by decide
theorem test_decode_lb : decodeWord 0b00000000011000110000001010000011#32 = .instr (.lb 5 6 6) := by decide
theorem test_decode_lbu : decodeWord 0b00000000011000110100001010000011#32 = .instr (.lbu 5 6 6) := by decide
theorem test_decode_sw : decodeWord 0b00000000011100110010010000100011#32 = .instr (.sw 6 7 8) := by decide
theorem test_decode_sh : decodeWord 0b00000000011100110001011000100011#32 = .instr (.sh 6 7 12) := by decide
theorem test_decode_sb : decodeWord 0b00000000011100110000011110100011#32 = .instr (.sb 6 7 15) := by decide

/-- Rule R105: the image is four bytes, least significant first. -/
theorem test_decode_bytes : decodeBytes [0x33, 0x05, 0xB5, 0x00, 0x13] = (.instr (.add 10 10 11), [0x13]) := by decide

/-- Rule R116: `ecall`, `fence`, a compressed word, `mulw` (opcode 0111011) and a `funct7` of no row are refused by name. -/
theorem test_decode_refuses :
    decodeWord 0x00000073 = .refused .system ∧ decodeWord 0x0000000F = .refused .fence ∧
    decodeWord 0x00000001 = .refused .compressed ∧ decodeWord 0x02A5053B = .refused .opcode ∧
    decodeWord 0x04B50533 = .refused .registerFunct7 := by decide

/-- The images of vectors V2, V5, V6, V7, V8. -/
theorem test_encode :
    encode (.addi 11 11 (-1)) = 0xFFF58593 ∧ encode (.sw 2 1 12) = 0x00112623 ∧ encode (.bne 11 0 (-8)) = 0xFE059CE3 ∧
    encode (.lui 5 0x12345) = 0x123452B7 ∧ encode (.jal 1 (-128)) = 0xF81FF0EF := by decide

/-! ## One instruction on a small state -/

/-- `CFG_REF` with small tables. -/
def tiny : Cfg :=
  { cfgRef with
    robSize := 4, commitWidth := 2, fetchWidth := 2, btbSize := 4, phtSize := 4, ghrBits := 2, iwSize := 2, lbSize := 2
    sbSize := 2, specRegs := 4, cacheLines := 2, cacheLineSize := 4, cacheAssoc := 2, maxCycles := 100 }

/-- The data memory of the load/store vectors: `78 56 34 12 FE FF 80 7F` at `0x100`. -/
def vectorMemory : Memory := Memory.writeBytes [] 0x100 [0x78, 0x56, 0x34, 0x12, 0xFE, 0xFF, 0x80, 0x7F]

/-- The reset state of an empty program with `pc`, some registers and the vectors' memory. -/
def machine (pc : Word) (regs : List (Reg × Word)) : State :=
  regs.foldl (fun s e => s.writeX e.1 e.2) { State.init tiny Prog.empty with pc := pc, mainMem := vectorMemory }

/-- The exception, the register `rd` and the `pc` after an instruction. -/
def outcome (i : Instr) (rd : Reg) (s : State) : Option (Option ExcKind × Word × Word) :=
  match exec i s with
  | .next t => some (t.excSeen, t.readX rd, t.pc)
  | .fault _ => none
  | .refused _ => none

/-- `n` bytes of the memory view after an instruction. -/
def bytesAfter (i : Instr) (s : State) (a n : Nat) : Option (List Byte) :=
  match exec i s with
  | .next t => some (t.memRead a n)
  | .fault _ => none
  | .refused _ => none

/-- Vector I1. -/
theorem test_lui : outcome (.lui 5 0x12345) 5 (machine 0 []) = some (none, 0x12345000, 0x4) := by
  decide

/-- Vector I4. -/
theorem test_auipc : outcome (.auipc 5 0x1) 5 (machine 0x00000010 []) = some (none, 0x00001010, 0x14) := by
  decide

/-- Vector I5. -/
theorem test_auipc_again : outcome (.auipc 5 0xFFFFF) 5 (machine 0x00002000 []) = some (none, 0x00001000, 0x2004) := by
  decide

/-- Vector I8. -/
theorem test_addi : outcome (.addi 5 6 2047) 5 (machine 0 [(6, 0x7FFFFFFF)]) = some (none, 0x800007FE, 0x4) := by
  decide

/-- Vector I9. -/
theorem test_addi_again : outcome (.addi 5 6 (-2048)) 5 (machine 0 [(6, 0x80000000)]) = some (none, 0x7FFFF800, 0x4) := by
  decide

/-- Vector I10. -/
theorem test_slti : outcome (.slti 5 6 (-1)) 5 (machine 0 [(6, 0x80000000)]) = some (none, 0x00000001, 0x4) := by
  decide

/-- Vector I11. -/
theorem test_slti_again : outcome (.slti 5 6 (-1)) 5 (machine 0 [(6, 0xFFFFFFFF)]) = some (none, 0x00000000, 0x4) := by
  decide

/-- Vector I13. -/
theorem test_sltiu : outcome (.sltiu 5 6 (-1)) 5 (machine 0 [(6, 0xFFFFFFFE)]) = some (none, 0x00000001, 0x4) := by
  decide

/-- Vector I14. -/
theorem test_sltiu_again : outcome (.sltiu 5 6 (-1)) 5 (machine 0 [(6, 0xFFFFFFFF)]) = some (none, 0x00000000, 0x4) := by
  decide

/-- Vector I18. -/
theorem test_xori : outcome (.xori 5 6 2047) 5 (machine 0 [(6, 0xFFFFF000)]) = some (none, 0xFFFFF7FF, 0x4) := by
  decide

/-- Vector I19. -/
theorem test_ori : outcome (.ori 5 6 (-2048)) 5 (machine 0 [(6, 0x000000FF)]) = some (none, 0xFFFFF8FF, 0x4) := by
  decide

/-- Vector I21. -/
theorem test_andi : outcome (.andi 5 6 (-16)) 5 (machine 0 [(6, 0x12345678)]) = some (none, 0x12345670, 0x4) := by
  decide

/-- Vector I24. -/
theorem test_slli : outcome (.slli 5 6 1) 5 (machine 0 [(6, 0x80000001)]) = some (none, 0x00000002, 0x4) := by
  decide

/-- Vector I25. -/
theorem test_slli_again : outcome (.slli 5 6 31) 5 (machine 0 [(6, 0x00000003)]) = some (none, 0x80000000, 0x4) := by
  decide

/-- Vector I26. -/
theorem test_srli : outcome (.srli 5 6 1) 5 (machine 0 [(6, 0x80000001)]) = some (none, 0x40000000, 0x4) := by
  decide

/-- Vector I28. -/
theorem test_srai : outcome (.srai 5 6 1) 5 (machine 0 [(6, 0x80000001)]) = some (none, 0xC0000000, 0x4) := by
  decide

/-- Vector I29. -/
theorem test_srai_again : outcome (.srai 5 6 31) 5 (machine 0 [(6, 0x80000000)]) = some (none, 0xFFFFFFFF, 0x4) := by
  decide

/-- Vector I31. -/
theorem test_add : outcome (.add 5 6 7) 5 (machine 0 [(6, 0xFFFFFFFF), (7, 0x00000001)]) = some (none, 0x00000000, 0x4) := by
  decide

/-- Vector I33. -/
theorem test_sub : outcome (.sub 5 6 7) 5 (machine 0 [(6, 0x00000000), (7, 0x00000001)]) = some (none, 0xFFFFFFFF, 0x4) := by
  decide

/-- Vector I34. -/
theorem test_sub_again : outcome (.sub 5 6 7) 5 (machine 0 [(6, 0x80000000), (7, 0x00000001)]) = some (none, 0x7FFFFFFF, 0x4) := by
  decide

/-- Vector I35. -/
theorem test_sll : outcome (.sll 5 6 7) 5 (machine 0 [(6, 0x00000001), (7, 0x00000020)]) = some (none, 0x00000001, 0x4) := by
  decide

/-- Vector I36. -/
theorem test_sll_again : outcome (.sll 5 6 7) 5 (machine 0 [(6, 0x00000001), (7, 0xFFFFFFFF)]) = some (none, 0x80000000, 0x4) := by
  decide

/-- Vector I38. -/
theorem test_slt : outcome (.slt 5 6 7) 5 (machine 0 [(6, 0x80000000), (7, 0x7FFFFFFF)]) = some (none, 0x00000001, 0x4) := by
  decide

/-- Vector I39. -/
theorem test_slt_again : outcome (.slt 5 6 7) 5 (machine 0 [(6, 0x00000005), (7, 0x00000005)]) = some (none, 0x00000000, 0x4) := by
  decide

/-- Vector I40. -/
theorem test_sltu : outcome (.sltu 5 6 7) 5 (machine 0 [(6, 0x80000000), (7, 0x7FFFFFFF)]) = some (none, 0x00000000, 0x4) := by
  decide

/-- Vector I41. -/
theorem test_sltu_again : outcome (.sltu 5 0 7) 5 (machine 0 [(7, 0x00000009)]) = some (none, 0x00000001, 0x4) := by
  decide

/-- Vector I42. -/
theorem test_xor : outcome (.xor 5 6 7) 5 (machine 0 [(6, 0xAAAAAAAA), (7, 0x55555555)]) = some (none, 0xFFFFFFFF, 0x4) := by
  decide

/-- Vector I44. -/
theorem test_srl : outcome (.srl 5 6 7) 5 (machine 0 [(6, 0x80000000), (7, 0x00000021)]) = some (none, 0x40000000, 0x4) := by
  decide

/-- Vector I46. -/
theorem test_sra : outcome (.sra 5 6 7) 5 (machine 0 [(6, 0x80000000), (7, 0x00000021)]) = some (none, 0xC0000000, 0x4) := by
  decide

/-- Vector I47. -/
theorem test_sra_again : outcome (.sra 5 6 7) 5 (machine 0 [(6, 0x40000000), (7, 0x0000001E)]) = some (none, 0x00000001, 0x4) := by
  decide

/-- Vector I48. -/
theorem test_or : outcome (.or 5 6 7) 5 (machine 0 [(6, 0x000000F0), (7, 0x0000000F)]) = some (none, 0x000000FF, 0x4) := by
  decide

/-- Vector I49. -/
theorem test_and : outcome (.and 5 6 7) 5 (machine 0 [(6, 0x000000F0), (7, 0x0000003C)]) = some (none, 0x00000030, 0x4) := by
  decide

/-- Vector I53. -/
theorem test_mul : outcome (.mul 5 6 7) 5 (machine 0 [(6, 0x12345678), (7, 0x9ABCDEF0)]) = some (none, 0x242D2080, 0x4) := by
  decide

/-- Vector I57. -/
theorem test_mulh : outcome (.mulh 5 6 7) 5 (machine 0 [(6, 0x12345678), (7, 0x9ABCDEF0)]) = some (none, 0xF8CC93D6, 0x4) := by
  decide

/-- Vector I59. -/
theorem test_mulhsu : outcome (.mulhsu 5 6 7) 5 (machine 0 [(6, 0x80000000), (7, 0xFFFFFFFF)]) = some (none, 0x80000000, 0x4) := by
  decide

/-- Vector I60. -/
theorem test_mulhsu_again : outcome (.mulhsu 5 6 7) 5 (machine 0 [(6, 0x7FFFFFFF), (7, 0xFFFFFFFF)]) = some (none, 0x7FFFFFFE, 0x4) := by
  decide

/-- Vector I61. -/
theorem test_mulhu : outcome (.mulhu 5 6 7) 5 (machine 0 [(6, 0xFFFFFFFF), (7, 0xFFFFFFFF)]) = some (none, 0xFFFFFFFE, 0x4) := by
  decide

/-- Vector I63. -/
theorem test_mulhu_again : outcome (.mulhu 5 6 7) 5 (machine 0 [(6, 0x12345678), (7, 0x9ABCDEF0)]) = some (none, 0x0B00EA4E, 0x4) := by
  decide

/-- Vector I66. -/
theorem test_div : outcome (.div 5 6 7) 5 (machine 0 [(6, 0x00000007), (7, 0xFFFFFFFE)]) = some (none, 0xFFFFFFFD, 0x4) := by
  decide

/-- Vector I68. -/
theorem test_div_again : outcome (.div 5 6 7) 5 (machine 0 [(6, 0x80000000), (7, 0xFFFFFFFF)]) = some (none, 0x80000000, 0x4) := by
  decide

/-- Vector I72. -/
theorem test_divu : outcome (.divu 5 6 7) 5 (machine 0 [(6, 0xFFFFFFF9), (7, 0x00000002)]) = some (none, 0x7FFFFFFC, 0x4) := by
  decide

/-- Vector I74. -/
theorem test_divu_again : outcome (.divu 5 6 7) 5 (machine 0 [(6, 0x00000001), (7, 0x00000000)]) = some (some .divideByZero, 0, 0) := by
  decide

/-- Vector I76. -/
theorem test_rem : outcome (.rem 5 6 7) 5 (machine 0 [(6, 0xFFFFFFF9), (7, 0x00000002)]) = some (none, 0xFFFFFFFF, 0x4) := by
  decide

/-- Vector I78. -/
theorem test_rem_again : outcome (.rem 5 6 7) 5 (machine 0 [(6, 0x80000000), (7, 0xFFFFFFFF)]) = some (none, 0x00000000, 0x4) := by
  decide

/-- Vector I81. -/
theorem test_remu : outcome (.remu 5 6 7) 5 (machine 0 [(6, 0xFFFFFFFF), (7, 0x00000010)]) = some (none, 0x0000000F, 0x4) := by
  decide

/-- Vector I82. -/
theorem test_remu_again : outcome (.remu 5 6 7) 5 (machine 0 [(6, 0x00000003), (7, 0x00000000)]) = some (some .divideByZero, 0, 0) := by
  decide

/-- Vector C3. -/
theorem test_jal : outcome (.jal 1 (-1048576)) 1 (machine 0x00100000 []) = some (none, 0x00100004, 0x00000000) := by
  decide

/-- Vector C4. -/
theorem test_jal_again : outcome (.jal 5 1048574) 5 (machine 0x00000000 []) = some (some .instrAddrMisaligned, 0, 0x00000000) := by
  decide

/-- Vector C8. -/
theorem test_jalr : outcome (.jalr 1 5 1) 1 (machine 0x00000040 [(5, 0x00000101)]) = some (some .instrAddrMisaligned, 0xFFFFFFFC, 0x00000040) := by
  decide

/-- Vector C9. -/
theorem test_jalr_again : outcome (.jalr 5 5 8) 5 (machine 0x00000010 [(5, 0x00000020)]) = some (none, 0x00000014, 0x00000028) := by
  decide

/-- Vector C11. -/
theorem test_beq : outcome (.beq 5 6 8) 0 (machine 0x00000010 [(5, 0x00000003), (6, 0x00000003)]) = some (none, 0, 0x00000018) := by
  decide

/-- Vector C12. -/
theorem test_beq_again : outcome (.beq 5 6 8) 0 (machine 0x00000010 [(5, 0x00000003), (6, 0x00000004)]) = some (none, 0, 0x14) := by
  decide

/-- Vector C13. -/
theorem test_bne : outcome (.bne 11 0 (-8)) 0 (machine 0x00000010 [(11, 0x00000004)]) = some (none, 0, 0x00000008) := by
  decide

/-- Vector C14. -/
theorem test_bne_again : outcome (.bne 11 0 (-8)) 0 (machine 0x00000010 [(11, 0x00000000)]) = some (none, 0, 0x14) := by
  decide

/-- Vector C15. -/
theorem test_blt : outcome (.blt 5 6 (-4096)) 0 (machine 0x00002000 [(5, 0x80000000), (6, 0x00000000)]) = some (none, 0, 0x00001000) := by
  decide

/-- Vector C16. -/
theorem test_blt_again : outcome (.blt 5 6 12) 0 (machine 0x00000010 [(5, 0x00000000), (6, 0x80000000)]) = some (none, 0, 0x14) := by
  decide

/-- Vector C17. -/
theorem test_bge : outcome (.bge 5 6 4094) 0 (machine 0x00000010 [(5, 0x00000007), (6, 0x00000007)]) = some (some .instrAddrMisaligned, 0, 0x00000010) := by
  decide

/-- Vector C18. -/
theorem test_bge_again : outcome (.bge 5 6 12) 0 (machine 0x00000010 [(5, 0x80000000), (6, 0x7FFFFFFF)]) = some (none, 0, 0x14) := by
  decide

/-- Vector C19. -/
theorem test_bltu : outcome (.bltu 5 6 12) 0 (machine 0x00000010 [(5, 0x00000000), (6, 0xFFFFFFFF)]) = some (none, 0, 0x0000001C) := by
  decide

/-- Vector C20. -/
theorem test_bltu_again : outcome (.bltu 5 6 12) 0 (machine 0x00000010 [(5, 0x80000000), (6, 0x00000000)]) = some (none, 0, 0x14) := by
  decide

/-- Vector C21. -/
theorem test_bgeu : outcome (.bgeu 5 6 12) 0 (machine 0x00000010 [(5, 0x80000000), (6, 0x00000000)]) = some (none, 0, 0x0000001C) := by
  decide

/-- Vector C22. -/
theorem test_bgeu_again : outcome (.bgeu 5 6 12) 0 (machine 0x00000010 [(5, 0x00000000), (6, 0x00000001)]) = some (none, 0, 0x14) := by
  decide

/-- Vector L3. -/
theorem test_lw : outcome (.lw 5 6 (-4)) 5 (machine 0 [(6, 0x00000104)]) = some (none, 0x12345678, 4) := by
  decide

/-- Vector L4. -/
theorem test_lh : outcome (.lh 5 6 4) 5 (machine 0 [(6, 0x00000100)]) = some (none, 0xFFFFFFFE, 4) := by
  decide

/-- Vector L5. -/
theorem test_lhu : outcome (.lhu 5 6 4) 5 (machine 0 [(6, 0x00000100)]) = some (none, 0x0000FFFE, 4) := by
  decide

/-- Vector L8. -/
theorem test_lb : outcome (.lb 5 6 6) 5 (machine 0 [(6, 0x00000100)]) = some (none, 0xFFFFFF80, 4) := by
  decide

/-- Vector L9. -/
theorem test_lbu : outcome (.lbu 5 6 6) 5 (machine 0 [(6, 0x00000100)]) = some (none, 0x00000080, 4) := by
  decide

/-- Vector L15. -/
theorem test_lhu_again : outcome (.lhu 5 6 3) 5 (machine 0 [(6, 0x00000100)]) = some (some .memMisaligned, 0, 0) := by
  decide

/-- Vector L18. -/
theorem test_lb_again : outcome (.lb 5 6 (-1)) 5 (machine 0 [(6, 0x00000000)]) = some (some .memOutOfRange, 0, 0) := by
  decide

/-- Vector L19. -/
theorem test_lbu_again : outcome (.lbu 5 6 0) 5 (machine 0 [(6, 0x0000FFFF)]) = some (none, 0x00000000, 4) := by
  decide

/-- Vector L20. -/
theorem test_lw_again : outcome (.lw 5 6 1) 5 (machine 0 [(6, 0xFFFFFFFF)]) = some (none, 0x00000000, 4) := by
  decide

/-- Vector L22. -/
theorem test_lh_again : outcome (.lh 5 6 0) 5 (machine 0 [(6, 0x0000FFFF)]) = some (some .memMisaligned, 0, 0) := by
  decide

/-- Vector L23. -/
theorem test_sw : bytesAfter (.sw 6 7 8) (machine 0 [(6, 0x00000100), (7, 0xDEADBEEF)]) (0x108 - 1) 6 =
    some (0x7F :: [0xEF, 0xBE, 0xAD, 0xDE] ++ [0x00]) := by
  decide

/-- Vector L24. -/
theorem test_sh : bytesAfter (.sh 6 7 12) (machine 0 [(6, 0x00000100), (7, 0xDEADBEEF)]) (0x10c - 1) 4 =
    some (0x00 :: [0xEF, 0xBE] ++ [0x00]) := by
  decide

/-- Vector L25. -/
theorem test_sb : bytesAfter (.sb 6 7 15) (machine 0 [(6, 0x00000100), (7, 0xDEADBEEF)]) (0x10f - 1) 3 =
    some (0x00 :: [0xEF] ++ [0x00]) := by
  decide

/-- Vector L26. -/
theorem test_sh_again : outcome (.sh 6 7 13) 0 (machine 0 [(6, 0x00000100), (7, 0xDEADBEEF)]) = some (some .memMisaligned, 0, 0) := by
  decide

/-- Vector L28. -/
theorem test_sw_again : outcome (.sw 6 7 0) 0 (machine 0 [(6, 0x0000FFFE), (7, 0x00000001)]) = some (some .memMisaligned, 0, 0) := by
  decide

/-- Vector L29. -/
theorem test_sb_again : outcome (.sb 6 7 0) 0 (machine 0 [(6, 0x00010000), (7, 0x00000001)]) = some (some .memOutOfRange, 0, 0) := by
  decide

/-! ## The predictor's functions -/

/-- Vectors B1, B3, B4. -/
theorem test_predictor :
    [phtIndex cfgRef 0x10 0, phtIndex cfgRef 0x10 1, phtIndex cfgRef 0x54 1023, phtIndex cfgRef 0x1010 0] =
      [0x10, 0x11, 0x3AB, 0x10] ∧
    [shiftHistory cfgRef 0 true, shiftHistory cfgRef 61 true, shiftHistory cfgRef 1023 false,
      shiftHistory cfgRef 512 false] = [1, 123, 1022, 0] := by decide

/-! ## The very next step runs a placed word (log entry 16) -/

def isNext (o : Host.Outcome State Fault Refusal) : Bool :=
  match o with
  | .next _ => true
  | .fault _ => false
  | .refused _ => false

theorem exists_next {o : Host.Outcome State Fault Refusal} (h : isNext o = true) : ∃ t, o = .next t := by
  cases o with
  | next t => exact ⟨t, rfl⟩
  | fault f => cases h
  | refused r => cases h

/-- `add x10, x10, x11` placed after reset and stepped: `2 + 3`. -/
theorem test_withFetchWord :
    (match step ((((State.reset.writeX 10 2).writeX 11 3)).withFetchWord 32 0x00B50533) with
      | .next t => some (t.readX 10, t.pc, t.stats.committed)
      | .fault _ => none
      | .refused _ => none) = some (5, 4, 1) := by decide

theorem test_decodeTableWord : decodeTableWord 32 0x00B50533 = some (.add 10 10 11) ∧ decodeTableWord 32 0x73 = none := by
  decide

/-! ## Witnesses: states and operands that meet the statements' hypotheses, clause by clause

`witness_<Name>` is for `Obligations.<Name>`. -/

theorem witness_AddAndCompare : immIOk (-2048) = true ∧ immIOk 2047 = true := by decide

theorem witness_Bitwise : immIOk (-2048) = true ∧ immIOk 2047 = true := by decide

theorem witness_Shift : (0 : Nat) ≤ 31 ∧ (31 : Nat) ≤ 31 := by decide

theorem witness_UpperImmediate : immUOk 0 = true ∧ immUOk 0xFFFFF = true := by decide

/-- A zero divisor; the signed overflow; an ordinary pair. -/
theorem witness_Divide :
    (machine 0 [(6, 5)]).readX 7 = 0 ∧
    (let s := machine 0 [(6, 0x80000000), (7, 0xFFFFFFFF)]
     s.readX 7 ≠ 0 ∧ s.readX 6 = 0x80000000 ∧ s.readX 7 = 0xFFFFFFFF) ∧
    (let s := machine 0 [(6, 0xFFFFFFF9), (7, 2)]
     s.readX 7 ≠ 0 ∧ ¬(s.readX 6 = 0x80000000 ∧ s.readX 7 = 0xFFFFFFFF)) := by decide

theorem witness_DivisionIdentity :
    (machine 0 [(6, 0x80000000), (7, 0xFFFFFFFF)]).readX 7 ≠ 0 ∧ (machine 0 [(6, 0xFFFFFFF9), (7, 2)]).readX 7 ≠ 0 := by
  decide

/-- `jal` at both ends of its range, `jalr` at one: to a multiple of 4, and to an address that is none. -/
theorem witness_Jumps :
    (immJOk (-1048576) = true ∧ (BitVec.ofInt 32 ((machine 0 []).pc.toNat + -1048576)).toNat % 4 = 0) ∧
    (immJOk 1048574 = true ∧ (BitVec.ofInt 32 ((machine 0 []).pc.toNat + 1048574)).toNat % 4 ≠ 0) ∧
    (immIOk (-2048) = true ∧
      (BitVec.ofNat 32 ((BitVec.ofInt 32 (((machine 0 [(1, 1)]).readX 1).toInt + -2048)).toNat / 2 * 2)).toNat % 4 = 0) ∧
    (immIOk 2047 = true ∧
      (BitVec.ofNat 32 ((BitVec.ofInt 32 (((machine 0 [(1, 0)]).readX 1).toInt + 2047)).toNat / 2 * 2)).toNat % 4 ≠ 0) := by
  decide

/-- Equal operands take `beq`, `bge`, `bgeu` and not the others; `1 < 2` takes exactly the others; to a multiple of 4 and
to an address that is none. -/
theorem witness_Branches :
    immBOk (-4096) = true ∧ immBOk 4094 = true ∧
    (BitVec.ofInt 32 ((machine 0 []).pc.toNat + -4096)).toNat % 4 = 0 ∧
    (BitVec.ofInt 32 ((machine 0 []).pc.toNat + 4094)).toNat % 4 ≠ 0 ∧
    (∀ e ∈ [((3, 3), [true, false, false, true, false, true]), ((1, 2), [false, true, true, false, true, false])],
      let s := machine 0 [(5, e.1.1), (6, e.1.2)]
      let a := s.readX 5
      let b := s.readX 6
      [decide (a = b), decide (a ≠ b), decide (a.toInt < b.toInt), decide (b.toInt ≤ a.toInt),
        decide (a.toNat < b.toNat), decide (b.toNat ≤ a.toNat)] = e.2) := by decide

/-- For each size: the last access inside memory, the first outside, and a misaligned one (a byte never is). -/
theorem witness_Loads :
    immIOk 0 = true ∧
    (∀ n ∈ [1, 2, 4],
      (let s := machine 0 [(6, 0x10000 - BitVec.ofNat 32 n)]
       let ea := (BitVec.ofInt 32 ((s.readX 6).toInt + 0)).toNat
       ea % n = 0 ∧ ea + n = s.cfg.memSize) ∧
      (let s := machine 0 [(6, 0x10000)]
       let ea := (BitVec.ofInt 32 ((s.readX 6).toInt + 0)).toNat
       ea % n = 0 ∧ s.cfg.memSize < ea + n)) ∧
    (∀ n ∈ [2, 4], (BitVec.ofInt 32 (((machine 0 [(6, 0x101)]).readX 6).toInt + 0)).toNat % n ≠ 0) := by decide

theorem witness_Stores :
    immIOk (-2048) = true ∧
    (∀ data ∈ [[(0 : Byte)], [0, 0], [0, 0, 0, 0]],
      (let s := machine 0 [(6, 0x10800 - BitVec.ofNat 32 data.length)]
       let ea := (BitVec.ofInt 32 ((s.readX 6).toInt + -2048)).toNat
       ea % data.length = 0 ∧ ea + data.length = s.cfg.memSize) ∧
      (let s := machine 0 [(6, 0x10800)]
       let ea := (BitVec.ofInt 32 ((s.readX 6).toInt + -2048)).toNat
       ea % data.length = 0 ∧ s.cfg.memSize < ea + data.length)) ∧
    (∀ data ∈ [[(0 : Byte), 0], [0, 0, 0, 0]],
      (BitVec.ofInt 32 (((machine 0 [(6, 0x801)]).readX 6).toInt + -2048)).toNat % data.length ≠ 0) := by decide

theorem witness_WordStoreThenByteLoad :
    ∀ i ∈ [0, 3], i < 4 ∧ (-2048 : Int) ≤ 2044 ∧ (2044 : Int) + i ≤ 2047 ∧ (5 : Reg) ≠ 0 ∧
      (let s := machine 0 [(6, 0xF800), (7, 0xDEADBEEF)]
       let ea := (BitVec.ofInt 32 ((s.readX 6).toInt + 2044)).toNat
       ea % 4 = 0 ∧ ea + 4 ≤ s.cfg.memSize) := by decide

theorem witness_LoadImmediateExpansion :
    ∀ imm ∈ [(-2147483648 : Int), -2048, 2047, 4096, 2147483647], -2 ^ 31 ≤ imm ∧ imm < 2 ^ 31 := by decide

/-- Each format at the ends of its range. -/
theorem witness_EveryValidInstructionHasAnImage :
    ∀ i ∈ [Instr.add 31 31 31, .addi 0 31 (-2048), .jalr 1 2 2047, .slli 1 2 0, .srai 1 2 31, .lw 1 2 2047, .sb 1 2 (-2048),
      .beq 1 2 4094, .bgeu 1 2 (-4096), .lui 1 0xFFFFF, .auipc 1 0, .jal 1 1048574, .jal 1 (-1048576)], i.wf = true := by
  decide

theorem witness_DecodedWordIsTheImage :
    decodeWord 0x00B50533 = .instr (.add 10 10 11) ∧ decodeWord 0xF81FF0EF = .instr (.jal 1 (-128)) := by decide

theorem witness_ImageFields :
    ∀ i ∈ [Instr.add 31 31 31, .addi 0 31 (-2048), .srai 1 2 31, .lw 1 2 2047, .sb 1 2 (-2048), .beq 1 2 4094,
      .lui 1 0xFFFFF, .jal 1 (-1048576)], i.wf = true := by decide

/-- A word for each kind, and a program that holds one. -/
theorem witness_WordsThatAreNoInstruction :
    (0x00000001#32).extractLsb' 0 2 ≠ 0b11#2 ∧
    (∀ n ∈ [0x0000000F, 0x00000073], fieldOpcode (BitVec.ofNat 32 n) ∈ [0b0001111#7, 0b1110011#7]) ∧
    (∀ n ∈ [0x00003003, 0x00006003, 0x00007003], fieldOpcode (BitVec.ofNat 32 n) = 0b0000011#7 ∧
      fieldFunct3 (BitVec.ofNat 32 n) ∈ [0b011#3, 0b110#3, 0b111#3]) ∧
    (∀ n ∈ [0x00003023, 0x00007023], fieldOpcode (BitVec.ofNat 32 n) = 0b0100011#7 ∧
      3 ≤ (fieldFunct3 (BitVec.ofNat 32 n)).toNat) ∧
    (∀ n ∈ [0x00002063, 0x00003063], fieldOpcode (BitVec.ofNat 32 n) = 0b1100011#7 ∧
      fieldFunct3 (BitVec.ofNat 32 n) ∈ [0b010#3, 0b011#3]) ∧
    (fieldOpcode 0x00001067#32 = 0b1100111#7 ∧ fieldFunct3 0x00001067#32 ≠ 0b000#3) ∧
    (fieldOpcode 0x40001013#32 = 0b0010011#7 ∧ fieldFunct3 0x40001013#32 = 0b001#3 ∧
      fieldFunct7 0x40001013#32 ≠ 0b0000000#7) ∧
    (fieldOpcode 0x80005013#32 = 0b0010011#7 ∧ fieldFunct3 0x80005013#32 = 0b101#3 ∧
      fieldFunct7 0x80005013#32 ∉ [0b0000000#7, 0b0100000#7]) ∧
    (∀ n ∈ [0x0000000B, 0x0000002F, 0x00000057], fieldOpcode (BitVec.ofNat 32 n) ∉ [0b0110111#7, 0b0010111#7, 0b0010011#7,
      0b0110011#7, 0b1101111#7, 0b1100111#7, 0b1100011#7, 0b0000011#7, 0b0100011#7]) ∧
    (fieldOpcode 0x04000033#32 = 0b0110011#7 ∧ fieldFunct7 0x04000033#32 ∉ [0b0000000#7, 0b0100000#7, 0b0000001#7]) ∧
    (∀ n ∈ [0x40001033, 0x40007033], fieldOpcode (BitVec.ofNat 32 n) = 0b0110011#7 ∧
      fieldFunct7 (BitVec.ofNat 32 n) = 0b0100000#7 ∧ fieldFunct3 (BitVec.ofNat 32 n) ∉ [0b000#3, 0b101#3]) ∧
    decodeWord 0x00000073 = .refused .system := by decide

theorem witness_WordsThatAreNoInstruction_program :
    (State.init tiny (Prog.ofWords [0x00B50533, 0x00000073])).prog.code[1]? = some (.undecodable 0x00000073) := rfl

/-- The state `withFetchWord` makes: `add x10, x10, x11` at `pc` at the instruction level. -/
theorem witness_StepRunsTheDecodedInstruction :
    let s := (machine 8 []).withFetchWord 32 0x00B50533
    Valid s.cfg s.prog ∧ s.grain = .instruction ∧ s.status = .running ∧ s.rob = [] ∧ s.decodeBuffer = [] ∧
    s.fetchBuffer = [] ∧ s.pc.toNat % 4 = 0 ∧ decodeWord 0x00B50533 = .instr (.add 10 10 11) ∧
    s.prog.code[s.pc.toNat / 4]? = some (slotOfWord 0x00B50533) := by
  unfold Valid; decide

/-- A program of three instructions: a division, a store and a backward branch. -/
def sample : Prog := Prog.ofWords [0x02B54633, 0x00112623, 0xFE059CE3]

theorem witness_TickStagesAndFrozenStates :
    (let s := { State.init tiny sample with status := .maxCycles }; Valid s.cfg s.prog ∧ s.status ≠ .running) ∧
    (let s := State.init tiny sample; Valid s.cfg s.prog ∧ s.grain = .tick ∧ s.status = .running) := by
  unfold Valid; decide

/-- An invalid program, an invalid configuration, and a valid pair. -/
theorem witness_InvalidNeverRuns :
    validate tiny (Prog.ofWords [0x00000073]) ≠ [] ∧ validate { tiny with robSize := 0 } sample ≠ [] ∧
    validate tiny sample = [] := by decide

theorem witness_ValidationChecks :
    let prog := Prog.ofWords [0x0002A383]
    Valid tiny prog ∧ prog.code[0]? = some (.ins (.isa (.lw 7 5 0))) ∧ format (.lw 7 5 0) = .IL ∧ 0 < prog.code.length := by
  unfold Valid; decide

/-- A configuration with one row of `FP_TABLE` and a unit for it (rule R193). -/
def floaty : Cfg :=
  { tiny with
    fus := tiny.fus ++ [{ type := .FP, caps := [.addition], delay := 1 }]
    fpTable := [{ mnemonic := "fadd.s", format := .R, caps := [.addition], rs1File := some .f, rs2File := some .f
                  dest := .f .float }] }

/-- The program of one added instruction. -/
def floatProg (n : String) (imm : Int) : Prog := { Prog.empty with code := [.ins (.named n 0 1 2 imm)] }

theorem witness_ValidationChecks_named : Valid floaty (floatProg "fadd.s" 0) ∧
    (floatProg "fadd.s" 0).code[0]? = some (.ins (.named "fadd.s" 0 1 2 0)) := by unfold Valid; decide

/-- An added instruction with an immediate its format lacks, without a unit, and under a name no table holds: each is a
violation (rules R16, R104, R192). -/
theorem test_named_refused :
    validate floaty (floatProg "fadd.s" 1) = [.operandOutOfRange 0] ∧
    validate { floaty with fus := tiny.fus } (floatProg "fadd.s" 0) = [.noUnit 0] ∧
    validate floaty (floatProg "fsub.s" 0) = [.unknownInstruction 0 "fsub.s"] := by decide

/-- The destination of an added instruction in `f`: register 0 is an ordinary one, and commit writes value and tag (rules
R26, R193, R335). -/
theorem test_float_commit :
    insDest floaty (.named "fadd.s" 0 1 2 0) = some (⟨.f, 0⟩, .float) ∧
    (State.reset.writeReg ⟨.f, 0⟩ 0x3FF0000000000000 .double).f.get 0 = { value := 0x3FF0000000000000, tag := .double } := by
  decide

theorem sample_decodes (k : Nat) (w : Word) : sample.code[k]? ≠ some (.undecodable w) := by
  rcases k with _ | _ | _ | k <;> simp [sample, Prog.ofWords, slotOfWord, decodeWord, decodeFields, decodeOp, decodeOpMulDiv,
    decodeStore, decodeBranch, fieldOpcode, fieldFunct7, fieldFunct3]

/-- Each reason's state, at the boundary of the tick limit and on both sides of the end of the code. -/
theorem witness_StopPriority :
    let s := State.init tiny sample
    (∀ (k : Nat) (w : Word), s.prog.code[k]? ≠ some (.undecodable w)) ∧
    ({ s with haltSeen := true } : State).haltSeen = true ∧
    (({ s with excSeen := some .memMisaligned } : State).haltSeen = false ∧
      ({ s with excSeen := some .memMisaligned } : State).excSeen = some .memMisaligned) ∧
    (s.haltSeen = false ∧ s.excSeen = none) ∧
    s.cfg.maxCycles ≤ ({ s with tick := 100 } : State).tick ∧ ({ s with tick := 99 } : State).tick < s.cfg.maxCycles ∧
    ((12 : Word).toNat % 4 ≠ 0 ∨ s.prog.code.length ≤ (12 : Word).toNat / 4) ∧ (2 : Word).toNat % 4 ≠ 0 ∧
    (s.rob = [] ∧ s.decodeBuffer = [] ∧ s.fetchBuffer = []) ∧
    ¬((8 : Word).toNat % 4 ≠ 0 ∨ s.prog.code.length ≤ (8 : Word).toNat / 4) := by
  exact ⟨sample_decodes, by decide⟩

/-- A tick of a running state and an instruction of a placed word both step. -/
theorem witness_ParametersNeverChange :
    (∃ t, step (State.init tiny sample) = .next t) ∧ ∃ t, step ((machine 8 []).withFetchWord 32 0x00B50533) = .next t :=
  ⟨exists_next (by decide), exists_next (by decide)⟩

/-- The reference configuration with the program; a label as the entry point, an initial span, and each type of predictor.
-/
theorem witness_ResetState :
    Valid cfgRef sample ∧
    Valid { tiny with entryPoint := .label "start" }
      { sample with labels := [("start", 4)], initMem := [{ name := "a", address := 8, alignment := 4, bytes := [1, 2] }] } ∧
    Valid { tiny with predictorType := .oneBit, predictorDefault := .taken } sample ∧
    Valid { tiny with predictorType := .zeroBit, predictorDefault := .notTaken, useCache := false } sample := by
  unfold Valid; decide

theorem witness_FirstTick : Valid cfgRef sample ∧ Valid tiny Prog.empty := by unfold Valid; decide

theorem witness_PredictorArithmetic :
    1 ≤ tiny.phtSize ∧ tiny.useGlobalHistory = true ∧ ({ tiny with useGlobalHistory := false } : Cfg).useGlobalHistory = false ∧
    ({ tiny with ghrBits := 0 } : Cfg).ghrBits = 0 := by decide

/-! ### States in flight -/

/-- An instruction in flight, as fetch made it. -/
def inFlight (id : Nat) (i : Instr) : DynInst := DynInst.fetched id (BitVec.ofNat 32 (4 * id)) (.isa i)

/-- A taken jump that its unit has resolved. -/
def resolvedJump : DynInst :=
  { inFlight 0 (.jal 0 8) with actualTaken := some true, actualTarget := some 8, busy := false }

/-- The sample program with four instructions in flight and a branch-target-buffer entry. -/
def flight : State :=
  { State.init tiny sample with
    nextId := 4
    rob := [resolvedJump, { inFlight 1 (.add 5 6 7) with src := [.arch ⟨.x, 6⟩, .arch ⟨.x, 7⟩], dstArch := some ⟨.x, 5⟩,
                                                         dstSpec := some 0, window := some .intArith }]
    decodeBuffer := [inFlight 2 (.sw 2 1 12)]
    fetchBuffer := [inFlight 3 (.bne 11 0 (-8))]
    win := { intArith := [1], floatArith := [], jumpBranch := [], loadStore := [] }
    pool := [{ state := .allocated, value := 0, tag := .int }, SpecReg.freed, SpecReg.freed, SpecReg.freed]
    renameTable := [{ id := 1, arch := ⟨.x, 5⟩, spec := 0 }]
    snapshots := [{ id := 0, ghr := 0 }, { id := 3, ghr := 1 }]
    btb := [none, some { tag := 4, conditional := true, target := 8, commitId := 0 }, none, none] }

theorem witness_FetchGroup :
    flight.fetchBuffer ≠ [] ∧
    (let s := { State.init tiny sample with fetchStall := 1 }; s.fetchBuffer = [] ∧ 0 < s.fetchStall) ∧
    (let s := { State.init tiny sample with pc := 8 }
     s.fetchBuffer = [] ∧ s.fetchStall = 0 ∧ s.fetch.fetchBuffer.length < s.cfg.fetchWidth) ∧
    (let s := { State.init tiny sample with pc := 4 }
     s.fetchBuffer = [] ∧ s.fetchStall = 0 ∧ s.fetch.fetchBuffer.map (fun d => isTransfer d.ins) = [false, true]) := by decide

theorem witness_FetchTransfer :
    instructionAt sample 8 = some (.isa (.bne 11 0 (-8))) ∧ isTransfer (.isa (.bne 11 0 (-8))) = true := by decide

theorem witness_ZeroBitStatic :
    let s := State.init { tiny with predictorType := .zeroBit, predictorDefault := .taken } sample
    s.cfg.predictorType = .zeroBit ∧ ∃ t, step s = .next t :=
  ⟨rfl, exists_next (by decide)⟩

/-- Two writers of `x5`: the younger maps it; `x6` has no entry. -/
theorem witness_OperandRegisters :
    let table : List RenameEntry := [{ id := 1, arch := ⟨.x, 5⟩, spec := 0 }, { id := 3, arch := ⟨.x, 5⟩, spec := 2 }]
    Increasing (table.map (·.id)) ∧ (∀ e ∈ table, e.arch ≠ ⟨.x, 6⟩) ∧
    (∃ e ∈ table, e.arch = ⟨.x, 5⟩ ∧ ∀ e' ∈ table, e'.arch = ⟨.x, 5⟩ → e'.id ≤ e.id) ∧
    ∃ row, fpRow floaty "fadd.s" = some row := by
  refine ⟨by unfold Increasing; decide, by decide, by decide, _, rfl⟩

/-- A group that is renamed, with an instruction that gets a register and one that gets none; and a pool that is too
small. -/
theorem witness_RenameGroup :
    (let s := { flight with decodeBuffer := [], fetchBuffer := [inFlight 2 (.add 5 6 7), inFlight 3 (.add 0 6 7)] }
     s.decodeBuffer = [] ∧ s.fetchBuffer ≠ [] ∧
       (s.fetchBuffer.countP fun d => (insDest s.cfg d.ins).isSome) ≤ s.pool.countP fun p => decide (p.state = .free)) ∧
    (let s := { flight with decodeBuffer := [], fetchBuffer := [inFlight 2 (.add 5 6 7)], pool := [] }
     ¬((s.fetchBuffer.countP fun d => (insDest s.cfg d.ins).isSome) ≤ s.pool.countP fun p => decide (p.state = .free))) ∧
    insDest tiny (.isa (.add 5 6 7)) = some (⟨.x, 5⟩, .int) ∧ insDest tiny (.isa (.add 0 6 7)) = none := by decide

/-- An instruction of the group reads what an older one of the group writes, and takes the next free register (rules R232,
R234); `flight` holds pool register 0. -/
theorem test_rename_group :
    let s := { flight with decodeBuffer := [], fetchBuffer := [inFlight 2 (.add 5 5 6), inFlight 3 (.add 7 5 0)] }
    s.rename.decodeBuffer.map (fun d => (d.src, d.dstSpec)) =
      [([.spec 0, .arch ⟨.x, 6⟩], some 1), ([.spec 1, .arch ⟨.x, 0⟩], some 2)] := by decide

/-- A buffer item with nothing known. -/
def unknownItem (id : Nat) : LsItem := LsItem.fresh id

/-- Dispatch stops at a full reorder buffer, at a full window and at a full store or load buffer; it takes a store that finds
the last place of the reorder buffer, and one behind another that finds the last place of its window and its buffer. -/
theorem witness_DispatchInOrder :
    (let s := { flight with cfg := { tiny with robSize := 3 } }
     s.dispatch.decodeBuffer = [] ∧ s.dispatch.rob.length = 3) ∧
    (let s := { flight with decodeBuffer := [inFlight 2 (.sw 2 1 12), inFlight 3 (.sw 2 1 16)] }
     s.dispatch.decodeBuffer = [] ∧ s.dispatch.storeBuffer.length = s.cfg.sbSize ∧ s.dispatch.win.loadStore = [2, 3]) ∧
    (let s := { flight with cfg := { tiny with robSize := 2 } }
     s.dispatch.decodeBuffer.head? = some (inFlight 2 (.sw 2 1 12))) ∧
    (let s := { flight with win := { flight.win with loadStore := [0, 1] } }
     s.dispatch.decodeBuffer.head? = some (inFlight 2 (.sw 2 1 12))) ∧
    (let s := { flight with storeBuffer := [unknownItem 0, unknownItem 1] }
     s.dispatch.decodeBuffer.head? = some (inFlight 2 (.sw 2 1 12))) ∧
    (let s := { flight with decodeBuffer := [inFlight 2 (.lw 1 2 0)], loadBuffer := [unknownItem 0, unknownItem 1] }
     s.dispatch.decodeBuffer.head? = some (inFlight 2 (.lw 1 2 0))) := by decide

/-- `flight` with the integer instruction of id 1 in the first unit. -/
def held (counter total : Nat) : State :=
  { flight with fu := flight.fu.set 0 { ins := some 1, counter := counter, total := total, failed := [] } }

/-- An `add` is issued to the first unit, or, where that is busy, to the second; a `mul` only to the first. -/
theorem witness_UnitSelection :
    flight.pickUnit (compatible tiny (.isa (.add 5 6 7))) = some 0 ∧
    (held 0 1).pickUnit (compatible tiny (.isa (.add 5 6 7))) = some 1 ∧
    (held 0 1).pickUnit (compatible tiny (.isa (.mul 5 6 7))) = none := by decide

/-- Stage 5 issues the younger of two instructions, the older waiting for its source, and a third finds its unit busy; the
window of the jumps is empty. Stage 3 finishes one unit's instruction and counts a tick of another's (rules R252, R259). -/
theorem witness_IssueOne_UnitHolds_stages :
    (let s := { flight with
      rob := [{ inFlight 0 (.addi 5 5 1) with src := [.spec 0] }, inFlight 1 (.mul 5 6 7), inFlight 2 (.mul 5 6 7)]
      win := { intArith := [0, 1, 2], floatArith := [], jumpBranch := [], loadStore := [] } }
     s.issue.win.intArith = [0, 2] ∧ (s.issue.fu[0]?).map (·.ins) = some (some 1)) ∧
    (let s := { held 0 1 with fu := (held 0 1).fu.set 1 { ins := some 0, counter := 0, total := 2, failed := [] } }
     s.units.fu.take 2 = [FuState.idle, { ins := some 0, counter := 1, total := 2, failed := [] }]) := by decide

/-- A ready instruction and a unit for it; one that waits for its source; one whose units are all busy. -/
theorem witness_IssueOne :
    (∃ d, flight.robFind d.id = some d ∧ flight.ready d = true ∧
      flight.pickUnit (compatible flight.cfg d.ins) = some 0) ∧
    (∃ d, d.src = [.spec 0] ∧ ({ flight with rob := [d] } : State).robFind d.id = some d ∧
      (flight.pool[0]?).map (·.state) ≠ some .executed) ∧
    (∃ d, d.ins = .isa (.mul 5 6 7) ∧ ({ held 0 1 with rob := [d] } : State).robFind d.id = some d ∧
      (held 0 1).pickUnit (compatible tiny d.ins) = none) :=
  ⟨⟨(flight.robFind 1).getD resolvedJump, by decide⟩, ⟨{ inFlight 1 (.addi 5 5 1) with src := [.spec 0] }, by decide⟩,
    ⟨inFlight 1 (.mul 5 6 7), by decide⟩⟩

/-- An idle unit; one with a tick to go; one at its last tick. -/
theorem witness_UnitHolds :
    (∃ f, flight.fu[0]? = some f ∧ f.ins = none) ∧
    (∀ e ∈ [(0, 2), (0, 1)], let s := held e.1 e.2
      ∃ c f d, s.cfg.fus[0]? = some c ∧ s.fu[0]? = some f ∧ f.ins = some d.id ∧ s.robFind d.id = some d ∧
        (f.counter + 1 < f.total ↔ e = (0, 2))) := by
  refine ⟨⟨FuState.idle, by decide⟩, ?_⟩
  intro e he
  simp only [List.mem_cons, List.not_mem_nil, or_false] at he
  rcases he with rfl | rfl
  · exact ⟨{ type := .FX, caps := [.addition, .bitwise, .multiplication, .division, .special], delay := 1 },
      { ins := some 1, counter := 0, total := 2, failed := [] }, (flight.robFind 1).getD resolvedJump, by decide⟩
  · exact ⟨{ type := .FX, caps := [.addition, .bitwise, .multiplication, .division, .special], delay := 1 },
      { ins := some 1, counter := 0, total := 1, failed := [] }, (flight.robFind 1).getD resolvedJump, by decide⟩

/-- Operands latched from the architectural registers: an addition, a taken jump, a branch that is not taken, a misaligned
jump, and a division that raises. -/
theorem witness_UnitsComputeTheMeaning :
    let s := { machine 4 [(6, 5)] with pool := [SpecReg.freed] }
    ∀ i ∈ [Instr.add 5 6 7, .jal 5 8, .beq 6 7 8, .jal 5 2, .div 5 6 7],
      let d := { inFlight 1 i with dstSpec := some 0,
                                   opv := some (toContainer (s.readX (operands i).2.1), toContainer (s.readX (operands i).2.2.1)) }
      s.excSeen = none ∧ s.fu[0]? = some FuState.idle ∧ (classAndCaps i).1 ≠ .loadStore ∧ d.ins = .isa i ∧ d.pc = s.pc ∧
      isNext (exec i s) = true ∧
      ((match exec i s with
        | .next t => t.excSeen
        | .fault _ => none
        | .refused _ => none) =
          if i = .div 5 6 7 then some .divideByZero else if i = .jal 5 2 then some .instrAddrMisaligned else none) := by decide

/-- For each size: a misaligned address, one outside memory, one inside; a load and a store. -/
theorem witness_AddressGeneration :
    flight.fu[3]? = some FuState.idle ∧
    (∀ i ∈ [Instr.lw 5 6 0, .sw 6 7 0], accessSize (.isa i) = 4 ∧ (classAndCaps i).1 = .loadStore ∧
      (format i = .IL ∨ format i = .S)) ∧
    (∀ e ∈ [((0x101 : Word), false, true), (0x10000, true, false), (0xFFFC, true, true)],
      (decide ((BitVec.ofInt 32 (e.1.toInt + 0)).toNat % 4 = 0),
        decide ((BitVec.ofInt 32 (e.1.toInt + 0)).toNat + 4 ≤ tiny.memSize)) = e.2) := by
  refine ⟨by decide, by decide, ?_⟩
  intro e he
  simp only [List.mem_cons, List.not_mem_nil, or_false] at he
  rcases he with rfl | rfl | rfl <;> simp [tiny, cfgRef]

/-- A store of the word `0x01020304` at `0x100`, not committed. -/
def pendingStore (id : Nat) (a : Word) : LsItem :=
  { unknownItem id with addr := some a, data := some [4, 3, 2, 1] }

/-- A load buffer in order, with a candidate and with items that are none: no address, in memory access, done. -/
theorem witness_LoadResolution_candidates :
    let ready : LsItem := { unknownItem 1 with addr := some 0x100 }
    let s := { flight with
      rob := [inFlight 1 (.lw 5 6 0)]
      loadBuffer := [ready, unknownItem 2, { unknownItem 3 with inMA := true }, { unknownItem 4 with done := true }] }
    Increasing (s.loadBuffer.map (·.id)) ∧ s.robFind ready.id = some (inFlight 1 (.lw 5 6 0)) ∧
    ready.addr = some 0x100 ∧ ready.done = false ∧ ready.inMA = false ∧ (unknownItem 2).addr = none ∧
    ({ unknownItem 3 with inMA := true } : LsItem).inMA = true ∧ ({ unknownItem 4 with done := true } : LsItem).done = true := by
  unfold Increasing; decide

/-- An unknown older address; an exact match; a partial overlap; no overlap, with a unit and without. -/
theorem witness_LoadResolution :
    let s := fun items : List LsItem => { flight with storeBuffer := items }
    let ma := fun c : FuncUnit => decide (c.type = .MA)
    (∀ items ∈ [[unknownItem 1], [pendingStore 1 0x100], [pendingStore 1 0x104]],
      Increasing ((s items).storeBuffer.map (·.id))) ∧
    (∃ it ∈ (s [unknownItem 1]).storeBuffer, it.id < 2 ∧ it.addr = none) ∧
    (∃ it ∈ (s [pendingStore 1 0x100]).storeBuffer, it.id < 2 ∧ it.addr = some 0x100 ∧ (it.data.getD []).length = 4) ∧
    (∃ it ∈ (s [pendingStore 1 0x100]).storeBuffer, it.id < 2 ∧ (it.data.getD []).length ≠ 2) ∧
    (∀ it ∈ (s [pendingStore 1 0x104]).storeBuffer, it.addr = some 0x104 ∧ ¬((0x104 : Word).toNat < 0x100 + 4)) ∧
    flight.pickUnit ma = some 4 ∧
    ({ flight with fu := flight.fu.set 4 { FuState.idle with ins := some 0 } } : State).pickUnit ma = none := by
  unfold Increasing; decide

/-- A word and a halfword load, and a load buffer in which the load's own item, the second, holds its bytes. -/
theorem witness_CompleteLoad :
    (inFlight 1 (.lw 5 6 0)).ins = .isa (.lw 5 6 0) ∧ (inFlight 1 (.lhu 0 6 2047)).ins = .isa (.lhu 0 6 2047) ∧
    (let items : List LsItem := [unknownItem 0, { unknownItem 1 with addr := some 0x100, data := some [4, 3, 2, 1], inMA := true }]
     Increasing (items.map (·.id)) ∧ ∃ it ∈ items, it.id = (inFlight 1 (.lw 5 6 0)).id ∧ it.data = some [4, 3, 2, 1]) := by
  unfold Increasing; decide

/-! ### The cache -/

/-- A dirty line at `0x100`. -/
def dirtyLine : Line :=
  { valid := true, dirty := true, tag := 0x40, base := 0x100, data := [1, 2, 3, 4], set := 0, insertedSeq := 1, usedSeq := 2 }

/-- A cache whose one set holds the dirty line and a way that is not valid. -/
def warm : State := { State.init tiny sample with cache := [[dirtyLine, Line.empty tiny 0]], accessSeq := 2 }

theorem warm_coherent : warm.CacheCoherent := by
  intro _
  refine ⟨by decide, by decide, by decide, ?_⟩
  intro set ways h
  match set, h with
  | 0, h =>
    have : ways = [dirtyLine, Line.empty tiny 0] := by simpa [warm] using h.symm
    subst this
    exact ⟨by decide, by unfold TagsDistinct; decide, by
      intro l hl
      simp only [List.mem_cons, List.not_mem_nil, or_false] at hl
      rcases hl with rfl | rfl <;> (unfold LineOk; decide)⟩
  | _ + 1, h => simp [warm] at h

/-- A hit in the first and in the second way, a miss, and no cache. -/
theorem witness_AccessLatency :
    warm.cfg.useCache = true ∧
    (let ways := warm.cache.getD (0x40 % (warm.cfg.cacheLines / warm.cfg.cacheAssoc)) []
     ways[0]? = some dirtyLine ∧ dirtyLine.valid = true ∧ dirtyLine.tag = 0x100 / warm.cfg.cacheLineSize / 1) ∧
    (let s := { warm with cache := [[Line.empty tiny 0, dirtyLine]] }
     let ways := s.cache.getD 0 []
     ways[1]? = some dirtyLine ∧ ∀ m ∈ ways.take 1, m.valid = false) ∧
    ¬warm.cached (0x104 / warm.cfg.cacheLineSize) ∧
    ({ tiny with useCache := false } : Cfg).useCache = false := by
  unfold State.cached; decide

theorem witness_Replacement :
    (∃ r ∈ ({ warm with pendingRepl := [{ due := 9, lineAddr := 7 }] } : State).pendingRepl, r.lineAddr = 7) ∧
    (∀ r ∈ warm.pendingRepl, r.lineAddr ≠ 7) ∧ 0 < warm.cfg.laneReplacementDelay ∧
    ({ tiny with laneReplacementDelay := 0 } : Cfg).laneReplacementDelay = 0 ∧
    (let ways := [dirtyLine, Line.empty tiny 0]
     ways ≠ [] ∧ ∃ l, ways[1]? = some l ∧ l.valid = false ∧ ∀ m ∈ ways.take 1, m.valid = true) ∧
    (let ways := [dirtyLine, { dirtyLine with tag := 0x41, base := 0x104, usedSeq := 1 }]
     ways ≠ [] ∧ ∀ l ∈ ways, l.valid = true) := by
  refine ⟨by decide, by decide, by decide, by decide, ⟨by decide, Line.empty tiny 0, by decide⟩, by decide⟩

/-- `Replace` of a line that is there, and of one that is not with a dirty victim; replacements due and not due. -/
theorem witness_Replacement_performed :
    (∃ l ∈ warm.cache.getD (0x40 % 1) [], l.valid = true ∧ l.tag = 0x40 / 1) ∧
    (let s := { warm with cache := [[dirtyLine, { dirtyLine with tag := 0x42, base := 0x108, usedSeq := 3 }]] }
     (∀ l ∈ s.cache.getD (0x41 % 1) [], l.valid = true → l.tag ≠ 0x41 / 1) ∧
     (s.cache.getD 0 [])[(victim s.cfg s.rng (s.cache.getD 0 [])).1]? = some dirtyLine) ∧
    warm.cfg.useCache = true ∧ warm.cfg.cacheLines / warm.cfg.cacheAssoc = 1 := by decide

/-- A dirty victim is written back and its way filled from main memory; the due replacement alone is performed (rules R308,
R310). -/
theorem test_replacement :
    let s := { warm with
      tick := 9
      cache := [[dirtyLine, { dirtyLine with tag := 0x42, base := 0x108, usedSeq := 3 }]]
      pendingRepl := [{ due := 9, lineAddr := 0x41 }, { due := 10, lineAddr := 0x43 }] }
    let t := s.memorySimulate
    t.pendingRepl = [{ due := 10, lineAddr := 0x43 }] ∧ t.mainMem.readBytes 0x100 4 = [1, 2, 3, 4] ∧
    (t.cache.getD 0 []).map (fun l => (l.tag, l.dirty, l.usedSeq)) = [(0x41, false, 3), (0x42, true, 3)] := by decide

theorem witness_AccessKeepsTheView :
    warm.CacheCoherent ∧ warm.cfg.useCache = true ∧ 4 ∣ warm.cfg.cacheLineSize ∧
    (∀ n ∈ [1, 2, 4], 0x10C % n = 0) ∧ (∀ data ∈ [[(7 : Byte)], [7, 8], [7, 8, 9, 10]], 0x100 % data.length = 0) :=
  ⟨warm_coherent, by decide⟩

/-! ### Commit -/

theorem witness_RegisterCommit :
    ∃ (d : DynInst) (p : SpecReg), d.dstSpec = some 0 ∧ d.dstArch = some ⟨.x, 5⟩ ∧ flight.pool[0]? = some p :=
  ⟨(flight.robFind 1).getD resolvedJump, { state := .allocated, value := 0, tag := .int }, by decide⟩

/-- A taken jump predicted correctly, and a branch that is not taken. -/
theorem witness_CommitPredictedTransfer :
    (let d := { resolvedJump with predTaken := true, predTarget := 8 }
     d.ins = .isa (.jal 0 8) ∧ d.actualTaken = some true ∧ d.actualTarget = some 8 ∧ d.predTaken = true ∧ d.predTarget = 8) ∧
    (let d := { inFlight 3 (.bne 11 0 (-8)) with actualTaken := some false, actualTarget := some 0 }
     d.ins = .isa (.bne 11 0 (-8)) ∧ d.actualTaken = some false ∧ d.actualTarget = some 0 ∧ d.predTaken = false) := by
  decide

/-- A wrong direction, and a right direction with a wrong target. -/
theorem witness_CommitMispredictedTransfer :
    (resolvedJump.actualTaken = some true ∧ resolvedJump.actualTarget = some 8 ∧ resolvedJump.predTaken ≠ true) ∧
    (let d := { resolvedJump with predTaken := true, predTarget := 4 }; true = true ∧ d.predTarget ≠ (8 : Word)) := by decide

/-- A unit that holds an older and one that holds a younger instruction than the flushed one, and an idle one. -/
theorem witness_FlushDiscardsTheYounger :
    ((held 0 1).fu[0]? = some { ins := some 1, counter := 0, total := 1, failed := [] } ∧ (1 ≤ 1 ∧ 0 < 1)) ∧
    (held 0 1).fu[1]? = some FuState.idle ∧ ((held 0 1).flush 0).fu[0]? = some FuState.idle ∧
    flight.pool[0]? = some { state := .allocated, value := 0, tag := .int } ∧
    ∃ e ∈ flight.renameTable, 0 < e.id ∧ e.spec = 0 := by decide

theorem witness_OnlyCommitWrites :
    let s := { flight with rob := flight.rob.tail }
    s.grain = .tick ∧ (∀ d ∈ s.rob.head?, d.busy = true ∨ d.exc ≠ none) ∧ ∃ t, step s = .next t :=
  ⟨by decide, by decide, exists_next (by decide)⟩

/-- A coherent cache with a dirty line, a replacement that is due, and a head that commits and is no store. -/
theorem witness_OnlyCommitWrites_memory :
    let s := { warm with rob := [{ resolvedJump with predTaken := true, predTarget := 8 }],
                         pendingRepl := [{ due := 1, lineAddr := 7 }] }
    s.grain = .tick ∧ s.CacheCoherent ∧ (∀ d ∈ s.rob, isStore d.ins = false) ∧ ∃ t, step s = .next t :=
  ⟨rfl, warm_coherent, by decide, exists_next (by decide)⟩

theorem witness_FailedHeadEndsTheRun :
    let d := { inFlight 0 (.div 5 6 7) with exc := some .divideByZero, busy := false }
    let s := { warm with rob := [d] }
    Valid s.cfg s.prog ∧ s.grain = .tick ∧ s.status = .running ∧ s.haltSeen = false ∧ s.CacheCoherent ∧
    s.rob.head? = some d ∧ d.busy = false ∧ d.exc = some .divideByZero :=
  ⟨by unfold Valid; decide, rfl, rfl, rfl, warm_coherent, rfl, rfl, rfl⟩

theorem witness_CommitInOrder :
    let d := inFlight 0 (.sw 6 7 0)
    let it := pendingStore 0 0x104
    let s := { warm with rob := [d], storeBuffer := [it] }
    s.CacheCoherent ∧ 4 ∣ s.cfg.cacheLineSize ∧ s.rob.head? = some d ∧ isStore d.ins = true ∧ d.dstSpec = none ∧
    s.storeBuffer.head? = some it ∧ it.addr = some 0x104 ∧ it.data = some [4, 3, 2, 1] ∧
    [(4 : Byte), 3, 2, 1].length = accessSize d.ins ∧ (0x104 : Word).toNat % 4 = 0 :=
  ⟨warm_coherent, by decide⟩

/-- A plain instruction, a load and a transfer; a predicted jump, then a busy instruction, in `flight`; and a head that has
failed. -/
theorem witness_CommitInOrder_kinds :
    (let i : StaticIns := .isa (.add 5 6 7); isStore i = false ∧ isLoad i = false ∧ isTransfer i = false) ∧
    isLoad (.isa (.lw 5 6 0)) = true ∧ isTransfer (.isa (.jal 0 8)) = true := by decide

/-- Commit stops after a mispredicted jump, before a busy head and at a failed one (rules R332, R333, R343). -/
theorem test_commit_loop :
    (let t := flight.commit; (t.stats.committed, t.stats.flushes, t.rob)) = (1, 1, []) ∧
    (let jump := { resolvedJump with predTaken := true, predTarget := 8 }
     let t := ({ flight with rob := [jump, inFlight 1 (.add 5 6 7)] } : State).commit
     (t.stats.committed, t.rob.map (·.id), t.excSeen)) = (1, [1], none) ∧
    (let failed := { inFlight 1 (.div 5 6 7) with exc := some .divideByZero, busy := false }
     let t := ({ flight with rob := [failed] } : State).commit
     (t.stats.committed, t.rob.map (·.id), t.excSeen)) = (0, [1], some .divideByZero) := by decide

/-! ### Invariants: a state in flight meets each, and steps -/

theorem witness_InvariantsAtReset : Valid tiny sample := by unfold Valid; decide

theorem flight_steps : ∃ t, step flight = .next t := exists_next (by decide)

theorem witness_MemoryFormIsKept : (machine 8 []).mainMem.wf = true ∧ ∃ t, step (machine 8 []) = .next t :=
  ⟨by decide, exists_next (by decide)⟩

theorem witness_CapacityIsKept : flight.WithinCapacity ∧ ∃ t, step flight = .next t :=
  ⟨⟨by decide, by decide, by decide, fun c => by cases c <;> decide, by decide, by decide⟩, flight_steps⟩

theorem witness_IdOrderIsKept : flight.IdsOrdered ∧ ∃ t, step flight = .next t :=
  ⟨by unfold State.IdsOrdered Increasing; decide, flight_steps⟩

theorem witness_StatisticsAreKept :
    flight.StatsConsistent ∧ flight.grain = .tick ∧ flight.status = .running ∧ (∃ t, step flight = .next t) ∧
    (let s := (machine 8 []).withFetchWord 32 0x00B50533; s.grain = .instruction ∧ ∃ t, step s = .next t) :=
  ⟨by unfold State.StatsConsistent; decide, rfl, rfl, flight_steps, rfl, exists_next (by decide)⟩

theorem witness_PcAlignmentIsKept : flight.PcAligned ∧ ∃ t, step flight = .next t := by
  refine ⟨⟨by decide, ?_, ?_⟩, flight_steps⟩
  · intro d hd
    have hd : d ∈ [resolvedJump, { inFlight 1 (.add 5 6 7) with
        src := [.arch ⟨.x, 6⟩, .arch ⟨.x, 7⟩], dstArch := some ⟨.x, 5⟩, dstSpec := some 0, window := some .intArith },
      inFlight 2 (.sw 2 1 12), inFlight 3 (.bne 11 0 (-8))] := hd
    simp only [List.mem_cons, List.not_mem_nil, or_false] at hd
    rcases hd with rfl | rfl | rfl | rfl
    · exact ⟨by decide, fun _ _ t ht => by cases ht; decide⟩
    all_goals exact ⟨by decide, fun _ h => by cases h⟩
  · intro e he b hb
    have he : e ∈ [none, some { tag := 4, conditional := true, target := 8, commitId := 0 }, none, none] := he
    simp only [List.mem_cons, List.not_mem_nil, or_false] at he
    rcases he with rfl | rfl | rfl | rfl <;> cases hb
    decide

theorem witness_RangesAreKept : flight.FreeIsZero ∧ flight.CountersLegal ∧ flight.HistoryFits ∧ ∃ t, step flight = .next t :=
  ⟨by unfold State.FreeIsZero; decide, by unfold State.CountersLegal; decide, by unfold State.HistoryFits; decide,
    flight_steps⟩

theorem witness_CacheCoherenceIsKept :
    let s := { warm with storeBuffer := [pendingStore 0 0x104, unknownItem 1] }
    s.CacheCoherent ∧ s.StoresWhole ∧ ∃ t, step s = .next t := by
  refine ⟨warm_coherent, ?_, exists_next (by decide)⟩
  unfold State.StoresWhole LsItem.WholeAccess; decide

/-! ### The stepping interface -/

/-- A running value with a log, one without at tick 0, a valid pair, and a snapshot of a run. -/
theorem witness_RoundTrip :
    let m : Sim := { cur := State.init tiny sample, hist := [] }
    Valid m.cur.cfg m.cur.prog ∧ m.cur.status = .running ∧ m.hist = [] ∧ m.cur.tick = 0 ∧
    Sim.start tiny sample = .ok m := ⟨by unfold Valid; decide, rfl, rfl, rfl, rfl⟩

theorem witness_StepToReachesTheTarget : Valid tiny sample := by unfold Valid; decide

/-- A snapshot at tick 2, which has no log, steps back to tick 1, at which two instructions (`fetchWidth`) have been fetched
(rules R204, R366, R368), and one of an invalid pair to
nothing (rule R376). -/
theorem test_snapshot_steps_back :
    (match Sim.load { State.init tiny sample with tick := 2 } with
      | .ok m => match m.stepTo 1 with
        | .ok (m', r) => some (m'.cur.tick, m'.cur.nextId, r.backwardSteps)
        | .error _ => none
      | .error _ => none) = some (1, 2, 1) ∧
    (match Sim.start tiny (Prog.ofWords [0x00000073]) with
      | .ok _ => none
      | .error vs => some vs) = some [.undecodableWord 0 0x00000073] := by decide

end Sys2Proof.Tests
end

section
/-! Validation before a run (`00_scope.md` rules R8, R16, `60_exceptions.md` rule R376): what each check of `validate` asks,
said once, and what a step does once validation has passed or failed. The statements of the family `00_scope.md` follow. -/

namespace Sys2Proof.Machine

/-! ## The configuration -/

@[simp] theorem require_eq_nil_iff {ok : Bool} {v : Violation} : require ok v = [] ↔ ok = true := by
  cases ok <;> simp [require]

/-- The legal values of rule R8, as propositions about numbers. -/
structure LegalCfg (c : Cfg) : Prop where
  robSize : 1 ≤ c.robSize
  commitWidth : 1 ≤ c.commitWidth
  fetchWidth : 1 ≤ c.fetchWidth
  branchFollowLimit : 1 ≤ c.branchFollowLimit
  btbSize : 1 ≤ c.btbSize
  phtSize : 1 ≤ c.phtSize
  ghrBits : c.ghrBits ≤ 32
  predictorDefault : defaultLegal c.predictorType c.predictorDefault = true
  delay : ∀ u ∈ c.fus, 1 ≤ u.delay
  iwSize : 1 ≤ c.iwSize
  lbSize : 1 ≤ c.lbSize
  sbSize : 1 ≤ c.sbSize
  specRegs : c.fetchWidth ≤ c.specRegs
  cacheLines : 1 ≤ c.cacheLines
  cacheLines_mod : c.cacheLines % c.cacheAssoc = 0
  cacheLineSize : ∃ k, 2 ≤ k ∧ k ≤ 32 ∧ c.cacheLineSize = 2 ^ k
  cacheAssoc : 1 ≤ c.cacheAssoc
  cacheWritePolicy : c.cacheWritePolicy = .writeBack
  memSize : 1 ≤ c.memSize
  memSize_le : c.memSize ≤ 2 ^ 32
  memSize_mod : c.memSize % c.cacheLineSize = 0
  maxCycles : 1 ≤ c.maxCycles
  exitAddress : c.exitAddress.toNat % 4 = 0

theorem isLineSize_iff {n : Nat} : isLineSize n = true ↔ ∃ k, 2 ≤ k ∧ k ≤ 32 ∧ n = 2 ^ k := by
  simp only [isLineSize, List.any_eq_true, List.mem_range, decide_eq_true_eq]
  constructor
  · rintro ⟨j, hj, rfl⟩
    exact ⟨j + 2, by omega, by omega, rfl⟩
  · rintro ⟨k, h2, h32, rfl⟩
    exact ⟨k - 2, by omega, by rw [Nat.sub_add_cancel h2]⟩

theorem cfgViolations_eq_nil_iff {c : Cfg} : cfgViolations c = [] ↔ LegalCfg c := by
  unfold cfgViolations
  simp only [List.append_eq_nil_iff, require_eq_nil_iff, decide_eq_true_eq, List.all_eq_true, isLineSize_iff, and_assoc]
  constructor
  · rintro ⟨h1, h2, h3, h4, h5, h6, h7, h8, h9, h10, h11, h12, h13, h14, h15, h16, h17, h18, h19, h20, h21, h22, h23⟩
    exact ⟨h1, h2, h3, h4, h5, h6, h7, h8, h9, h10, h11, h12, h13, h14, h15, h16, h17, h18, h19, h20, h21, h22, h23⟩
  · rintro ⟨h1, h2, h3, h4, h5, h6, h7, h8, h9, h10, h11, h12, h13, h14, h15, h16, h17, h18, h19, h20, h21, h22, h23⟩
    exact ⟨h1, h2, h3, h4, h5, h6, h7, h8, h9, h10, h11, h12, h13, h14, h15, h16, h17, h18, h19, h20, h21, h22, h23⟩

/-! ## The code -/

/-- A unit is compatible: its type executes the class, and an `FX` or `FP` unit has the required capabilities (rule R257). -/
theorem compatible_iff {cfg : Cfg} {i : StaticIns} {u : FuncUnit} :
    compatible cfg i u = true ↔
      u.type = unitType (insClass i) ∧ ((u.type = .FX ∨ u.type = .FP) → ∀ c ∈ insCaps cfg i, c ∈ u.caps) := by
  have hasCaps_iff : ∀ t, hasCaps t = true ↔ t = .FX ∨ t = .FP := by intro t; cases t <;> decide
  rw [← hasCaps_iff]
  cases h : hasCaps u.type <;> simp [compatible, h]

/-- The row of a name is a row of the table, and has that name. -/
theorem fpRow_spec {cfg : Cfg} {n : String} {row : FpRow} (h : fpRow cfg n = some row) :
    row ∈ cfg.fpTable ∧ row.mnemonic = n :=
  ⟨List.mem_of_find?_eq_some h, by simpa using List.find?_some h⟩

theorem slotViolations_isa_eq_nil_iff {cfg : Cfg} {k : Nat} {i : Instr} :
    slotViolations cfg k (.ins (.isa i)) = [] ↔ i.wf = true ∧ ∃ u ∈ cfg.fus, compatible cfg (.isa i) u = true := by
  simp [slotViolations]

theorem slotViolations_named_eq_nil_iff {cfg : Cfg} {k : Nat} {n : String} {rd rs1 rs2 : Reg} {imm : Int} :
    slotViolations cfg k (.ins (.named n rd rs1 rs2 imm)) = [] ↔
      ∃ row, fpRow cfg n = some row ∧ namedOperandsOk row rd rs1 rs2 imm = true ∧
        ∃ u ∈ cfg.fus, compatible cfg (.named n rd rs1 rs2 imm) u = true := by
  cases h : fpRow cfg n <;> simp [slotViolations, h]

theorem namedOperandsOk_iff {row : FpRow} {rd rs1 rs2 : Reg} {imm : Int} :
    namedOperandsOk row rd rs1 rs2 imm = true ↔
      formatImmOk row.format imm = true ∧ (writesRd row.format = false → rd = 0) ∧
        (readsRs1 row.format = false → rs1 = 0) ∧ (readsRs2 row.format = false → rs2 = 0) := by
  simp only [namedOperandsOk, Bool.and_eq_true, Bool.or_eq_true, decide_eq_true_eq, and_assoc,
    ← Bool.not_eq_true, or_iff_not_imp_left]

/-- The code passes when each slot does, under its own index. -/
theorem codeViolations_eq_nil_iff {cfg : Cfg} {code : List CodeSlot} {k : Nat} :
    codeViolations cfg k code = [] ↔ ∀ j c, code[j]? = some c → slotViolations cfg (k + j) c = [] := by
  induction code generalizing k with
  | nil => simp [codeViolations]
  | cons c cs ih =>
    simp only [codeViolations, List.append_eq_nil_iff, ih]
    constructor
    · rintro ⟨h, ht⟩ (_ | j) d hd
      · cases hd; exact h
      · rw [← Nat.succ_add_eq_add_succ]; exact ht j d hd
    · intro h
      refine ⟨h 0 c rfl, fun j d hd => ?_⟩
      rw [Nat.succ_add_eq_add_succ]; exact h (j + 1) d hd

/-! ## The whole of validation -/

theorem valid_iff {cfg : Cfg} {prog : Prog} :
    Valid cfg prog ↔ LegalCfg cfg ∧ (∀ k c, prog.code[k]? = some c → slotViolations cfg k c = []) ∧
      (prog.code.any slotIsLoad = true → ∃ u ∈ cfg.fus, u.type = .MA) ∧ entryResolves cfg prog = true ∧
      4 * prog.code.length ≤ cfg.exitAddress.toNat ∧ spanViolations cfg prog.initMem = [] := by
  simp only [Valid, validate, List.append_eq_nil_iff, cfgViolations_eq_nil_iff, codeViolations_eq_nil_iff,
    require_eq_nil_iff, Nat.zero_add, exitOutside, decide_eq_true_eq, and_assoc, Bool.or_eq_true, Bool.not_eq_true',
    List.any_eq_true (l := cfg.fus), ← Bool.not_eq_true, ← imp_iff_not_or]

/-- An entry point that resolves is a multiple of 4 (rule R401). -/
theorem entryAddress_aligned {cfg : Cfg} {prog : Prog} (h : entryResolves cfg prog = true) :
    (entryAddress cfg prog).toNat % 4 = 0 := by
  unfold entryResolves at h
  unfold entryAddress resolveEntry
  cases he : cfg.entryPoint with
  | address a => simpa [he] using h
  | label n =>
    simp only [he] at h
    cases hl : lookupLabel n prog.labels with
    | none => simp [hl] at h
    | some a => simpa [hl] using h

/-- The immediates of rule R104 by format, as propositions; that they bind an instruction of `FP_TABLE` by its row's format
is log entry 18. -/
def ImmInRange (f : Format) (imm : Int) : Prop :=
  match f with
  | .I => -2048 ≤ imm ∧ imm ≤ 2047
  | .IL => -2048 ≤ imm ∧ imm ≤ 2047
  | .S => -2048 ≤ imm ∧ imm ≤ 2047
  | .SH => 0 ≤ imm ∧ imm ≤ 31
  | .U => 0 ≤ imm ∧ imm ≤ 0xFFFFF
  | .B => -4096 ≤ imm ∧ imm ≤ 4094 ∧ 2 ∣ imm
  | .J => -1048576 ≤ imm ∧ imm ≤ 1048574 ∧ 2 ∣ imm
  | .R => imm = 0

theorem formatImmOk_iff {f : Format} {imm : Int} : formatImmOk f imm = true ↔ ImmInRange f imm := by
  cases f <;>
    simp only [formatImmOk, ImmInRange, immIOk, shamtOk, immUOk, immBOk, immJOk, decide_eq_true_eq,
      Int.dvd_iff_emod_eq_zero]

/-- An instruction of `ISA_TABLE` in the code of a valid pair is in range and has a unit (rules R16, R104, R257). -/
theorem Valid.isa_slot {cfg : Cfg} {prog : Prog} (h : Valid cfg prog) {k : Nat} {i : Instr}
    (hk : prog.code[k]? = some (.ins (.isa i))) :
    i.wf = true ∧ ∃ u ∈ cfg.fus, u.type = unitType (classAndCaps i).1 ∧
      ((u.type = .FX ∨ u.type = .FP) → ∀ c ∈ (classAndCaps i).2, c ∈ u.caps) := by
  obtain ⟨-, hslots, -⟩ := valid_iff.mp h
  obtain ⟨hwf, u, hu, hc⟩ := slotViolations_isa_eq_nil_iff.mp (hslots k _ hk)
  exact ⟨hwf, u, hu, compatible_iff.mp hc⟩

/-- No slot of a valid pair's code is undecodable (rule R116). -/
theorem Valid.no_undecodable {cfg : Cfg} {prog : Prog} (h : Valid cfg prog) (k : Nat) (w : Word) :
    prog.code[k]? ≠ some (.undecodable w) := by
  intro hk
  obtain ⟨-, hslots, -⟩ := valid_iff.mp h
  simpa [slotViolations] using hslots k _ hk

/-- An instruction outside `ISA_TABLE` in the code of a valid pair has a row of `FP_TABLE`, operands in that row's range
and an `FP` unit with its capabilities (rules R191, R192, R257). -/
theorem Valid.named_slot {cfg : Cfg} {prog : Prog} (h : Valid cfg prog) {k : Nat} {n : String} {rd rs1 rs2 : Reg}
    {imm : Int} (hk : prog.code[k]? = some (.ins (.named n rd rs1 rs2 imm))) :
    ∃ row ∈ cfg.fpTable, row.mnemonic = n ∧ (writesRd row.format = false → rd = 0) ∧
      (readsRs1 row.format = false → rs1 = 0) ∧ (readsRs2 row.format = false → rs2 = 0) ∧ ImmInRange row.format imm ∧
      ∃ u ∈ cfg.fus, u.type = .FP ∧ ∀ c ∈ row.caps, c ∈ u.caps := by
  obtain ⟨-, hslots, -⟩ := valid_iff.mp h
  obtain ⟨row, hrow, hops, u, hu, hc⟩ := slotViolations_named_eq_nil_iff.mp (hslots k _ hk)
  obtain ⟨hmem, hname⟩ := fpRow_spec hrow
  obtain ⟨himm, hrd, hrs1, hrs2⟩ := namedOperandsOk_iff.mp hops
  obtain ⟨htype, hcaps⟩ := compatible_iff.mp hc
  have hrowCaps : insCaps cfg (.named n rd rs1 rs2 imm) = row.caps := by simp [insCaps, hrow]
  exact ⟨row, hmem, hname, hrd, hrs1, hrs2, formatImmOk_iff.mp himm, u, hu, htype, hrowCaps ▸ hcaps (.inr htype)⟩

/-- A valid pair whose code has a load has an `MA` unit (rules R16, R257). -/
theorem Valid.load_unit {cfg : Cfg} {prog : Prog} (h : Valid cfg prog) {k : Nat} {i : Instr}
    (hk : prog.code[k]? = some (.ins (.isa i))) (hl : format i = .IL) : ∃ u ∈ cfg.fus, u.type = .MA := by
  obtain ⟨-, -, hload, -⟩ := valid_iff.mp h
  exact hload (List.any_eq_true.mpr ⟨_, List.mem_of_getElem? hk, by simp [slotIsLoad, isLoad, hl]⟩)

/-- The exit address of a valid pair is past the code, so it is no instruction's address (rules R8, R385). -/
theorem Valid.exit_ne_slot {cfg : Cfg} {prog : Prog} (h : Valid cfg prog) {k : Nat} (hk : k < prog.code.length) :
    cfg.exitAddress ≠ BitVec.ofNat 32 (4 * k) := by
  obtain ⟨-, -, -, -, hexit, -⟩ := valid_iff.mp h
  intro he
  have := congrArg BitVec.toNat he
  simp only [BitVec.toNat_ofNat] at this
  omega

/-- Settles O22: each clause is the check of `validate` that guarantees it, read off by `valid_iff`. -/
theorem validationChecks : Obligations.ValidationChecks := by
  unfold Obligations.ValidationChecks
  intro cfg prog h
  obtain ⟨hc, -, -, hentry, -, -⟩ := valid_iff.mp h
  obtain ⟨e, he, -, hline⟩ := hc.cacheLineSize
  exact ⟨hc.robSize, hc.commitWidth, hc.fetchWidth, hc.branchFollowLimit, hc.btbSize, hc.phtSize, hc.ghrBits, hc.iwSize,
    hc.lbSize, hc.sbSize, hc.specRegs, hc.cacheAssoc, hc.cacheLines, Nat.dvd_of_mod_eq_zero hc.cacheLines_mod,
    ⟨e, he, hline⟩, hc.memSize, hc.memSize_le, Nat.dvd_of_mod_eq_zero hc.memSize_mod, hc.cacheWritePolicy, hc.maxCycles,
    hc.delay, entryAddress_aligned hentry, hc.exitAddress, fun _ _ => h.isa_slot, h.no_undecodable,
    fun _ _ _ _ _ _ => h.named_slot, fun ⟨_, _, hk, hl⟩ => h.load_unit hk hl, fun _ => h.exit_ne_slot⟩

/-! ## The step of a valid and of an invalid pair -/

theorem ifValid_valid {s : State} (h : validate s.cfg s.prog = []) (o : Host.Outcome State Fault Refusal) :
    ifValid s o = o := by
  unfold ifValid; rw [h]

theorem ifValid_invalid {s : State} (h : validate s.cfg s.prog ≠ []) (o : Host.Outcome State Fault Refusal) :
    ifValid s o = .refused (.invalid (validate s.cfg s.prog)) := by
  unfold ifValid
  cases e : validate s.cfg s.prog with
  | nil => exact absurd e h
  | cons v vs => rfl

theorem step_invalid {s : State} (h : validate s.cfg s.prog ≠ []) :
    step s = .refused (.invalid (validate s.cfg s.prog)) := by
  cases hg : s.grain <;> simp only [step, hg, ifValid_invalid h]

theorem step_tick {s : State} (h : validate s.cfg s.prog = []) (hg : s.grain = .tick) : step s = .next (tickStep s) := by
  simp only [step, hg, ifValid_valid h]

theorem step_instruction {s : State} (h : validate s.cfg s.prog = []) (hg : s.grain = .instruction) :
    step s = instructionStep s := by
  simp only [step, hg, ifValid_valid h]

/-- In program order the instruction at `pc` runs, and the stop reasons are evaluated (rules R12, R384). -/
theorem instructionStep_at {s : State} {i : StaticIns} (hr : s.status = .running) (hd : s.drained = true)
    (hi : instructionAt s.prog s.pc = some i) : instructionStep s = settle (runStatic i s) := by
  simp only [instructionStep, hr, hd, hi, if_true]

theorem instructionAt_of_slot {prog : Prog} {pc : Word} {i : StaticIns} (h4 : pc.toNat % 4 = 0)
    (hk : prog.code[pc.toNat / 4]? = some (.ins i)) : instructionAt prog pc = some i := by
  simp [instructionAt, h4, hk]

theorem slotOfWord_instr {w : Word} {i : Instr} (h : decodeWord w = .instr i) : slotOfWord w = .ins (.isa i) := by
  simp only [slotOfWord, h]

/-- The sequential level never refuses: every instruction has a meaning. -/
theorem instructionStep_ne_refused (s : State) (r : Refusal) : instructionStep s ≠ .refused r := by
  unfold instructionStep
  split
  · split
    · split
      · rename_i i _
        obtain ⟨u, hu, -⟩ := runStatic_eq i s
        simp [hu, settle]
      · exact nofun
    · exact nofun
  · exact nofun

/-- Settles O19: the slot at `pc` is the decoded instruction, which validation checked (`Valid.isa_slot`) and which the
sequential step runs (`instructionStep_at`); by `exec_eq` it answers a next state, and `evalStop` is the update named. -/
theorem stepRunsTheDecodedInstruction : Obligations.StepRunsTheDecodedInstruction := by
  unfold Obligations.StepRunsTheDecodedInstruction
  intro s w i hv hg hr hrob hdec hfetch h4 hw hk
  rw [slotOfWord_instr hw] at hk
  refine ⟨(hv.isa_slot hk).1, ?_⟩
  have hd : s.drained = true := by simp [State.drained, hrob, hdec, hfetch]
  rw [step_instruction hv hg, instructionStep_at hr hd (instructionAt_of_slot h4 hk), runStatic, exec_eq]
  rfl

/-- Settles O21: `step` and each operation of the host validate first, and the meaning of a valid pair has no refusal. -/
theorem invalidNeverRuns : Obligations.InvalidNeverRuns := by
  unfold Obligations.InvalidNeverRuns
  intro s
  refine ⟨step_invalid, fun h r => ?_, fun h hist n => ?_⟩
  · cases hg : s.grain with
    | tick => rw [step_tick h hg]; exact nofun
    | instruction => rw [step_instruction h hg]; exact instructionStep_ne_refused s r
  · exact ⟨ifLegal_invalid h _, ifLegal_invalid h _, ifLegal_invalid h _, ifLegal_invalid h _, ifLegal_invalid h _,
      ifLegal_invalid h _⟩

end Sys2Proof.Machine
end

section
/-! The inductions the invariants of `10_state.md` share. Each says once, for one stage of the tick or one operation of it,
which writes a predicate has to survive to be kept by the whole; the statements of the family `10_state.md` follow. -/

namespace Sys2Proof.Machine

/-! ## Commit, rename, dispatch and fetch -/

/-- Stage 2 keeps what taking an exception and each part of a commit keep (rules R332 to R345). -/
theorem commit_inv {P : State → Prop} (hexc : ∀ s k, P s → P (s.takeException k)) (hpop : ∀ s, P s → P s.popHead)
    (hreg : ∀ s d, P s → P (s.commitRegister d)) (hstore : ∀ s d, P s → P (s.commitStore d))
    (hload : ∀ s, P s → P s.commitLoad) (htrain : ∀ s d, P s → P (s.trainTransfer d))
    (hrecover : ∀ s d g taken target, P s → P (s.recover d g taken target)) : ∀ s, P s → P s.commit := fun s h =>
  commitLoop_inv hexc (fun s d _ _ _ => commitOne_inv s d (hpop s) (hreg · d) (hstore · d) hload (htrain · d)
    (hrecover · d · _ _)) _ s h

/-- Register commit does nothing, or retargets the references to one pool register and frees it (rule R335). -/
theorem commitRegister_cases (s : State) (d : DynInst) :
    s.commitRegister d = s ∨ ∃ k r, d.dstSpec = some k ∧ d.dstArch = some r ∧
      s.commitRegister d = { s with
        x := (s.commitRegister d).x, f := (s.commitRegister d).f
        decodeBuffer := s.decodeBuffer.map (DynInst.retargetAll k r)
        rob := s.rob.map (DynInst.retargetAll k r)
        renameTable := s.renameTable.filter fun e => decide (e.id ≠ d.id)
        pool := s.pool.set k SpecReg.freed } := by
  unfold State.commitRegister
  split
  · rename_i k r hk hr
    refine .inr ⟨k, r, hk, hr, ?_⟩
    simp only
    rw [writeReg_frame]
  · exact .inl rfl

/-- The dispatch loop keeps what stopping at a part of the decode buffer and dispatching one instruction that fits keep
(rule R241). -/
theorem dispatch_inv {P : State → Prop}
    (hstop : ∀ s ds, ds.Sublist s.decodeBuffer → P s → P { s with decodeBuffer := ds })
    (hone : ∀ s d, s.dispatchBlocked d = false → P s → P (s.dispatchOne d)) : ∀ s, P s → P s.dispatch := by
  suffices ∀ ds s, ds.Sublist s.decodeBuffer → P s → P (dispatchLoop ds s) from
    fun s h => this s.decodeBuffer s (List.Sublist.refl _) h
  intro ds
  induction ds with
  | nil => exact fun s hds h => hstop s [] hds h
  | cons d ds ih =>
    intro s hds h
    unfold dispatchLoop
    split
    · exact hstop s _ hds h
    · rename_i hfits
      exact ih _ ((List.sublist_cons_self d ds).trans hds) (hone s d (by simpa using hfits) h)

/-- Renaming a group writes the pool, the rename table and the decode buffer (rules R232 to R236). -/
theorem renameGroup_frame (ds : List DynInst) (s : State) :
    ds.foldl State.renameOne s = { s with
      pool := (ds.foldl State.renameOne s).pool, renameTable := (ds.foldl State.renameOne s).renameTable
      decodeBuffer := (ds.foldl State.renameOne s).decodeBuffer } := by
  refine foldl_rel (R := fun s t : State => t = { s with
    pool := t.pool, renameTable := t.renameTable, decodeBuffer := t.decodeBuffer }) (fun _ => rfl) ?_ ?_ ds s
  · intro a b c hab hbc
    rw [hbc, hab]
  · intro s d
    unfold State.renameOne
    simp only
    split <;> rfl

/-- A renamed group goes to the end of the decode buffer, in order (rule R232). -/
theorem renameGroup_ids (ds : List DynInst) : ∀ s : State,
    (ds.foldl State.renameOne s).decodeBuffer.map (·.id) = s.decodeBuffer.map (·.id) ++ ds.map (·.id) := by
  induction ds with
  | nil => simp
  | cons d ds ih =>
    intro s
    have hone : (s.renameOne d).decodeBuffer.map (·.id) = s.decodeBuffer.map (·.id) ++ [d.id] := by
      unfold State.renameOne
      simp only
      split <;> simp
    rw [List.foldl_cons, ih, hone]
    simp

/-- Rename moves the whole group into an empty decode buffer, or does nothing (rule R231). -/
theorem rename_cases (s : State) :
    s.rename = s ∨
      (s.decodeBuffer = [] ∧ s.rename = s.fetchBuffer.foldl State.renameOne { s with fetchBuffer := [] }) := by
  unfold State.rename
  split
  · rename_i h
    simp only [Bool.and_eq_true, List.isEmpty_iff] at h
    exact .inr ⟨h.1.1, rfl⟩
  · exact .inl rfl

/-- Where rename does something, the decode buffer holds the instructions the fetch buffer held, and it is empty (rules R231,
R232). -/
theorem rename_moves (s : State) :
    s.rename = s ∨ (s.decodeBuffer = [] ∧ s.rename.decodeBuffer.map (·.id) = s.fetchBuffer.map (·.id) ∧
      s.rename = { s with
        fetchBuffer := [], pool := s.rename.pool, renameTable := s.rename.renameTable
        decodeBuffer := s.rename.decodeBuffer }) := by
  rcases rename_cases s with e | ⟨hempty, e⟩
  · exact .inl e
  · refine .inr ⟨hempty, ?_, ?_⟩ <;> rw [e]
    · rw [renameGroup_ids, hempty]; rfl
    · exact renameGroup_frame _ _

/-- The fetch loop keeps what fetching one instruction, of either kind, keeps (rules R202 to R205). -/
theorem fetchLoop_inv {P : State → Prop} (hplain : ∀ s i, P s → P (s.fetchPlain i))
    (htransfer : ∀ s i, P s → P (s.fetchTransfer i)) : ∀ n followed s, P s → P (fetchLoop n followed s) := by
  intro n
  induction n with
  | zero => exact fun _ _ h => h
  | succ n ih =>
    intro followed s h
    unfold fetchLoop
    split
    · exact h
    · split
      · split
        · exact h
        · exact ih _ _ (htransfer _ _ h)
      · exact ih _ _ (hplain _ _ h)

/-- Stage 7 keeps what the stall count and fetching one instruction keep (rule R201). -/
theorem fetch_inv {P : State → Prop} (hstall : ∀ s n, P s → P { s with fetchStall := n })
    (hplain : ∀ s i, P s → P (s.fetchPlain i)) (htransfer : ∀ s i, P s → P (s.fetchTransfer i)) :
    ∀ s, P s → P s.fetch := by
  intro s h
  unfold State.fetch
  split
  · exact h
  · split
    · exact hstall _ _ h
    · exact fetchLoop_inv hplain htransfer _ _ _ h

/-! ## Issue and the load/store queue -/

/-- Examining one instruction of a window keeps what leaving the window, occupying a unit and latching keep (rule R255). -/
theorem issueOne_inv {P : State → Prop}
    (hwin : ∀ s c id, P s → P { s with win := s.win.put c ((s.win.at c).filter fun i => decide (i ≠ id)) })
    (hoccupy : ∀ s u id total, P s → P (s.occupy u id total))
    (hlatch : ∀ s id opv, P s → P (s.robUpdate id fun d => { d with opv := some opv, window := none })) :
    ∀ s c id, P s → P (s.issueOne c id) := by
  intro s c id h
  unfold State.issueOne
  split
  · exact h
  · split
    · split
      · exact hlatch _ _ _ (hoccupy _ _ _ _ (hwin _ _ _ h))
      · exact h
    · exact h

/-- Examining one load-buffer item keeps what completing a load and starting its memory access keep (rules R287 to R290).
-/
theorem resolveLoad_inv {P : State → Prop} (hspec : ∀ s d v, P s → P (s.writeSpec d v))
    (hbusy : ∀ s id, P s → P (s.notBusy id)) (hload : ∀ s id g, P s → P (s.loadUpdate id g))
    (hoccupy : ∀ s u id total, P s → P (s.occupy u id total))
    (haccess : ∀ s a n, P s → P (s.access a n .load).1) : ∀ s it, P s → P (s.resolveLoad it) := by
  intro s it h
  rcases resolveLoad_cases s it with e | ⟨d, a, y, -, -, -, -, -, -, e⟩ | ⟨d, a, u, -, -, -, e⟩ <;> rw [e]
  · exact h
  · exact hload _ _ _ (hbusy _ _ (hspec _ _ _ h))
  · exact hoccupy _ _ _ _ (hload _ _ _ (haccess _ _ _ h))

/-- Where a predicate does not see what stages 3 and 5 write, only the memory access matters. -/
theorem resolveLoad_inv_of_unitFrame {P : State → Prop} (hunit : ∀ s t, UnitFrame s t → P s → P t)
    (haccess : ∀ s a n, P s → P (s.access a n .load).1) : ∀ s it, P s → P (s.resolveLoad it) :=
  resolveLoad_inv (fun _ _ _ => hunit _ _ (writeSpec_frame _ _ _)) (fun _ _ => hunit _ _ (notBusy_frame _ _))
    (fun _ _ _ => hunit _ _ (loadUpdate_frame _ _ _)) (fun _ _ _ _ => hunit _ _ (occupy_frame _ _ _ _)) haccess

/-! ## Accesses -/

/-- The counts that only a commit moves are the same (rule R44). -/
def Stats.SameCommits (a b : Stats) : Prop :=
  b.committed = a.committed ∧ b.branches = a.branches ∧ b.correctDir = a.correctDir ∧ b.flushes = a.flushes

theorem Stats.SameCommits.refl (a : Stats) : a.SameCommits a := ⟨rfl, rfl, rfl, rfl⟩

theorem Stats.SameCommits.trans {a b c : Stats} (h1 : a.SameCommits b) (h2 : b.SameCommits c) : a.SameCommits c := by
  obtain ⟨c1, b1, d1, f1⟩ := h1
  obtain ⟨c2, b2, d2, f2⟩ := h2
  exact ⟨c2.trans c1, b2.trans b1, d2.trans d1, f2.trans f1⟩

/-- A predicate that the counters of the memory hierarchy, a store served from memory, a written line, a triggered
replacement and a performed one keep is kept by `Access` (rules R303 to R307, R314). -/
theorem access_inv {P : State → Prop}
    (hcount : ∀ s memId seq st, s.stats.SameCommits st → P s →
      P { s with nextMemId := memId, accessSeq := seq, stats := st })
    (hserve : ∀ s a req, P s → P (s.serveFromMemory a req)) (hway : ∀ s set way l, P s → P (s.setWay set way l))
    (hpend : ∀ s r, P s → P { s with pendingRepl := r }) (hreplace : ∀ s la, P s → P (s.replace la)) :
    ∀ s a n req, P s → P (s.access a n req).1 := by
  have htrigger : ∀ s la, P s → P (s.triggerReplacement la) := by
    intro s la h
    unfold State.triggerReplacement
    split
    · exact h
    · split
      · exact hreplace _ _ h
      · exact hpend _ _ h
  have hmiss : ∀ s a n req la, P s → P (s.accessMiss a n req la).1 := fun s a n req la h =>
    hcount _ _ _ _ ⟨rfl, rfl, rfl, rfl⟩ (htrigger _ _ (hserve _ _ _ (hcount s _ _ _ ⟨rfl, rfl, rfl, rfl⟩ h)))
  have hhit : ∀ s a n req set way l, P s → P (s.accessHit a n req set way l).1 := fun s a n req set way l h =>
    hcount (s.setWay set way _) _ _ _ ⟨rfl, rfl, rfl, rfl⟩ (hway _ _ _ _ h)
  intro s a n req h
  unfold State.access
  simp only
  split
  · have hstart := hcount s (s.nextMemId + 1) (s.accessSeq + 1)
      { s.stats with cacheAccesses := s.stats.cacheAccesses + 1 } ⟨rfl, rfl, rfl, rfl⟩ h
    split
    · split
      · exact hhit _ _ _ _ _ _ _ hstart
      · exact hmiss _ _ _ _ _ hstart
    · exact hmiss _ _ _ _ _ hstart
  · exact hcount _ _ _ _ ⟨rfl, rfl, rfl, rfl⟩ (hserve _ _ _ (hcount s _ _ _ (.refl _) h))

/-! ## The architectural level -/

/-- What one instruction at the architectural level may write (rules R12, R130): nothing of the pipeline and of the
predictor, no parameter. -/
def ArchFrame (s t : State) : Prop :=
  t = { s with
    x := t.x, f := t.f, pc := t.pc, mainMem := t.mainMem, cache := t.cache, stats := t.stats, haltSeen := t.haltSeen
    excSeen := t.excSeen }

theorem perform_frame (s : State) (rd : Reg) (m : Meaning) : ArchFrame s (s.perform rd m) := by
  unfold ArchFrame
  rcases perform_cases s rd m with ⟨k, e⟩ | ⟨v, e⟩ | ⟨taken, target, link, -, -, e⟩ | ⟨ea, data, -, e⟩ <;> rw [e]
  · rfl
  · rw [State.writeX_frame]; rfl
  · cases link with
    | none => rfl
    | some v => simp only [Option.map_some, Option.getD_some]; rw [State.writeX_frame]; rfl
  · rw [State.memWrite_frame]; rfl

theorem performNamed_frame (s : State) (i : StaticIns) (n : String) : ArchFrame s (s.performNamed i n) := by
  unfold ArchFrame
  rcases performNamed_cases s i n with ⟨k, e⟩ | e | ⟨r, v, tag, -, e⟩ <;> rw [e]
  · rfl
  · rfl
  · rw [writeReg_frame]; rfl

/-- A predicate that sees nothing the architectural level writes needs only the tick. -/
theorem step_inv_of_archFrame {P : State → Prop} (hstages : ∀ s, P s → P s.stages) (hstop : ∀ s, P s → P s.evalStop)
    (harch : ∀ s t, ArchFrame s t → P s → P t) {s t : State} (h : step s = .next t) (hs : P s) : P t :=
  step_inv hstages hstop (fun _ _ _ => harch _ _ (perform_frame _ _ _))
    (fun _ _ _ => harch _ _ (performNamed_frame _ _ _)) h hs

end Sys2Proof.Machine
end

section
/-! Main memory stays in canonical form (`10_state.md` rule R39, log entry 14): each operation that writes it writes bytes
(`Memory.wf_writeBytes`), and every other operation leaves it alone. -/

namespace Sys2Proof.Machine

theorem wf_writeBack {m : Memory} (h : m.wf = true) (l : Line) : (writeBack l m).wf = true := by
  unfold writeBack
  split
  · exact Memory.wf_writeBytes _ h _
  · exact h

theorem wf_replace {s : State} (h : s.mainMem.wf = true) (la : Nat) : (s.replace la).mainMem.wf = true := by
  unfold State.replace
  simp only
  split
  · exact h
  · simp only
    cases (s.ways (setIndex s.cfg la))[(victim s.cfg s.rng (s.ways (setIndex s.cfg la))).1]? with
    | none => exact h
    | some l => exact wf_writeBack h l

theorem wf_serveFromMemory {s : State} (h : s.mainMem.wf = true) (a : Nat) (req : Request) :
    (s.serveFromMemory a req).mainMem.wf = true := by
  cases req with
  | load => exact h
  | store data => exact Memory.wf_writeBytes data h a

theorem wf_access (s : State) (a n : Nat) (req : Request) (h : s.mainMem.wf = true) :
    (s.access a n req).1.mainMem.wf = true :=
  access_inv (P := fun s => s.mainMem.wf = true) (fun _ _ _ _ _ h => h) (fun _ _ _ h => wf_serveFromMemory h _ _)
    (fun _ _ _ _ h => h) (fun _ _ h => h) (fun _ _ h => wf_replace h _) s a n req h

theorem wf_commit (s : State) (h : s.mainMem.wf = true) : s.commit.mainMem.wf = true := by
  refine commit_inv (P := fun s => s.mainMem.wf = true) (fun _ _ h => h) (fun _ h => h) ?_ ?_ (fun _ h => h) ?_
    (fun _ _ _ _ _ h => h) s h
  · intro s d h; rw [commitRegister_frame]; exact h
  · intro s d h
    rcases commitStore_cases s d with e | ⟨it, rest, -, e⟩ <;> rw [e]
    · exact h
    · exact wf_access _ _ _ _ h
  · intro s d h; rw [trainTransfer_frame]; exact h

theorem wf_stages (s : State) (h : s.mainMem.wf = true) : s.stages.mainMem.wf = true := by
  have hunit : ∀ s t : State, UnitFrame s t → s.mainMem.wf = true → t.mainMem.wf = true :=
    fun _ _ hf h => hf.mainMem ▸ h
  have hfront : ∀ s t : State, FrontFrame s t → s.mainMem.wf = true → t.mainMem.wf = true :=
    fun _ _ hf h => hf.mainMem ▸ h
  exact stages_inv (P := fun s => s.mainMem.wf = true) (fun _ h => h)
    (memorySimulate_inv (fun _ _ h => h) fun _ _ h => wf_replace h _) wf_commit
    (fun _ _ => hunit _ _ (unitTick_frame _ _)) (resolveLoad_inv_of_unitFrame hunit fun _ _ _ => wf_access _ _ _ _)
    (fun _ _ _ => hunit _ _ (issueOne_frame _ _ _)) (fun _ => hfront _ _ (dispatch_frame _))
    (fun _ => hfront _ _ (rename_frame _)) (fun s h => (fetch_frame s).mainMem ▸ h) (fun _ h => h) s h

theorem wf_perform (s : State) (rd : Reg) (m : Meaning) (h : s.mainMem.wf = true) : (s.perform rd m).mainMem.wf = true := by
  rcases perform_cases s rd m with ⟨k, e⟩ | ⟨v, e⟩ | ⟨taken, target, link, -, -, e⟩ | ⟨ea, data, -, e⟩ <;> rw [e]
  · exact h
  · simpa using h
  · cases link with
    | none => exact h
    | some v => simpa using h
  · exact State.wf_memWrite data h ea.toNat

theorem wf_performNamed (s : State) (i : StaticIns) (n : String) (h : s.mainMem.wf = true) :
    (s.performNamed i n).mainMem.wf = true := by
  rcases performNamed_cases s i n with ⟨k, e⟩ | e | ⟨r, v, tag, -, e⟩ <;> rw [e]
  · exact h
  · exact h
  · rw [writeReg_frame]; exact h

/-- Settles O52: a tick writes main memory in replacements and in stores served from it, an instruction in program order in
the stores of its meaning; each writes bytes into a canonical memory. -/
theorem memoryFormIsKept : Obligations.MemoryFormIsKept := by
  unfold Obligations.MemoryFormIsKept
  exact fun s t hs h => step_inv (P := fun s => s.mainMem.wf = true) wf_stages (fun _ h => h) wf_perform wf_performNamed
    h hs

end Sys2Proof.Machine
end

section
/-! No structure grows past its capacity (`10_state.md` rules R34 to R38, `55_rob_commit.md` rule R346). Stages 1 to 5 and
commit only shorten the structures (`State.NoLonger`); dispatch adds where it found room, rename moves a group into an
empty decode buffer, fetch fills an empty fetch buffer with at most `fetchWidth` instructions. -/

namespace Sys2Proof.Machine

/-- `t` has the configuration of `s`, and no structure with a capacity is longer in it. -/
structure State.NoLonger (s t : State) : Prop where
  cfg : t.cfg = s.cfg
  rob : t.rob.length ≤ s.rob.length
  fetchBuffer : t.fetchBuffer.length ≤ s.fetchBuffer.length
  decodeBuffer : t.decodeBuffer.length ≤ s.decodeBuffer.length
  win : ∀ c, (t.win.at c).length ≤ (s.win.at c).length
  loadBuffer : t.loadBuffer.length ≤ s.loadBuffer.length
  storeBuffer : t.storeBuffer.length ≤ s.storeBuffer.length

theorem State.NoLonger.refl (s : State) : s.NoLonger s :=
  ⟨rfl, le_refl _, le_refl _, le_refl _, fun _ => le_refl _, le_refl _, le_refl _⟩

theorem State.NoLonger.withinCapacity {s t : State} (n : s.NoLonger t) (h : s.WithinCapacity) : t.WithinCapacity := by
  obtain ⟨hrob, hfetch, hdecode, hwin, hload, hstore⟩ := h
  unfold State.WithinCapacity
  rw [n.cfg]
  exact ⟨n.rob.trans hrob, n.fetchBuffer.trans hfetch, n.decodeBuffer.trans hdecode, fun c => (n.win c).trans (hwin c),
    n.loadBuffer.trans hload, n.storeBuffer.trans hstore⟩

/-! ## What shortens the structures or leaves them -/

theorem MemFrame.noLonger {s t : State} (h : MemFrame s t) : s.NoLonger t :=
  ⟨h.cfg, h.rob ▸ le_refl _, h.fetchBuffer ▸ le_refl _, h.decodeBuffer ▸ le_refl _, fun _ => h.win ▸ le_refl _,
    h.loadBuffer ▸ le_refl _, h.storeBuffer ▸ le_refl _⟩

theorem ArchFrame.noLonger {s t : State} (h : ArchFrame s t) : s.NoLonger t := by
  rw [h]; exact { State.NoLonger.refl s with }

theorem robUpdate_noLonger (s : State) (id : Nat) (g : DynInst → DynInst) : s.NoLonger (s.robUpdate id g) :=
  { State.NoLonger.refl s with rob := by simp [State.robUpdate] }

theorem loadUpdate_noLonger (s : State) (id : Nat) (g : LsItem → LsItem) : s.NoLonger (s.loadUpdate id g) :=
  { State.NoLonger.refl s with loadBuffer := by simp [State.loadUpdate, updateItem] }

theorem storeUpdate_noLonger (s : State) (id : Nat) (g : LsItem → LsItem) : s.NoLonger (s.storeUpdate id g) :=
  { State.NoLonger.refl s with storeBuffer := by simp [State.storeUpdate, updateItem] }

theorem writeSpec_noLonger (s : State) (d : DynInst) (v : Container) : s.NoLonger (s.writeSpec d v) := by
  unfold State.writeSpec
  split <;> exact { State.NoLonger.refl s with }

theorem commitRegister_noLonger (s : State) (d : DynInst) : s.NoLonger (s.commitRegister d) := by
  rcases commitRegister_cases s d with e | ⟨k, r, -, -, e⟩ <;> rw [e]
  · exact .refl s
  · exact { State.NoLonger.refl s with rob := by simp, decodeBuffer := by simp }

theorem commitStore_noLonger (s : State) (d : DynInst) : s.NoLonger (s.commitStore d) := by
  rcases commitStore_cases s d with e | ⟨it, rest, hs, e⟩ <;> rw [e]
  · exact .refl s
  · have n := (access_frame { s with storeBuffer := rest } (it.addr.getD 0).toNat (accessSize d.ins)
      (.store (it.data.getD []))).noLonger
    exact { n with storeBuffer := n.storeBuffer.trans (by simp [hs]) }

@[simp] theorem Windows.at_each (w : Windows) (g : List Nat → List Nat) (c : IClass) : (w.each g).at c = g (w.at c) := by
  cases c <;> rfl

theorem flush_noLonger (s : State) (b : Nat) : s.NoLonger (s.flush b) where
  cfg := rfl
  rob := List.length_filter_le _ _
  fetchBuffer := Nat.zero_le _
  decodeBuffer := List.length_filter_le _ _
  win c := by simp only [State.flush, Windows.at_each]; exact List.length_filter_le _ _
  loadBuffer := List.length_filter_le _ _
  storeBuffer := List.length_filter_le _ _

theorem windowDrop_noLonger (s : State) (c : IClass) (id : Nat) :
    s.NoLonger { s with win := s.win.put c ((s.win.at c).filter fun i => decide (i ≠ id)) } := by
  refine { State.NoLonger.refl s with win := fun c' => ?_ }
  rw [Windows.at_put]
  split
  · rename_i hc; rw [hc]; exact List.length_filter_le _ _
  · exact le_refl _

/-! ## The stages -/

theorem commit_withinCapacity (s : State) (h : s.WithinCapacity) : s.commit.WithinCapacity := by
  refine commit_inv (P := State.WithinCapacity) (fun _ _ h => h) (fun s h => ?_)
    (fun _ _ h => (commitRegister_noLonger _ _).withinCapacity h)
    (fun _ _ h => (commitStore_noLonger _ _).withinCapacity h) (fun s h => ?_) (fun s d h => ?_)
    (fun s d _ _ _ h => (flush_noLonger s d.id).withinCapacity h) s h
  · exact State.NoLonger.withinCapacity { State.NoLonger.refl s with rob := by simp [State.popHead] } h
  · exact State.NoLonger.withinCapacity { State.NoLonger.refl s with loadBuffer := by simp [State.commitLoad] } h
  · rw [trainTransfer_frame]; exact h

theorem unitTick_withinCapacity (s : State) (u : Nat) (h : s.WithinCapacity) : (s.unitTick u).WithinCapacity :=
  unitTick_inv (P := State.WithinCapacity) (fun _ _ _ h => h)
    (fun s _ _ h => (robUpdate_noLonger s _ _).withinCapacity h) (fun _ _ _ h => (writeSpec_noLonger _ _ _).withinCapacity h)
    (fun _ _ h => (robUpdate_noLonger _ _ _).withinCapacity h) (fun s _ _ _ h => (robUpdate_noLonger s _ _).withinCapacity h)
    (fun _ _ _ _ h => (robUpdate_noLonger _ _ _).withinCapacity h)
    (fun _ _ _ h => (loadUpdate_noLonger _ _ _).withinCapacity h)
    (fun _ _ _ _ _ _ h => (storeUpdate_noLonger _ _ _).withinCapacity h) s u h

theorem resolveLoad_withinCapacity (s : State) (it : LsItem) (h : s.WithinCapacity) : (s.resolveLoad it).WithinCapacity :=
  resolveLoad_inv (P := State.WithinCapacity) (fun _ _ _ h => (writeSpec_noLonger _ _ _).withinCapacity h)
    (fun _ _ h => (robUpdate_noLonger _ _ _).withinCapacity h) (fun _ _ _ h => (loadUpdate_noLonger _ _ _).withinCapacity h)
    (fun s _ _ _ h => (robUpdate_noLonger s _ _).withinCapacity h)
    (fun _ _ _ h => (access_frame _ _ _ _).noLonger.withinCapacity h) s it h

theorem issueOne_withinCapacity (s : State) (c : IClass) (id : Nat) (h : s.WithinCapacity) :
    (s.issueOne c id).WithinCapacity :=
  issueOne_inv (P := State.WithinCapacity) (fun _ _ _ h => (windowDrop_noLonger _ _ _).withinCapacity h)
    (fun s _ _ _ h => (robUpdate_noLonger s _ _).withinCapacity h)
    (fun _ _ _ h => (robUpdate_noLonger _ _ _).withinCapacity h) s c id h

/-- Dispatching an instruction that is not blocked fills places that were free (rule R241). -/
theorem dispatchOne_withinCapacity (s : State) (d : DynInst) (hfits : s.dispatchBlocked d = false) (h : s.WithinCapacity) :
    (s.dispatchOne d).WithinCapacity := by
  obtain ⟨frob, fwin, fload, fstore⟩ := (dispatchBlocked_eq_false_iff s d).mp hfits
  obtain ⟨hrob, hfetch, hdecode, hwin, hload, hstore⟩ := h
  refine ⟨?_, hfetch, hdecode, fun c => ?_, ?_, ?_⟩
  · simpa [State.dispatchOne] using frob
  · simp only [State.dispatchOne, Windows.at_put]
    split
    · simpa using fwin
    · exact hwin c
  · simp only [State.dispatchOne]
    split
    · rename_i hl; simpa using fload hl
    · exact hload
  · simp only [State.dispatchOne]
    split
    · rename_i hs; simpa using fstore hs
    · exact hstore

theorem dispatch_withinCapacity (s : State) (h : s.WithinCapacity) : s.dispatch.WithinCapacity :=
  dispatch_inv (P := State.WithinCapacity)
    (fun s _ hds h => State.NoLonger.withinCapacity { State.NoLonger.refl s with decodeBuffer := hds.length_le } h)
    dispatchOne_withinCapacity s h

/-- A group that fitted the fetch buffer fits the decode buffer (rules R34, R231). -/
theorem rename_withinCapacity (s : State) (h : s.WithinCapacity) : s.rename.WithinCapacity := by
  obtain ⟨hrob, hfetch, hdecode, hwin, hload, hstore⟩ := h
  rcases rename_moves s with e | ⟨-, hids, e⟩
  · rw [e]; exact ⟨hrob, hfetch, hdecode, hwin, hload, hstore⟩
  · have hlen : s.rename.decodeBuffer.length = s.fetchBuffer.length := by simpa using congrArg List.length hids
    rw [e]
    exact ⟨hrob, Nat.zero_le _, hlen.trans_le hfetch, hwin, hload, hstore⟩

/-- The fetch loop adds at most as many instructions as it has turns (rule R202). -/
theorem fetchLoop_length (n : Nat) : ∀ (followed : Nat) (s : State),
    (fetchLoop n followed s).fetchBuffer.length ≤ s.fetchBuffer.length + n := by
  induction n with
  | zero => exact fun _ _ => le_refl _
  | succ n ih =>
    intro followed s
    unfold fetchLoop
    split
    · omega
    · rename_i i _
      split
      · split
        · omega
        · have := ih (followed + 1) (s.fetchTransfer i)
          simp only [State.fetchTransfer, List.length_append, List.length_singleton] at this
          exact this.trans (by omega)
      · have := ih followed (s.fetchPlain i)
        simp only [State.fetchPlain, List.length_append, List.length_singleton] at this
        exact this.trans (by omega)

theorem fetch_length (s : State) (h : s.fetchBuffer.length ≤ s.cfg.fetchWidth) :
    s.fetch.fetchBuffer.length ≤ s.cfg.fetchWidth := by
  unfold State.fetch
  split
  · exact h
  · rename_i hempty
    split
    · exact h
    · have hlen := fetchLoop_length s.cfg.fetchWidth 0 s
      have hnil : s.fetchBuffer = [] := by simpa using hempty
      simpa [hnil] using hlen

theorem fetch_withinCapacity (s : State) (h : s.WithinCapacity) : s.fetch.WithinCapacity := by
  obtain ⟨hrob, hfetch, hdecode, hwin, hload, hstore⟩ := h
  have hlen := fetch_length s hfetch
  rw [fetch_frame]
  exact ⟨hrob, hlen, hdecode, hwin, hload, hstore⟩

/-- Settles O53: `stages_inv` over the stages above; an instruction in program order touches no structure. -/
theorem capacityIsKept : Obligations.CapacityIsKept := by
  unfold Obligations.CapacityIsKept
  have hstages := stages_inv (P := State.WithinCapacity) (fun _ h => h)
    (fun _ h => (memorySimulate_frame _).noLonger.withinCapacity h) commit_withinCapacity unitTick_withinCapacity
    resolveLoad_withinCapacity issueOne_withinCapacity dispatch_withinCapacity rename_withinCapacity
    fetch_withinCapacity (fun _ h => h)
  exact fun s t hs h => step_inv_of_archFrame hstages (fun _ h => h) (fun _ _ hf h => hf.noLonger.withinCapacity h) h hs

end Sys2Proof.Machine
end

section
/-! Ids stay unique and in program order (`10_state.md` rules R29, R45, R46 (b)). Up to stage 5 and in a flush the ids in
flight only become fewer, in the same order; dispatch and rename move an instruction from one latch to the end of the
next; fetch puts `nextId`, which is above all of them, at the end. -/

namespace Sys2Proof.Machine

/-- The ids are in order, and `nextId` has not gone back below `n`. -/
def State.IdsFrom (n : Nat) (s : State) : Prop := s.IdsOrdered ∧ n ≤ s.nextId

/-- Where no id is new and their order is kept, they stay in order. -/
theorem State.IdsFrom.of_sublist {n : Nat} {s t : State} (h : s.IdsFrom n) (hids : t.idsInFlight.Sublist s.idsInFlight)
    (hnext : t.nextId = s.nextId) : t.IdsFrom n := by
  obtain ⟨⟨hinc, hlt⟩, hn⟩ := h
  exact ⟨⟨hinc.sublist hids, fun id hid => hnext ▸ hlt id (hids.subset hid)⟩, hnext ▸ hn⟩

theorem State.IdsFrom.of_eq {n : Nat} {s t : State} (h : s.IdsFrom n) (hids : t.idsInFlight = s.idsInFlight)
    (hnext : t.nextId = s.nextId) : t.IdsFrom n := h.of_sublist (hids ▸ List.Sublist.refl _) hnext

theorem MemFrame.idsFrom {n : Nat} {s t : State} (hf : MemFrame s t) (h : s.IdsFrom n) : t.IdsFrom n :=
  h.of_eq (by simp only [State.idsInFlight, hf.rob, hf.decodeBuffer, hf.fetchBuffer]) hf.nextId

theorem ArchFrame.idsFrom {n : Nat} {s t : State} (hf : ArchFrame s t) (h : s.IdsFrom n) : t.IdsFrom n := by
  rw [hf]; exact h

/-! ## Stages 1 to 5 -/

/-- A change of an instruction of the reorder buffer that leaves its id leaves the ids in flight. -/
theorem robUpdate_idsInFlight (s : State) (id : Nat) {g : DynInst → DynInst} (hg : ∀ d, (g d).id = d.id) :
    (s.robUpdate id g).idsInFlight = s.idsInFlight := by
  have hid : ∀ d : DynInst, (if d.id = id then g d else d).id = d.id := fun d => by split <;> simp [hg]
  simp [State.idsInFlight, State.robUpdate, Function.comp_def, hid]

theorem robUpdate_idsFrom {n : Nat} {s : State} (id : Nat) {g : DynInst → DynInst} (hg : ∀ d, (g d).id = d.id)
    (h : s.IdsFrom n) : (s.robUpdate id g).IdsFrom n := h.of_eq (robUpdate_idsInFlight s id hg) rfl

theorem writeSpec_idsFrom {n : Nat} {s : State} (d : DynInst) (v : Container) (h : s.IdsFrom n) :
    (s.writeSpec d v).IdsFrom n := by
  unfold State.writeSpec
  split <;> exact h

theorem unitTick_idsFrom {n : Nat} (s : State) (u : Nat) (h : s.IdsFrom n) : (s.unitTick u).IdsFrom n :=
  unitTick_inv (P := State.IdsFrom n) (fun _ _ _ h => h) (fun _ _ _ h => robUpdate_idsFrom _ (fun _ => rfl) h)
    (fun _ _ _ h => writeSpec_idsFrom _ _ h) (fun _ _ h => robUpdate_idsFrom _ (fun _ => rfl) h)
    (fun _ _ _ _ h => robUpdate_idsFrom _ (fun _ => rfl) h) (fun _ _ _ _ h => robUpdate_idsFrom _ (fun _ => rfl) h)
    (fun _ _ _ h => h) (fun _ _ _ _ _ _ h => h) s u h

theorem resolveLoad_idsFrom {n : Nat} (s : State) (it : LsItem) (h : s.IdsFrom n) : (s.resolveLoad it).IdsFrom n :=
  resolveLoad_inv (P := State.IdsFrom n) (fun _ _ _ h => writeSpec_idsFrom _ _ h)
    (fun _ _ h => robUpdate_idsFrom _ (fun _ => rfl) h) (fun _ _ _ h => h)
    (fun _ _ _ _ h => robUpdate_idsFrom _ (fun _ => rfl) h) (fun _ _ _ h => (access_frame _ _ _ _).idsFrom h) s it h

theorem issueOne_idsFrom {n : Nat} (s : State) (c : IClass) (id : Nat) (h : s.IdsFrom n) : (s.issueOne c id).IdsFrom n :=
  issueOne_inv (P := State.IdsFrom n) (fun _ _ _ h => h) (fun _ _ _ _ h => robUpdate_idsFrom _ (fun _ => rfl) h)
    (fun _ _ _ h => robUpdate_idsFrom _ (fun _ => rfl) h) s c id h

theorem commitRegister_idsInFlight (s : State) (d : DynInst) : (s.commitRegister d).idsInFlight = s.idsInFlight := by
  rcases commitRegister_cases s d with e | ⟨k, r, -, -, e⟩ <;> rw [e]
  simp [State.idsInFlight, Function.comp_def, DynInst.retargetAll]

/-- A flush keeps the older instructions, in order (rule R342). -/
theorem flush_idsInFlight (s : State) (b : Nat) : (s.flush b).idsInFlight.Sublist s.idsInFlight :=
  ((List.filter_sublist.map _).append (List.filter_sublist.map _)).append (List.nil_sublist _)

theorem commit_idsFrom {n : Nat} (s : State) (h : s.IdsFrom n) : s.commit.IdsFrom n := by
  refine commit_inv (P := State.IdsFrom n) (fun _ _ h => h) (fun s h => ?_) (fun s d h => ?_) (fun s d h => ?_)
    (fun _ h => h) (fun s d h => ?_) (fun s d _ _ _ h => h.of_sublist (flush_idsInFlight s d.id) rfl) s h
  · exact h.of_sublist ((((List.tail_sublist _).map _).append (.refl _)).append (.refl _)) rfl
  · exact h.of_eq (commitRegister_idsInFlight s d) (by rw [commitRegister_frame])
  · rcases commitStore_cases s d with e | ⟨it, rest, -, e⟩ <;> rw [e]
    · exact h
    · exact (access_frame _ _ _ _).idsFrom h
  · rw [trainTransfer_frame]; exact h

/-! ## Stages 6 and 7 -/

/-- The dispatch loop over the rest of the decode buffer moves a part of it to the reorder buffer. -/
theorem dispatchLoop_idsInFlight (ds : List DynInst) : ∀ s : State,
    (dispatchLoop ds s).idsInFlight = s.rob.map (·.id) ++ ds.map (·.id) ++ s.fetchBuffer.map (·.id) := by
  induction ds with
  | nil => exact fun s => rfl
  | cons d ds ih =>
    intro s
    unfold dispatchLoop
    split
    · rfl
    · rw [ih]; simp [State.dispatchOne]

theorem rename_idsInFlight (s : State) : s.rename.idsInFlight = s.idsInFlight := by
  rcases rename_moves s with e | ⟨hempty, hids, e⟩ <;> rw [e]
  simp [State.idsInFlight, hids, hempty]

/-- One more instruction at the end of the fetch buffer, with the id `nextId`. -/
theorem State.IdsFrom.fetched {n : Nat} {s t : State} (h : s.IdsFrom n) (hids : t.idsInFlight = s.idsInFlight ++ [s.nextId])
    (hnext : t.nextId = s.nextId + 1) : t.IdsFrom n := by
  obtain ⟨⟨hinc, hlt⟩, hn⟩ := h
  refine ⟨⟨?_, ?_⟩, by omega⟩
  · rw [hids]
    exact List.pairwise_append.mpr ⟨hinc, List.pairwise_singleton _ _, by simpa using hlt⟩
  · intro id hid
    rw [hids, List.mem_append, List.mem_singleton] at hid
    rcases hid with hid | rfl
    · have := hlt id hid; omega
    · omega

theorem fetch_idsFrom {n : Nat} (s : State) (h : s.IdsFrom n) : s.fetch.IdsFrom n :=
  fetch_inv (P := State.IdsFrom n) (fun _ _ h => h)
    (fun s i h => h.fetched (by simp [State.idsInFlight, State.fetchPlain, DynInst.fetched]) rfl)
    (fun s i h => h.fetched (by simp [State.idsInFlight, State.fetchTransfer, DynInst.fetched]) rfl) s h

/-- Settles O54: `stages_inv` for "in order, and `nextId` not below where it began". -/
theorem idOrderIsKept : Obligations.IdOrderIsKept := by
  unfold Obligations.IdOrderIsKept
  intro s t hs h
  have hstages := stages_inv (P := State.IdsFrom s.nextId) (fun _ h => h)
    (fun _ h => (memorySimulate_frame _).idsFrom h) commit_idsFrom unitTick_idsFrom resolveLoad_idsFrom issueOne_idsFrom
    (fun s h => h.of_eq (dispatchLoop_idsInFlight _ s) (dispatch_frame s).nextId)
    (fun s h => h.of_eq (rename_idsInFlight s) (rename_frame s).nextId) fetch_idsFrom (fun _ h => h)
  exact step_inv_of_archFrame hstages (fun _ h => h) (fun _ _ hf h => hf.idsFrom h) h ⟨hs, le_refl _⟩

end Sys2Proof.Machine
end

section
/-! The cache stays coherent with its geometry and with main memory, and the stores in flight stay whole accesses
(`10_state.md` rules R40, R46 (g), (h), `52_issue_execute.md` rule R265). A replacement and an access within one line keep
the coherence (`Coherent.replace`, `Coherent.access`); that the stores are whole accesses keeps every access of a commit
within one line. -/

namespace Sys2Proof.Machine

/-- Coherence depends on `cfg`, `cache` and `mainMem` alone. -/
theorem State.CacheCoherent.congr {s t : State} (h : s.CacheCoherent) (hc : t.cfg = s.cfg) (hl : t.cache = s.cache)
    (hm : t.mainMem = s.mainMem) : t.CacheCoherent := by
  unfold State.CacheCoherent
  rw [hc, hl, hm]
  exact h

/-- What an operation makes of a coherent cache matters only where there is a cache. -/
theorem State.CacheCoherent.of_coherent {s t : State} (h : s.CacheCoherent) (hc : t.cfg = s.cfg)
    (hstep : Coherent s → Coherent t) : t.CacheCoherent :=
  fun hon => (hstep (h.coherent (hc ▸ hon))).cacheCoherent hon

/-- How many bytes an access is counted for does not matter to the cache and to main memory. -/
theorem access_size (s : State) (a n m : Nat) (req : Request) :
    (s.access a n req).1 = { (s.access a m req).1 with stats := (s.access a n req).1.stats } := by
  unfold State.access
  simp only
  split
  · split
    · split <;> rfl
    · rfl
  · rfl

/-- The invariant as a step keeps it: with the line size a valid configuration has (rule R8). -/
structure State.MemoryOk (s : State) : Prop where
  line : 4 ∣ s.cfg.cacheLineSize
  coherent : s.CacheCoherent
  stores : s.StoresWhole

/-- It is kept where parameters, cache and memory are the same, as they mostly are by definition, and no store is new. -/
theorem State.MemoryOk.congr {s t : State} (h : s.MemoryOk) (hc : t.cfg = s.cfg := by rfl)
    (hl : t.cache = s.cache := by rfl) (hm : t.mainMem = s.mainMem := by rfl)
    (hs : ∀ it ∈ t.storeBuffer, it ∈ s.storeBuffer := by exact fun _ hi => hi) : t.MemoryOk :=
  ⟨hc ▸ h.line, h.coherent.congr hc hl hm, fun it hit => h.stores it (hs it hit)⟩

/-- An operation of the memory hierarchy keeps it where it keeps the coherence. -/
theorem MemFrame.memoryOk {s t : State} (hf : MemFrame s t) (h : s.MemoryOk) (hstep : Coherent s → Coherent t) :
    t.MemoryOk :=
  ⟨hf.cfg ▸ h.line, h.coherent.of_coherent hf.cfg hstep, fun it hit => h.stores it (hf.storeBuffer ▸ hit)⟩

/-! ## The memory hierarchy -/

theorem replace_memoryOk {s : State} (h : s.MemoryOk) (la : Nat) : (s.replace la).MemoryOk :=
  (replace_frame s la).memoryOk h fun hco => (hco.replace hco.assoc_ne_zero la).1

theorem accessLoad_memoryOk {s : State} (h : s.MemoryOk) (a n : Nat) : (s.access a n .load).1.MemoryOk :=
  (access_frame s a n .load).memoryOk h fun hco => (hco.access hco.assoc_ne_zero a n .load (.inr rfl) nofun).1

/-- A whole access lies within one line (rule R303). -/
theorem LsItem.WholeAccess.within_line {it : LsItem} (h : it.WholeAccess) {L : Nat} (h4 : 4 ∣ L) (h0 : 0 < L) :
    (it.addr.getD 0).toNat % L + (it.data.getD []).length ≤ L := by
  rcases h with hnone | ⟨hsize, halign⟩
  · rw [hnone]; exact (Nat.mod_lt _ h0).le
  · exact Sys2Proof.Machine.within_line h4 h0 hsize halign

theorem commitStore_memoryOk {s : State} (h : s.MemoryOk) (d : DynInst) : (s.commitStore d).MemoryOk := by
  rcases commitStore_cases s d with e | ⟨it, rest, hs, e⟩ <;> rw [e]
  · exact h
  · have hpop : State.MemoryOk { s with storeBuffer := rest } :=
      h.congr (hs := fun i hi => hs ▸ List.mem_cons_of_mem it hi)
    have hwhole : it.WholeAccess := h.stores it (hs ▸ List.mem_cons_self)
    refine (access_frame _ _ _ _).memoryOk hpop fun hco => ?_
    rw [access_size _ _ _ (it.data.getD []).length]
    exact (hco.access hco.assoc_ne_zero _ _ _ (.inl (hwhole.within_line h.line hco.line))
      (fun data hd => by cases hd; rfl)).1.congr rfl rfl rfl

/-! ## The store buffer -/

/-- A store whose address and data a unit sets is a whole access, since it passed the checks (rules R180, R265). -/
theorem wholeAccess_of_accessFault {cfg : Cfg} {it : LsItem} {ea : Word} {data : List Byte}
    (hsize : data.length = 1 ∨ data.length = 2 ∨ data.length = 4) (hok : accessFault cfg ea data.length = none) :
    LsItem.WholeAccess { it with addr := some ea, data := some data } := by
  refine .inr ⟨hsize, ?_⟩
  by_contra hmis
  rw [accessFault_misaligned cfg ea data.length hmis] at hok
  cases hok

theorem storeUpdate_memoryOk {s : State} (h : s.MemoryOk) (id : Nat) {g : LsItem → LsItem} (hg : ∀ it, (g it).WholeAccess) :
    (s.storeUpdate id g).MemoryOk := by
  refine ⟨h.line, h.coherent.congr rfl rfl rfl, fun it hit => ?_⟩
  obtain ⟨it', hit', rfl⟩ := List.mem_map.mp hit
  split
  · exact hg it'
  · exact h.stores it' hit'

theorem writeSpec_memoryOk {s : State} (h : s.MemoryOk) (d : DynInst) (v : Container) : (s.writeSpec d v).MemoryOk := by
  unfold State.writeSpec
  split <;> exact h.congr

theorem dispatchOne_memoryOk {s : State} (h : s.MemoryOk) (d : DynInst) : (s.dispatchOne d).MemoryOk := by
  refine ⟨h.line, h.coherent.congr rfl rfl rfl, fun it hit => ?_⟩
  simp only [State.dispatchOne] at hit
  split at hit
  · rcases List.mem_append.mp hit with hit | hit
    · exact h.stores it hit
    · rw [List.mem_singleton.mp hit]; exact .inl rfl
  · exact h.stores it hit

/-! ## The stages -/

theorem commit_memoryOk (s : State) (h : s.MemoryOk) : s.commit.MemoryOk := by
  refine commit_inv (P := State.MemoryOk) (fun _ _ h => h.congr) (fun _ h => h.congr) (fun s d h => ?_)
    (fun _ d h => commitStore_memoryOk h d) (fun _ h => h.congr) (fun s d h => ?_)
    (fun _ _ _ _ _ h => h.congr (hs := fun _ hi => (List.mem_filter.mp hi).1)) s h
  · rw [commitRegister_frame]; exact h.congr
  · rw [trainTransfer_frame]; exact h.congr

theorem unitTick_memoryOk (s : State) (u : Nat) (h : s.MemoryOk) : (s.unitTick u).MemoryOk :=
  unitTick_inv (P := State.MemoryOk) (fun _ _ _ h => h.congr) (fun _ _ _ h => h.congr)
    (fun _ _ _ h => writeSpec_memoryOk h _ _) (fun _ _ h => h.congr) (fun _ _ _ _ h => h.congr)
    (fun _ _ _ _ h => h.congr) (fun _ _ _ h => h.congr)
    (fun _ _ _ _ hsize hok h => storeUpdate_memoryOk h _ fun _ => wholeAccess_of_accessFault hsize hok) s u h

theorem resolveLoad_memoryOk (s : State) (it : LsItem) (h : s.MemoryOk) : (s.resolveLoad it).MemoryOk :=
  resolveLoad_inv (P := State.MemoryOk) (fun _ _ _ h => writeSpec_memoryOk h _ _) (fun _ _ h => h.congr)
    (fun _ _ _ h => h.congr) (fun _ _ _ _ h => h.congr) (fun _ _ _ h => accessLoad_memoryOk h _ _) s it h

theorem issueOne_memoryOk (s : State) (c : IClass) (id : Nat) (h : s.MemoryOk) : (s.issueOne c id).MemoryOk :=
  issueOne_inv (P := State.MemoryOk) (fun _ _ _ h => h.congr) (fun _ _ _ _ h => h.congr) (fun _ _ _ h => h.congr)
    s c id h

theorem rename_memoryOk (s : State) (h : s.MemoryOk) : s.rename.MemoryOk := by
  rcases rename_moves s with e | ⟨-, -, e⟩ <;> rw [e]
  · exact h
  · exact h.congr

theorem fetch_memoryOk (s : State) (h : s.MemoryOk) : s.fetch.MemoryOk := by
  rw [fetch_frame s]
  exact h.congr

theorem stages_memoryOk (s : State) (h : s.MemoryOk) : s.stages.MemoryOk :=
  stages_inv (P := State.MemoryOk) (fun _ h => h.congr)
    (memorySimulate_inv (fun _ _ h => h.congr) fun _ la h => replace_memoryOk h la) commit_memoryOk unitTick_memoryOk
    resolveLoad_memoryOk issueOne_memoryOk
    (dispatch_inv (fun _ _ _ h => h.congr) fun _ d _ h => dispatchOne_memoryOk h d) rename_memoryOk fetch_memoryOk
    (fun _ h => h.congr) s h

/-! ## The architectural level -/

theorem ArchFrame.storeBuffer {s t : State} (h : ArchFrame s t) : t.storeBuffer = s.storeBuffer := by rw [h]
theorem ArchFrame.cfg {s t : State} (h : ArchFrame s t) : t.cfg = s.cfg := by rw [h]

/-- An instruction in program order writes memory only by a store into the memory view. -/
theorem perform_coherent {s : State} (h : s.CacheCoherent) (rd : Reg) (m : Meaning) : (s.perform rd m).CacheCoherent := by
  rcases perform_cases s rd m with ⟨k, e⟩ | ⟨v, e⟩ | ⟨taken, target, link, -, -, e⟩ | ⟨ea, data, -, e⟩
  · rw [e]; exact h.congr rfl rfl rfl
  · rw [e]; exact h.congr (by simp) (by simp) (by simp)
  · rw [e]
    cases link with
    | none => exact h.congr rfl rfl rfl
    | some v => exact h.congr (by simp) (by simp) (by simp)
  · refine h.of_coherent (perform_frame s rd m).cfg fun hco => ?_
    rw [e]; exact (hco.memWrite data ea.toNat).congr rfl rfl rfl

theorem performNamed_coherent {s : State} (h : s.CacheCoherent) (i : StaticIns) (n : String) :
    (s.performNamed i n).CacheCoherent := by
  rcases performNamed_cases s i n with ⟨k, e⟩ | e | ⟨r, v, tag, -, e⟩ <;> rw [e]
  · exact h.congr rfl rfl rfl
  · exact h.congr rfl rfl rfl
  · rw [writeReg_frame]; exact h.congr rfl rfl rfl

/-- A state after an instruction in program order that has kept the coherence. -/
theorem ArchFrame.memoryOk {s t : State} (hf : ArchFrame s t) (h : s.MemoryOk) (hco : t.CacheCoherent) : t.MemoryOk :=
  ⟨hf.cfg ▸ h.line, hco, fun it hit => h.stores it (hf.storeBuffer ▸ hit)⟩

/-- Settles O58: a state that steps is of a valid pair, whose line size is a multiple of 4 (`line_of_valid`), so
`MemoryOk` holds of it, and `step_inv` gives it for the next. -/
theorem cacheCoherenceIsKept : Obligations.CacheCoherenceIsKept := by
  unfold Obligations.CacheCoherenceIsKept
  intro s t hco hst h
  obtain ⟨hvalid, -⟩ := step_cases h
  have ht : t.MemoryOk := step_inv (P := State.MemoryOk) stages_memoryOk (fun _ h => h.congr)
    (fun _ _ _ h => (perform_frame _ _ _).memoryOk h (perform_coherent h.coherent _ _))
    (fun _ _ _ h => (performNamed_frame _ _ _).memoryOk h (performNamed_coherent h.coherent _ _)) h
    ⟨line_of_valid hvalid, hco, hst⟩
  exact ⟨ht.coherent, ht.stores⟩

end Sys2Proof.Machine
end

section
/-! `x0`, the free pool registers, the counters and the histories (`10_state.md` rules R25, R32, R42). Commit and the
architectural level alone write registers, and never the storage of `x0`; a pool register becomes free only by being set
to `SpecReg.freed`; training moves a counter within its type, and every history is made by a shift. -/

namespace Sys2Proof.Machine

/-! ## The storage of `x0` (rule R25) -/

@[simp] theorem writeX_get_zero (s : State) (r : Reg) (v : Word) : (s.writeX r v).x.get 0 = s.x.get 0 := by
  unfold State.writeX
  split
  · rfl
  · rename_i hr
    have hne : r.val ≠ 0 := fun e => hr (Fin.ext e)
    exact Vector.getElem_set_ne r.isLt (by omega) hne

theorem writeReg_get_zero (s : State) (r : ArchReg) (v : Container) (tag : Tag) :
    (s.writeReg r v tag).x.get 0 = s.x.get 0 := by
  unfold State.writeReg
  split
  · exact writeX_get_zero _ _ _
  · rfl

theorem commitRegister_get_zero (s : State) (d : DynInst) : (s.commitRegister d).x.get 0 = s.x.get 0 := by
  unfold State.commitRegister
  split
  · exact writeReg_get_zero _ _ _ _
  · rfl

theorem commit_get_zero {v : Word} (s : State) (h : s.x.get 0 = v) : s.commit.x.get 0 = v := by
  refine commit_inv (P := fun s => s.x.get 0 = v) (fun _ _ h => h) (fun _ h => h)
    (fun s d h => (commitRegister_get_zero s d).trans h) (fun s d h => ?_) (fun _ h => h) (fun s d h => ?_)
    (fun _ _ _ _ _ h => h) s h
  · rcases commitStore_cases s d with e | ⟨it, rest, -, e⟩ <;> rw [e]
    · exact h
    · rw [(access_frame _ _ _ _).x]; exact h
  · rw [trainTransfer_frame]; exact h

theorem stages_get_zero {v : Word} (s : State) (h : s.x.get 0 = v) : s.stages.x.get 0 = v := by
  rw [stages_eq, State.evalStop_x, (afterCommit_frame _).x]
  refine commit_get_zero _ ?_
  rw [(memorySimulate_frame _).x]
  exact h

theorem perform_get_zero (s : State) (rd : Reg) (m : Meaning) : (s.perform rd m).x.get 0 = s.x.get 0 := by
  rcases perform_cases s rd m with ⟨k, e⟩ | ⟨v, e⟩ | ⟨taken, target, link, -, -, e⟩ | ⟨ea, data, -, e⟩ <;> rw [e]
  · rfl
  · simp
  · cases link with
    | none => rfl
    | some v => simp
  · rw [State.memWrite_frame]; rfl

theorem performNamed_get_zero (s : State) (i : StaticIns) (n : String) : (s.performNamed i n).x.get 0 = s.x.get 0 := by
  rcases performNamed_cases s i n with ⟨k, e⟩ | e | ⟨r, v, tag, -, e⟩ <;> rw [e]
  · rfl
  · rfl
  · exact writeReg_get_zero s r v tag

/-! ## Free pool registers (rule R32) -/

/-- A free register of the pool holds 0. -/
def PoolOk (pool : List SpecReg) : Prop := ∀ p ∈ pool, p.state = .free → p.value = 0

theorem PoolOk.set {pool : List SpecReg} (h : PoolOk pool) (k : Nat) {q : SpecReg} (hq : q.state = .free → q.value = 0) :
    PoolOk (pool.set k q) := by
  intro p hp
  rcases List.mem_or_eq_of_mem_set hp with hp | rfl
  · exact h p hp
  · exact hq

theorem PoolOk.modify {pool : List SpecReg} (h : PoolOk pool) (k : Nat) {g : SpecReg → SpecReg}
    (hg : ∀ p, (g p).state ≠ .free) : PoolOk (pool.modify k g) := by
  intro p hp hfree
  obtain ⟨j, hj⟩ := List.mem_iff_getElem?.mp hp
  simp only [List.getElem?_modify, Option.map_eq_map, Option.map_eq_some_iff] at hj
  obtain ⟨q, hq, rfl⟩ := hj
  split at hfree
  · exact absurd hfree (hg q)
  · rename_i hne
    rw [if_neg hne]
    exact h q (List.mem_of_getElem? hq) hfree

theorem writeSpec_freeIsZero {s : State} (h : s.FreeIsZero) (d : DynInst) (v : Container) : (s.writeSpec d v).FreeIsZero := by
  unfold State.writeSpec
  split
  · exact PoolOk.modify h _ fun _ => nofun
  · exact h

theorem flush_freeIsZero {s : State} (h : s.FreeIsZero) (b : Nat) : (s.flush b).FreeIsZero :=
  foldl_inv (P := PoolOk) (fun _ _ h => h.set _ fun _ => rfl) _ _ h

theorem renameOne_freeIsZero {s : State} (h : s.FreeIsZero) (d : DynInst) : (s.renameOne d).FreeIsZero := by
  unfold State.renameOne
  simp only
  split
  · exact PoolOk.set h _ nofun
  · exact h

theorem commit_freeIsZero (s : State) (h : s.FreeIsZero) : s.commit.FreeIsZero := by
  refine commit_inv (P := State.FreeIsZero) (fun _ _ h => h) (fun _ h => h) (fun s d h => ?_) (fun s d h => ?_)
    (fun _ h => h) (fun s d h => ?_) (fun _ _ _ _ _ h => flush_freeIsZero h _) s h
  · rcases commitRegister_cases s d with e | ⟨k, r, -, -, e⟩ <;> rw [e]
    · exact h
    · exact PoolOk.set h k fun _ => rfl
  · rcases commitStore_cases s d with e | ⟨it, rest, -, e⟩ <;> rw [e]
    · exact h
    · unfold State.FreeIsZero; rw [(access_frame _ _ _ _).pool]; exact h
  · rw [trainTransfer_frame]; exact h

theorem unitTick_freeIsZero (s : State) (u : Nat) (h : s.FreeIsZero) : (s.unitTick u).FreeIsZero :=
  unitTick_inv (P := State.FreeIsZero) (fun _ _ _ h => h) (fun _ _ _ h => h) (fun _ _ _ h => writeSpec_freeIsZero h _ _)
    (fun _ _ h => h) (fun _ _ _ _ h => h) (fun _ _ _ _ h => h) (fun _ _ _ h => h) (fun _ _ _ _ _ _ h => h) s u h

theorem resolveLoad_freeIsZero (s : State) (it : LsItem) (h : s.FreeIsZero) : (s.resolveLoad it).FreeIsZero := by
  refine resolveLoad_inv (P := State.FreeIsZero) (fun _ _ _ h => writeSpec_freeIsZero h _ _) (fun _ _ h => h)
    (fun _ _ _ h => h) (fun _ _ _ _ h => h) (fun s a n h => ?_) s it h
  unfold State.FreeIsZero; rw [(access_frame _ _ _ _).pool]; exact h

theorem rename_freeIsZero (s : State) (h : s.FreeIsZero) : s.rename.FreeIsZero := by
  rcases rename_cases s with e | ⟨-, e⟩ <;> rw [e]
  · exact h
  · exact foldl_inv (P := State.FreeIsZero) (fun _ d h => renameOne_freeIsZero h d) _ _ h

theorem stages_freeIsZero (s : State) (h : s.FreeIsZero) : s.stages.FreeIsZero := by
  refine stages_inv (P := State.FreeIsZero) (fun _ h => h) (fun s h => ?_) commit_freeIsZero unitTick_freeIsZero
    resolveLoad_freeIsZero (issueOne_inv (fun _ _ _ h => h) (fun _ _ _ _ h => h) fun _ _ _ h => h)
    (dispatch_inv (fun _ _ _ h => h) fun _ _ _ h => h) rename_freeIsZero (fun s h => ?_) (fun _ h => h) s h
  · unfold State.FreeIsZero; rw [(memorySimulate_frame s).pool]; exact h
  · unfold State.FreeIsZero; rw [(fetch_frame s).pool]; exact h

/-! ## Counters and histories (rules R42, R212, R213) -/

/-- The greatest state of a counter (rule R213). -/
def counterMax : PredictorType → Nat
  | .twoBit => 3
  | .oneBit => 1
  | .zeroBit => 1

theorem State.countersLegal_iff (s : State) :
    s.CountersLegal ↔ ∀ c ∈ s.pht, c ≤ counterMax s.cfg.predictorType := by
  unfold State.CountersLegal counterMax
  cases s.cfg.predictorType <;> rfl

theorem counterUp_le (t : PredictorType) {c : Nat} (h : c ≤ counterMax t) : counterUp t c ≤ counterMax t := by
  cases t with
  | twoBit => exact Nat.min_le_left 3 (c + 1)
  | oneBit => exact le_refl 1
  | zeroBit => exact h

theorem counterDown_le (t : PredictorType) {c : Nat} (h : c ≤ counterMax t) : counterDown t c ≤ counterMax t := by
  cases t with
  | twoBit => exact (Nat.sub_le c 1).trans h
  | oneBit => exact Nat.zero_le 1
  | zeroBit => exact h

/-- A counter that is read is legal: one of the table, or 0 outside it. -/
theorem getD_counter_le {pht : List Nat} {m : Nat} (h : ∀ c ∈ pht, c ≤ m) (i : Nat) : pht.getD i 0 ≤ m := by
  rw [List.getD_eq_getElem?_getD]
  cases hi : pht[i]? with
  | none => exact Nat.zero_le m
  | some c => exact h c (List.mem_of_getElem? hi)

theorem train_countersLegal {s : State} (h : s.CountersLegal) (id : Nat) (P : Word) (taken : Bool) :
    (s.train id P taken).CountersLegal := by
  rw [State.countersLegal_iff] at h ⊢
  intro c hc
  rcases List.mem_or_eq_of_mem_set hc with hc | rfl
  · exact h c hc
  · have hread := getD_counter_le h (phtIndex s.cfg P (s.snapshotOf id))
    cases taken with
    | true => exact counterUp_le _ hread
    | false => exact counterDown_le _ hread

theorem trainTransfer_countersLegal {s : State} (h : s.CountersLegal) (d : DynInst) : (s.trainTransfer d).CountersLegal := by
  have htrain := train_countersLegal h d.id d.pc (d.actualTaken.getD false)
  unfold State.CountersLegal
  rw [trainTransfer_pht, trainTransfer_frame]
  exact htrain

/-- Shifting gives a history of `ghrBits` bits (rule R212). -/
theorem shiftHistory_lt (cfg : Cfg) (g : Nat) (b : Bool) : shiftHistory cfg g b < 2 ^ cfg.ghrBits :=
  Nat.mod_lt _ (Nat.two_pow_pos _)

/-- Counters and histories together: what fetch and commit read and write of the predictor. -/
structure State.PredictorOk (s : State) : Prop where
  counters : s.CountersLegal
  history : s.HistoryFits

/-- It is kept where parameters, counters and `ghr` are the same and no snapshot is new. -/
theorem State.PredictorOk.congr {s t : State} (h : s.PredictorOk) (hc : t.cfg = s.cfg := by rfl)
    (hpht : t.pht = s.pht := by rfl) (hghr : t.ghr = s.ghr := by rfl)
    (hsnap : ∀ e ∈ t.snapshots, e ∈ s.snapshots := by exact fun _ he => he) : t.PredictorOk := by
  obtain ⟨hcount, hg, hs⟩ := h
  refine ⟨?_, ?_, ?_⟩
  · unfold State.CountersLegal; rw [hc, hpht]; exact hcount
  · rw [hc, hghr]; exact hg
  · rw [hc]; exact fun e he => hs e (hsnap e he)

theorem MemFrame.predictorOk {s t : State} (hf : MemFrame s t) (h : s.PredictorOk) : t.PredictorOk := by
  rw [hf]; exact h.congr

theorem UnitFrame.predictorOk {s t : State} (hf : UnitFrame s t) (h : s.PredictorOk) : t.PredictorOk := by
  rw [hf]; exact h.congr

theorem FrontFrame.predictorOk {s t : State} (hf : FrontFrame s t) (h : s.PredictorOk) : t.PredictorOk := by
  rw [hf]; exact h.congr

theorem ArchFrame.predictorOk {s t : State} (hf : ArchFrame s t) (h : s.PredictorOk) : t.PredictorOk := by
  rw [hf]; exact h.congr

theorem trainTransfer_predictorOk {s : State} (h : s.PredictorOk) (d : DynInst) : (s.trainTransfer d).PredictorOk := by
  refine ⟨trainTransfer_countersLegal h.counters d, ?_⟩
  rw [trainTransfer_frame]
  exact ⟨h.history.1, fun e he => h.history.2 e (List.mem_filter.mp he).1⟩

theorem recover_predictorOk {s : State} (h : s.PredictorOk) (d : DynInst) (g : Nat) (taken : Bool) (target : Word) :
    (s.recover d g taken target).PredictorOk :=
  ⟨h.counters, shiftHistory_lt _ _ _, fun e he => h.history.2 e (List.mem_filter.mp he).1⟩

theorem commit_predictorOk (s : State) (h : s.PredictorOk) : s.commit.PredictorOk := by
  refine commit_inv (P := State.PredictorOk) (fun _ _ h => h.congr) (fun _ h => h.congr) (fun s d h => ?_)
    (fun s d h => ?_) (fun _ h => h.congr) (fun _ d h => trainTransfer_predictorOk h d)
    (fun _ d g taken target h => recover_predictorOk h d g taken target) s h
  · rw [commitRegister_frame]; exact h.congr
  · rcases commitStore_cases s d with e | ⟨it, rest, -, e⟩ <;> rw [e]
    · exact h
    · exact (access_frame _ _ _ _).predictorOk h.congr

/-- Fetching a transfer logs the history there is and shifts its prediction in (rules R205, R210). -/
theorem fetchTransfer_predictorOk {s : State} (h : s.PredictorOk) (i : StaticIns) : (s.fetchTransfer i).PredictorOk := by
  refine ⟨h.counters, shiftHistory_lt _ _ _, fun e he => ?_⟩
  rcases List.mem_append.mp he with he | he
  · exact h.history.2 e he
  · rw [List.mem_singleton.mp he]; exact h.history.1

theorem stages_predictorOk (s : State) (h : s.PredictorOk) : s.stages.PredictorOk :=
  stages_inv (P := State.PredictorOk) (fun _ h => h.congr) (fun _ h => (memorySimulate_frame _).predictorOk h)
    commit_predictorOk (fun _ _ h => (unitTick_frame _ _).predictorOk h)
    (resolveLoad_inv_of_unitFrame (fun _ _ hf h => hf.predictorOk h) fun _ _ _ h => (access_frame _ _ _ _).predictorOk h)
    (fun _ _ _ h => (issueOne_frame _ _ _).predictorOk h) (fun _ h => (dispatch_frame _).predictorOk h)
    (fun _ h => (rename_frame _).predictorOk h)
    (fetch_inv (fun _ _ h => h.congr) (fun _ _ h => h.congr) fun _ i h => fetchTransfer_predictorOk h i)
    (fun _ h => h.congr) s h

/-- Settles O57: four step inductions, one for each of the components above; `x0` reads as 0 by `State.readX`. -/
theorem rangesAreKept : Obligations.RangesAreKept := by
  unfold Obligations.RangesAreKept
  refine ⟨State.readX_zero, fun s t h => ?_, fun s t hfree h => ?_, fun s t hcount hhist h => ?_⟩
  · exact step_inv (P := fun u => u.x.get 0 = s.x.get 0) stages_get_zero (fun _ h => h)
      (fun _ _ _ h => (perform_get_zero _ _ _).trans h) (fun _ _ _ h => (performNamed_get_zero _ _ _).trans h) h rfl
  · exact step_inv_of_archFrame (P := State.FreeIsZero) stages_freeIsZero (fun _ h => h)
      (fun _ _ hf h => by rw [hf]; exact h) h hfree
  · obtain ⟨tcount, thist⟩ := step_inv_of_archFrame (P := State.PredictorOk) stages_predictorOk (fun _ h => h.congr)
      (fun _ _ hf h => hf.predictorOk h) h ⟨hcount, hhist⟩
    exact ⟨tcount, thist⟩

end Sys2Proof.Machine
end

section
/-! Only commit writes the registers and trains the predictor, and only the commit of a store writes memory (`10_state.md`
rule R25, `20_memory.md` rule R80, `50_fetch_predict.md` rule R215, `55_rob_commit.md` rule R335). Stages 3 to 7 write no
register and no predictor table (`afterCommit_frame`); of the statistics they move those of the cache alone, and they
leave the view of a coherent memory. -/

namespace Sys2Proof.Machine

/-! ## Stages 3 to 7 -/

/-- A predicate that sees nothing stages 3 and 5, 6 and 7 write needs only the memory access of stage 4. -/
theorem afterCommit_inv {P : State → Prop} (hunit : ∀ s t, UnitFrame s t → P s → P t)
    (hfront : ∀ s t, FrontFrame s t → P s → P t) (hfetch : ∀ s t, FetchFrame s t → P s → P t)
    (haccess : ∀ s a n, P s → P (s.access a n .load).1) (s : State) (h : P s) : P s.afterCommit := by
  have hlsq : ∀ s, P s → P s.resolveBuffers := fun s h => by
    unfold State.resolveBuffers State.resolveStores State.resolveLoads
    split <;> exact foldl_inv (resolveLoad_inv_of_unitFrame hunit haccess) _ _ h
  exact hfetch _ _ (fetch_frame _) (hfront _ _ (dispatch_rename_frame _) (hunit _ _ (issue_frame _)
    (hlsq _ (hunit _ _ (units_frame s) h))))

theorem replace_stats (s : State) (la : Nat) : (s.replace la).stats = s.stats := by
  unfold State.replace
  simp only
  split <;> rfl

/-- An access moves no count of commits, branches or flushes (rule R314). -/
theorem access_sameCommits (s : State) (a n : Nat) (req : Request) :
    s.stats.SameCommits (s.access a n req).1.stats :=
  access_inv (P := fun t => s.stats.SameCommits t.stats) (fun _ _ _ _ hst h => h.trans hst)
    (fun _ _ req h => by cases req <;> exact h) (fun _ _ _ _ h => h) (fun _ _ h => h)
    (fun t la h => by rw [replace_stats]; exact h) s a n req (.refl _)

theorem memorySimulate_stats (s : State) : s.memorySimulate.stats = s.stats :=
  memorySimulate_inv (P := fun t => t.stats = s.stats) (fun _ _ h => h) (fun _ _ h => (replace_stats _ _).trans h) s rfl

theorem afterCommit_sameCommits (s : State) : s.stats.SameCommits s.afterCommit.stats :=
  afterCommit_inv (P := fun t => s.stats.SameCommits t.stats) (fun _ _ hf h => hf.stats ▸ h) (fun _ _ hf h => hf.stats ▸ h)
    (fun _ _ hf h => hf.stats ▸ h) (fun _ _ _ h => h.trans (access_sameCommits _ _ _ _)) s (.refl _)

/-! ## A blocked head -/

/-- Where the head is not ready to commit, commit does nothing but take the head's exception (rules R332, R333). -/
theorem commit_blocked {s : State} (h : ∀ d, s.rob.head? = some d → d.busy = true ∨ d.exc ≠ none) :
    s.commit = s ∨ ∃ k, s.commit = s.takeException k := by
  unfold State.commit
  cases s.cfg.commitWidth with
  | zero => exact .inl rfl
  | succ n =>
    unfold commitLoop
    cases hrob : s.rob with
    | nil => exact .inl rfl
    | cons d ds =>
      simp only
      cases hexc : d.exc with
      | none =>
        have hbusy : d.busy = true := (h d (by rw [hrob]; rfl)).resolve_right (by simp [hexc])
        exact .inl (if_pos hbusy)
      | some k => split <;> simp

/-! ## What a commit does to memory -/

/-- Parameters, cache and main memory are the same. -/
structure State.SameMemory (s t : State) : Prop where
  cfg : t.cfg = s.cfg
  cache : t.cache = s.cache
  mainMem : t.mainMem = s.mainMem

theorem State.SameMemory.refl (s : State) : s.SameMemory s := ⟨rfl, rfl, rfl⟩

theorem State.SameMemory.trans {s t u : State} (h1 : s.SameMemory t) (h2 : t.SameMemory u) : s.SameMemory u :=
  ⟨h2.cfg.trans h1.cfg, h2.cache.trans h1.cache, h2.mainMem.trans h1.mainMem⟩

/-- The head counted and removed, with its register, its store and its load committed: a commit before what only a transfer
does (rule R334). -/
def State.commitHead (s : State) (d : DynInst) : State :=
  let r := s.popHead.commitRegister d
  let r := if isStore d.ins then r.commitStore d else r
  if isLoad d.ins then r.commitLoad else r

theorem commitOne_eq (s : State) (d : DynInst) :
    s.commitOne d = if isTransfer d.ins then (s.commitHead d).commitTransfer d else (s.commitHead d, false) := rfl

theorem commitStore_rob (s : State) (d : DynInst) : (s.commitStore d).rob = s.rob := by
  rcases commitStore_cases s d with e | ⟨it, rest, -, e⟩ <;> rw [e]
  rw [(access_frame _ _ _ _).rob]

theorem commitStore_committed (s : State) (d : DynInst) : (s.commitStore d).stats.committed = s.stats.committed := by
  rcases commitStore_cases s d with e | ⟨it, rest, -, e⟩ <;> rw [e]
  exact (access_sameCommits _ _ _ _).1

theorem commitHead_committed (s : State) (d : DynInst) : (s.commitHead d).stats.committed = s.stats.committed + 1 := by
  have hreg : (s.popHead.commitRegister d).stats.committed = s.stats.committed + 1 := by rw [commitRegister_frame]; rfl
  unfold State.commitHead
  simp only
  split <;> split <;> simp only [State.commitLoad, commitStore_committed, hreg]

/-- What stays in the reorder buffer are the instructions after the head; only their references change (rule R335). -/
theorem commitHead_ins (s : State) (d : DynInst) : (s.commitHead d).rob.map (·.ins) = s.rob.tail.map (·.ins) := by
  have hreg : (s.popHead.commitRegister d).rob.map (·.ins) = s.rob.tail.map (·.ins) := by
    rcases commitRegister_cases s.popHead d with e | ⟨k, r, -, -, e⟩ <;> rw [e]
    · rfl
    · simp [State.popHead, Function.comp_def, DynInst.retargetAll]
  unfold State.commitHead
  simp only
  split <;> split <;> simp only [State.commitLoad, commitStore_rob, hreg]

theorem commitHead_sameMemory (s : State) (d : DynInst) (h : isStore d.ins = false) : s.SameMemory (s.commitHead d) := by
  have hreg : s.SameMemory (s.popHead.commitRegister d) := by rw [commitRegister_frame]; exact ⟨rfl, rfl, rfl⟩
  unfold State.commitHead
  simp only [h, Bool.false_eq_true, if_false]
  split
  · exact hreg.trans ⟨rfl, rfl, rfl⟩
  · exact hreg

/-- What only a transfer does leaves memory and the count of commits, and the reorder buffer unless it stops commit. -/
theorem commitTransfer_leaves (s : State) (d : DynInst) :
    s.SameMemory (s.commitTransfer d).1 ∧ (s.commitTransfer d).1.stats.committed = s.stats.committed ∧
      ((s.commitTransfer d).2 = false → (s.commitTransfer d).1.rob = s.rob) := by
  rw [commitTransfer_eq, trainTransfer_frame]
  split
  · exact ⟨⟨rfl, rfl, rfl⟩, rfl, nofun⟩
  · exact ⟨⟨rfl, rfl, rfl⟩, rfl, fun _ => rfl⟩

/-- One commit: it is counted; an instruction that is no store leaves memory; where commit goes on, it goes on with the
instructions after the head (rules R332, R334). -/
theorem commitOne_leaves (s : State) (d : DynInst) :
    (s.commitOne d).1.stats.committed = s.stats.committed + 1 ∧
      (isStore d.ins = false → s.SameMemory (s.commitOne d).1) ∧
      ((s.commitOne d).2 = false → (s.commitOne d).1.rob.map (·.ins) = s.rob.tail.map (·.ins)) := by
  rw [commitOne_eq]
  split
  · obtain ⟨hmem, hcount, hrob⟩ := commitTransfer_leaves (s.commitHead d) d
    exact ⟨hcount.trans (commitHead_committed s d), fun h => (commitHead_sameMemory s d h).trans hmem,
      fun h => (congrArg (List.map _) (hrob h)).trans (commitHead_ins s d)⟩
  · exact ⟨commitHead_committed s d, commitHead_sameMemory s d, fun _ => commitHead_ins s d⟩

/-- The commit loop: where the instructions it commits are no stores, it leaves memory (rule R80). -/
theorem commitLoop_leaves (n : Nat) : ∀ s : State, ∃ k,
    (commitLoop n s).stats.committed = s.stats.committed + k ∧
      ((∀ i ∈ (s.rob.map (·.ins)).take k, isStore i = false) → s.SameMemory (commitLoop n s)) := by
  induction n with
  | zero => exact fun s => ⟨0, rfl, fun _ => .refl s⟩
  | succ n ih =>
    intro s
    unfold commitLoop
    cases hrob : s.rob with
    | nil => exact ⟨0, rfl, fun _ => .refl s⟩
    | cons d ds =>
      simp only
      split
      · exact ⟨0, rfl, fun _ => .refl s⟩
      · split
        · exact ⟨0, rfl, fun _ => ⟨rfl, rfl, rfl⟩⟩
        · obtain ⟨hcount, hmem, hnext⟩ := commitOne_leaves s d
          split
          · rename_i s' e
            rw [e] at hcount hmem
            exact ⟨1, hcount, fun h => hmem (h d.ins (by simp))⟩
          · rename_i s' e
            rw [e] at hcount hmem hnext
            obtain ⟨k, hk, hrest⟩ := ih s'
            refine ⟨k + 1, by rw [hk, hcount]; omega, fun h => ?_⟩
            refine (hmem (h d.ins (by simp))).trans (hrest fun i hi => h i ?_)
            rw [hnext rfl, hrob] at hi
            exact List.mem_cons_of_mem _ hi

theorem commit_leaves (s : State) : ∃ k, s.commit.stats.committed = s.stats.committed + k ∧
    ((∀ i ∈ (s.rob.map (·.ins)).take k, isStore i = false) → s.SameMemory s.commit) :=
  commitLoop_leaves s.cfg.commitWidth s

/-! ## The view of a coherent memory -/

/-- A coherent state with the same view as `s`. -/
structure State.KeepsView (s t : State) : Prop where
  coherent : t.CacheCoherent
  view : ∀ b, t.memView b = s.memView b

theorem State.KeepsView.sameMemory {s t u : State} (h : s.KeepsView t) (hm : t.SameMemory u) : s.KeepsView u :=
  ⟨h.coherent.congr hm.cfg hm.cache hm.mainMem, fun b => (State.memView_congr hm.cfg hm.cache hm.mainMem b).trans (h.view b)⟩

theorem memorySimulate_keepsView {s : State} (h : s.CacheCoherent) : s.KeepsView s.memorySimulate := by
  cases hc : s.cfg.useCache with
  | false =>
    have hid : s.memorySimulate = s := by unfold State.memorySimulate; rw [hc]; rfl
    rw [hid]; exact ⟨h, fun _ => rfl⟩
  | true =>
    obtain ⟨hco, hview⟩ := memorySimulate_inv (P := fun t => Coherent t ∧ ∀ b, t.memView b = s.memView b)
      (fun _ _ h => ⟨h.1.congr rfl rfl rfl, h.2⟩)
      (fun t la ⟨hco, hv⟩ => by
        obtain ⟨hco', hv'⟩ := hco.replace hco.assoc_ne_zero la
        exact ⟨hco', fun b => (hv' b).trans (hv b)⟩)
      s ⟨h.coherent hc, fun _ => rfl⟩
    exact ⟨hco.cacheCoherent, hview⟩

/-- A load's access leaves the view (rules R80, R309): with a cache by `Coherent.access`, without one it writes nothing. -/
theorem accessLoad_keepsView {s t : State} (h : s.KeepsView t) (a n : Nat) : s.KeepsView (t.access a n .load).1 := by
  cases hc : t.cfg.useCache with
  | false =>
    refine h.sameMemory ?_
    unfold State.access
    simp only [hc, Bool.false_eq_true, if_false]
    exact ⟨rfl, rfl, rfl⟩
  | true =>
    have hco := h.coherent.coherent hc
    obtain ⟨hco', hview, -⟩ := hco.access hco.assoc_ne_zero a n .load (.inr rfl) nofun
    exact ⟨hco'.cacheCoherent, fun b => (hview b).trans (h.view b)⟩

theorem afterCommit_keepsView {s t : State} (h : s.KeepsView t) : s.KeepsView t.afterCommit :=
  afterCommit_inv (P := s.KeepsView) (fun _ _ hf h => h.sameMemory ⟨hf.cfg, hf.cache, hf.mainMem⟩)
    (fun _ _ hf h => h.sameMemory ⟨hf.cfg, hf.cache, hf.mainMem⟩)
    (fun _ _ hf h => h.sameMemory ⟨hf.cfg, hf.cache, hf.mainMem⟩) (fun _ _ _ h => accessLoad_keepsView h _ _) t h

/-! ## The tick -/

/-- A step at the tick grain is a tick, or the state is terminal and frozen. -/
theorem step_tick_cases {s t : State} (hg : s.grain = .tick) (h : step s = .next t) : t = s ∨ t = s.stages := by
  obtain ⟨-, ⟨-, e⟩ | ⟨-, -, e⟩ | ⟨hi, -⟩⟩ := step_cases h
  · exact .inl e
  · exact .inr e
  · rw [hg] at hi; cases hi

/-- Stages 2 to 7 where commit finds no instruction ready at the head (rules R25, R215, R335). -/
theorem commit_afterCommit_blocked {s : State} (h : ∀ d, s.rob.head? = some d → d.busy = true ∨ d.exc ≠ none) :
    s.commit.afterCommit.x = s.x ∧ s.commit.afterCommit.f = s.f ∧ s.commit.afterCommit.pht = s.pht ∧
      s.commit.afterCommit.btb = s.btb ∧ s.stats.SameCommits s.commit.afterCommit.stats := by
  have hback : ∀ u : State, u.afterCommit.x = u.x ∧ u.afterCommit.f = u.f ∧ u.afterCommit.pht = u.pht ∧
      u.afterCommit.btb = u.btb ∧ u.stats.SameCommits u.afterCommit.stats := fun u =>
    have hf := afterCommit_frame u
    ⟨hf.x, hf.f, hf.pht, hf.btb, afterCommit_sameCommits u⟩
  rcases commit_blocked h with e | ⟨k, e⟩ <;> rw [e]
  · exact hback s
  · exact hback (s.takeException k)

theorem stages_blocked {s : State} (h : ∀ d, s.rob.head? = some d → d.busy = true ∨ d.exc ≠ none) :
    s.stages.x = s.x ∧ s.stages.f = s.f ∧ s.stages.pht = s.pht ∧ s.stages.btb = s.btb ∧
      s.stats.SameCommits s.stages.stats := by
  have hm := memorySimulate_frame s.startTick
  obtain ⟨hx, hf, hpht, hbtb, hstats⟩ :=
    commit_afterCommit_blocked (s := s.startTick.memorySimulate) (by rw [hm.rob]; exact h)
  have hsim : s.stats.SameCommits s.startTick.memorySimulate.stats := memorySimulate_stats s.startTick ▸ .refl _
  simp only [stages_eq, State.evalStop_x, State.evalStop_f, State.evalStop_pht, State.evalStop_btb, State.evalStop_stats]
  exact ⟨hx.trans hm.x, hf.trans hm.f, hpht.trans hm.pht, hbtb.trans hm.btb, hsim.trans hstats⟩

/-- Stages 2 to 7 of a tick that commits no store, from a coherent state that stage 1 left (rule R80). -/
theorem commit_afterCommit_keepsView {r s : State} (hkeep : r.KeepsView s) (hrob : s.rob = r.rob) (hst : s.stats = r.stats)
    (h : ∀ d ∈ r.rob.take (s.commit.afterCommit.stats.committed - r.stats.committed), isStore d.ins = false) :
    r.KeepsView s.commit.afterCommit := by
  obtain ⟨k, hk, hmem⟩ := commit_leaves s
  obtain ⟨hcount, -⟩ := afterCommit_sameCommits s.commit
  rw [hcount, hk, hst, Nat.add_sub_cancel_left] at h
  refine afterCommit_keepsView (hkeep.sameMemory (hmem ?_))
  rw [← List.map_take, hrob]
  exact List.forall_mem_map.mpr h

theorem stages_view {s : State} (hco : s.CacheCoherent)
    (h : ∀ d ∈ s.rob.take (s.stages.stats.committed - s.stats.committed), isStore d.ins = false) (b : Nat) :
    s.stages.memView b = s.memView b := by
  have hkeep : s.startTick.KeepsView s.startTick.memorySimulate := memorySimulate_keepsView hco
  rw [stages_eq] at h ⊢
  rw [State.evalStop_stats] at h
  rw [State.memView_congr (State.evalStop_cfg _) (State.evalStop_cache _) (State.evalStop_mainMem _)]
  exact (commit_afterCommit_keepsView hkeep (memorySimulate_frame _).rob (memorySimulate_stats _) h).view b

/-- Settles O48: a terminal state is frozen; of a tick the two halves are `stages_blocked` and `stages_view`. -/
theorem onlyCommitWrites : Obligations.OnlyCommitWrites := by
  unfold Obligations.OnlyCommitWrites
  refine ⟨fun s t hg hblocked h => ?_, fun s t hg hco h hnone b => ?_⟩
  · rcases step_tick_cases hg h with rfl | rfl
    · exact ⟨rfl, rfl, rfl, rfl, rfl, rfl, rfl, rfl⟩
    · exact stages_blocked hblocked
  · rcases step_tick_cases hg h with rfl | rfl
    · rfl
    · exact stages_view hco hnone b

end Sys2Proof.Machine
end

section
/-! Every invariant holds at reset (`10_state.md` rules R46, R47): the latches, windows and buffers are empty, and the
counters, the entry point and the geometry of the cache are legal because the pair is (`valid_iff`). -/

namespace Sys2Proof.Machine

variable (cfg : Cfg) (prog : Prog)

theorem init_withinCapacity : (State.init cfg prog).WithinCapacity := by
  refine ⟨Nat.zero_le _, Nat.zero_le _, Nat.zero_le _, fun c => ?_, Nat.zero_le _, Nat.zero_le _⟩
  cases c <;> exact Nat.zero_le _

theorem init_idsOrdered : (State.init cfg prog).IdsOrdered := ⟨List.Pairwise.nil, nofun⟩

theorem init_statsConsistent : (State.init cfg prog).StatsConsistent := ⟨le_refl 0, le_refl 0, le_refl 0, rfl⟩

theorem init_freeIsZero : (State.init cfg prog).FreeIsZero := by
  intro p hp _
  rw [List.eq_of_mem_replicate hp]
  rfl

theorem init_historyFits : (State.init cfg prog).HistoryFits := ⟨Nat.two_pow_pos _, nofun⟩

theorem init_storesWhole : (State.init cfg prog).StoresWhole := nofun

/-- `pc` is the entry address, nothing is in flight and the branch target buffer is empty. -/
theorem init_pcAligned {cfg : Cfg} {prog : Prog} (h : entryResolves cfg prog = true) : (State.init cfg prog).PcAligned := by
  refine ⟨entryAddress_aligned h, fun d hd => absurd hd List.not_mem_nil, fun e he b hb => ?_⟩
  rw [List.eq_of_mem_replicate he] at hb
  cases hb

theorem initialCounter_le : initialCounter cfg ≤ counterMax cfg.predictorType := by
  unfold initialCounter counterMax
  cases cfg.predictorType with
  | twoBit => cases h : cfg.predictorDefault <;> simp [twoBitState]
  | oneBit => simp only; split <;> decide
  | zeroBit => simp only; split <;> decide

theorem init_countersLegal : (State.init cfg prog).CountersLegal := by
  rw [State.countersLegal_iff]
  intro c hc
  rw [List.eq_of_mem_replicate hc]
  exact initialCounter_le cfg

theorem cacheSets_pos {cfg : Cfg} (h : LegalCfg cfg) : 0 < cacheSets cfg :=
  Nat.div_pos (Nat.le_of_dvd h.cacheLines (Nat.dvd_of_mod_eq_zero h.cacheLines_mod)) h.cacheAssoc

/-- Every line of the cache at reset is invalid and has its size and its set. -/
theorem init_cacheCoherent {cfg : Cfg} (prog : Prog) (h : LegalCfg cfg) : (State.init cfg prog).CacheCoherent := by
  intro hon
  have hcache : (State.init cfg prog).cache =
      (List.range (cacheSets cfg)).map fun i => List.replicate cfg.cacheAssoc (Line.empty cfg i) := if_pos hon
  obtain ⟨k, -, -, hline⟩ := h.cacheLineSize
  refine ⟨hline ▸ Nat.two_pow_pos k, cacheSets_pos h, by rw [hcache, List.length_map, List.length_range]; rfl,
    fun set ways hways => ?_⟩
  rw [hcache, List.getElem?_map, Option.map_eq_some_iff] at hways
  obtain ⟨i, hi, rfl⟩ := hways
  obtain ⟨-, rfl⟩ := List.getElem?_eq_some_iff.mp hi
  refine ⟨List.length_replicate, List.pairwise_replicate.mpr (.inr nofun), fun l hl => ?_⟩
  rw [List.eq_of_mem_replicate hl]
  exact ⟨List.length_replicate, List.getElem_range _, nofun, nofun⟩

/-- Settles O51: the lemmas above, and the reference configuration with no program passes every check. -/
theorem invariantsAtReset : Obligations.InvariantsAtReset := by
  unfold Obligations.InvariantsAtReset
  refine ⟨fun cfg prog h => ?_, by unfold Valid; decide, rfl⟩
  obtain ⟨hcfg, -, -, hentry, -, -⟩ := valid_iff.mp h
  exact ⟨initialMemory_wf prog.initMem, init_withinCapacity cfg prog, init_idsOrdered cfg prog,
    init_statsConsistent cfg prog, init_pcAligned hentry, init_freeIsZero cfg prog, init_countersLegal cfg prog,
    init_historyFits cfg prog, init_cacheCoherent prog hcfg, init_storesWhole cfg prog, rfl⟩

end Sys2Proof.Machine
end

section
/-! Data memory and the code space (`20_memory.md` rules R73, R85): an aligned word is written and read byte by byte, and no
step writes the program or another parameter of the run. -/

namespace Sys2Proof.Machine

/-! ## One instruction at the architectural level -/

/-- The one next state of `exec_eq` is where the outcome's property is asked. -/
theorem completes_exec_iff {i : Instr} {s : State} {P : State → Prop} :
    Completes (exec i s) P ↔ P (s.perform (operands i).1
      (insMeaning i s.pc (s.readX (operands i).2.1) (s.readX (operands i).2.2.1))) := by
  simp [Completes, exec_eq]

theorem Completes.imp {o : Host.Outcome State Fault Refusal} {P Q : State → Prop} (h : Completes o P)
    (hPQ : ∀ t, P t → Q t) : Completes o Q :=
  Exists.imp (fun t => And.imp_right (hPQ t)) h

/-- The effective address as the sum of integers the statements write (rule R180). -/
theorem effectiveAddress_eq_ofInt (a : Word) (imm : Int) : effectiveAddress a imm = BitVec.ofInt 32 (a.toInt + imm) := by
  rw [BitVec.ofInt_add, BitVec.ofInt_toInt]; rfl

/-- An aligned word does not wrap around the address space, so its bytes are at the addresses that follow. -/
theorem toNat_ofInt_add_of_aligned {z : Int} {i : Nat} (h4 : (BitVec.ofInt 32 z).toNat % 4 = 0) (hi : i < 4) :
    (BitVec.ofInt 32 (z + i)).toNat = (BitVec.ofInt 32 z).toNat + i := by
  simp only [BitVec.toNat_ofInt] at h4 ⊢
  omega

/-! ## The bytes of a word in memory (rule R73) -/

theorem getD_bytesOfWord (v : Word) {n k : Nat} (h : k < n) : (bytesOfWord v n).getD k 0 = v.extractLsb' (8 * k) 8 := by
  simp [bytesOfWord_eq, h]

/-- `sw` at an aligned address inside memory (rule R188). -/
theorem exec_sw_stored {s : State} {rs1 rs2 : Reg} {imm : Int} {ea : Nat}
    (hea : (effectiveAddress (s.readX rs1) imm).toNat = ea) (h4 : ea % 4 = 0) (hin : ea + 4 ≤ s.cfg.memSize) :
    Completes (exec (.sw rs1 rs2 imm) s) fun t => s.Stored t ea (bytesOfWord (s.readX rs2) 4) := by
  subst hea
  exact completes_exec_iff.mpr (perform_store s 0 _ _ (by rwa [length_bytesOfWord]) (by rwa [length_bytesOfWord]))

/-- `lbu` inside memory: a byte is never misaligned (rule R184). -/
theorem exec_lbu_wroteRegister {s : State} {rd rs1 : Reg} {imm : Int} {a : Nat}
    (ha : (effectiveAddress (s.readX rs1) imm).toNat = a) (hin : a < s.cfg.memSize) :
    Completes (exec (.lbu rd rs1 imm) s) fun t => s.WroteRegister t rd ((s.memView a).setWidth 32) (s.pc + 4) := by
  subst ha
  rw [← extendLoad_byte_unsigned]
  exact completes_exec_iff.mpr (perform_load s rd _ 1 false (Nat.mod_one _) hin)

/-- Settles O12: `sw` leaves the bytes of `rs2` in the view (`exec_sw_stored`), and `lbu` reads the one at its own address
(`exec_lbu_wroteRegister`), which is `i` above the word's because an aligned word does not wrap. -/
theorem wordStoreThenByteLoad : Obligations.WordStoreThenByteLoad := by
  unfold Obligations.WordStoreThenByteLoad
  intro s rd rs1 rs2 imm i hi _ _ hrd ea h4 hin
  refine (exec_sw_stored (rs2 := rs2) (by rw [effectiveAddress_eq_ofInt]) h4 hin).imp ?_
  rintro t ⟨hmem, hreg, -, -, hframe⟩
  have hcfg : t.cfg = s.cfg := by rw [hframe]
  have haddr : (effectiveAddress (t.readX rs1) (imm + i)).toNat = ea + i := by
    rw [hreg, effectiveAddress_eq_ofInt, ← Int.add_assoc, toNat_ofInt_add_of_aligned h4 hi]
  have hbyte : t.memView (ea + i) = (s.readX rs2).extractLsb' (8 * i) 8 := by
    rw [hmem, if_pos (by simp [hi]), Nat.add_sub_cancel_left, getD_bytesOfWord _ hi]
  refine (exec_lbu_wroteRegister haddr (by rw [hcfg]; omega)).imp ?_
  rintro u ⟨hread, -⟩
  rw [hread, if_pos ⟨rfl, hrd⟩, hbyte]

/-! ## The parameters of a run (rules R8, R85, R356) -/

/-- The parameters of the run in `t` are those in `s`. -/
structure State.SameParameters (s t : State) : Prop where
  cfg : t.cfg = s.cfg
  prog : t.prog = s.prog
  grain : t.grain = s.grain

theorem State.SameParameters.trans {s t u : State} (h1 : s.SameParameters t) (h2 : t.SameParameters u) :
    s.SameParameters u :=
  ⟨h2.cfg.trans h1.cfg, h2.prog.trans h1.prog, h2.grain.trans h1.grain⟩

theorem stages_sameParameters (s : State) : s.SameParameters s.stages :=
  have ⟨hcfg, hprog, hgrain, _⟩ := stages_params s
  ⟨hcfg, hprog, hgrain⟩

/-- No parameter is among what an instruction may write. -/
theorem ArchFrame.sameParameters {s t : State} (h : ArchFrame s t) : s.SameParameters t := by
  rw [h]; exact ⟨rfl, rfl, rfl⟩

/-- Settles O24: neither a tick, nor an instruction in program order, nor the stop reasons change a parameter. -/
theorem parametersNeverChange : Obligations.ParametersNeverChange := by
  unfold Obligations.ParametersNeverChange
  intro s t h
  obtain ⟨hcfg, hprog, hgrain⟩ : s.SameParameters t :=
    step_inv_of_archFrame (fun r hr => hr.trans (stages_sameParameters r)) (fun _ hr => ⟨hr.cfg, hr.prog, hr.grain⟩)
      (fun _ _ hframe hr => hr.trans hframe.sameParameters) h ⟨rfl, rfl, rfl⟩
  exact ⟨hcfg, hprog, hgrain⟩

end Sys2Proof.Machine
end

section
/-! The binary image (`30_encoding.md` rules R104 to R116). A format's range of immediates is what its bits can hold, so a
valid immediate is written as its bits (`immIOk_iff` and its like) and an image as six fields (`encodeI_immOfI` and its
like); both directions of the round trip, the places of the fields and the refused words then speak of fields only. -/

namespace Sys2Proof.Machine

/-! ## The ranges of the immediates are what their bits can hold (rules R104, R108 to R112) -/

theorem exists_toInt_iff {n : Nat} {imm : Int} (hn : 0 < n) :
    (∃ v : BitVec n, imm = v.toInt) ↔ -2 ^ (n - 1) ≤ imm ∧ imm < 2 ^ (n - 1) := by
  constructor
  · rintro ⟨v, rfl⟩
    exact ⟨BitVec.le_toInt v, BitVec.toInt_lt⟩
  · rintro ⟨hge, hlt⟩
    exact ⟨BitVec.ofInt n imm, (BitVec.toInt_ofInt_eq_self hn hge hlt).symm⟩

theorem exists_toNat_iff {n : Nat} {imm : Int} : (∃ v : BitVec n, imm = v.toNat) ↔ 0 ≤ imm ∧ imm < 2 ^ n := by
  constructor
  · rintro ⟨v, rfl⟩
    exact ⟨Int.natCast_nonneg _, by exact_mod_cast v.isLt⟩
  · rintro ⟨hge, hlt⟩
    refine ⟨BitVec.ofInt n imm, ?_⟩
    rw [BitVec.toNat_ofInt, Int.toNat_of_nonneg (Int.emod_nonneg _ (by positivity)), Int.emod_eq_of_lt hge]
    exact_mod_cast hlt

/-- An offset with a zero bit below its `n` bits is twice what they hold (rules R110, R112). -/
theorem exists_toInt_append_zero_iff {n : Nat} {imm : Int} (hn : 0 < n) :
    (∃ v : BitVec n, imm = (v ++ 0#1).toInt) ↔ -2 ^ n ≤ imm ∧ imm < 2 ^ n ∧ imm % 2 = 0 := by
  have hpow : (2 : Int) ^ n = 2 * 2 ^ (n - 1) := by rw [← Int.pow_succ', Nat.sub_one_add_one_eq_of_pos hn]
  simp only [BitVec.toInt_append_zero, hpow]
  constructor
  · rintro ⟨v, rfl⟩
    have := (exists_toInt_iff hn).mp ⟨v, rfl⟩
    omega
  · rintro ⟨hge, hlt, heven⟩
    obtain ⟨v, hv⟩ := (exists_toInt_iff (imm := imm / 2) hn).mpr (by omega)
    exact ⟨v, by omega⟩

theorem immIOk_iff {imm : Int} : immIOk imm = true ↔ ∃ hi lo, imm = immOfI hi lo := by
  have hbits : (∃ hi lo, imm = immOfI hi lo) ↔ ∃ v : BitVec 12, imm = v.toInt := by
    constructor
    · rintro ⟨hi, lo, h⟩
      exact ⟨_, h⟩
    · rintro ⟨v, rfl⟩
      exact ⟨v.extractLsb' 5 7, v.extractLsb' 0 5, by rw [immOfI, BitVec.extractLsb'_append_extractLsb']⟩
  rw [hbits, exists_toInt_iff (by decide)]
  simp only [immIOk, decide_eq_true_eq]
  omega

/-- Format `S` joins the same two fields as format `I`; only their places differ (rules R108, R109). -/
theorem immIOk_iff_immOfS {imm : Int} : immIOk imm = true ↔ ∃ hi lo, imm = immOfS hi lo := immIOk_iff

theorem shamtOk_iff {imm : Int} : shamtOk imm = true ↔ ∃ lo, imm = immOfSH lo := by
  unfold immOfSH
  rw [exists_toNat_iff]
  simp only [shamtOk, decide_eq_true_eq]
  omega

theorem immUOk_iff {imm : Int} : immUOk imm = true ↔ ∃ hi m a f3, imm = immOfU hi m a f3 := by
  have hbits : (∃ hi m a f3, imm = immOfU hi m a f3) ↔ ∃ v : BitVec 20, imm = v.toNat := by
    constructor
    · rintro ⟨hi, m, a, f3, h⟩
      exact ⟨_, h⟩
    · rintro ⟨v, rfl⟩
      refine ⟨v.extractLsb' 13 7, v.extractLsb' 8 5, v.extractLsb' 3 5, v.extractLsb' 0 3, ?_⟩
      unfold immOfU
      congr 2
      ext k hk
      simp
      grind
  rw [hbits, exists_toNat_iff]
  simp only [immUOk, decide_eq_true_eq]
  omega

theorem immBOk_iff {imm : Int} : immBOk imm = true ↔ ∃ hi lo, imm = immOfB hi lo := by
  have hbits : (∃ hi lo, imm = immOfB hi lo) ↔ ∃ v : BitVec 12, imm = (v ++ 0#1).toInt := by
    constructor
    · rintro ⟨hi, lo, h⟩
      exact ⟨_, h⟩
    · rintro ⟨v, rfl⟩
      refine ⟨v.extractLsb' 11 1 ++ v.extractLsb' 4 6, v.extractLsb' 0 4 ++ v.extractLsb' 10 1, ?_⟩
      unfold immOfB
      congr 2
      ext k hk
      simp
      grind
  rw [hbits, exists_toInt_append_zero_iff (by decide)]
  simp only [immBOk, decide_eq_true_eq]
  omega

theorem immJOk_iff {imm : Int} : immJOk imm = true ↔ ∃ hi m a f3, imm = immOfJ hi m a f3 := by
  have hbits : (∃ hi m a f3, imm = immOfJ hi m a f3) ↔ ∃ v : BitVec 20, imm = (v ++ 0#1).toInt := by
    constructor
    · rintro ⟨hi, m, a, f3, h⟩
      exact ⟨_, h⟩
    · rintro ⟨v, rfl⟩
      refine ⟨v.extractLsb' 19 1 ++ v.extractLsb' 4 6, v.extractLsb' 0 4 ++ v.extractLsb' 10 1, v.extractLsb' 14 5,
        v.extractLsb' 11 3, ?_⟩
      unfold immOfJ
      congr 2
      ext k hk
      simp
      grind
  rw [hbits, exists_toInt_append_zero_iff (by decide)]
  simp only [immJOk, decide_eq_true_eq]
  omega

/-! ## The image of an instruction whose immediate is given by its bits -/

theorem encodeI_immOfI (f3 : BitVec 3) (op : BitVec 7) (rd rs1 : Reg) (hi : BitVec 7) (lo : BitVec 5) :
    encodeI f3 op rd rs1 (immOfI hi lo) = pack hi lo (regBits rs1) f3 (regBits rd) op := by
  simp only [encodeI, immOfI, BitVec.ofInt_toInt, BitVec.extractLsb'_append_eq_left, BitVec.extractLsb'_append_eq_right]

theorem encodeSH_immOfSH (f7 : BitVec 7) (f3 : BitVec 3) (op : BitVec 7) (rd rs1 : Reg) (lo : BitVec 5) :
    encodeSH f7 f3 op rd rs1 (immOfSH lo) = pack f7 lo (regBits rs1) f3 (regBits rd) op := by
  simp only [encodeSH, immOfSH, BitVec.ofInt_natCast, BitVec.ofNat_toNat, BitVec.setWidth_eq]

theorem encodeS_immOfS (f3 : BitVec 3) (op : BitVec 7) (rs1 rs2 : Reg) (hi : BitVec 7) (lo : BitVec 5) :
    encodeS f3 op rs1 rs2 (immOfS hi lo) = pack hi (regBits rs2) (regBits rs1) f3 lo op := by
  simp only [encodeS, immOfS, BitVec.ofInt_toInt, BitVec.extractLsb'_append_eq_left, BitVec.extractLsb'_append_eq_right]

theorem encodeB_immOfB (f3 : BitVec 3) (op : BitVec 7) (rs1 rs2 : Reg) (hi : BitVec 7) (lo : BitVec 5) :
    encodeB f3 op rs1 rs2 (immOfB hi lo) = pack hi (regBits rs2) (regBits rs1) f3 lo op := by
  simp only [encodeB, immOfB, BitVec.ofInt_toInt]
  congr 1
  all_goals
    refine BitVec.eq_of_getLsbD_eq fun k hk => ?_
    simp
    grind

theorem encodeU_immOfU (op : BitVec 7) (rd : Reg) (hi : BitVec 7) (m a : BitVec 5) (f3 : BitVec 3) :
    encodeU op rd (immOfU hi m a f3) = pack hi m a f3 (regBits rd) op := by
  simp only [encodeU, immOfU, BitVec.ofInt_natCast, BitVec.ofNat_toNat, BitVec.setWidth_eq]
  congr 1
  all_goals
    refine BitVec.eq_of_getLsbD_eq fun k hk => ?_
    simp
    grind

theorem encodeJ_immOfJ (op : BitVec 7) (rd : Reg) (hi : BitVec 7) (m a : BitVec 5) (f3 : BitVec 3) :
    encodeJ op rd (immOfJ hi m a f3) = pack hi m a f3 (regBits rd) op := by
  simp only [encodeJ, immOfJ, BitVec.ofInt_toInt]
  congr 1
  all_goals
    refine BitVec.eq_of_getLsbD_eq fun k hk => ?_
    simp
    grind

/-! ## The opcode map, opcode by opcode (rule R113) -/

section
variable (hi : BitVec 7) (m a : BitVec 5) (f3 : BitVec 3) (d : BitVec 5)

theorem decodeFields_jalr : decodeFields hi m a f3 d 0b1100111#7 =
    if f3 = 0b000#3 then .instr (.jalr (regOf d) (regOf a) (immOfI hi m)) else .refused .jalrFunct3 := rfl

theorem decodeFields_branch : decodeFields hi m a f3 d 0b1100011#7 = decodeBranch hi m a f3 d := rfl

theorem decodeFields_load : decodeFields hi m a f3 d 0b0000011#7 = decodeLoad hi m a f3 d := rfl

theorem decodeFields_store : decodeFields hi m a f3 d 0b0100011#7 = decodeStore hi m a f3 d := rfl

theorem decodeFields_opImm : decodeFields hi m a f3 d 0b0010011#7 = decodeOpImm hi m a f3 d := rfl

theorem decodeFields_op : decodeFields hi m a f3 d 0b0110011#7 = decodeOp hi m a f3 d := rfl

theorem decodeOp_alt : decodeOp 0b0100000#7 m a f3 d = decodeOpAlt m a f3 d := rfl

end

/-! ## Decode of encode -/

/-- By format: a valid immediate is its bits, the image is then a packed word, and the decoder reads the fields back. -/
theorem decodeWord_encode {i : Instr} (h : i.wf = true) : decodeWord (encode i) = .instr i := by
  cases i with
  | add | sub | sll | slt | sltu | xor | srl | sra | or | and | mul | mulh | mulhsu | mulhu | div | divu | rem | remu =>
    rw [encode, encodeR, decodeWord_pack, decodeFields_op]; rfl
  | addi _ _ imm | slti _ _ imm | sltiu _ _ imm | xori _ _ imm | ori _ _ imm | andi _ _ imm =>
    obtain ⟨hi, lo, rfl⟩ := immIOk_iff.mp h
    rw [encode, encodeI_immOfI, decodeWord_pack, decodeFields_opImm]; rfl
  | jalr _ _ imm =>
    obtain ⟨hi, lo, rfl⟩ := immIOk_iff.mp h
    rw [encode, encodeI_immOfI, decodeWord_pack, decodeFields_jalr]; rfl
  | lb _ _ imm | lh _ _ imm | lw _ _ imm | lbu _ _ imm | lhu _ _ imm =>
    obtain ⟨hi, lo, rfl⟩ := immIOk_iff.mp h
    rw [encode, encodeI_immOfI, decodeWord_pack, decodeFields_load]; rfl
  | slli _ _ imm | srli _ _ imm | srai _ _ imm =>
    obtain ⟨lo, rfl⟩ := shamtOk_iff.mp h
    rw [encode, encodeSH_immOfSH, decodeWord_pack, decodeFields_opImm]; rfl
  | sb _ _ imm | sh _ _ imm | sw _ _ imm =>
    obtain ⟨hi, lo, rfl⟩ := immIOk_iff_immOfS.mp h
    rw [encode, encodeS_immOfS, decodeWord_pack, decodeFields_store]; rfl
  | beq _ _ imm | bne _ _ imm | blt _ _ imm | bge _ _ imm | bltu _ _ imm | bgeu _ _ imm =>
    obtain ⟨hi, lo, rfl⟩ := immBOk_iff.mp h
    rw [encode, encodeB_immOfB, decodeWord_pack, decodeFields_branch]; rfl
  | lui _ imm | auipc _ imm =>
    obtain ⟨hi, m, a, f3, rfl⟩ := immUOk_iff.mp h
    rw [encode, encodeU_immOfU, decodeWord_pack]; rfl
  | jal _ imm =>
    obtain ⟨hi, m, a, f3, rfl⟩ := immJOk_iff.mp h
    rw [encode, encodeJ_immOfJ, decodeWord_pack]; rfl

/-- The range that makes an instruction valid is its format's, the one validation checks for a row of `FP_TABLE` too. -/
theorem wf_eq_formatImmOk (i : Instr) : i.wf = formatImmOk (format i) (operands i).2.2.2 := by
  cases i <;> rfl

theorem imm_of_format_R {i : Instr} (h : format i = .R) : (operands i).2.2.2 = 0 := by
  cases i with
  | add | sub | sll | slt | sltu | xor | srl | sra | or | and | mul | mulh | mulhsu | mulhu | div | divu | rem | remu => rfl
  | _ => cases h

/-- Settles O14: the ranges are those of `formatImmOk`, where format `R` asks for the 0 it always has, and the round trip is
`decodeWord_encode`. -/
theorem everyValidInstructionHasAnImage : Obligations.EveryValidInstructionHasAnImage := by
  unfold Obligations.EveryValidInstructionHasAnImage
  intro i
  refine ⟨?_, decodeWord_encode⟩
  rw [wf_eq_formatImmOk, formatImmOk_iff]
  cases hf : format i with
  | R => exact iff_true_intro (imm_of_format_R hf)
  | I | IL | S | SH | U | B | J => exact Iff.rfl

/-! ## Encode of decode -/

/-- The operands a format reads from the fields of a word; an absent one is 0 (rules R101, R107 to R112). -/
def fieldOperands (f : Format) (hi : BitVec 7) (m a : BitVec 5) (f3 : BitVec 3) (d : BitVec 5) : Reg × Reg × Reg × Int :=
  match f with
  | .R => (regOf d, regOf a, regOf m, 0)
  | .I => (regOf d, regOf a, 0, immOfI hi m)
  | .IL => (regOf d, regOf a, 0, immOfI hi m)
  | .SH => (regOf d, regOf a, 0, immOfSH m)
  | .S => (0, regOf a, regOf m, immOfS hi d)
  | .B => (0, regOf a, regOf m, immOfB hi d)
  | .U => (regOf d, 0, 0, immOfU hi m a f3)
  | .J => (regOf d, 0, 0, immOfJ hi m a f3)

/-- If the decoder's answer to the six fields is an instruction, its operands are those its format reads from them and its
image is the word with these fields. -/
def StandsFor (hi : BitVec 7) (m a : BitVec 5) (f3 : BitVec 3) (d : BitVec 5) (op : BitVec 7) : Decoded → Prop
  | .instr i => operands i = fieldOperands (format i) hi m a f3 d ∧ encode i = pack hi m a f3 d op
  | .refused _ => True

/-- The eight values of `funct3`, in the order of the opcode map's rows. -/
theorem forall_funct3 {P : BitVec 3 → Prop} (h0 : P 0b000#3) (h1 : P 0b001#3) (h2 : P 0b010#3) (h3 : P 0b011#3)
    (h4 : P 0b100#3) (h5 : P 0b101#3) (h6 : P 0b110#3) (h7 : P 0b111#3) (f3 : BitVec 3) : P f3 := by
  have hcases : ∀ b : BitVec 3, b = 0b000#3 ∨ b = 0b001#3 ∨ b = 0b010#3 ∨ b = 0b011#3 ∨ b = 0b100#3 ∨ b = 0b101#3 ∨
      b = 0b110#3 ∨ b = 0b111#3 := by decide
  obtain rfl | rfl | rfl | rfl | rfl | rfl | rfl | rfl := hcases f3 <;> assumption

section
variable (hi : BitVec 7) (m a : BitVec 5) (f3 : BitVec 3) (d : BitVec 5) (op : BitVec 7)

theorem decodeBranch_standsFor : StandsFor hi m a f3 d 0b1100011#7 (decodeBranch hi m a f3 d) := by
  have hB : ∀ b : BitVec 3, encodeB b 0b1100011#7 (regOf a) (regOf m) (immOfB hi d) = pack hi m a b d 0b1100011#7 :=
    fun b => encodeB_immOfB b _ _ _ hi d
  revert f3
  exact forall_funct3 ⟨rfl, hB _⟩ ⟨rfl, hB _⟩ trivial trivial ⟨rfl, hB _⟩ ⟨rfl, hB _⟩ ⟨rfl, hB _⟩ ⟨rfl, hB _⟩

theorem decodeLoad_standsFor : StandsFor hi m a f3 d 0b0000011#7 (decodeLoad hi m a f3 d) := by
  have hI : ∀ b : BitVec 3, encodeI b 0b0000011#7 (regOf d) (regOf a) (immOfI hi m) = pack hi m a b d 0b0000011#7 :=
    fun b => encodeI_immOfI b _ _ _ hi m
  revert f3
  exact forall_funct3 ⟨rfl, hI _⟩ ⟨rfl, hI _⟩ ⟨rfl, hI _⟩ trivial ⟨rfl, hI _⟩ ⟨rfl, hI _⟩ trivial trivial

theorem decodeStore_standsFor : StandsFor hi m a f3 d 0b0100011#7 (decodeStore hi m a f3 d) := by
  have hS : ∀ b : BitVec 3, encodeS b 0b0100011#7 (regOf a) (regOf m) (immOfS hi d) = pack hi m a b d 0b0100011#7 :=
    fun b => encodeS_immOfS b _ _ _ hi d
  revert f3
  exact forall_funct3 ⟨rfl, hS _⟩ ⟨rfl, hS _⟩ ⟨rfl, hS _⟩ trivial trivial trivial trivial trivial

theorem decodeOpImm_standsFor : StandsFor hi m a f3 d 0b0010011#7 (decodeOpImm hi m a f3 d) := by
  have hI : ∀ b : BitVec 3, encodeI b 0b0010011#7 (regOf d) (regOf a) (immOfI hi m) = pack hi m a b d 0b0010011#7 :=
    fun b => encodeI_immOfI b _ _ _ hi m
  have hSH : ∀ (b7 : BitVec 7) (b : BitVec 3),
      encodeSH b7 b 0b0010011#7 (regOf d) (regOf a) (immOfSH m) = pack b7 m a b d 0b0010011#7 :=
    fun b7 b => encodeSH_immOfSH b7 b _ _ _ m
  have hleft : StandsFor hi m a 0b001#3 d 0b0010011#7 (decodeOpImm hi m a 0b001#3 d) := by
    simp only [decodeOpImm]
    split
    · subst hi; exact ⟨rfl, hSH _ _⟩
    · trivial
  have hright : StandsFor hi m a 0b101#3 d 0b0010011#7 (decodeOpImm hi m a 0b101#3 d) := by
    simp only [decodeOpImm]
    split_ifs
    · subst hi; exact ⟨rfl, hSH _ _⟩
    · subst hi; exact ⟨rfl, hSH _ _⟩
    · trivial
  revert f3
  exact forall_funct3 ⟨rfl, hI _⟩ hleft ⟨rfl, hI _⟩ ⟨rfl, hI _⟩ ⟨rfl, hI _⟩ hright ⟨rfl, hI _⟩ ⟨rfl, hI _⟩

theorem decodeOpBase_standsFor : StandsFor 0b0000000#7 m a f3 d 0b0110011#7 (decodeOpBase m a f3 d) := by
  revert f3
  exact forall_funct3 ⟨rfl, rfl⟩ ⟨rfl, rfl⟩ ⟨rfl, rfl⟩ ⟨rfl, rfl⟩ ⟨rfl, rfl⟩ ⟨rfl, rfl⟩ ⟨rfl, rfl⟩ ⟨rfl, rfl⟩

theorem decodeOpAlt_standsFor : StandsFor 0b0100000#7 m a f3 d 0b0110011#7 (decodeOpAlt m a f3 d) := by
  revert f3
  exact forall_funct3 ⟨rfl, rfl⟩ trivial trivial trivial trivial ⟨rfl, rfl⟩ trivial trivial

theorem decodeOpMulDiv_standsFor : StandsFor 0b0000001#7 m a f3 d 0b0110011#7 (decodeOpMulDiv m a f3 d) := by
  revert f3
  exact forall_funct3 ⟨rfl, rfl⟩ ⟨rfl, rfl⟩ ⟨rfl, rfl⟩ ⟨rfl, rfl⟩ ⟨rfl, rfl⟩ ⟨rfl, rfl⟩ ⟨rfl, rfl⟩ ⟨rfl, rfl⟩

theorem decodeOp_standsFor : StandsFor hi m a f3 d 0b0110011#7 (decodeOp hi m a f3 d) := by
  unfold decodeOp
  split
  · exact decodeOpBase_standsFor m a f3 d
  · exact decodeOpAlt_standsFor m a f3 d
  · exact decodeOpMulDiv_standsFor m a f3 d
  · trivial

theorem decodeFields_standsFor : StandsFor hi m a f3 d op (decodeFields hi m a f3 d op) := by
  unfold decodeFields
  split
  · exact ⟨rfl, encodeU_immOfU _ _ hi m a f3⟩
  · exact ⟨rfl, encodeU_immOfU _ _ hi m a f3⟩
  · exact ⟨rfl, encodeJ_immOfJ _ _ hi m a f3⟩
  · split
    · subst f3; exact ⟨rfl, encodeI_immOfI _ _ _ _ hi m⟩
    · trivial
  · exact decodeBranch_standsFor hi m a f3 d
  · exact decodeLoad_standsFor hi m a f3 d
  · exact decodeStore_standsFor hi m a f3 d
  · exact decodeOpImm_standsFor hi m a f3 d
  · exact decodeOp_standsFor hi m a f3 d
  · trivial
  · trivial
  · split <;> trivial

/-- An immediate read from fields is in its format's range, whatever the fields hold (rule R104). -/
theorem formatImmOk_fieldOperands (f : Format) : formatImmOk f (fieldOperands f hi m a f3 d).2.2.2 = true := by
  cases f with
  | R => rfl
  | I | IL => exact immIOk_iff.mpr ⟨hi, m, rfl⟩
  | SH => exact shamtOk_iff.mpr ⟨m, rfl⟩
  | S => exact immIOk_iff_immOfS.mpr ⟨hi, d, rfl⟩
  | B => exact immBOk_iff.mpr ⟨hi, d, rfl⟩
  | U => exact immUOk_iff.mpr ⟨hi, m, a, f3, rfl⟩
  | J => exact immJOk_iff.mpr ⟨hi, m, a, f3, rfl⟩

end

/-- The operands a format reads from a word. -/
def wordOperands (f : Format) (w : Word) : Reg × Reg × Reg × Int :=
  fieldOperands f (fieldFunct7 w) (fieldRs2 w) (fieldRs1 w) (fieldFunct3 w) (fieldRd w)

/-- What a word that decodes says of its instruction. -/
theorem decodeWord_instr {w : Word} {i : Instr} (h : decodeWord w = .instr i) :
    operands i = wordOperands (format i) w ∧ encode i = w := by
  have hs := decodeFields_standsFor (fieldFunct7 w) (fieldRs2 w) (fieldRs1 w) (fieldFunct3 w) (fieldRd w) (fieldOpcode w)
  rw [← decodeWord, h] at hs
  obtain ⟨hops, hword⟩ := hs
  exact ⟨hops, hword.trans (pack_fields w)⟩

/-- Settles O15: the image is `decodeWord_instr`; the immediate is read from fields, so it is in its format's range. -/
theorem decodedWordIsTheImage : Obligations.DecodedWordIsTheImage := by
  unfold Obligations.DecodedWordIsTheImage
  intro w i h
  obtain ⟨hops, hword⟩ := decodeWord_instr h
  refine ⟨?_, hword⟩
  rw [wf_eq_formatImmOk, hops]
  exact formatImmOk_fieldOperands ..

/-! ## Where a word holds the operands (rules R106 to R112) -/

section
variable {f : Format} (w : Word)

theorem wordOperands_rd (h : writesRd f = true) : (wordOperands f w).1 = regOf (fieldRd w) := by
  cases f with
  | S | B => cases h
  | R | I | SH | IL | U | J => rfl

theorem wordOperands_rs1 (h : readsRs1 f = true) : (wordOperands f w).2.1 = regOf (fieldRs1 w) := by
  cases f with
  | U | J => cases h
  | R | I | SH | IL | S | B => rfl

theorem wordOperands_rs2 (h : readsRs2 f = true) : (wordOperands f w).2.2.1 = regOf (fieldRs2 w) := by
  cases f with
  | I | SH | IL | U | J => cases h
  | R | S | B => rfl

theorem immOfI_fields : immOfI (fieldFunct7 w) (fieldRs2 w) = (w.extractLsb' 20 12).toInt :=
  congrArg BitVec.toInt (BitVec.extractLsb'_append_extractLsb'_eq_extractLsb' rfl)

theorem immOfB_fields : immOfB (fieldFunct7 w) (fieldRd w) =
    (w.extractLsb' 31 1 ++ w.extractLsb' 7 1 ++ w.extractLsb' 25 6 ++ w.extractLsb' 8 4 ++ 0#1 : BitVec 13).toInt := by
  unfold immOfB fieldFunct7 fieldRd
  congr 1
  refine BitVec.eq_of_getLsbD_eq fun k hk => ?_
  simp
  grind

theorem immOfU_fields : immOfU (fieldFunct7 w) (fieldRs2 w) (fieldRs1 w) (fieldFunct3 w) = (w.extractLsb' 12 20).toNat := by
  unfold immOfU fieldFunct7 fieldRs2 fieldRs1 fieldFunct3
  congr 2
  refine BitVec.eq_of_getLsbD_eq fun k hk => ?_
  simp
  grind

theorem immOfJ_fields : immOfJ (fieldFunct7 w) (fieldRs2 w) (fieldRs1 w) (fieldFunct3 w) =
    (w.extractLsb' 31 1 ++ w.extractLsb' 12 8 ++ w.extractLsb' 20 1 ++ w.extractLsb' 21 10 ++ 0#1 : BitVec 21).toInt := by
  unfold immOfJ fieldFunct7 fieldRs2 fieldRs1 fieldFunct3
  congr 1
  refine BitVec.eq_of_getLsbD_eq fun k hk => ?_
  simp
  grind

end

/-- The shift-immediates fill the upper seven bits as rule R108 says. -/
theorem funct7_of_format_SH {i : Instr} (h : format i = .SH) :
    fieldFunct7 (encode i) = 0b0000000#7 ∨ fieldFunct7 (encode i) = 0b0100000#7 := by
  cases i with
  | slli | srli => exact .inl (fieldFunct7_pack ..)
  | srai => exact .inr (fieldFunct7_pack ..)
  | _ => cases h

/-- Settles O16: the image of a valid instruction decodes to it (`decodeWord_encode`), so its operands are those its format
reads from the image (`decodeWord_instr`), and these are the bits named. -/
theorem imageFields : Obligations.ImageFields := by
  unfold Obligations.ImageFields
  intro i h w rd rs1 rs2 imm
  have hops : operands i = wordOperands (format i) w := (decodeWord_instr (decodeWord_encode h)).1
  have himm : imm = (wordOperands (format i) w).2.2.2 := congrArg (·.2.2.2) hops
  refine ⟨fun hf => ?_, fun hf => ?_, fun hf => ?_, ?_⟩
  · simp only [rd, hops, wordOperands_rd w hf]; rfl
  · simp only [rs1, hops, wordOperands_rs1 w hf]; rfl
  · simp only [rs2, hops, wordOperands_rs2 w hf]; rfl
  · cases hf : format i with
    | R => trivial
    | I | IL => exact himm.trans (hf ▸ immOfI_fields w)
    | SH => exact ⟨himm.trans (by rw [hf]; rfl), funct7_of_format_SH hf⟩
    | S => exact himm.trans (by rw [hf]; rfl)
    | B => exact himm.trans (hf ▸ immOfB_fields w)
    | U => exact himm.trans (hf ▸ immOfU_fields w)
    | J => exact himm.trans (hf ▸ immOfJ_fields w)

/-! ## The words that are no instruction (rule R116) -/

/-- Rule R113: the opcodes of the table. -/
def tableOpcodes : List (BitVec 7) :=
  [0b0110111#7, 0b0010111#7, 0b0010011#7, 0b0110011#7, 0b1101111#7, 0b1100111#7, 0b1100011#7, 0b0000011#7, 0b0100011#7]

/-- A word that decodes is an image, and an image has an opcode of its format. -/
theorem fieldOpcode_mem_of_decodes {w : Word} {i : Instr} (h : decodeWord w = .instr i) :
    fieldOpcode w ∈ tableOpcodes := by
  have hsub : ∀ f, Laws.formatOpcodes f ⊆ tableOpcodes := by intro f; cases f <;> decide
  obtain ⟨-, rfl⟩ := decodeWord_instr h
  exact hsub _ (Laws.Layout.holds i)

section
variable {hi : BitVec 7} {m a : BitVec 5} {f3 : BitVec 3} {d : BitVec 5}

theorem decodeLoad_refused (h : f3 ∈ [0b011#3, 0b110#3, 0b111#3]) : decodeLoad hi m a f3 d = .refused .loadFunct3 := by
  simp only [List.mem_cons, List.not_mem_nil, or_false] at h
  obtain rfl | rfl | rfl := h <;> rfl

theorem decodeBranch_refused (h : f3 ∈ [0b010#3, 0b011#3]) : decodeBranch hi m a f3 d = .refused .branchFunct3 := by
  simp only [List.mem_cons, List.not_mem_nil, or_false] at h
  obtain rfl | rfl := h <;> rfl

theorem decodeStore_refused (h : 3 ≤ f3.toNat) : decodeStore hi m a f3 d = .refused .storeFunct3 := by
  unfold decodeStore
  split
  · exact absurd h (by decide)
  · exact absurd h (by decide)
  · exact absurd h (by decide)
  · rfl

theorem decodeOpAlt_refused (h : f3 ∉ [0b000#3, 0b101#3]) : decodeOpAlt m a f3 d = .refused .registerFunct7 := by
  unfold decodeOpAlt
  split
  · exact absurd (by decide) h
  · exact absurd (by decide) h
  · rfl

theorem decodeOp_refused (h : hi ∉ [0b0000000#7, 0b0100000#7, 0b0000001#7]) :
    decodeOp hi m a f3 d = .refused .registerFunct7 := by
  unfold decodeOp
  split
  · exact absurd (by decide) h
  · exact absurd (by decide) h
  · exact absurd (by decide) h
  · rfl

theorem decodeOpImm_slli_refused (h : hi ≠ 0b0000000#7) : decodeOpImm hi m a 0b001#3 d = .refused .shiftFunct7 :=
  if_neg h

theorem decodeOpImm_srli_refused (h : hi ∉ [0b0000000#7, 0b0100000#7]) :
    decodeOpImm hi m a 0b101#3 d = .refused .shiftFunct7 := by
  simp only [List.mem_cons, List.not_mem_nil, or_false, not_or] at h
  obtain ⟨hsrli, hsrai⟩ := h
  exact (if_neg hsrli).trans (if_neg hsrai)

end

/-! ## A program that holds such a word -/

theorem slotOfWord_undecodable {w : Word} (h : ∀ i, decodeWord w ≠ .instr i) : slotOfWord w = .undecodable w := by
  unfold slotOfWord
  split
  · exact absurd ‹_› (h _)
  · rfl

/-- The violations of a slot are among those of the code, under its own index. -/
theorem mem_codeViolations {cfg : Cfg} {code : List CodeSlot} {j k : Nat} {c : CodeSlot} {v : Violation}
    (hk : code[k]? = some c) (hv : v ∈ slotViolations cfg (j + k) c) : v ∈ codeViolations cfg j code := by
  induction code generalizing j k with
  | nil => cases hk
  | cons e es ih =>
    rw [codeViolations, List.mem_append]
    cases k with
    | zero => cases hk; exact .inl hv
    | succ k => exact .inr (ih hk (by rwa [Nat.add_right_comm, Nat.add_assoc]))

theorem undecodableWord_mem_validate {cfg : Cfg} {prog : Prog} {k : Nat} {w : Word}
    (hk : prog.code[k]? = some (.undecodable w)) : .undecodableWord k w ∈ validate cfg prog := by
  have hcode : Violation.undecodableWord k w ∈ codeViolations cfg 0 prog.code :=
    mem_codeViolations hk (by simp [slotViolations])
  simp only [validate, List.mem_append, hcode, true_or, or_true]

/-- Settles O17: a word with another opcode is no image (`fieldOpcode_mem_of_decodes`); under an opcode of the table the
decoder refuses the `funct3` and `funct7` of no row by name; validation lists an undecodable slot, so no step runs it. -/
theorem wordsThatAreNoInstruction : Obligations.WordsThatAreNoInstruction := by
  unfold Obligations.WordsThatAreNoInstruction
  refine ⟨?compressed, ?named, ?opcode, ?funct7, ?alt, ?load, ?store, ?branch, ?jalr, ?slli, ?srli,
    fun _ => slotOfWord_undecodable, ?program⟩
  case compressed =>
    intro w hlow i h
    have hlow' : ∀ op ∈ tableOpcodes, op.extractLsb' 0 2 = 0b11#2 := by decide
    exact hlow ((BitVec.extractLsb'_extractLsb'_of_le (by decide)).symm.trans
      (hlow' _ (fieldOpcode_mem_of_decodes h)))
  case named =>
    intro w hop i h
    have hdisj : ∀ op ∈ [0b0001111#7, 0b1110011#7], op ∉ tableOpcodes := by decide
    exact hdisj _ hop (fieldOpcode_mem_of_decodes h)
  case opcode => exact fun w hop i h => hop (fieldOpcode_mem_of_decodes h)
  case funct7 =>
    intro w hop hf7 i
    rw [decodeWord, hop, decodeFields_op, decodeOp_refused hf7]; nofun
  case alt =>
    intro w hop hf7 hf3 i
    rw [decodeWord, hop, decodeFields_op, hf7, decodeOp_alt, decodeOpAlt_refused hf3]; nofun
  case load =>
    intro w hop hf3 i
    rw [decodeWord, hop, decodeFields_load, decodeLoad_refused hf3]; nofun
  case store =>
    intro w hop hf3 i
    rw [decodeWord, hop, decodeFields_store, decodeStore_refused hf3]; nofun
  case branch =>
    intro w hop hf3 i
    rw [decodeWord, hop, decodeFields_branch, decodeBranch_refused hf3]; nofun
  case jalr =>
    intro w hop hf3 i
    rw [decodeWord, hop, decodeFields_jalr, if_neg hf3]; nofun
  case slli =>
    intro w hop hf3 hf7 i
    rw [decodeWord, hop, decodeFields_opImm, hf3, decodeOpImm_slli_refused hf7]; nofun
  case srli =>
    intro w hop hf3 hf7 i
    rw [decodeWord, hop, decodeFields_opImm, hf3, decodeOpImm_srli_refused hf7]; nofun
  case program =>
    intro s k w hk
    have hmem := undecodableWord_mem_validate (cfg := s.cfg) hk
    exact ⟨_, step_invalid (List.ne_nil_of_mem hmem), hmem⟩

/-- Settles O18: each word is decoded by evaluation. -/
theorem wordsDecode : Obligations.WordsDecode := by
  unfold Obligations.WordsDecode
  decide

end Sys2Proof.Machine
end

section
/-! The expansion of `li` (`30_encoding.md` rule R120): its two parts make the immediate, and its instructions run in order
leave it in `rd`. -/

namespace Sys2Proof.Machine

/-! ## The two parts of the immediate -/

theorem liLow_eq_bmod (imm : Int) : liLow imm = imm.bmod 4096 := BitVec.toInt_ofInt imm

theorem immIOk_liLow (imm : Int) : immIOk (liLow imm) = true := by
  rw [liLow_eq_bmod]
  simp only [immIOk, decide_eq_true_eq, Int.bmod]
  omega

theorem immUOk_liHigh (imm : Int) : immUOk (liHigh imm) = true := by
  unfold liHigh
  simp only [immUOk, decide_eq_true_eq]
  omega

theorem upperImmediate_eq_ofInt (n : Int) : upperImmediate n = BitVec.ofInt 32 (n * 4096) := by
  rw [upperImmediate, BitVec.shiftLeft_eq_mul_twoPow, BitVec.ofInt_mul]
  rfl

/-- `hi << 12` and `lo` make the immediate: `imm - lo` is a multiple of 4096, and `hi` is its quotient modulo `2^20`. -/
theorem upperImmediate_liHigh_add (imm : Int) : upperImmediate (liHigh imm) + immWord (liLow imm) = immWord imm := by
  rw [upperImmediate_eq_ofInt, immWord, ← BitVec.ofInt_add]
  refine BitVec.eq_of_toNat_eq ?_
  simp only [BitVec.toNat_ofInt, liHigh, liLow_eq_bmod, Int.bmod]
  omega

/-- Every expansion is made of valid instructions (rule R104). -/
theorem wf_of_mem_pseudoLi {rd : Reg} {imm : Int} {i : Instr} (h : i ∈ pseudoLi rd imm) : i.wf = true := by
  unfold pseudoLi at h
  split at h
  · next hsmall =>
    rw [List.mem_singleton.mp h]
    exact decide_eq_true hsmall
  · split at h
    · rw [List.mem_singleton.mp h]
      exact immUOk_liHigh imm
    · obtain rfl | rfl := List.mem_pair.mp h
      · exact immUOk_liHigh imm
      · exact immIOk_liLow imm

/-! ## The instructions run in order -/

theorem exec_lui_wroteRegister (s : State) (rd : Reg) (imm : Int) :
    Completes (exec (.lui rd imm) s) fun t => s.WroteRegister t rd (upperImmediate imm) (s.pc + 4) :=
  completes_exec_iff.mpr (perform_result s rd _)

theorem exec_addi_wroteRegister (s : State) (rd rs1 : Reg) (imm : Int) :
    Completes (exec (.addi rd rs1 imm) s) fun t => s.WroteRegister t rd (s.readX rs1 + immWord imm) (s.pc + 4) :=
  completes_exec_iff.mpr (perform_result s rd _)

/-- Instructions run in order by `run`, one after the other from a next state: the first, then the rest. -/
theorem Completes.foldl_cons {run : Host.Outcome State Fault Refusal → Instr → Host.Outcome State Fault Refusal}
    (hrun : ∀ t i, run (.next t) i = exec i t) {i : Instr} {is : List Instr} {s : State} {P : State → Prop}
    (h : Completes (exec i s) fun t => Completes (is.foldl run (.next t)) P) :
    Completes ((i :: is).foldl run (.next s)) P := by
  obtain ⟨t, ht, hrest⟩ := h
  rwa [List.foldl_cons, hrun, ht]

/-- `t` is `s` after `n` instructions that left `v` in `rd`, memory and every other register as they were (rule R120). -/
def State.Loaded (s t : State) (rd : Reg) (v : Word) (n : Nat) : Prop :=
  (∀ r, t.readX r = if r = rd ∧ r ≠ 0 then v else s.readX r) ∧
    (∀ a, t.memView a = s.memView a) ∧ t.pc = s.pc + 4 * BitVec.ofNat 32 n

/-- One write of `rd` loads it. -/
theorem State.WroteRegister.loaded {s t : State} {rd : Reg} {v : Word} (h : s.WroteRegister t rd v (s.pc + 4)) :
    s.Loaded t rd v 1 := by
  obtain ⟨hread, hpc, -, hmem, -⟩ := h
  exact ⟨hread, hmem, hpc⟩

/-- A write of `rd`, then one that adds to it. -/
theorem State.WroteRegister.loaded_twice {s t u : State} {rd : Reg} {v k : Word}
    (h1 : s.WroteRegister t rd v (s.pc + 4)) (h2 : t.WroteRegister u rd (t.readX rd + k) (t.pc + 4)) :
    s.Loaded u rd (v + k) 2 := by
  obtain ⟨hread1, hpc1, -, hmem1, -⟩ := h1
  obtain ⟨hread2, hpc2, -, hmem2, -⟩ := h2
  refine ⟨fun r => ?_, fun a => (hmem2 a).trans (hmem1 a), by rw [hpc2, hpc1, BitVec.add_assoc]; rfl⟩
  rw [hread2]
  split
  · next hr =>
    obtain ⟨rfl, h0⟩ := hr
    rw [hread1, if_pos ⟨rfl, h0⟩]
  · next hr => rw [hread1, if_neg hr]

/-- Rule R120: each of the three expansions loads the immediate, whatever the immediate is. -/
theorem pseudoLi_loads {run : Host.Outcome State Fault Refusal → Instr → Host.Outcome State Fault Refusal}
    (hrun : ∀ t i, run (.next t) i = exec i t) (s : State) (rd : Reg) (imm : Int) :
    Completes ((pseudoLi rd imm).foldl run (.next s)) fun t => s.Loaded t rd (immWord imm) (pseudoLi rd imm).length := by
  have hsum := upperImmediate_liHigh_add imm
  unfold pseudoLi
  split
  · refine .foldl_cons hrun ((exec_addi_wroteRegister s rd 0 imm).imp fun t ht => ⟨t, rfl, ?_⟩)
    rw [State.readX_zero, zero_add] at ht
    exact ht.loaded
  · split
    · next hlow =>
      refine .foldl_cons hrun ((exec_lui_wroteRegister s rd _).imp fun t ht => ⟨t, rfl, ?_⟩)
      rw [hlow, show immWord 0 = 0#32 from rfl, BitVec.add_zero] at hsum
      exact hsum ▸ ht.loaded
    · refine .foldl_cons hrun ((exec_lui_wroteRegister s rd _).imp fun t ht => ?_)
      refine .foldl_cons hrun ((exec_addi_wroteRegister t rd rd _).imp fun u hu => ⟨u, rfl, ?_⟩)
      exact hsum ▸ ht.loaded_twice hu

/-- Settles O13: validity is `wf_of_mem_pseudoLi`, the effect `pseudoLi_loads`. -/
theorem loadImmediateExpansion : Obligations.LoadImmediateExpansion := by
  unfold Obligations.LoadImmediateExpansion
  intro s rd imm _ _
  exact ⟨fun _ => wf_of_mem_pseudoLi, pseudoLi_loads (fun _ _ => rfl) s rd imm⟩

end Sys2Proof.Machine
end

section
/-! The integer computational instructions (`40_int_computational.md` rules R130 to R152). Each is a packed image with its
row's fixed fields (`described_pack` and its like) and one result written to `rd` (`exec_wroteRegister`), so a statement
about one of them comes down to its result as a number. -/

namespace Sys2Proof.Machine

/-! ## The fixed fields of an image (rules R103, R106, R113) -/

section
variable {i : Instr} {fmt : Format} {hi : BitVec 7} {m a : BitVec 5} {f3 : BitVec 3} {d : BitVec 5} {op : BitVec 7}
  {c : IClass} {caps : List Cap}

/-- A format without `funct3` and `funct7`. -/
theorem described_pack_opcode (hfmt : format i = fmt) (himg : encode i = pack hi m a f3 d op)
    (hdesc : classAndCaps i = (c, caps)) : Described i fmt op none none c caps :=
  ⟨hfmt, by rw [himg, fieldOpcode_pack], by simp, by simp, hdesc⟩

/-- A format with `funct3` alone. -/
theorem described_pack_funct3 (hfmt : format i = fmt) (himg : encode i = pack hi m a f3 d op)
    (hdesc : classAndCaps i = (c, caps)) : Described i fmt op (some f3) none c caps :=
  ⟨hfmt, by rw [himg, fieldOpcode_pack], by simp [himg], by simp, hdesc⟩

/-- A format with `funct3` and `funct7`. -/
theorem described_pack (hfmt : format i = fmt) (himg : encode i = pack hi m a f3 d op)
    (hdesc : classAndCaps i = (c, caps)) : Described i fmt op (some f3) (some hi) c caps :=
  ⟨hfmt, by rw [himg, fieldOpcode_pack], by simp [himg], by simp [himg], hdesc⟩

end

/-! ## One result (rule R130) -/

section
variable {i : Instr} {s : State} {rd : Reg} {u v : Word}

/-- An instruction whose meaning is a result writes it to `rd` and goes on. -/
theorem exec_wroteRegister (hrd : (operands i).1 = rd)
    (hmeaning : insMeaning i s.pc (s.readX (operands i).2.1) (s.readX (operands i).2.2.1) = .result u) (hu : u = v) :
    Completes (exec i s) fun t => s.WroteRegister t rd v (s.pc + 4) := by
  rw [completes_exec_iff, hmeaning, hrd, hu]
  exact perform_result s rd v

/-- The same, of a result known by a property. -/
theorem exec_wroteRegister_of {P : Word → Prop} (hrd : (operands i).1 = rd)
    (hmeaning : insMeaning i s.pc (s.readX (operands i).2.1) (s.readX (operands i).2.2.1) = .result u) (hu : P u) :
    Completes (exec i s) fun t => ∃ v : Word, s.WroteRegister t rd v (s.pc + 4) ∧ P v :=
  (exec_wroteRegister hrd hmeaning rfl).imp fun _ ht => ⟨u, ht, hu⟩

end

/-! ## The results as numbers -/

theorem add_immWord_eq_ofInt (a : Word) (imm : Int) : a + immWord imm = BitVec.ofInt 32 (a.toInt + imm) :=
  effectiveAddress_eq_ofInt a imm

theorem add_eq_ofNat (a b : Word) : a + b = BitVec.ofNat 32 (a.toNat + b.toNat) := by
  rw [BitVec.ofNat_add, BitVec.ofNat_toNat, BitVec.ofNat_toNat, BitVec.setWidth_eq, BitVec.setWidth_eq]

theorem sub_eq_ofInt (a b : Word) : a - b = BitVec.ofInt 32 (a.toInt - b.toInt) := by
  refine BitVec.eq_of_toInt_eq ?_
  rw [BitVec.toInt_sub, BitVec.toInt_ofInt]

theorem boolWord_decide (p : Prop) [Decidable p] : boolWord (decide p) = if p then 1 else 0 := by
  simp [boolWord]

theorem signedLt_word (a b : Word) : boolWord (signedLt a b) = if a.toInt < b.toInt then 1 else 0 :=
  boolWord_decide _

theorem unsignedLt_word (a b : Word) : boolWord (unsignedLt a b) = if a.toNat < b.toNat then 1 else 0 :=
  boolWord_decide _

/-- The sign-extended immediate read as unsigned is its residue modulo `2^32` (rule R135). -/
theorem toNat_immWord (imm : Int) : ((immWord imm).toNat : Int) = imm % 2 ^ 32 := by
  rw [BitVec.toNat_ofInt, Int.toNat_of_nonneg (Int.emod_nonneg _ (by decide))]
  rfl

theorem unsignedLt_immWord_word (a : Word) (imm : Int) :
    boolWord (unsignedLt a (immWord imm)) = if (a.toNat : Int) < imm % 2 ^ 32 then 1 else 0 := by
  rw [unsignedLt_word, ← toNat_immWord]
  simp only [Nat.cast_lt]

theorem shiftLeft_eq_ofNat (a : Word) (n : Nat) : a <<< n = BitVec.ofNat 32 (a.toNat * 2 ^ n) := by
  refine BitVec.eq_of_toNat_eq ?_
  rw [BitVec.toNat_shiftLeft, BitVec.toNat_ofNat, Nat.shiftLeft_eq]

theorem ushiftRight_eq_ofNat (a : Word) (n : Nat) : a >>> n = BitVec.ofNat 32 (a.toNat / 2 ^ n) := by
  rw [← Nat.shiftRight_eq_div_pow, ← BitVec.toNat_ushiftRight, BitVec.ofNat_toNat, BitVec.setWidth_eq]

theorem sshiftRight_eq_ofInt (a : Word) (n : Nat) : a.sshiftRight n = BitVec.ofInt 32 (a.toInt / 2 ^ n) := by
  rw [BitVec.sshiftRight, Int.shiftRight_eq_div_pow]
  norm_cast

/-- The low five bits of `rs2` are its residue modulo 32 (rule R152). -/
theorem shiftAmount_eq_extractLsb' (b : Word) : shiftAmount b = (b.extractLsb' 0 5).toNat := by
  rw [BitVec.extractLsb'_toNat]
  rfl

/-- The sum of `pc` and the upper immediate (rule R132). -/
theorem add_upperImmediate_eq_ofInt (P : Word) (imm : Int) :
    P + upperImmediate imm = BitVec.ofInt 32 (P.toNat + imm * 4096) := by
  rw [upperImmediate_eq_ofInt, BitVec.ofInt_add, BitVec.ofInt_natCast, BitVec.ofNat_toNat, BitVec.setWidth_eq]

/-! ## The statements -/

namespace IntComputational

/-- Settles O1: the fixed fields by format, and each sum, difference or comparison as a number. -/
theorem addAndCompare : Obligations.AddAndCompare := by
  unfold Obligations.AddAndCompare
  refine ⟨fun s rd rs1 imm _ => ⟨?addi, ?slti, ?sltiu⟩, fun s rd rs1 rs2 => ⟨?add, ?sub, ?slt, ?sltu⟩⟩
  case addi => exact ⟨described_pack_funct3 rfl rfl rfl, exec_wroteRegister rfl rfl (add_immWord_eq_ofInt _ _)⟩
  case slti => exact ⟨described_pack_funct3 rfl rfl rfl, exec_wroteRegister rfl rfl (boolWord_decide _)⟩
  case sltiu => exact ⟨described_pack_funct3 rfl rfl rfl, exec_wroteRegister rfl rfl (unsignedLt_immWord_word _ _)⟩
  case add => exact ⟨described_pack rfl rfl rfl, exec_wroteRegister rfl rfl (add_eq_ofNat _ _)⟩
  case sub => exact ⟨described_pack rfl rfl rfl, exec_wroteRegister rfl rfl (sub_eq_ofInt _ _)⟩
  case slt => exact ⟨described_pack rfl rfl rfl, exec_wroteRegister rfl rfl (signedLt_word _ _)⟩
  case sltu => exact ⟨described_pack rfl rfl rfl, exec_wroteRegister rfl rfl (unsignedLt_word _ _)⟩

/-- Settles O2: an immediate is its 12-bit field sign-extended (`immWord_sext`), and a bitwise operation acts on each bit. -/
theorem bitwise : Obligations.Bitwise := by
  unfold Obligations.Bitwise
  refine ⟨fun s rd rs1 imm himm => ?_, fun s rd rs1 rs2 => ⟨?xor, ?or, ?and⟩⟩
  · rw [← immWord_sext himm]
    exact ⟨⟨described_pack_funct3 rfl rfl rfl, exec_wroteRegister rfl rfl rfl⟩,
      ⟨described_pack_funct3 rfl rfl rfl, exec_wroteRegister rfl rfl rfl⟩,
      ⟨described_pack_funct3 rfl rfl rfl, exec_wroteRegister rfl rfl rfl⟩⟩
  case xor => exact ⟨described_pack rfl rfl rfl, exec_wroteRegister_of rfl rfl fun _ _ => BitVec.getLsbD_xor⟩
  case or => exact ⟨described_pack rfl rfl rfl, exec_wroteRegister_of rfl rfl fun _ _ => BitVec.getLsbD_or⟩
  case and => exact ⟨described_pack rfl rfl rfl, exec_wroteRegister_of rfl rfl fun _ _ => BitVec.getLsbD_and⟩

/-- Settles O3: each shift as a product or a floor quotient, by the immediate or by the low five bits of `rs2`
(`shiftAmount_eq_extractLsb'`). -/
theorem shift : Obligations.Shift := by
  unfold Obligations.Shift
  refine ⟨fun s rd rs1 n _ => ⟨?slli, ?srli, ?srai⟩, fun s rd rs1 rs2 => ?_⟩
  case slli => exact ⟨described_pack rfl rfl rfl, exec_wroteRegister rfl rfl (shiftLeft_eq_ofNat _ n)⟩
  case srli => exact ⟨described_pack rfl rfl rfl, exec_wroteRegister rfl rfl (ushiftRight_eq_ofNat _ n)⟩
  case srai => exact ⟨described_pack rfl rfl rfl, exec_wroteRegister rfl rfl (sshiftRight_eq_ofInt _ n)⟩
  · rw [← shiftAmount_eq_extractLsb']
    exact ⟨⟨described_pack rfl rfl rfl, exec_wroteRegister rfl rfl (shiftLeft_eq_ofNat _ _)⟩,
      ⟨described_pack rfl rfl rfl, exec_wroteRegister rfl rfl (ushiftRight_eq_ofNat _ _)⟩,
      ⟨described_pack rfl rfl rfl, exec_wroteRegister rfl rfl (sshiftRight_eq_ofInt _ _)⟩⟩

/-- Settles O4: the upper immediate is `imm * 4096` (`upperImmediate_eq_ofInt`). -/
theorem upperImmediate : Obligations.UpperImmediate := by
  unfold Obligations.UpperImmediate
  refine fun s rd imm _ => ⟨?lui, ?auipc⟩
  case lui => exact ⟨described_pack_opcode rfl rfl rfl, exec_wroteRegister rfl rfl (upperImmediate_eq_ofInt _)⟩
  case auipc => exact ⟨described_pack_opcode rfl rfl rfl, exec_wroteRegister rfl rfl (add_upperImmediate_eq_ofInt _ _)⟩

end IntComputational

end Sys2Proof.Machine
end

section
/-! The multiply and divide instructions (`41_muldiv.md` rules R160 to R168). The high words are exact because the
products fit in 64 bits; the quotients and remainders are those of `BitVec` (`divMeaning_of_ne` and its like), so the division
identity is about `sdiv` with `srem` and `/` with `%`. -/

namespace Sys2Proof.Machine

/-! ## Products (rules R161 to R164) -/

theorem mul_eq_ofInt (a b : Word) : a * b = BitVec.ofInt 32 (a.toInt * b.toInt) := by
  rw [BitVec.ofInt_mul, BitVec.ofInt_toInt, BitVec.ofInt_toInt]

theorem mul_eq_ofNat (a b : Word) : a * b = BitVec.ofNat 32 (a.toNat * b.toNat) := by
  rw [BitVec.ofNat_mul, BitVec.ofNat_toNat, BitVec.ofNat_toNat, BitVec.setWidth_eq, BitVec.setWidth_eq]

theorem abs_toInt_le (a : Word) : |a.toInt| ≤ 2 ^ 31 :=
  abs_le.mpr ⟨a.le_toInt, a.toInt_lt.le⟩

/-- The high word of a product that fits in 64 signed bits is exact. -/
theorem toInt_highWord {p : Int} (h : |p| < 2 ^ 63) : (highWord p).toInt = p / 2 ^ 32 := by
  obtain ⟨hlo, hhi⟩ := abs_lt.mp h
  refine BitVec.toInt_ofInt_eq_self (by decide) ?_ ?_ <;> omega

/-- A factor that is a signed word and one that is a word, signed or unsigned, keep the product within 64 signed
bits. -/
theorem toInt_highWord_mul (a : Word) {y : Int} (hy : |y| < 2 ^ 32) :
    (highWord (a.toInt * y)).toInt = a.toInt * y / 2 ^ 32 := by
  refine toInt_highWord ?_
  calc |a.toInt * y| = |a.toInt| * |y| := abs_mul _ _
    _ ≤ 2 ^ 31 * |y| := mul_le_mul_of_nonneg_right (abs_toInt_le a) (abs_nonneg y)
    _ < 2 ^ 63 := by omega

theorem toInt_highWord_signed (a b : Word) : (highWord (a.toInt * b.toInt)).toInt = a.toInt * b.toInt / 2 ^ 32 :=
  toInt_highWord_mul a ((abs_toInt_le b).trans_lt (by decide))

theorem toInt_highWord_signed_unsigned (a b : Word) :
    (highWord (a.toInt * b.toNat)).toInt = a.toInt * b.toNat / 2 ^ 32 :=
  toInt_highWord_mul a (by rw [Nat.abs_cast]; exact_mod_cast b.isLt)

theorem toNat_highWord_unsigned (a b : Word) : (highWord (a.toNat * b.toNat)).toNat = a.toNat * b.toNat / 2 ^ 32 := by
  have hprod : a.toNat * b.toNat < 2 ^ 32 * 2 ^ 32 := Nat.mul_lt_mul'' a.isLt b.isLt
  have hcast : highWord (a.toNat * b.toNat) = BitVec.ofNat 32 (a.toNat * b.toNat / 2 ^ 32) := by
    rw [← BitVec.ofInt_natCast]; norm_cast
  rw [hcast, BitVec.toNat_ofNat, Nat.mod_eq_of_lt (Nat.div_lt_of_lt_mul hprod)]

/-! ## Quotients and remainders (rules R160, R165 to R168) -/

theorem ofInt_tdiv_eq_sdiv (a b : Word) : BitVec.ofInt 32 (a.toInt.tdiv b.toInt) = a.sdiv b :=
  BitVec.eq_of_toInt_eq (by rw [BitVec.toInt_ofInt, BitVec.toInt_sdiv])

theorem ofInt_tmod_eq_srem (a b : Word) : BitVec.ofInt 32 (a.toInt.tmod b.toInt) = a.srem b := by
  rw [← BitVec.toInt_srem, BitVec.ofInt_toInt]

/-- Every division raises on a zero divisor, whatever its value would be. -/
theorem unlessZero_of_eq {b : Word} (hb : b = 0) (v : Word) : unlessZero b v = .raise .divideByZero := if_pos hb

theorem unlessZero_of_ne {b : Word} (hb : b ≠ 0) (v : Word) : unlessZero b v = .result v := if_neg hb

theorem divMeaning_of_ne {b : Word} (hb : b ≠ 0) (a : Word) : divMeaning a b = .result (a.sdiv b) := by
  rw [divMeaning, unlessZero_of_ne hb, ofInt_tdiv_eq_sdiv]

theorem divuMeaning_of_ne {b : Word} (hb : b ≠ 0) (a : Word) : divuMeaning a b = .result (a / b) := by
  rw [divuMeaning, unlessZero_of_ne hb, BitVec.udiv_def]

theorem remMeaning_of_ne {b : Word} (hb : b ≠ 0) (a : Word) : remMeaning a b = .result (a.srem b) := by
  rw [remMeaning, unlessZero_of_ne hb, mul_comm, ← Int.tmod_def, ofInt_tmod_eq_srem]

theorem remuMeaning_of_ne {b : Word} (hb : b ≠ 0) (a : Word) : remuMeaning a b = .result (a % b) := by
  rw [remuMeaning, unlessZero_of_ne hb, BitVec.umod_def]

/-- The signed quotient is exact, the overflow of the least integer by -1 aside (rule R165). -/
theorem sdiv_spec (a b : Word) : if a = 0x80000000 ∧ b = 0xFFFFFFFF then a.sdiv b = 0x80000000
    else (a.sdiv b).toInt = a.toInt.tdiv b.toInt := by
  split
  · next hover =>
    obtain ⟨rfl, rfl⟩ := hover
    exact BitVec.intMin_sdiv_neg_one
  · next hexact => exact BitVec.toInt_sdiv_of_ne_or_ne a b (not_and_or.mp hexact)

/-- Signed quotient and remainder rebuild the dividend modulo `2^32`, the overflow included. -/
theorem sdiv_mul_add_srem (a b : Word) : a.sdiv b * b + a.srem b = a := by
  calc a.sdiv b * b + a.srem b
      = BitVec.ofInt 32 (a.toInt.tdiv b.toInt) * BitVec.ofInt 32 b.toInt + BitVec.ofInt 32 (a.toInt.tmod b.toInt) := by
        rw [ofInt_tdiv_eq_sdiv, BitVec.ofInt_toInt, ofInt_tmod_eq_srem]
    _ = BitVec.ofInt 32 (a.toInt.tdiv b.toInt * b.toInt + a.toInt.tmod b.toInt) := by
        rw [BitVec.ofInt_add, BitVec.ofInt_mul]
    _ = a := by rw [Int.tdiv_mul_add_tmod, BitVec.ofInt_toInt]

theorem natAbs_srem_lt (a : Word) {b : Word} (hb : b ≠ 0) : (a.srem b).toInt.natAbs < b.toInt.natAbs := by
  have hpos : 0 < b.toInt.natAbs := Int.natAbs_pos.mpr (BitVec.toInt_ne.mpr hb)
  rw [BitVec.toInt_srem, Int.natAbs_tmod]
  exact Nat.mod_lt _ hpos

/-- A remainder that is not 0 has the sign bit of the dividend. -/
theorem srem_neg_iff {a b : Word} (hr : a.srem b ≠ 0) : (a.srem b).toInt < 0 ↔ a.toInt < 0 := by
  have hmsb : (a.srem b).msb = a.msb := by rw [BitVec.msb_srem, decide_eq_true hr, Bool.and_true]
  rwa [BitVec.msb_eq_toInt, BitVec.msb_eq_toInt, decide_eq_decide] at hmsb

/-- Unsigned quotient and remainder rebuild the dividend. -/
theorem udiv_mul_add_umod (a b : Word) : a / b * b + a % b = a := by
  refine BitVec.eq_of_toNat_eq ?_
  rw [BitVec.toNat_add, BitVec.toNat_mul, BitVec.toNat_udiv, BitVec.toNat_umod, Nat.mod_add_mod, Nat.div_add_mod',
    Nat.mod_eq_of_lt a.isLt]

theorem toNat_umod_lt (a : Word) {b : Word} (hb : b ≠ 0) : (a % b).toNat < b.toNat :=
  BitVec.umod_lt a (b.pos_iff_ne_zero.mpr hb)

/-! ## The instructions -/

/-- An instruction whose meaning raises records the exception, and changes nothing else. -/
theorem exec_raises {i : Instr} {s : State} {k : ExcKind}
    (hmeaning : insMeaning i s.pc (s.readX (operands i).2.1) (s.readX (operands i).2.2.1) = .raise k) :
    exec i s = .next { s with excSeen := some k } := by
  rw [exec_eq, hmeaning, perform_raise]

namespace MulDiv

/-- Settles O5: the low word by either reading, and each high word exact (`toInt_highWord_mul`,
`toNat_highWord_unsigned`). -/
theorem multiply : Obligations.Multiply := by
  unfold Obligations.Multiply
  refine fun s rd rs1 rs2 => ⟨?mul, ?mulh, ?mulhsu, ?mulhu⟩
  case mul => exact ⟨described_pack rfl rfl rfl, exec_wroteRegister_of rfl rfl ⟨mul_eq_ofInt _ _, mul_eq_ofNat _ _⟩⟩
  case mulh => exact ⟨described_pack rfl rfl rfl, exec_wroteRegister_of rfl rfl (toInt_highWord_signed _ _)⟩
  case mulhsu =>
    exact ⟨described_pack rfl rfl rfl, exec_wroteRegister_of rfl rfl (toInt_highWord_signed_unsigned _ _)⟩
  case mulhu => exact ⟨described_pack rfl rfl rfl, exec_wroteRegister_of rfl rfl (toNat_highWord_unsigned _ _)⟩

/-- Settles O6: a zero divisor raises (`unlessZero_of_eq`); any other gives the quotients and remainders of `BitVec`,
exact but for the overflow of `sdiv` (`sdiv_spec`). -/
theorem divide : Obligations.Divide := by
  unfold Obligations.Divide
  refine fun s rd rs1 rs2 => ⟨?fields, fun hb => ?zero, fun hb => ⟨?div, ?divu, ?rem, ?remu⟩⟩
  case fields =>
    exact ⟨described_pack rfl rfl rfl, described_pack rfl rfl rfl, described_pack rfl rfl rfl, described_pack rfl rfl rfl⟩
  case zero =>
    simp only [List.forall_mem_cons, List.not_mem_nil, false_imp_iff, implies_true, and_true]
    refine ⟨?_, ?_, ?_, ?_⟩ <;> exact exec_raises (unlessZero_of_eq hb _)
  case div => exact exec_wroteRegister_of rfl (divMeaning_of_ne hb _) (sdiv_spec _ _)
  case divu => exact exec_wroteRegister_of rfl (divuMeaning_of_ne hb _) BitVec.toNat_udiv
  case rem => exact exec_wroteRegister_of rfl (remMeaning_of_ne hb _) (BitVec.toInt_srem _ _)
  case remu => exact exec_wroteRegister_of rfl (remuMeaning_of_ne hb _) BitVec.toNat_umod

/-- Settles O7: `div` and `rem` write `sdiv` and `srem`, `divu` and `remu` write `/` and `%`, and these satisfy the
identity. -/
theorem divisionIdentity : Obligations.DivisionIdentity := by
  unfold Obligations.DivisionIdentity
  refine fun s rd rs1 rs2 hb => ⟨?signed, ?unsigned⟩
  case signed =>
    exact ⟨_, _, exec_wroteRegister rfl (divMeaning_of_ne hb _) rfl,
      exec_wroteRegister rfl (remMeaning_of_ne hb _) rfl, sdiv_mul_add_srem _ _, natAbs_srem_lt _ hb, srem_neg_iff⟩
  case unsigned =>
    exact ⟨_, _, exec_wroteRegister rfl (divuMeaning_of_ne hb _) rfl,
      exec_wroteRegister rfl (remuMeaning_of_ne hb _) rfl, udiv_mul_add_umod _ _, toNat_umod_lt _ hb⟩

end MulDiv

end Sys2Proof.Machine
end

section
/-! The control-transfer instructions (`42_control_transfer.md` rules R170 to R178). Each one's meaning is a transfer, so
what it does comes down to whether it is taken and to a target that is a multiple of 4 or not (`exec_transferred`,
`exec_transfer_misaligned`); what differs between them is the condition and the target as a number. -/

namespace Sys2Proof.Machine

/-! ## The targets and the conditions as numbers -/

/-- The target of `jal` and of a branch: the offset from `pc`, modulo `2^32` (rule R170). -/
theorem pc_add_immWord_eq_ofInt (P : Word) (imm : Int) : P + immWord imm = BitVec.ofInt 32 (P.toNat + imm) := by
  rw [BitVec.ofInt_add, BitVec.ofInt_natCast, BitVec.ofNat_toNat, BitVec.setWidth_eq]

/-- The mask of `jalr` clears bit 0, which leaves the even number below (rule R172). -/
theorem and_clearBit0_eq_ofNat (v : Word) : v &&& 0xFFFFFFFE = BitVec.ofNat 32 (v.toNat / 2 * 2) := by
  have hmask : v &&& (0xFFFFFFFE : Word) = v >>> 1 <<< 1 := by
    ext k hk
    interval_cases k <;> simp
  rw [hmask, shiftLeft_eq_ofNat, BitVec.toNat_ushiftRight, Nat.shiftRight_eq_div_pow, pow_one]

/-- The target of `jalr` (rule R172). -/
theorem jalrTarget_eq_ofNat (a : Word) (imm : Int) :
    (a + immWord imm) &&& 0xFFFFFFFE = BitVec.ofNat 32 ((BitVec.ofInt 32 (a.toInt + imm)).toNat / 2 * 2) := by
  rw [and_clearBit0_eq_ofNat, add_immWord_eq_ofInt]

/-- "At least" is "not less", signed (rule R176). -/
theorem not_signedLt_eq_decide (a b : Word) : (!signedLt a b) = decide (b.toInt ≤ a.toInt) := by
  rw [signedLt, ← decide_not, decide_eq_decide, not_lt]

/-- "At least" is "not less", unsigned (rule R178). -/
theorem not_unsignedLt_eq_decide (a b : Word) : (!unsignedLt a b) = decide (b.toNat ≤ a.toNat) := by
  rw [unsignedLt, ← decide_not, decide_eq_decide, not_lt]

/-! ## One transfer (rule R170) -/

section
variable {i : Instr} {s : State} {rd : Reg} {taken : Bool} {target : Word} {link : Option Word}

/-- An instruction whose meaning is a transfer goes to its target if taken and to the next address if not, unless it is
taken to an address that is no multiple of 4. -/
theorem exec_transferred (hrd : (operands i).1 = rd)
    (hmeaning : insMeaning i s.pc (s.readX (operands i).2.1) (s.readX (operands i).2.2.1) = .transfer taken target link)
    (haligned : taken = true → target.toNat % 4 = 0) :
    Completes (exec i s) fun t => s.Transferred t rd link taken (if taken then target else s.pc + 4) := by
  rw [completes_exec_iff, hmeaning, hrd]
  exact perform_transfer s rd taken target link haligned

/-- A transfer taken to an address that is no multiple of 4 raises before anything is written. -/
theorem exec_transfer_misaligned
    (hmeaning : insMeaning i s.pc (s.readX (operands i).2.1) (s.readX (operands i).2.2.1) = .transfer true target link)
    (hmisaligned : target.toNat % 4 ≠ 0) : exec i s = .next { s with excSeen := some .instrAddrMisaligned } := by
  rw [exec_eq, hmeaning, perform_transfer_misaligned _ _ _ _ hmisaligned]

/-- An unconditional transfer, with its target known by another expression: it links and jumps, or raises. -/
theorem exec_jump {target' : Word} (hrd : (operands i).1 = rd)
    (hmeaning : insMeaning i s.pc (s.readX (operands i).2.1) (s.readX (operands i).2.2.1) = .transfer true target' link)
    (htarget : target' = target) :
    (target.toNat % 4 = 0 → Completes (exec i s) fun t => s.Transferred t rd link true target) ∧
      (target.toNat % 4 ≠ 0 → exec i s = .next { s with excSeen := some .instrAddrMisaligned }) := by
  subst htarget
  exact ⟨fun haligned => exec_transferred hrd hmeaning fun _ => haligned, exec_transfer_misaligned hmeaning⟩

/-- A branch, with its condition known by another expression: not taken, the offset does not matter; taken, it jumps or
raises. -/
theorem exec_branch {cond : Bool} {imm : Int} (hrd : (operands i).1 = 0)
    (hmeaning : insMeaning i s.pc (s.readX (operands i).2.1) (s.readX (operands i).2.2.1) = branchMeaning taken s.pc imm)
    (hcond : taken = cond) (htarget : s.pc + immWord imm = target) :
    (cond = false → Completes (exec i s) fun t => s.Transferred t 0 none false (s.pc + 4)) ∧
      (cond = true → target.toNat % 4 = 0 → Completes (exec i s) fun t => s.Transferred t 0 none true target) ∧
      (cond = true → target.toNat % 4 ≠ 0 → exec i s = .next { s with excSeen := some .instrAddrMisaligned }) := by
  subst hcond
  cases taken with
  | false => exact ⟨fun _ => exec_transferred hrd hmeaning nofun, nofun, nofun⟩
  | true =>
    obtain ⟨hjump, hraise⟩ := exec_jump hrd hmeaning htarget
    exact ⟨nofun, fun _ => hjump, fun _ => hraise⟩

end

/-! ## The statements -/

namespace ControlTransfer

/-- Settles O8: both are unconditional transfers (`exec_jump`); `jalr` clears bit 0 of its target
(`jalrTarget_eq_ofNat`). -/
theorem jumps : Obligations.Jumps := by
  unfold Obligations.Jumps
  refine fun s rd rs1 imm => ⟨fun _ => ?jal, fun _ => ?jalr⟩
  case jal => exact ⟨described_pack_opcode rfl rfl rfl, exec_jump rfl rfl (pc_add_immWord_eq_ofInt _ _)⟩
  case jalr => exact ⟨described_pack_funct3 rfl rfl rfl, exec_jump rfl rfl (jalrTarget_eq_ofNat _ _)⟩

/-- Settles O9: the six differ in `funct3` and in the condition (`exec_branch`). -/
theorem branches : Obligations.Branches := by
  unfold Obligations.Branches
  intro s rs1 rs2 imm _ a b target
  have htarget : s.pc + immWord imm = target := pc_add_immWord_eq_ofInt _ _
  simp only [List.forall_mem_cons, List.not_mem_nil, false_imp_iff, implies_true, and_true]
  refine ⟨?beq, ?bne, ?blt, ?bge, ?bltu, ?bgeu⟩
  case beq => exact ⟨described_pack_funct3 rfl rfl rfl, exec_branch rfl rfl rfl htarget⟩
  case bne => exact ⟨described_pack_funct3 rfl rfl rfl, exec_branch rfl rfl rfl htarget⟩
  case blt => exact ⟨described_pack_funct3 rfl rfl rfl, exec_branch rfl rfl rfl htarget⟩
  case bge => exact ⟨described_pack_funct3 rfl rfl rfl, exec_branch rfl rfl (not_signedLt_eq_decide a b) htarget⟩
  case bltu => exact ⟨described_pack_funct3 rfl rfl rfl, exec_branch rfl rfl rfl htarget⟩
  case bgeu => exact ⟨described_pack_funct3 rfl rfl rfl, exec_branch rfl rfl (not_unsignedLt_eq_decide a b) htarget⟩

end ControlTransfer

end Sys2Proof.Machine
end

section
/-! The loads and stores (`43_load_store.md` rules R180 to R188). Each one's meaning is an access at the effective address,
checked for alignment and then for range before anything is written; what differs between them is the number of bytes and
how a load extends them. -/

namespace Sys2Proof.Machine

/-! ## Bytes in order of address (rule R73) -/

theorem State.memRead_eq (s : State) (n : Nat) : ∀ a, s.memRead a n = (List.range n).map fun k => s.memView (a + k) := by
  induction n with
  | zero => exact fun _ => rfl
  | succ n ih =>
    intro a
    rw [List.range_succ_eq_map, List.map_cons, List.map_map, State.memRead, ih, Nat.add_zero]
    congr 1
    exact List.map_congr_left fun k _ => congrArg s.memView (Nat.add_right_comm a 1 k)

/-! ## The checks (rule R180) -/

theorem perform_load_of_accessFault {s : State} {a : Word} {n : Nat} {k : ExcKind} (h : accessFault s.cfg a n = some k)
    (rd : Reg) (signed : Bool) : s.perform rd (.load a n signed) = { s with excSeen := some k } := by
  simp [State.perform, h, State.takeException]

theorem perform_store_of_accessFault {s : State} {a : Word} {data : List Byte} {k : ExcKind}
    (h : accessFault s.cfg a data.length = some k) (rd : Reg) :
    s.perform rd (.store a data) = { s with excSeen := some k } := by
  simp [State.perform, h, State.takeException]

/-! ## One access -/

section
variable {i : Instr} {s : State} {rd : Reg} {a : Word} {ea : Nat}

/-- An instruction whose meaning is a load, with its address known as a number: it raises, or writes to `rd` the
extension `v` of the bytes of the view that start there. -/
theorem exec_load {n : Nat} {signed : Bool} {v : Word} (hrd : (operands i).1 = rd)
    (hmeaning : insMeaning i s.pc (s.readX (operands i).2.1) (s.readX (operands i).2.2.1) = .load a n signed)
    (ha : a.toNat = ea) (hv : extendLoad n signed ((List.range n).map fun k => s.memView (ea + k)) = v) :
    (ea % n ≠ 0 → exec i s = .next { s with excSeen := some .memMisaligned }) ∧
      (ea % n = 0 → s.cfg.memSize < ea + n → exec i s = .next { s with excSeen := some .memOutOfRange }) ∧
      (ea % n = 0 → ea + n ≤ s.cfg.memSize → Completes (exec i s) fun t => s.WroteRegister t rd v (s.pc + 4)) := by
  subst ha hrd
  rw [completes_exec_iff, exec_eq, hmeaning, ← hv, ← State.memRead_eq]
  refine ⟨fun hmis => ?misaligned, fun hal hout => ?outside, fun hal hin => perform_load s _ a n signed hal hin⟩
  case misaligned => rw [perform_load_of_accessFault (accessFault_misaligned _ _ _ hmis)]
  case outside => rw [perform_load_of_accessFault (accessFault_outOfRange _ _ _ hal hout)]

/-- An instruction whose meaning is a store, with its address known as a number and its bytes by another expression: it
raises, or stores the bytes there. -/
theorem exec_store {data' data : List Byte}
    (hmeaning : insMeaning i s.pc (s.readX (operands i).2.1) (s.readX (operands i).2.2.1) = .store a data')
    (ha : a.toNat = ea) (hdata : data' = data) :
    (ea % data.length ≠ 0 → exec i s = .next { s with excSeen := some .memMisaligned }) ∧
      (ea % data.length = 0 → s.cfg.memSize < ea + data.length →
        exec i s = .next { s with excSeen := some .memOutOfRange }) ∧
      (ea % data.length = 0 → ea + data.length ≤ s.cfg.memSize →
        Completes (exec i s) fun t => s.Stored t ea data) := by
  subst ha hdata
  rw [completes_exec_iff, exec_eq, hmeaning]
  refine ⟨fun hmis => ?misaligned, fun hal hout => ?outside, fun hal hin => perform_store s _ a _ hal hin⟩
  case misaligned => rw [perform_store_of_accessFault (accessFault_misaligned _ _ _ hmis)]
  case outside => rw [perform_store_of_accessFault (accessFault_outOfRange _ _ _ hal hout)]

end

/-! ## The statements -/

namespace LoadStore

/-- Settles O10: the five differ in `funct3`, in the number of bytes and in their extension (`exec_load`). -/
theorem loads : Obligations.Loads := by
  unfold Obligations.Loads
  intro s rd rs1 imm _ ea byte
  have hea : (effectiveAddress (s.readX rs1) imm).toNat = ea := by rw [effectiveAddress_eq_ofInt]
  simp only [List.forall_mem_cons, List.not_mem_nil, false_imp_iff, implies_true, and_true]
  refine ⟨?lb, ?lh, ?lw, ?lbu, ?lhu⟩
  case lb => exact ⟨described_pack_funct3 rfl rfl rfl, exec_load rfl rfl hea (extendLoad_byte_signed _)⟩
  case lh => exact ⟨described_pack_funct3 rfl rfl rfl, exec_load rfl rfl hea (extendLoad_half_signed _ _)⟩
  case lw => exact ⟨described_pack_funct3 rfl rfl rfl, exec_load rfl rfl hea (extendLoad_word _ _ _ _ _)⟩
  case lbu => exact ⟨described_pack_funct3 rfl rfl rfl, exec_load rfl rfl hea (extendLoad_byte_unsigned _)⟩
  case lhu => exact ⟨described_pack_funct3 rfl rfl rfl, exec_load rfl rfl hea (extendLoad_half_unsigned _ _)⟩

/-- Settles O11: the three differ in `funct3` and in how many bytes of `rs2` they store (`exec_store`,
`bytesOfWord_eq`). -/
theorem stores : Obligations.Stores := by
  unfold Obligations.Stores
  intro s rs1 rs2 imm _ ea byte
  have hea : (effectiveAddress (s.readX rs1) imm).toNat = ea := by rw [effectiveAddress_eq_ofInt]
  simp only [List.forall_mem_cons, List.not_mem_nil, false_imp_iff, implies_true, and_true]
  refine ⟨?sb, ?sh, ?sw⟩
  case sb => exact ⟨described_pack_funct3 rfl rfl rfl, exec_store rfl hea (bytesOfWord_eq 1 _)⟩
  case sh => exact ⟨described_pack_funct3 rfl rfl rfl, exec_store rfl hea (bytesOfWord_eq 2 _)⟩
  case sw => exact ⟨described_pack_funct3 rfl rfl rfl, exec_store rfl hea (bytesOfWord_eq 4 _)⟩

end LoadStore

end Sys2Proof.Machine
end

section
/-! The branch predictor (`50_fetch_predict.md` rules R206 to R219): its arithmetic, and what training and the branch target
buffer's update make of the two tables. Only the training of a committed transfer writes the pattern history table, and
under a zero-bit predictor it writes the counter it read. -/

namespace Sys2Proof.Machine

/-! ## Index and history (rules R211, R212) -/

theorem phtIndex_global {cfg : Cfg} (h : cfg.useGlobalHistory = true) (P : Word) (g : Nat) :
    phtIndex cfg P g = ((P.toNat % cfg.phtSize) ^^^ g) % cfg.phtSize := if_pos h

theorem phtIndex_local {cfg : Cfg} (h : cfg.useGlobalHistory = false) (P : Word) (g : Nat) :
    phtIndex cfg P g = P.toNat % cfg.phtSize := if_neg (by simp [h])

theorem phtIndex_lt {cfg : Cfg} (h : 1 ≤ cfg.phtSize) (P : Word) (g : Nat) : phtIndex cfg P g < cfg.phtSize := by
  unfold phtIndex
  split <;> exact Nat.mod_lt _ h

/-- The outcome enters at bit 0, every bit moves up by one, and what reaches `ghrBits` is gone. -/
theorem testBit_shiftHistory (cfg : Cfg) (g : Nat) (b : Bool) (k : Nat) :
    (shiftHistory cfg g b).testBit k = (decide (k < cfg.ghrBits) && (if k = 0 then b else g.testBit (k - 1))) := by
  unfold shiftHistory
  rw [Nat.testBit_mod_two_pow, Nat.testBit_or, Nat.testBit_shiftLeft]
  cases k with
  | zero => cases b <;> simp
  | succ k => cases b <;> simp [Nat.testBit_succ]

/-- Settles O27: the counters by their tables, the index by its two cases, the history bit by bit
(`testBit_shiftHistory`). -/
theorem predictorArithmetic : Obligations.PredictorArithmetic := by
  unfold Obligations.PredictorArithmetic
  refine ⟨by decide, fun cfg P g hsize => ?index, fun cfg g b => ?history⟩
  case index => exact ⟨fun h => phtIndex_global h P g, fun h => phtIndex_local h P g, phtIndex_lt hsize P g⟩
  case history =>
    have hlt := shiftHistory_lt cfg g b
    refine ⟨testBit_shiftHistory cfg g b, hlt, fun h => ?_⟩
    rw [h] at hlt
    exact Nat.lt_one_iff.mp hlt

/-! ## Training (rules R214, R215) -/

/-- Where an outcome moves a counter (rule R213). -/
def counterNext (t : PredictorType) (taken : Bool) : Nat → Nat := if taken then counterUp t else counterDown t

theorem counterNext_zeroBit (taken : Bool) (c : Nat) : counterNext .zeroBit taken c = c := by
  cases taken <;> rfl

/-- Writing a function of the element read, and nothing outside the list, is modifying the element. -/
theorem set_getD_eq_modify {α : Type} (l : List α) (i : Nat) (a : α) (g : α → α) :
    l.set i (g (l.getD i a)) = l.modify i g := by
  by_cases h : i < l.length
  · simp [List.modify_eq_set_getElem?, h]
  · simp [List.set_eq_of_length_le, List.modify_eq_self, Nat.le_of_not_lt h]

/-- Training moves the one counter that was read. -/
theorem train_pht (s : State) (id : Nat) (P : Word) (taken : Bool) :
    (s.train id P taken).pht =
      s.pht.modify (phtIndex s.cfg P (s.snapshotOf id)) (counterNext s.cfg.predictorType taken) := by
  rw [← set_getD_eq_modify _ _ 0]
  cases taken <;> rfl

/-! ## A zero-bit predictor (rule R219) -/

/-- The predictor is a zero-bit one whose counters are `pht`. -/
structure State.StaticPht (pht : List Nat) (s : State) : Prop where
  zeroBit : s.cfg.predictorType = .zeroBit
  pht : s.pht = pht

section
variable {pht : List Nat}

theorem State.StaticPht.of_eq {s t : State} (h : s.StaticPht pht) (hcfg : t.cfg = s.cfg) (hpht : t.pht = s.pht) :
    t.StaticPht pht := ⟨hcfg ▸ h.zeroBit, hpht.trans h.pht⟩

theorem trainTransfer_staticPht {s : State} (h : s.StaticPht pht) (d : DynInst) : (s.trainTransfer d).StaticPht pht := by
  refine h.of_eq (by rw [trainTransfer_frame]) ?_
  have hid : counterNext s.cfg.predictorType (d.actualTaken.getD false) = id := by
    rw [h.zeroBit]; exact funext (counterNext_zeroBit _)
  rw [trainTransfer_pht, train_pht, hid, List.modify_id]

theorem commit_staticPht (s : State) (h : s.StaticPht pht) : s.commit.StaticPht pht := by
  refine commit_inv (P := State.StaticPht pht) (fun _ _ h => h.of_eq rfl rfl) (fun _ h => h.of_eq rfl rfl)
    (fun s d h => ?register) (fun s d h => ?store) (fun _ h => h.of_eq rfl rfl) (fun _ d h => trainTransfer_staticPht h d)
    (fun _ _ _ _ _ h => h.of_eq rfl rfl) s h
  case register => rw [commitRegister_frame]; exact h.of_eq rfl rfl
  case store =>
    rcases commitStore_cases s d with e | ⟨it, rest, -, e⟩ <;> rw [e]
    · exact h
    · have hf := access_frame { s with storeBuffer := rest } (it.addr.getD 0).toNat (accessSize d.ins)
        (.store (it.data.getD []))
      exact h.of_eq hf.cfg hf.pht

/-- Of the stages, commit alone can write the table. -/
theorem stages_staticPht (s : State) (h : s.StaticPht pht) : s.stages.StaticPht pht := by
  have hsim := memorySimulate_frame s.startTick
  have hback := afterCommit_frame s.startTick.memorySimulate.commit
  have hlast := (commit_staticPht _ (h.of_eq hsim.cfg hsim.pht)).of_eq hback.cfg hback.pht
  rw [stages_eq]
  exact hlast.of_eq (State.evalStop_cfg _) (State.evalStop_pht _)

end

/-- Settles O30: of a step only a commit's training writes the table, and a zero-bit counter stays where it is
(`trainTransfer_staticPht`). -/
theorem zeroBitStatic : Obligations.ZeroBitStatic := by
  unfold Obligations.ZeroBitStatic
  intro s t hzero h
  have hkept : t.StaticPht s.pht := step_inv_of_archFrame stages_staticPht (fun _ h => h.of_eq rfl rfl)
    (fun _ _ hf h => h.of_eq (by rw [hf]) (by rw [hf])) h ⟨hzero, rfl⟩
  exact hkept.pht

/-! ## Commit of a transfer that was predicted correctly (rules R338 to R345) -/

theorem mispredicted_eq_false {d : DynInst} {taken : Bool} {target : Word} (hdir : d.predTaken = taken)
    (htarget : taken = true → d.predTarget = target) : mispredicted d taken target = false := by
  cases taken <;> simp_all [mispredicted]

/-- A correct prediction needs no recovery: commit trains, and stops where the exit is taken. -/
theorem commitTransfer_of_predicted {s : State} {d : DynInst} {taken : Bool} {target : Word}
    (htaken : d.actualTaken = some taken) (htarget : d.actualTarget = some target)
    (h : mispredicted d taken target = false) :
    s.commitTransfer d = (s.trainTransfer d, taken && decide (target = s.cfg.exitAddress)) := by
  rw [commitTransfer_eq, htaken, htarget]
  exact if_neg (by simp [h])

/-- The whole of the trained state but the two tables, the halt included. -/
theorem trainTransfer_eq {s : State} {d : DynInst} {taken : Bool} {target : Word} (htaken : d.actualTaken = some taken)
    (htarget : d.actualTarget = some target) :
    s.trainTransfer d = { s with
      pht := (s.trainTransfer d).pht
      snapshots := s.snapshots.filter fun e => decide (e.id ≠ d.id)
      btb := (s.trainTransfer d).btb
      haltSeen := s.haltSeen || (taken && decide (target = s.cfg.exitAddress))
      stats := { s.stats with
        branches := s.stats.branches + 1
        correctDir := s.stats.correctDir + (if d.dirPred = taken then 1 else 0) } } := by
  have hcount : (if d.dirPred = taken then s.stats.correctDir + 1 else s.stats.correctDir) =
      s.stats.correctDir + (if d.dirPred = taken then 1 else 0) := by split <;> rfl
  rw [trainTransfer_halt, updateBtb_frame, htaken, htarget, ← hcount]
  rfl

/-- Settles O45: a correct prediction leaves the training alone (`commitTransfer_of_predicted`), whose frame is
`trainTransfer_eq` and whose tables are `train_pht` and `trainTransfer_btb`. -/
theorem commitPredictedTransfer : Obligations.CommitPredictedTransfer := by
  unfold Obligations.CommitPredictedTransfer
  intro s d i taken target hins htaken htarget hdir hpred
  rw [commitTransfer_of_predicted htaken htarget (mispredicted_eq_false hdir hpred)]
  have hbtb := trainTransfer_btb s d
  rw [htaken, htarget, hins] at hbtb
  refine ⟨trainTransfer_eq htaken htarget, fun j => ?counter, ?notTaken, ?entry, by simp⟩
  case counter =>
    rw [trainTransfer_pht, train_pht, htaken, List.getElem?_modify]
    by_cases hj : j = phtIndex s.cfg d.pc (s.snapshotOf d.id)
    · simp [hj, counterNext]
    · simp [hj, Ne.symm hj]
  case notTaken => rintro rfl; exact hbtb
  case entry =>
    rintro rfl j hj
    have hset : (s.trainTransfer d).btb = s.btb.set (btbIndex s.cfg d.pc)
      (some { tag := d.pc, conditional := decide (format i = .B), target := target, commitId := d.id }) := hbtb
    rw [hset, List.getElem?_set, btbIndex]
    by_cases hidx : j = d.pc.toNat % s.cfg.btbSize
    · subst hidx
      simp [hj]
    · simp [hidx, Ne.symm hidx]

end Sys2Proof.Machine
end

section
/-! Stage 7 (`50_fetch_predict.md` rules R201 to R205). Each turn of the fetch loop appends one instruction and goes on where
its prediction says (`State.Fetches`); a group is such turns one after the other (`State.FetchesGroup`), and what it leaves
is one induction over them. -/

namespace Sys2Proof.Machine

/-! ## The turns of the loop (rules R202 to R204) -/

theorem fetchLoop_none {s : State} (h : instructionAt s.prog s.pc = none) (n followed : Nat) :
    fetchLoop n followed s = s := by
  cases n <;> simp [fetchLoop, h]

theorem fetchLoop_plain {s : State} {ins : StaticIns} (h : instructionAt s.prog s.pc = some ins)
    (hplain : isTransfer ins = false) (n followed : Nat) :
    fetchLoop (n + 1) followed s = fetchLoop n followed (s.fetchPlain ins) := by
  simp [fetchLoop, h, hplain]

theorem fetchLoop_transfer {s : State} {ins : StaticIns} (h : instructionAt s.prog s.pc = some ins)
    (htransfer : isTransfer ins = true) (n followed : Nat) :
    fetchLoop (n + 1) followed s =
      if followed = s.cfg.branchFollowLimit then s else fetchLoop n (followed + 1) (s.fetchTransfer ins) := by
  simp [fetchLoop, h, htransfer]

/-! ## The prediction of a transfer (rules R205, R208) -/

/-- Predicted taken: on a hit whose entry is unconditional or whose direction is taken. -/
def State.predictTaken (s : State) (P : Word) : Bool := (s.btbLookup P).any fun e => !e.conditional || s.directionAt P

/-- The target predicted: the entry's on a hit, else 0. -/
def State.predictTarget (s : State) (P : Word) : Word := ((s.btbLookup P).map (·.target)).getD 0

/-- The instruction as the fetch of a transfer creates it. -/
def State.fetchedTransfer (s : State) (ins : StaticIns) : DynInst :=
  { DynInst.fetched s.nextId s.pc ins with
    predTaken := s.predictTaken s.pc, predTarget := s.predictTarget s.pc, dirPred := s.directionAt s.pc }

theorem fetchTransfer_eq (s : State) (ins : StaticIns) :
    s.fetchTransfer ins = { s with
      fetchBuffer := s.fetchBuffer ++ [s.fetchedTransfer ins]
      nextId := s.nextId + 1
      snapshots := s.snapshots ++ [{ id := s.nextId, ghr := s.ghr }]
      ghr := shiftHistory s.cfg s.ghr (s.predictTaken s.pc)
      pc := (s.fetchedTransfer ins).predictedNext } := by
  unfold State.fetchTransfer State.fetchedTransfer State.predictTaken State.predictTarget
  cases s.btbLookup s.pc <;> rfl

/-- The branch target buffer answers with the indexed entry where its tag is the address (rule R206). -/
theorem btbLookup_eq_filter (s : State) (P : Word) :
    s.btbLookup P = (s.btb.getD (P.toNat % s.cfg.btbSize) none).filter fun e => decide (e.tag = P) := by
  unfold State.btbLookup btbIndex
  cases s.btb.getD (P.toNat % s.cfg.btbSize) none with
  | none => rfl
  | some e => simp [Option.filter]

theorem predictTaken_eq (s : State) (P : Word) :
    let e := s.btb.getD (P.toNat % s.cfg.btbSize) none
    s.predictTaken P = (e.any (fun e => decide (e.tag = P)) && (!(e.any (·.conditional)) || s.directionAt P)) := by
  unfold State.predictTaken
  rw [btbLookup_eq_filter]
  cases s.btb.getD (P.toNat % s.cfg.btbSize) none with
  | none => rfl
  | some e => by_cases htag : e.tag = P <;> simp [htag]

theorem predictTarget_eq (s : State) (P : Word) :
    let e := s.btb.getD (P.toNat % s.cfg.btbSize) none
    s.predictTarget P = if e.any (fun e => decide (e.tag = P)) then (e.map (·.target)).getD 0 else 0 := by
  unfold State.predictTarget
  rw [btbLookup_eq_filter]
  cases s.btb.getD (P.toNat % s.cfg.btbSize) none with
  | none => rfl
  | some e => by_cases htag : e.tag = P <;> simp [Option.filter, htag]

/-- Settles O28: the fetch of a transfer (`fetchTransfer_eq`) with its prediction by the indexed entry (`predictTaken_eq`,
`predictTarget_eq`), and the loop's turn `fetchLoop_transfer`. -/
theorem fetchTransfer : Obligations.FetchTransfer := by
  unfold Obligations.FetchTransfer
  intro s ins P e hit dir taken target
  refine ⟨?state, fun n followed h htransfer => fetchLoop_transfer h htransfer n followed⟩
  have htaken : s.predictTaken s.pc = taken := predictTaken_eq s s.pc
  have htarget : s.predictTarget s.pc = target := predictTarget_eq s s.pc
  rw [fetchTransfer_eq, State.fetchedTransfer, htaken, htarget]
  rfl

/-! ## History and snapshots of a group (rules R205, R210) -/

/-- The history after these instructions: the predictions of the transfers among them, shifted in. -/
def historyAfter (cfg : Cfg) (g : Nat) (ds : List DynInst) : Nat :=
  (ds.filter fun d => isTransfer d.ins).foldl (fun g d => shiftHistory cfg g d.predTaken) g

/-- The snapshots of these instructions: each transfer's is the history that those before it leave. -/
def groupSnapshots (cfg : Cfg) (g : Nat) (ds : List DynInst) : List Snapshot :=
  (ds.zipIdx.filter fun e => isTransfer e.1.ins).map
    fun e => { id := e.1.id, ghr := historyAfter cfg g (ds.take e.2) }

theorem historyAfter_cons (cfg : Cfg) (g : Nat) (d : DynInst) (ds : List DynInst) :
    historyAfter cfg g (d :: ds) = historyAfter cfg (historyAfter cfg g [d]) ds := by
  cases h : isTransfer d.ins <;> simp [historyAfter, h]

theorem groupSnapshots_cons (cfg : Cfg) (g : Nat) (d : DynInst) (ds : List DynInst) :
    groupSnapshots cfg g (d :: ds) =
      groupSnapshots cfg g [d] ++ groupSnapshots cfg (historyAfter cfg g [d]) ds := by
  have hshift : (d :: ds).zipIdx = [d].zipIdx ++ ds.zipIdx.map fun e => (e.1, e.2 + 1) := by
    simp [List.zipIdx_succ]
  unfold groupSnapshots
  rw [hshift, List.filter_append, List.map_append, List.filter_map, List.map_map]
  congr 1
  · cases h : isTransfer d.ins <;> simp [h]
  · exact List.map_congr_left fun e _ => congrArg (Snapshot.mk e.1.id) (historyAfter_cons cfg g d (ds.take e.2))

/-! ## One turn -/

/-- As rule R203 creates it: only its place and its prediction are set, and one that is no transfer is predicted nothing. -/
def DynInst.AsFetched (d : DynInst) : Prop :=
  d = { DynInst.fetched d.id d.pc d.ins with
    predTaken := d.predTaken, predTarget := d.predTarget, dirPred := d.dirPred } ∧
  (isTransfer d.ins = false → d.predTaken = false ∧ d.predTarget = 0 ∧ d.dirPred = false)

/-- `t` is `s` with these instructions at the end of the fetch buffer, their ids taken, their predictions shifted into the
history and their snapshots kept; `pc` is any. -/
def State.Appended (s : State) (ds : List DynInst) (t : State) : Prop :=
  t = { s with
    fetchBuffer := s.fetchBuffer ++ ds
    nextId := s.nextId + ds.length
    pc := t.pc
    ghr := historyAfter s.cfg s.ghr ds
    snapshots := s.snapshots ++ groupSnapshots s.cfg s.ghr ds }

theorem State.Appended.nil (s : State) : s.Appended [] s := by
  simp [State.Appended, historyAfter, groupSnapshots]

theorem State.Appended.cons {s r t : State} {d : DynInst} {ds : List DynInst} (h1 : s.Appended [d] r)
    (h2 : r.Appended ds t) : s.Appended (d :: ds) t := by
  unfold State.Appended at *
  rw [groupSnapshots_cons, historyAfter_cons]
  rw [h1] at h2
  simpa [Nat.add_assoc, Nat.add_comm 1] using h2

/-- One turn: the instruction at `pc` comes as `d`, and fetch goes on where its prediction says. -/
structure State.Fetches (s : State) (d : DynInst) (t : State) : Prop where
  id : d.id = s.nextId
  pc : d.pc = s.pc
  asFetched : d.AsFetched
  appended : s.Appended [d] t
  next : t.pc = d.predictedNext

theorem State.Fetches.cfg {s t : State} {d : DynInst} (h : s.Fetches d t) : t.cfg = s.cfg := by rw [h.appended]
theorem State.Fetches.prog {s t : State} {d : DynInst} (h : s.Fetches d t) : t.prog = s.prog := by rw [h.appended]
theorem State.Fetches.nextId {s t : State} {d : DynInst} (h : s.Fetches d t) : t.nextId = s.nextId + 1 := by
  rw [h.appended]; rfl

theorem fetchPlain_fetches (s : State) {ins : StaticIns} (h : isTransfer ins = false) :
    s.Fetches (DynInst.fetched s.nextId s.pc ins) (s.fetchPlain ins) where
  id := rfl
  pc := rfl
  asFetched := ⟨rfl, fun _ => ⟨rfl, rfl, rfl⟩⟩
  appended := by simp [State.Appended, historyAfter, groupSnapshots, DynInst.fetched, State.fetchPlain, h]
  next := rfl

theorem fetchTransfer_fetches (s : State) {ins : StaticIns} (h : isTransfer ins = true) :
    s.Fetches (s.fetchedTransfer ins) (s.fetchTransfer ins) where
  id := rfl
  pc := rfl
  asFetched := ⟨rfl, fun hplain => absurd (h.symm.trans hplain) nofun⟩
  appended := by
    simp [State.Appended, fetchTransfer_eq, historyAfter, groupSnapshots, State.fetchedTransfer, DynInst.fetched, h]
  next := by rw [fetchTransfer_eq]

/-! ## The group -/

/-- `s` goes to `t` by fetching these instructions of the code, each where the one before it says. -/
inductive State.FetchesGroup : State → List DynInst → State → Prop
  | nil (s : State) : s.FetchesGroup [] s
  | cons {s r t : State} {d : DynInst} {ds : List DynInst} (code : instructionAt s.prog s.pc = some d.ins)
      (first : s.Fetches d r) (rest : r.FetchesGroup ds t) : s.FetchesGroup (d :: ds) t

/-- The addresses of a group that starts at `pc`, and the one after it. -/
def groupPath (pc : Word) (ds : List DynInst) : List Word := pc :: ds.map (·.predictedNext)

section
variable {s t : State} {ds : List DynInst}

theorem State.FetchesGroup.appended (h : s.FetchesGroup ds t) : s.Appended ds t := by
  induction h with
  | nil s => exact .nil s
  | cons _ first _ ih => exact first.appended.cons ih

theorem State.FetchesGroup.getLast?_groupPath (h : s.FetchesGroup ds t) : (groupPath s.pc ds).getLast? = some t.pc := by
  induction h with
  | nil s => rfl
  | @cons s r t d ds _ first _ ih =>
    rw [first.next] at ih
    exact ih

/-- The `k`-th instruction of a group has the `k`-th id and is the code's at the `k`-th address of the path. -/
theorem State.FetchesGroup.getElem? (h : s.FetchesGroup ds t) : ∀ {k d}, ds[k]? = some d →
    d.id = s.nextId + k ∧ (groupPath s.pc ds)[k]? = some d.pc ∧ instructionAt s.prog d.pc = some d.ins ∧ d.AsFetched := by
  induction h with
  | nil s => exact nofun
  | @cons s r t d ds code first _ ih =>
    rintro (_ | k) e he
    · cases he
      exact ⟨first.id, congrArg some first.pc.symm, first.pc ▸ code, first.asFetched⟩
    · obtain ⟨hid, hpath, hcode, hfetched⟩ := ih he
      rw [first.next] at hpath
      rw [first.prog] at hcode
      exact ⟨by rw [hid, first.nextId]; omega, hpath, hcode, hfetched⟩

end

/-! ## The loop -/

/-- How many transfers there are among these instructions (rule R204). -/
def transferCount (ds : List DynInst) : Nat := ds.countP fun d => isTransfer d.ins

theorem transferCount_cons (d : DynInst) (ds : List DynInst) :
    transferCount (d :: ds) = transferCount [d] + transferCount ds :=
  List.countP_append (l₁ := [d])

/-- What `n` turns of the loop fetch, `followed` transfers of the group behind them: it ends early only where there is no
code, or before one transfer too many (rules R202, R204). -/
structure State.LoopFetches (s : State) (n followed : Nat) (ds : List DynInst) (t : State) : Prop where
  group : s.FetchesGroup ds t
  length : ds.length ≤ n
  transfers : followed + transferCount ds ≤ s.cfg.branchFollowLimit
  early : ds.length < n → instructionAt s.prog t.pc = none ∨
    ∃ ins, instructionAt s.prog t.pc = some ins ∧ isTransfer ins = true ∧
      followed + transferCount ds = s.cfg.branchFollowLimit

/-- One more turn before the others. -/
theorem State.LoopFetches.cons {s r t : State} {n followed : Nat} {d : DynInst} {ds : List DynInst}
    (code : instructionAt s.prog s.pc = some d.ins) (first : s.Fetches d r)
    (h : r.LoopFetches n (followed + transferCount [d]) ds t) : s.LoopFetches (n + 1) followed (d :: ds) t := by
  obtain ⟨group, length, transfers, early⟩ := h
  rw [first.cfg, Nat.add_assoc, ← transferCount_cons] at transfers early
  rw [first.prog] at early
  exact ⟨.cons code first group, Nat.succ_le_succ length, transfers, fun h => early (Nat.lt_of_succ_lt_succ h)⟩

theorem fetchLoop_fetches (n : Nat) : ∀ (followed : Nat) (s : State), followed ≤ s.cfg.branchFollowLimit →
    ∃ ds, s.LoopFetches n followed ds (fetchLoop n followed s) := by
  induction n with
  | zero => exact fun followed s hlimit => ⟨[], .nil s, le_refl 0, hlimit, nofun⟩
  | succ n ih =>
    intro followed s hlimit
    cases hcode : instructionAt s.prog s.pc with
    | none =>
      rw [fetchLoop_none hcode]
      exact ⟨[], .nil s, Nat.zero_le _, hlimit, fun _ => .inl hcode⟩
    | some ins =>
      cases hins : isTransfer ins with
      | false =>
        rw [fetchLoop_plain hcode hins]
        have first := fetchPlain_fetches s hins
        have hcount : transferCount [DynInst.fetched s.nextId s.pc ins] = 0 :=
          List.countP_cons_of_neg (Bool.eq_false_iff.mp hins)
        obtain ⟨ds, h⟩ := ih followed (s.fetchPlain ins) hlimit
        exact ⟨_, .cons hcode first (by rwa [hcount])⟩
      | true =>
        rw [fetchLoop_transfer hcode hins]
        have first := fetchTransfer_fetches s hins
        have hcount : transferCount [s.fetchedTransfer ins] = 1 := List.countP_cons_of_pos hins
        split
        · rename_i hfull
          exact ⟨[], .nil s, Nat.zero_le _, hlimit, fun _ => .inr ⟨ins, hcode, hins, hfull⟩⟩
        · rename_i hroom
          obtain ⟨ds, h⟩ := ih (followed + 1) (s.fetchTransfer ins) (first.cfg ▸ Nat.lt_of_le_of_ne hlimit hroom)
          exact ⟨_, .cons hcode first (by rwa [hcount])⟩

/-! ## The gating (rule R201) -/

theorem fetch_of_full {s : State} (h : s.fetchBuffer ≠ []) : s.fetch = s := by
  simp [State.fetch, h]

theorem fetch_of_stall {s : State} (h : s.fetchBuffer = []) (hstall : 0 < s.fetchStall) :
    s.fetch = { s with fetchStall := s.fetchStall - 1 } := by
  simp [State.fetch, h, hstall]

theorem fetch_of_ready {s : State} (h : s.fetchBuffer = []) (hstall : s.fetchStall = 0) :
    s.fetch = fetchLoop s.cfg.fetchWidth 0 s := by
  simp [State.fetch, h, hstall]

/-- Settles O29: the gating is `State.fetch`'s own case split; the group is the loop's (`fetchLoop_fetches`), and its frame,
its path and its instructions are those of `State.FetchesGroup`. -/
theorem fetchGroup : Obligations.FetchGroup := by
  unfold Obligations.FetchGroup
  refine fun s => ⟨fetch_of_full, fetch_of_stall, fun hempty hstall => ?_⟩
  obtain ⟨ds, hgroup, hlen, hcount, hearly⟩ := fetchLoop_fetches s.cfg.fetchWidth 0 s (Nat.zero_le _)
  rw [← fetch_of_ready hempty hstall] at hgroup hearly
  rw [Nat.zero_add] at hcount hearly
  generalize s.fetch = t at *
  have hstate := hgroup.appended
  have hbuffer : t.fetchBuffer = ds := by rw [hstate, hempty]; rfl
  have hnext : t.nextId = s.nextId + ds.length := by rw [hstate]
  subst hbuffer
  refine ⟨?frame, hlen, hcount, hnext, fun k d hd => ?entry, hgroup.getLast?_groupPath, hearly⟩
  case frame =>
    have hghr := congrArg (historyAfter s.cfg s.ghr) (List.take_length (l := t.fetchBuffer))
    rwa [State.Appended, hempty, List.nil_append, ← hnext, ← hghr] at hstate
  case entry =>
    obtain ⟨hid, hpath, hcode, hcreated, hplain⟩ := hgroup.getElem? hd
    exact ⟨hid, hpath, hcode, hcreated, hplain⟩

end Sys2Proof.Machine
end

section
/-! Rename (`51_rename_dispatch.md` rules R231 to R236). Renaming one instruction is `State.Renames`; a group is renamed one
after another (`State.RenamesGroup`), and what it does to the pool is said about the indices it takes (`PoolTakes`). -/

namespace Sys2Proof.Machine

/-! ## Sources and destination by format (rules R233, R235) -/

theorem insDest_isa (cfg : Cfg) (i : Instr) :
    insDest cfg (.isa i) =
      if format i = .S ∨ format i = .B ∨ (operands i).1 = 0 then none
      else some ({ file := .x, idx := (operands i).1 }, .int) := by
  by_cases hzero : (operands i).1 = 0 <;> cases hformat : format i <;> simp [insDest, writesRd, hzero, hformat]

theorem insDest_named {cfg : Cfg} {n : String} {row : FpRow} (hrow : fpRow cfg n = some row) (rd rs1 rs2 : Reg)
    (imm : Int) :
    insDest cfg (.named n rd rs1 rs2 imm) =
      if row.format = .S ∨ row.format = .B then none else fpDestReg row.dest rd := by
  cases hformat : row.format <;> simp [insDest, writesRd, hrow, hformat]

/-! ## The reference of a source (rule R233) -/

theorem currentMapping_eq_none {table : List RenameEntry} {r : ArchReg} (h : ∀ e ∈ table, e.arch ≠ r) :
    currentMapping table r = none := by
  simpa [currentMapping] using h

/-- Where ids rise along the table, the last entry of a register is the one with the greatest id (rule R33). -/
theorem currentMapping_eq_some {table : List RenameEntry} {r : ArchReg} {e : RenameEntry}
    (hinc : Increasing (table.map (·.id))) (he : e ∈ table) (harch : e.arch = r)
    (hgreatest : ∀ e' ∈ table, e'.arch = r → e'.id ≤ e.id) : currentMapping table r = some e := by
  obtain ⟨last, hlast⟩ : ∃ last, currentMapping table r = some last :=
    Option.isSome_iff_exists.mp (List.find?_isSome.mpr ⟨e, by simpa using he, by simpa using harch⟩)
  obtain ⟨hr, younger, older, hsplit, hyounger⟩ := List.find?_eq_some_iff_append.mp hlast
  obtain rfl : table = older.reverse ++ last :: younger.reverse := by simpa using congrArg List.reverse hsplit
  have hle : last.id ≤ e.id := hgreatest last (by simp) (by simpa using hr)
  have hbefore : ∀ a ∈ older, a.id < last.id := by
    simp only [Increasing, List.map_append, List.map_cons, List.pairwise_append, List.mem_map, List.mem_reverse] at hinc
    obtain ⟨-, -, hacross⟩ := hinc
    exact fun a ha => hacross _ ⟨a, ha, rfl⟩ _ (by simp)
  simp only [List.mem_append, List.mem_reverse, List.mem_cons] at he
  rcases he with he | rfl | he
  · exact absurd (hbefore e he) (Nat.not_lt.mpr hle)
  · exact hlast
  · exact absurd harch (by simpa using hyounger e he)

theorem sourceRef_zero (table : List RenameEntry) : sourceRef table ⟨.x, 0⟩ = .arch ⟨.x, 0⟩ := rfl

theorem sourceRef_of_unmapped {table : List RenameEntry} {r : ArchReg} (h : currentMapping table r = none) :
    sourceRef table r = .arch r := by
  simp [sourceRef, h]

theorem sourceRef_of_mapped {table : List RenameEntry} {r : ArchReg} {e : RenameEntry} (hr : r ≠ ⟨.x, 0⟩)
    (h : currentMapping table r = some e) : sourceRef table r = .spec e.spec := by
  simp [sourceRef, ArchReg.isZero, hr, h]

/-! ## Renaming one instruction (rules R232 to R236) -/

/-- A pool register as rename gives it out (rule R234). -/
def SpecReg.given (tag : Tag) : SpecReg := { state := .allocated, value := 0, tag := tag }

/-- `d` renamed in `s`: the references of its sources, and the destination it is given. -/
def State.renamed (s : State) (d : DynInst) (dest : Option (ArchReg × Nat)) : DynInst :=
  { d with
    src := (insSources s.cfg d.ins).map (sourceRef s.renameTable)
    dstArch := dest.map (·.1), dstSpec := dest.map (·.2) }

theorem renameOne_of_dest {s : State} {d : DynInst} {r : ArchReg} {tag : Tag} {j : Nat}
    (hdest : insDest s.cfg d.ins = some (r, tag)) (hfree : lowestFree s.pool = some j) :
    s.renameOne d = { s with
      pool := s.pool.set j (.given tag)
      renameTable := s.renameTable ++ [{ id := d.id, arch := r, spec := j }]
      decodeBuffer := s.decodeBuffer ++ [s.renamed d (some (r, j))] } := by
  unfold State.renameOne
  rw [hdest, hfree]
  rfl

theorem renameOne_of_none {s : State} {d : DynInst} (h : insDest s.cfg d.ins = none ∨ lowestFree s.pool = none) :
    s.renameOne d = { s with decodeBuffer := s.decodeBuffer ++ [s.renamed d none] } := by
  unfold State.renameOne
  rcases h with h | h
  · rw [h]; rfl
  · rw [h]; cases insDest s.cfg d.ins <;> rfl

/-- Whatever its destination, the renamed instruction goes last into the decode buffer with the references of its
sources. -/
theorem renameOne_decodeBuffer (s : State) (d : DynInst) :
    ∃ d', (s.renameOne d).decodeBuffer = s.decodeBuffer ++ [d'] ∧
      d'.src = (insSources s.cfg d.ins).map (sourceRef s.renameTable) := by
  cases hdest : insDest s.cfg d.ins with
  | none => exact ⟨_, by rw [renameOne_of_none (.inl hdest)], rfl⟩
  | some dest =>
    cases hfree : lowestFree s.pool with
    | none => exact ⟨_, by rw [renameOne_of_none (.inr hfree)], rfl⟩
    | some j => exact ⟨_, by rw [renameOne_of_dest hdest hfree], rfl⟩

/-- Settles O31: sources and destinations by cases on the format (`insDest_isa`, `insDest_named`); a reference is that of the
current mapping, the entry with the greatest id (`currentMapping_eq_some`). -/
theorem operandRegisters : Obligations.OperandRegisters := by
  unfold Obligations.OperandRegisters
  refine ⟨⟨fun cfg i => ?sources, renameOne_decodeBuffer, fun table r hinc => ⟨?zero, ?unmapped, ?mapped⟩⟩, insDest_isa,
    fun cfg n rd rs1 rs2 imm row hrow => ?named⟩
  case sources =>
    cases hformat : format i <;> simp [insSources, readsRs1, readsRs2, hformat]
  case zero => rintro rfl; exact sourceRef_zero table
  case unmapped => exact fun h => sourceRef_of_unmapped (currentMapping_eq_none h)
  case mapped =>
    exact fun hr e he harch hgreatest => sourceRef_of_mapped hr (currentMapping_eq_some hinc he harch hgreatest)
  case named =>
    rw [insDest_named hrow]
    rcases row.dest with _ | (_ | _) <;> rfl

/-! ## The pool (rules R231, R234) -/

/-- The pool has this register and it is free. -/
def FreeAt (pool : List SpecReg) (j : Nat) : Prop := (pool[j]?).map (·.state) = some .free

theorem lowestFree_eq_some_iff {pool : List SpecReg} {j : Nat} :
    lowestFree pool = some j ↔ FreeAt pool j ∧ ∀ i < j, ¬FreeAt pool i := by
  unfold lowestFree FreeAt
  rw [List.findIdx?_eq_some_iff_getElem]
  constructor
  · rintro ⟨hj, hfree, hlower⟩
    refine ⟨by simpa [hj] using hfree, fun i hi => ?_⟩
    simpa [hi.trans hj] using hlower i hi
  · rintro ⟨hfree, hlower⟩
    obtain ⟨p, hp, hstate⟩ := Option.map_eq_some_iff.mp hfree
    obtain ⟨hj, rfl⟩ := List.getElem?_eq_some_iff.mp hp
    refine ⟨hj, by simpa using hstate, fun i hi => ?_⟩
    simpa [hi.trans hj] using hlower i hi

theorem exists_lowestFree {pool : List SpecReg} (h : 0 < freeCount pool) : ∃ j, lowestFree pool = some j :=
  Option.isSome_iff_exists.mp (List.findIdx?_isSome.trans (List.any_eq_true.mpr (List.countP_pos_iff.mp h)))

/-- `q` is the pool `p` with these registers taken: they were free and are not, and every other register is kept. -/
structure PoolTakes (p : List SpecReg) (js : List Nat) (q : List SpecReg) : Prop where
  length : q.length = p.length
  kept : ∀ j ∉ js, q[j]? = p[j]?
  was_free : ∀ j ∈ js, FreeAt p j
  not_free : ∀ j ∈ js, ¬FreeAt q j

theorem PoolTakes.nil (p : List SpecReg) : PoolTakes p [] p := ⟨rfl, fun _ _ => rfl, nofun, nofun⟩

theorem PoolTakes.freeAt_iff {p q : List SpecReg} {js : List Nat} (h : PoolTakes p js q) (j : Nat) :
    FreeAt q j ↔ FreeAt p j ∧ j ∉ js := by
  by_cases hj : j ∈ js
  · simp [h.not_free j hj, hj]
  · simp [FreeAt, h.kept j hj, hj]

theorem PoolTakes.getElem?_of_not_free {p q : List SpecReg} {js : List Nat} (h : PoolTakes p js q) {j : Nat}
    (hj : ¬FreeAt p j) : q[j]? = p[j]? :=
  h.kept j fun hmem => hj (h.was_free j hmem)

theorem PoolTakes.append {p q r : List SpecReg} {js ks : List Nat} (h1 : PoolTakes p js q) (h2 : PoolTakes q ks r) :
    PoolTakes p (js ++ ks) r where
  length := h2.length.trans h1.length
  kept j hj := by
    rw [List.mem_append, not_or] at hj
    rw [h2.kept j hj.2, h1.kept j hj.1]
  was_free j hj := by
    rcases List.mem_append.mp hj with hj | hj
    · exact h1.was_free j hj
    · exact ((h1.freeAt_iff j).mp (h2.was_free j hj)).1
  not_free j hj hfree := by
    rcases List.mem_append.mp hj with hj | hj
    · exact h1.not_free j hj ((h2.freeAt_iff j).mp hfree).1
    · exact h2.not_free j hj hfree

section
variable {pool : List SpecReg} {j : Nat}

theorem FreeAt.lt_length (h : FreeAt pool j) : j < pool.length := by
  obtain ⟨p, hp, -⟩ := Option.map_eq_some_iff.mp h
  exact (List.getElem?_eq_some_iff.mp hp).1

theorem FreeAt.getElem?_set_given (h : FreeAt pool j) (tag : Tag) :
    (pool.set j (.given tag))[j]? = some (.given tag) := List.getElem?_set_self h.lt_length

theorem FreeAt.takes (h : FreeAt pool j) (tag : Tag) : PoolTakes pool [j] (pool.set j (.given tag)) where
  length := List.length_set
  kept i hi := List.getElem?_set_ne (Ne.symm (List.mem_singleton.not.mp hi))
  was_free i hi := by rwa [List.mem_singleton.mp hi]
  not_free i hi := by
    rw [List.mem_singleton.mp hi, FreeAt, h.getElem?_set_given]
    nofun

theorem FreeAt.freeCount_set_given (h : FreeAt pool j) (tag : Tag) :
    freeCount (pool.set j (.given tag)) + 1 = freeCount pool := by
  have hlt := h.lt_length
  have hj : decide (pool[j].state = .free) = true := by simpa [FreeAt, hlt] using h
  have hpos : 0 < freeCount pool := List.countP_pos_iff.mpr ⟨pool[j], List.getElem_mem hlt, hj⟩
  unfold freeCount at *
  rw [List.countP_set hlt, if_pos hj, if_neg (by simp [SpecReg.given])]
  omega

end

/-- A register that is taken after `js` and before `ks` is the lowest free one that `js` leaves, and `ks` keeps it given
out. -/
theorem PoolTakes.lowestFree_between {p q r : List SpecReg} {js ks : List Nat} {j : Nat} {tag : Tag}
    (hbefore : PoolTakes p js q) (hlowest : lowestFree q = some j) (hafter : PoolTakes (q.set j (.given tag)) ks r) :
    FreeAt p j ∧ j ∉ js ∧ (∀ i < j, FreeAt p i → i ∈ js) ∧ r[j]? = some (.given tag) := by
  obtain ⟨hfree, hlower⟩ := lowestFree_eq_some_iff.mp hlowest
  obtain ⟨hp, hj⟩ := (hbefore.freeAt_iff j).mp hfree
  refine ⟨hp, hj, fun i hi hpi => ?_, ?_⟩
  · by_contra hi'
    exact hlower i hi ((hbefore.freeAt_iff i).mpr ⟨hpi, hi'⟩)
  · rw [hafter.getElem?_of_not_free ((hfree.takes tag).not_free j (List.mem_singleton_self j))]
    exact hfree.getElem?_set_given tag

/-! ## One instruction of a group -/

/-- The entry of the rename table that a renamed instruction has (rule R236). -/
def DynInst.mapping (d : DynInst) : Option RenameEntry :=
  d.dstArch.bind fun r => d.dstSpec.map fun j => RenameEntry.mk d.id r j

/-- `t` is `s` with these renamed instructions at the end of the decode buffer and their entries at the end of the table;
the pool is any. -/
def State.Decoded (s : State) (ds : List DynInst) (t : State) : Prop :=
  t = { s with
    decodeBuffer := s.decodeBuffer ++ ds, renameTable := s.renameTable ++ ds.filterMap (·.mapping), pool := t.pool }

theorem State.Decoded.cons {s r t : State} {d : DynInst} {ds : List DynInst} (h1 : s.Decoded [d] r) (h2 : r.Decoded ds t) :
    s.Decoded (d :: ds) t := by
  have happend : (d :: ds).filterMap (·.mapping) = [d].filterMap (·.mapping) ++ ds.filterMap (·.mapping) :=
    List.filterMap_append (l := [d])
  unfold State.Decoded at *
  rw [h1] at h2
  simpa [happend] using h2

/-- The destination a renamed instruction has: none where it writes no register, else the lowest free index of the pool,
which is given out (rules R234, R235). -/
inductive TakesDest (p : List SpecReg) (d : DynInst) : Option (ArchReg × Tag) → List SpecReg → Prop
  | nothing (harch : d.dstArch = none) (hspec : d.dstSpec = none) : TakesDest p d none p
  | lowest {r : ArchReg} {tag : Tag} {j : Nat} (hlowest : lowestFree p = some j) (harch : d.dstArch = some r)
      (hspec : d.dstSpec = some j) : TakesDest p d (some (r, tag)) (p.set j (.given tag))

theorem TakesDest.takes {p q : List SpecReg} {d : DynInst} {dest : Option (ArchReg × Tag)} (h : TakesDest p d dest q) :
    PoolTakes p d.dstSpec.toList q := by
  cases h with
  | nothing _ hspec => rw [hspec]; exact .nil p
  | lowest hlowest _ hspec => rw [hspec]; exact (lowestFree_eq_some_iff.mp hlowest).1.takes _

theorem TakesDest.freeCount {p q : List SpecReg} {d : DynInst} {dest : Option (ArchReg × Tag)} (h : TakesDest p d dest q) :
    freeCount q + (if dest.isSome then 1 else 0) = freeCount p := by
  cases h with
  | nothing => rfl
  | lowest hlowest => exact (lowestFree_eq_some_iff.mp hlowest).1.freeCount_set_given _

theorem takesDest_none {p q : List SpecReg} {d : DynInst} (h : TakesDest p d none q) :
    d.dstArch = none ∧ d.dstSpec = none := by
  cases h with
  | nothing harch hspec => exact ⟨harch, hspec⟩

theorem takesDest_some {p q : List SpecReg} {d : DynInst} {r : ArchReg} {tag : Tag} (h : TakesDest p d (some (r, tag)) q) :
    d.dstArch = some r ∧ ∃ j, d.dstSpec = some j ∧ lowestFree p = some j ∧ q = p.set j (.given tag) := by
  cases h with
  | lowest hlowest harch hspec => exact ⟨harch, _, hspec, hlowest, rfl⟩

/-- Renaming `d0` in `s` gives `d` and `t` (rules R232 to R236). -/
structure State.Renames (s : State) (d0 d : DynInst) (t : State) : Prop where
  fields : d = { d0 with src := d.src, dstArch := d.dstArch, dstSpec := d.dstSpec }
  src : d.src = (insSources s.cfg d0.ins).map (sourceRef s.renameTable)
  dest : TakesDest s.pool d (insDest s.cfg d0.ins) t.pool
  decoded : s.Decoded [d] t

theorem State.Renames.cfg {s t : State} {d0 d : DynInst} (h : s.Renames d0 d t) : t.cfg = s.cfg := by rw [h.decoded]

/-- An instruction that writes a register needs a free one. -/
theorem renameOne_renames {s : State} {d0 : DynInst}
    (hroom : (insDest s.cfg d0.ins).isSome → 0 < freeCount s.pool) : ∃ d, s.Renames d0 d (s.renameOne d0) := by
  cases hdest : insDest s.cfg d0.ins with
  | none =>
    rw [renameOne_of_none (.inl hdest)]
    exact ⟨s.renamed d0 none, rfl, rfl, hdest ▸ .nothing rfl rfl, by simp [State.Decoded, State.renamed, DynInst.mapping]⟩
  | some dest =>
    obtain ⟨j, hfree⟩ := exists_lowestFree (hroom (by rw [hdest]; rfl))
    rw [renameOne_of_dest hdest hfree]
    exact ⟨s.renamed d0 (some (dest.1, j)), rfl, rfl, hdest ▸ .lowest hfree rfl rfl,
      by simp [State.Decoded, State.renamed, DynInst.mapping]⟩

/-! ## A group -/

/-- Renaming the instructions `ds0` one after another in `s` gives `ds` and `t`. -/
inductive State.RenamesGroup : State → List DynInst → List DynInst → State → Prop
  | nil (s : State) : s.RenamesGroup [] [] s
  | cons {s r t : State} {d0 d : DynInst} {ds0 ds : List DynInst} (first : s.Renames d0 d r)
      (rest : r.RenamesGroup ds0 ds t) : s.RenamesGroup (d0 :: ds0) (d :: ds) t

theorem renameNeed_cons (cfg : Cfg) (d : DynInst) (ds : List DynInst) :
    renameNeed cfg (d :: ds) = renameNeed cfg ds + if (insDest cfg d.ins).isSome then 1 else 0 := List.countP_cons

/-- A group whose need the pool covers is renamed whole (rule R231). -/
theorem foldl_renameOne_renamesGroup (ds0 : List DynInst) : ∀ s : State, renameNeed s.cfg ds0 ≤ freeCount s.pool →
    ∃ ds, s.RenamesGroup ds0 ds (ds0.foldl State.renameOne s) := by
  induction ds0 with
  | nil => exact fun s _ => ⟨[], .nil s⟩
  | cons d0 ds0 ih =>
    intro s hneed
    rw [renameNeed_cons] at hneed
    obtain ⟨d, first⟩ := renameOne_renames (s := s) (d0 := d0) fun hdest => by
      rw [if_pos hdest] at hneed; omega
    have hcount := first.dest.freeCount
    obtain ⟨ds, rest⟩ := ih (s.renameOne d0) (by rw [first.cfg]; omega)
    exact ⟨d :: ds, .cons first rest⟩

section
variable {s t : State} {ds0 ds : List DynInst}

theorem State.RenamesGroup.decoded (h : s.RenamesGroup ds0 ds t) : s.Decoded ds t := by
  induction h with
  | nil s => simp [State.Decoded]
  | cons first _ ih => exact first.decoded.cons ih

theorem State.RenamesGroup.length (h : s.RenamesGroup ds0 ds t) : ds.length = ds0.length := by
  induction h with
  | nil => rfl
  | cons _ _ ih => exact congrArg (· + 1) ih

/-- The registers a group takes are its destinations. -/
theorem State.RenamesGroup.takes (h : s.RenamesGroup ds0 ds t) : PoolTakes s.pool (ds.filterMap (·.dstSpec)) t.pool := by
  induction h with
  | nil s => exact .nil s.pool
  | @cons s r t d0 d ds0 ds first _ ih =>
    have happend : (d :: ds).filterMap (·.dstSpec) = d.dstSpec.toList ++ ds.filterMap (·.dstSpec) := by
      cases hspec : d.dstSpec <;> simp [hspec]
    rw [happend]
    exact first.dest.takes.append ih

theorem State.RenamesGroup.freeCount (h : s.RenamesGroup ds0 ds t) :
    freeCount t.pool + renameNeed s.cfg ds0 = freeCount s.pool := by
  induction h with
  | nil => rfl
  | @cons s r t d0 d ds0 ds first _ ih =>
    rw [first.cfg] at ih
    have hcount := first.dest.freeCount
    rw [renameNeed_cons]
    omega

/-- The `k`-th instruction is renamed in the state that those before it leave, and those after it start where it ends. -/
theorem State.RenamesGroup.split (h : s.RenamesGroup ds0 ds t) : ∀ {k d0 d}, ds0[k]? = some d0 → ds[k]? = some d →
    ∃ r r' : State, s.RenamesGroup (ds0.take k) (ds.take k) r ∧ r.Renames d0 d r' ∧
      r'.RenamesGroup (ds0.drop (k + 1)) (ds.drop (k + 1)) t := by
  induction h with
  | nil => exact nofun
  | @cons s r t d0 d ds0 ds first rest ih =>
    rintro (_ | k) e0 e h0 h
    · obtain rfl : d0 = e0 := by simpa using h0
      obtain rfl : d = e := by simpa using h
      exact ⟨s, r, .nil s, first, rest⟩
    · obtain ⟨r1, r2, holder, hone, hyounger⟩ := ih h0 h
      exact ⟨r1, r2, .cons first holder, hone, hyounger⟩

theorem State.RenamesGroup.cfg (h : s.RenamesGroup ds0 ds t) : t.cfg = s.cfg := by rw [h.decoded]

end

/-! ## All or nothing (rule R231) -/

theorem rename_of_blocked {s : State}
    (h : ¬(s.decodeBuffer = [] ∧ s.fetchBuffer ≠ [] ∧ renameNeed s.cfg s.fetchBuffer ≤ freeCount s.pool)) :
    s.rename = s := by
  unfold State.rename
  refine if_neg fun hgo => h ?_
  simpa [and_assoc] using hgo

theorem rename_of_room {s : State} (hdecode : s.decodeBuffer = []) (hfetch : s.fetchBuffer ≠ [])
    (hroom : renameNeed s.cfg s.fetchBuffer ≤ freeCount s.pool) :
    s.rename = s.fetchBuffer.foldl State.renameOne { s with fetchBuffer := [] } := by
  unfold State.rename
  exact if_pos (by simp [hdecode, hfetch, hroom])

/-- Settles O32: the group is renamed one after another (`foldl_renameOne_renamesGroup`); the `k`-th instruction is renamed
between the older and the younger ones (`State.RenamesGroup.split`), and the pool loses what the group takes. -/
theorem renameGroup : Obligations.RenameGroup := by
  unfold Obligations.RenameGroup
  refine fun s => ⟨rename_of_blocked, fun hdecode hfetch hroom => ?_⟩
  rw [rename_of_room hdecode hfetch hroom]
  obtain ⟨ds, hgroup⟩ := foldl_renameOne_renamesGroup s.fetchBuffer { s with fetchBuffer := [] } hroom
  generalize s.fetchBuffer.foldl State.renameOne { s with fetchBuffer := [] } = t at *
  have hstate := hgroup.decoded
  have hbuffer : t.decodeBuffer = ds := by rw [hstate]; simp [hdecode]
  have htable : t.renameTable = s.renameTable ++ ds.filterMap (·.mapping) := by rw [hstate]
  subst hbuffer
  refine ⟨?frame, hgroup.length, fun k d0 d h0 hd => ?entry, htable, hgroup.takes.length, fun j hj => ?kept,
    hgroup.freeCount⟩
  case frame => rwa [State.Decoded, hdecode, List.nil_append, ← htable] at hstate
  case kept => exact hgroup.takes.kept j (by simpa using hj)
  case entry =>
    obtain ⟨r, r', holder, hone, hyounger⟩ := hgroup.split h0 hd
    have hcfg : r.cfg = s.cfg := holder.cfg
    have hr : r.renameTable = s.renameTable ++ (t.decodeBuffer.take k).filterMap (·.mapping) := by rw [holder.decoded]
    obtain ⟨hfields, hsrc, hdest, -⟩ := hone
    rw [hcfg] at hsrc hdest
    rw [hr] at hsrc
    refine ⟨hfields, hsrc, fun hnone => takesDest_none (hnone ▸ hdest), fun a tag hsome => ?_⟩
    obtain ⟨harch, j, hspec, hlowest, hpool⟩ := takesDest_some (hsome ▸ hdest)
    obtain ⟨hfree, hnew, hlower, hgiven⟩ := holder.takes.lowestFree_between hlowest (hpool ▸ hyounger.takes)
    exact ⟨harch, j, hspec, hfree, by simpa using hnew, fun i hi hi' => List.mem_filterMap.mp (hlower i hi hi'), hgiven⟩

end Sys2Proof.Machine
end

section
/-! Dispatch (`51_rename_dispatch.md` rules R241, R242). The loop is a split of the decode buffer into the instructions that
go and the rest (`dispatchLoop_splits`), and `dispatchGroup_eq` is the state after any number of those that go, so every
clause is about it. -/

namespace Sys2Proof.Machine

/-- The state in which `gone` have been dispatched, one after another (rule R242). -/
def State.dispatchGroup (s : State) (gone : List DynInst) : State := gone.foldl State.dispatchOne s

theorem dispatchGroup_nil (s : State) : s.dispatchGroup [] = s := rfl

theorem dispatchGroup_cons (s : State) (d : DynInst) (gone : List DynInst) :
    s.dispatchGroup (d :: gone) = (s.dispatchOne d).dispatchGroup gone := rfl

/-- What a group leaves behind: each part of the state grows by those of the group that go there (rule R242). -/
theorem dispatchGroup_eq (gone : List DynInst) : ∀ s : State,
    s.dispatchGroup gone = { s with
      rob := s.rob ++ gone.map fun d => { d with window := some (insClass d.ins) }
      win := (s.dispatchGroup gone).win
      loadBuffer := s.loadBuffer ++ (gone.filter fun d => isLoad d.ins).map fun d => LsItem.fresh d.id
      storeBuffer := s.storeBuffer ++ (gone.filter fun d => isStore d.ins).map fun d => LsItem.fresh d.id } := by
  induction gone with
  | nil => intro s; simp [dispatchGroup_nil]
  | cons d gone ih =>
    intro s
    rw [dispatchGroup_cons, ih]
    cases hload : isLoad d.ins <;> cases hstore : isStore d.ins <;> simp [State.dispatchOne, hload, hstore]

/-- Each window holds at its end the ids of those of the group that are of its class, in order. -/
theorem dispatchGroup_win_at (c : IClass) (gone : List DynInst) : ∀ s : State,
    (s.dispatchGroup gone).win.at c = s.win.at c ++ (gone.filter fun d => decide (insClass d.ins = c)).map (·.id) := by
  induction gone with
  | nil => intro s; simp [dispatchGroup_nil]
  | cons d gone ih =>
    intro s
    rw [dispatchGroup_cons, ih]
    by_cases hc : insClass d.ins = c
    · subst hc; simp [State.dispatchOne]
    · simp [State.dispatchOne, hc, Ne.symm hc]

/-- An instruction fits after a group exactly where everything it goes to has a free place, the group's counted
(rule R241). -/
theorem dispatchGroup_fits_iff (s : State) (gone : List DynInst) (d : DynInst) :
    (s.dispatchGroup gone).dispatchBlocked d = false ↔
      s.rob.length + gone.length < s.cfg.robSize ∧
      (s.win.at (insClass d.ins)).length + gone.countP (fun e => decide (insClass e.ins = insClass d.ins)) < s.cfg.iwSize ∧
      (isLoad d.ins = true → s.loadBuffer.length + gone.countP (fun e => isLoad e.ins) < s.cfg.lbSize) ∧
      (isStore d.ins = true → s.storeBuffer.length + gone.countP (fun e => isStore e.ins) < s.cfg.sbSize) := by
  rw [dispatchBlocked_eq_false_iff, dispatchGroup_win_at, dispatchGroup_eq]
  simp [List.countP_eq_length_filter]

theorem dispatchLoop_nil (s : State) : dispatchLoop [] s = { s with decodeBuffer := [] } := rfl

theorem dispatchLoop_blocked {s : State} {d : DynInst} (ds : List DynInst) (h : s.dispatchBlocked d = true) :
    dispatchLoop (d :: ds) s = { s with decodeBuffer := d :: ds } := if_pos h

theorem dispatchLoop_fits {s : State} {d : DynInst} (ds : List DynInst) (h : s.dispatchBlocked d = false) :
    dispatchLoop (d :: ds) s = dispatchLoop ds (s.dispatchOne d) := if_neg (Bool.eq_false_iff.mp h)

/-- The loop takes a first part of the list whose every instruction fits after those before it, and the first of the rest
does not (rule R241). -/
theorem dispatchLoop_splits (ds : List DynInst) : ∀ s : State, ∃ gone rest, ds = gone ++ rest ∧
    dispatchLoop ds s = { s.dispatchGroup gone with decodeBuffer := rest } ∧
    (∀ k d, gone[k]? = some d → (s.dispatchGroup (gone.take k)).dispatchBlocked d = false) ∧
    ∀ d, rest.head? = some d → (s.dispatchGroup gone).dispatchBlocked d = true := by
  induction ds with
  | nil => exact fun s => ⟨[], [], rfl, dispatchLoop_nil s, by simp, by simp⟩
  | cons d ds ih =>
    intro s
    cases hblocked : s.dispatchBlocked d with
    | true =>
      refine ⟨[], d :: ds, rfl, dispatchLoop_blocked ds hblocked, by simp, fun e he => ?_⟩
      obtain rfl : d = e := by simpa using he
      exact hblocked
    | false =>
      obtain ⟨gone, rest, hds, hloop, hfits, hstop⟩ := ih (s.dispatchOne d)
      refine ⟨d :: gone, rest, by rw [hds, List.cons_append], (dispatchLoop_fits ds hblocked).trans hloop, ?_, hstop⟩
      rintro (_ | k) e he
      · obtain rfl : d = e := by simpa using he
        exact hblocked
      · exact hfits k e he

/-- Settles O33: the loop's split (`dispatchLoop_splits`); the state and the windows are the group's, and a free place after
those before is `dispatchGroup_fits_iff`. -/
theorem dispatchInOrder : Obligations.DispatchInOrder := by
  unfold Obligations.DispatchInOrder
  intro s t
  obtain ⟨gone, rest, hsplit, hloop, hfits, hstop⟩ := dispatchLoop_splits s.decodeBuffer s
  have ht : t = { s.dispatchGroup gone with decodeBuffer := rest } := hloop
  refine ⟨gone, rest, hsplit, ?state, fun c => ?window, fun k d hd => ?fits, fun d hd => ?stops⟩
  case state =>
    rw [ht, dispatchGroup_eq]
    rfl
  case window => rw [ht]; exact dispatchGroup_win_at c gone s
  case fits =>
    have hlen : (gone.take k).length = k :=
      List.length_take_of_le (List.getElem?_eq_some_iff.mp hd).1.le
    have h := (dispatchGroup_fits_iff s (gone.take k) d).mp (hfits k d hd)
    rwa [hlen] at h
  case stops =>
    have hblocked := hstop d hd
    have hcfg : (s.dispatchGroup gone).cfg = s.cfg := by rw [dispatchGroup_eq]
    simpa [State.dispatchBlocked, ht, hcfg, or_assoc] using hblocked

end Sys2Proof.Machine
end

section
/-! Stage 5 (`52_issue_execute.md` rules R251 to R255). Examining one instruction leaves it waiting or issues it
(`issueOne_cases`); `State.Issues` is what any number of examinations do, and an instruction that waits goes on waiting
under it, because units only get busier while the pool and the sources stay. -/

namespace Sys2Proof.Machine

/-! ## The unit picked (rule R254) -/

section
variable {s : State} {p : FuncUnit → Bool} {u : Nat}

theorem unitFree_iff :
    s.unitFree p u = true ↔
      ∃ c f, s.cfg.fus[u]? = some c ∧ s.fu[u]? = some f ∧ f.ins = none ∧ p c = true := by
  unfold State.unitFree
  cases hc : s.cfg.fus[u]? with
  | none => simp
  | some c => cases hf : s.fu[u]? <;> simp [and_comm]

/-- A unit outside `cfg.fus` is never free, so the search over the list is a search over all numbers. -/
theorem lt_length_of_unitFree (h : s.unitFree p u = true) : u < s.cfg.fus.length := by
  obtain ⟨c, f, hc, -⟩ := unitFree_iff.mp h
  exact (List.getElem?_eq_some_iff.mp hc).1

theorem pickUnit_eq_some_iff :
    s.pickUnit p = some u ↔ s.unitFree p u = true ∧ ∀ v < u, ¬s.unitFree p v = true := by
  simp only [State.pickUnit, List.find?_range_eq_some, List.mem_range, Bool.not_eq_true, Bool.not_eq_true']
  exact ⟨fun ⟨hfree, _, hbefore⟩ => ⟨hfree, hbefore⟩,
    fun ⟨hfree, hbefore⟩ => ⟨hfree, lt_length_of_unitFree hfree, hbefore⟩⟩

theorem pickUnit_eq_none_iff : s.pickUnit p = none ↔ ∀ u, ¬s.unitFree p u = true := by
  simp only [State.pickUnit, List.find?_eq_none, List.mem_range]
  exact ⟨fun h u hfree => h u (lt_length_of_unitFree hfree) hfree, fun h u _ => h u⟩

end

/-- Settles O34: the search over `cfg.fus` is for the least free unit (`pickUnit_eq_some_iff`), and free is what the
statement calls a candidate (`compatible_iff`). -/
theorem unitSelection : Obligations.UnitSelection := by
  unfold Obligations.UnitSelection
  intro s i type candidate
  have htype : type = unitType (insClass i) := rfl
  have hcandidate : ∀ u, s.unitFree (compatible s.cfg i) u = true ↔ candidate u := by
    intro u
    rw [unitFree_iff]
    refine exists_congr fun c => exists_congr fun f => and_congr_right fun _ => and_congr_right fun _ =>
      and_congr_right fun _ => ?_
    rw [compatible_iff, htype]
    exact and_congr_right fun hc => by rw [hc]
  simp only [pickUnit_eq_some_iff, pickUnit_eq_none_iff, hcandidate]
  exact ⟨fun _ => trivial, trivial⟩

/-! ## The reorder buffer and the units under an update -/

/-- An update that keeps ids is seen by the search for an id. -/
theorem robFind_robUpdate {g : DynInst → DynInst} (hg : ∀ d, (g d).id = d.id) (s : State) (id j : Nat) :
    (s.robUpdate id g).robFind j = (s.robFind j).map fun d => if d.id = id then g d else d := by
  have hid : ∀ d : DynInst, (if d.id = id then g d else d).id = d.id := fun d => by split <;> simp [hg]
  simp [State.robFind, State.robUpdate, List.find?_map, hid]

theorem robUpdate_robUpdate {g : DynInst → DynInst} (hg : ∀ d, (g d).id = d.id) (s : State) (id : Nat)
    (h : DynInst → DynInst) : (s.robUpdate id g).robUpdate id h = s.robUpdate id (h ∘ g) := by
  simp only [State.robUpdate, List.map_map, State.mk.injEq, true_and, and_true]
  refine List.map_congr_left fun d _ => ?_
  by_cases hd : d.id = id <;> simp [hd, hg]

/-- An update that keeps the sources too leaves what issue reads of an instruction. -/
theorem robFind_source_robUpdate {g : DynInst → DynInst} (hg : ∀ d, (g d).id = d.id)
    (hsource : ∀ d, ((g d).src, (g d).ins) = (d.src, d.ins)) (s : State) (id j : Nat) :
    ((s.robUpdate id g).robFind j).map (fun d => (d.src, d.ins)) = (s.robFind j).map fun d => (d.src, d.ins) := by
  rw [robFind_robUpdate hg, Option.map_map]
  congr 1
  funext d
  by_cases hd : d.id = id <;> simp [hd, hsource]

theorem id_of_robFind {s : State} {id : Nat} {d : DynInst} (h : s.robFind id = some d) : d.id = id := by
  simpa using List.find?_some h

/-! ## One instruction examined (rules R252, R253, R255) -/

theorem refReady_spec_iff (s : State) (k : Nat) :
    s.refReady (.spec k) = true ↔ (s.pool[k]?).map (·.state) = some .executed := decide_eq_true_iff

theorem ready_iff {s : State} {d : DynInst} :
    s.ready d = true ↔ ∀ k, SrcRef.spec k ∈ d.src → (s.pool[k]?).map (·.state) = some .executed := by
  simp only [State.ready, List.all_eq_true, ← refReady_spec_iff]
  refine ⟨fun h k hk => h _ hk, fun h r hr => ?_⟩
  cases r with
  | arch r => rfl
  | spec k => exact h k hr

/-- The instruction with this id, if the reorder buffer holds it, cannot be issued: it is not ready, or no unit can take
it. -/
def State.Waits (s : State) (id : Nat) : Prop :=
  ∀ d, s.robFind id = some d → ¬s.ready d = true ∨ s.pickUnit (compatible s.cfg d.ins) = none

theorem issueOne_of_waits {s : State} {id : Nat} (c : IClass) (h : s.Waits id) : s.issueOne c id = s := by
  unfold State.issueOne
  cases hd : s.robFind id with
  | none => rfl
  | some d => rcases h d hd with hready | hunit <;> simp [*]

theorem issueOne_of_ready {s : State} {id u : Nat} {d : DynInst} (c : IClass) (hd : s.robFind id = some d)
    (hready : s.ready d = true) (hu : s.pickUnit (compatible s.cfg d.ins) = some u) :
    s.issueOne c id = s.issueTo c d u := by
  simp [State.issueOne, hd, hready, hu]

/-- An instruction examined waits, and nothing changes, or is issued. -/
theorem issueOne_cases (c : IClass) (s : State) (id : Nat) :
    (s.Waits id ∧ s.issueOne c id = s) ∨
      ∃ d u, s.robFind id = some d ∧ s.pickUnit (compatible s.cfg d.ins) = some u ∧
        s.issueOne c id = s.issueTo c d u := by
  by_cases hwaits : s.Waits id
  · exact .inl ⟨hwaits, issueOne_of_waits c hwaits⟩
  · simp only [State.Waits, not_forall, not_or, not_not] at hwaits
    obtain ⟨d, hd, hready, hunit⟩ := hwaits
    obtain ⟨u, hu⟩ := Option.ne_none_iff_exists'.mp hunit
    exact .inr ⟨d, u, hd, hu, issueOne_of_ready c hd hready hu⟩

/-- What issue writes, as one update of each component (rule R255). -/
theorem issueTo_eq (s : State) (c : IClass) (d : DynInst) (u : Nat) :
    s.issueTo c d u = { s with
      win := s.win.put c ((s.win.at c).filter fun i => decide (i ≠ d.id))
      fu := s.fu.modify u fun f => { f with ins := some d.id, counter := 0, total := unitDelay s.cfg u }
      rob := s.rob.map fun e =>
        if e.id = d.id then { e with opv := some (s.latchOperands d), fu := some u, window := none } else e } := by
  rw [State.issueTo, State.occupy, robUpdate_robUpdate]
  · rfl
  · exact fun _ => rfl

/-! ## Any number of examinations -/

/-- What examining instructions does: sources, pool and configuration stay, windows only lose instructions, a busy unit
keeps its own, and what leaves a window is in a unit that was idle. -/
structure State.Issues (s t : State) : Prop where
  cfg : t.cfg = s.cfg
  pool : t.pool = s.pool
  rob : ∀ id, (t.robFind id).map (fun d => (d.src, d.ins)) = (s.robFind id).map fun d => (d.src, d.ins)
  win : ∀ c id, id ∈ t.win.at c → id ∈ s.win.at c
  unit : ∀ (u : Nat) (g : FuState), t.fu[u]? = some g → ∃ f : FuState, s.fu[u]? = some f ∧ (f.ins = none ∨ g = f)
  busy : ∀ (u : Nat) (f : FuState), s.fu[u]? = some f → f.ins ≠ none → t.fu[u]? = some f
  left : ∀ c id, id ∈ s.win.at c → id ∉ t.win.at c →
    ∃ (u : Nat) (f g : FuState), s.fu[u]? = some f ∧ t.fu[u]? = some g ∧ f.ins = none ∧ g.ins = some id

theorem State.Issues.refl (s : State) : s.Issues s :=
  ⟨rfl, rfl, fun _ => rfl, fun _ _ h => h, fun _ g hg => ⟨g, hg, .inr rfl⟩, fun _ _ h _ => h,
    fun _ _ h hn => absurd h hn⟩

section
variable {s r t : State}

/-- A unit that is idle later was idle before. -/
theorem State.Issues.idle (h : s.Issues t) {u : Nat} {g : FuState} (hg : t.fu[u]? = some g) (hidle : g.ins = none) :
    ∃ f : FuState, s.fu[u]? = some f ∧ f.ins = none := by
  obtain ⟨f, hf, hnone | rfl⟩ := h.unit u g hg
  · exact ⟨f, hf, hnone⟩
  · exact ⟨g, hf, hidle⟩

theorem State.Issues.trans (h1 : s.Issues r) (h2 : r.Issues t) : s.Issues t where
  cfg := h2.cfg.trans h1.cfg
  pool := h2.pool.trans h1.pool
  rob id := (h2.rob id).trans (h1.rob id)
  win c id h := h1.win c id (h2.win c id h)
  unit u g hg := by
    obtain ⟨f, hf, hidle | rfl⟩ := h2.unit u g hg
    · obtain ⟨e, he, hnone⟩ := h1.idle hf hidle
      exact ⟨e, he, .inl hnone⟩
    · exact h1.unit u g hf
  busy u f hf hbusy := h2.busy u f (h1.busy u f hf hbusy) hbusy
  left c id hs ht := by
    by_cases hr : id ∈ r.win.at c
    · obtain ⟨u, f, g, hf, hg, hidle, hins⟩ := h2.left c id hr ht
      obtain ⟨e, he, hnone⟩ := h1.idle hf hidle
      exact ⟨u, e, g, he, hg, hnone, hins⟩
    · obtain ⟨u, f, g, hf, hg, hidle, hins⟩ := h1.left c id hs hr
      exact ⟨u, f, g, hf, h2.busy u g hg (by simp [hins]), hidle, hins⟩

theorem State.Issues.pickUnit_none (h : s.Issues t) {p : FuncUnit → Bool} (hnone : s.pickUnit p = none) :
    t.pickUnit p = none := by
  rw [pickUnit_eq_none_iff] at hnone ⊢
  intro u hfree
  obtain ⟨c, g, hc, hg, hidle, hp⟩ := unitFree_iff.mp hfree
  obtain ⟨f, hf, hnone'⟩ := h.idle hg hidle
  exact hnone u (unitFree_iff.mpr ⟨c, f, h.cfg ▸ hc, hf, hnone', hp⟩)

/-- An instruction that waits goes on waiting while others are examined. -/
theorem State.Issues.waits (h : s.Issues t) {id : Nat} (hwaits : s.Waits id) : t.Waits id := by
  intro d hd
  have hrob := h.rob id
  rw [hd, eq_comm, Option.map_some, Option.map_eq_some_iff] at hrob
  obtain ⟨e, he, heq⟩ := hrob
  obtain ⟨hsrc, hins⟩ := Prod.mk.inj heq
  refine (hwaits e he).imp (fun hready => ?_) fun hunit => ?_
  · rwa [ready_iff, h.pool, ← hsrc, ← ready_iff]
  · rw [h.cfg, ← hins]; exact h.pickUnit_none hunit

end

/-- Issue to a unit that is free. -/
theorem issueTo_issues {s : State} {d : DynInst} {u : Nat} {p : FuncUnit → Bool} (c : IClass)
    (hu : s.pickUnit p = some u) : s.Issues (s.issueTo c d u) := by
  obtain ⟨-, f, -, hf, hidle, -⟩ := unitFree_iff.mp (pickUnit_eq_some_iff.mp hu).1
  rw [issueTo_eq]
  refine ⟨rfl, rfl, fun j => ?rob, fun c' j hj => ?win, fun w g hg => ?unit, fun w e he hbusy => ?busy,
    fun c' j hs ht => ?left⟩
  case rob =>
    exact robFind_source_robUpdate
      (g := fun e => { e with opv := some (s.latchOperands d), fu := some u, window := none }) (fun _ => rfl)
      (fun _ => rfl) s d.id j
  case win =>
    by_cases hc : c' = c
    · subst hc
      exact (by simpa using hj : j ∈ s.win.at c' ∧ j ≠ d.id).1
    · simpa [hc] using hj
  case unit =>
    by_cases hw : u = w
    · subst hw; exact ⟨f, hf, .inl hidle⟩
    · exact ⟨g, by simpa [List.getElem?_modify, hw] using hg, .inr rfl⟩
  case busy =>
    have hother : u ≠ w := by
      rintro rfl
      exact hbusy (Option.some.inj (hf ▸ he) ▸ hidle)
    simpa [List.getElem?_modify, hother] using he
  case left =>
    by_cases hc : c' = c
    · subst hc
      obtain rfl : j = d.id := by simpa [hs] using ht
      exact ⟨u, f, { f with ins := some d.id, counter := 0, total := unitDelay s.cfg u }, hf, by simp [hf], hidle,
        rfl⟩
    · exact absurd hs (by simpa [hc] using ht)

theorem issueOne_issues (c : IClass) (s : State) (id : Nat) : s.Issues (s.issueOne c id) := by
  rcases issueOne_cases c s id with ⟨-, heq⟩ | ⟨d, u, -, hu, heq⟩ <;> rw [heq]
  · exact .refl s
  · exact issueTo_issues c hu

theorem foldl_issueOne_issues (c : IClass) (ids : List Nat) (s : State) : s.Issues (ids.foldl (State.issueOne c) s) :=
  foldl_rel .refl .trans (issueOne_issues c) ids s

theorem issueWindow_issues (s : State) (c : IClass) : s.Issues (s.issueWindow c) := foldl_issueOne_issues c _ s

/-- An instruction that an examination leaves in its window waits. -/
theorem issueOne_waits {c : IClass} {s : State} {id : Nat} (h : id ∈ (s.issueOne c id).win.at c) :
    (s.issueOne c id).Waits id := by
  rcases issueOne_cases c s id with ⟨hwaits, heq⟩ | ⟨d, u, hd, -, heq⟩
  · rwa [heq]
  · rw [heq, issueTo_eq, id_of_robFind hd] at h
    simp at h

theorem foldl_issueOne_waits {c : IClass} {id : Nat} (ids : List Nat) : ∀ s : State, id ∈ ids →
    id ∈ (ids.foldl (State.issueOne c) s).win.at c → (ids.foldl (State.issueOne c) s).Waits id := by
  induction ids with
  | nil => exact fun _ h => absurd h List.not_mem_nil
  | cons i ids ih =>
    intro s hmem hleft
    by_cases hrest : id ∈ ids
    · exact ih _ hrest hleft
    · obtain rfl : id = i := (List.mem_cons.mp hmem).resolve_right hrest
      have hlater := foldl_issueOne_issues c ids (s.issueOne c id)
      exact hlater.waits (issueOne_waits (hlater.win c id hleft))

theorem issueWindow_waits {s : State} {c : IClass} {id : Nat} (h : id ∈ (s.issueWindow c).win.at c) :
    (s.issueWindow c).Waits id :=
  foldl_issueOne_waits _ s ((issueWindow_issues s c).win c id h) h

theorem issue_issues (s : State) : s.Issues s.issue :=
  (((issueWindow_issues s _).trans (issueWindow_issues _ _)).trans (issueWindow_issues _ _)).trans (issueWindow_issues _ _)

/-- Each window's stay-behinds wait when the window is done, and so at the end of the stage. -/
theorem issue_waits {s : State} {c : IClass} {id : Nat} (h : id ∈ s.issue.win.at c) : s.issue.Waits id := by
  have hfloat := issueWindow_issues (s.issueWindow .intArith) .floatArith
  have hjump := issueWindow_issues ((s.issueWindow .intArith).issueWindow .floatArith) .jumpBranch
  have hload :=
    issueWindow_issues (((s.issueWindow .intArith).issueWindow .floatArith).issueWindow .jumpBranch) .loadStore
  cases c with
  | intArith =>
    have hlater := (hfloat.trans hjump).trans hload
    exact hlater.waits (issueWindow_waits (hlater.win _ _ h))
  | floatArith =>
    have hlater := hjump.trans hload
    exact hlater.waits (issueWindow_waits (hlater.win _ _ h))
  | jumpBranch => exact hload.waits (issueWindow_waits (hload.win _ _ h))
  | loadStore => exact issueWindow_waits h

/-- Settles O35: what is left waits (`issue_waits`) and what has left is held (`State.Issues.left`); one examination is
`issueOne_of_waits` or `issueOne_of_ready`. -/
theorem issueOne : Obligations.IssueOne := by
  unfold Obligations.IssueOne
  refine ⟨fun s => ⟨rfl, fun c id => ⟨fun hleft => ⟨(issue_issues s).win c id hleft, fun d hd => ?waits⟩,
    (issue_issues s).left c id⟩⟩, fun s c d hd => ?_⟩
  case waits =>
    rw [← (issue_issues s).cfg]
    refine (issue_waits hleft d hd).imp_left fun hready => ?_
    rw [ready_iff] at hready
    push Not at hready
    exact hready
  intro ready unit
  have hfound : ∀ e, s.robFind d.id = some e → e = d := fun e he => Option.some.inj (he.symm.trans hd)
  refine ⟨fun hready => ?notReady, fun hunit => ?noUnit, fun hready u hu => ?issued⟩
  case notReady => exact issueOne_of_waits c fun e he => .inl (by rwa [hfound e he, ready_iff])
  case noUnit => exact issueOne_of_waits c fun e he => .inr (by rwa [hfound e he])
  case issued => exact (issueOne_of_ready c hd (ready_iff.mpr hready) hu).trans (issueTo_eq s c d u)

end Sys2Proof.Machine
end

section
/-! Stage 3 (`52_issue_execute.md` rules R259, R261). What a tick does to the unit itself is `FuState.Ticked`
(`unitTick_ticked`); to any other unit it does nothing (`unitTick_fu_other`), so the stage ticks each unit once. -/

namespace Sys2Proof.Machine

/-! ## One unit (rule R259) -/

theorem robFind_releaseUnit (s : State) (u id : Nat) :
    (s.releaseUnit u id).robFind id = (s.robFind id).map fun d => { d with fu := none } := by
  refine (robFind_robUpdate (g := fun d => { d with fu := none }) (fun _ => rfl) s id id).trans ?_
  cases hd : s.robFind id with
  | none => rfl
  | some d => simp [id_of_robFind hd]

/-- Where the element is known, updating it is setting it. -/
theorem modify_eq_set_of_getElem? {α : Type} {l : List α} {k : Nat} {a : α} (ha : l[k]? = some a) (g : α → α) :
    l.modify k g = l.set k (g a) := by
  rw [List.modify_eq_set_getElem?, ha]
  rfl

section
variable {s : State} {u : Nat} {c : FuncUnit} {f : FuState}

theorem unitTick_of_idle (hf : s.fu[u]? = some f) (hidle : f.ins = none) : s.unitTick u = s := by
  unfold State.unitTick
  cases s.cfg.fus[u]? <;> simp [hf, hidle]

theorem unitTick_of_holding {id : Nat} (hc : s.cfg.fus[u]? = some c) (hf : s.fu[u]? = some f) (hins : f.ins = some id)
    (hmore : f.counter + 1 < f.total) :
    s.unitTick u = { s with fu := s.fu.set u { f with counter := f.counter + 1 } } := by
  rw [← modify_eq_set_of_getElem? hf fun f => { f with counter := f.counter + 1 }]
  simp [State.unitTick, hc, hf, hins, hmore, State.fuUpdate]

theorem releaseUnit_eq_set (hf : s.fu[u]? = some f) (id : Nat) :
    s.releaseUnit u id = { s with
      fu := s.fu.set u { f with ins := none, counter := 0, total := 0 }
      rob := s.rob.map fun e => if e.id = id then { e with fu := none } else e } := by
  rw [← modify_eq_set_of_getElem? hf fun f => { f with ins := none, counter := 0, total := 0 }]
  rfl

end

section
variable {s : State} {u id : Nat} {c : FuncUnit} {f : FuState}

/-- At its last tick a unit lets its instruction go, which it finishes. -/
theorem unitTick_of_last {d : DynInst} (hc : s.cfg.fus[u]? = some c) (hf : s.fu[u]? = some f) (hins : f.ins = some id)
    (hlast : f.total ≤ f.counter + 1) (hd : s.robFind id = some d) :
    s.unitTick u = (s.releaseUnit u id).finish u c.type { d with fu := none } := by
  simp [State.unitTick, hc, hf, hins, Nat.not_lt.mpr hlast, robFind_releaseUnit, hd]

/-- The same where the reorder buffer does not hold the instruction. -/
theorem unitTick_of_last_missing (hc : s.cfg.fus[u]? = some c) (hf : s.fu[u]? = some f) (hins : f.ins = some id)
    (hlast : f.total ≤ f.counter + 1) (hd : s.robFind id = none) : s.unitTick u = s.releaseUnit u id := by
  simp [State.unitTick, hc, hf, hins, Nat.not_lt.mpr hlast, robFind_releaseUnit, hd]

end

/-! ## The units when one of them ticks -/

theorem writeSpec_fu (s : State) (d : DynInst) (v : Container) : (s.writeSpec d v).fu = s.fu := by
  unfold State.writeSpec
  split <;> rfl

/-- A unit that finishes its instruction leaves the units as they are, or puts the instruction on its own failed stack
(rule R263). -/
theorem finish_fu (s : State) (u : Nat) (t : FuType) (d : DynInst) :
    (s.finish u t d).fu = s.fu ∨
      (s.finish u t d).fu = s.fu.modify u fun f => { f with failed := f.failed ++ [d.id] } := by
  rcases finish_cases s u t d with ⟨v, e⟩ | ⟨k, e⟩ | ⟨a, b, k, e⟩ | ⟨a, b, -, e | ⟨v, e⟩⟩ | ⟨ea, e⟩ |
    ⟨ea, data, -, -, e⟩ | ⟨bytes, e⟩ <;> rw [e]
  · exact .inl (writeSpec_fu s d v)
  · exact .inr rfl
  · exact .inr rfl
  · exact .inl rfl
  · exact .inl (writeSpec_fu (s.recordOutcome d.id a b) d v)
  · exact .inl rfl
  · exact .inl rfl
  · exact .inl (writeSpec_fu s d _)

theorem finish_fu_other (s : State) {u w : Nat} (hw : u ≠ w) (t : FuType) (d : DynInst) :
    (s.finish u t d).fu[w]? = s.fu[w]? := by
  rcases finish_fu s u t d with e | e <;> rw [e]
  simp [hw]

theorem unitTick_fu_other (s : State) {u w : Nat} (hw : u ≠ w) : (s.unitTick u).fu[w]? = s.fu[w]? := by
  have hmodify : ∀ g : FuState → FuState, (s.fu.modify u g)[w]? = s.fu[w]? := fun g => by
    simp [hw]
  rcases unitTick_cases s u with e | e | ⟨id, e⟩ | ⟨id, t, d, -, e⟩ <;> rw [e]
  · exact hmodify _
  · exact hmodify _
  · rw [finish_fu_other _ hw]
    exact hmodify _

theorem unitTick_fu_length (s : State) (u : Nat) : (s.unitTick u).fu.length = s.fu.length := by
  rcases unitTick_cases s u with e | e | ⟨id, e⟩ | ⟨id, t, d, -, e⟩ <;> rw [e]
  · simp [State.fuUpdate]
  · simp [State.releaseUnit, State.fuUpdate, State.robUpdate]
  · rcases finish_fu (s.releaseUnit u id) u t d with e | e <;> rw [e] <;>
      simp [State.releaseUnit, State.fuUpdate, State.robUpdate]

/-- `g` is what a tick makes of a unit in state `f`: an idle one stays, a holding one counts, and at its last tick it is
idle, its instruction on its failed stack or not (rules R259, R263). -/
def FuState.Ticked (f g : FuState) : Prop :=
  (f.ins = none → g = f) ∧
  ∀ id, f.ins = some id →
    (f.counter + 1 < f.total → g = { f with counter := f.counter + 1 }) ∧
    (f.total ≤ f.counter + 1 → ∃ failed, (failed = f.failed ∨ failed = f.failed ++ [id]) ∧
      g = { ins := none, counter := 0, total := 0, failed := failed })

theorem unitTick_ticked {s : State} {u : Nat} {c : FuncUnit} {f : FuState} (hc : s.cfg.fus[u]? = some c)
    (hf : s.fu[u]? = some f) : ∃ g, (s.unitTick u).fu[u]? = some g ∧ f.Ticked g := by
  have hu : u < s.fu.length := (List.getElem?_eq_some_iff.mp hf).1
  cases hins : f.ins with
  | none => exact ⟨f, by rw [unitTick_of_idle hf hins, hf], by simp [FuState.Ticked, hins]⟩
  | some id =>
    rcases Nat.lt_or_ge (f.counter + 1) f.total with hmore | hlast
    · refine ⟨{ f with counter := f.counter + 1 }, ?_, by simp [FuState.Ticked, hins, hmore]⟩
      simp [unitTick_of_holding hc hf hins hmore, hu]
    · have hreleased : (s.releaseUnit u id).fu[u]? = some { f with ins := none, counter := 0, total := 0 } := by
        simp [releaseUnit_eq_set hf, hu]
      have hticked : ∀ failed, failed = f.failed ∨ failed = f.failed ++ [id] →
          f.Ticked { ins := none, counter := 0, total := 0, failed := failed } := by
        intro failed hfailed
        refine ⟨fun h => by simp [hins] at h, fun j hj => ⟨fun h => absurd h (Nat.not_lt.mpr hlast), fun _ => ?_⟩⟩
        obtain rfl : id = j := Option.some.inj (hins.symm.trans hj)
        exact ⟨failed, hfailed, rfl⟩
      cases hd : s.robFind id with
      | none =>
        rw [unitTick_of_last_missing hc hf hins hlast hd]
        exact ⟨_, hreleased, hticked _ (.inl rfl)⟩
      | some d =>
        have hid := id_of_robFind hd
        rw [unitTick_of_last hc hf hins hlast hd]
        rcases finish_fu (s.releaseUnit u id) u c.type { d with fu := none } with e | e
        · exact ⟨_, by rw [e, hreleased], hticked _ (.inl rfl)⟩
        · exact ⟨_, by rw [e, List.getElem?_modify_eq, hreleased]; rfl, hticked _ (.inr (by rw [hid]))⟩

/-! ## The stage (rule R261) -/

/-- After the first `n` units of the list these have ticked once, and the others are as they were. -/
theorem foldl_unitTick_fu (s : State) {n : Nat} (hn : n ≤ s.cfg.fus.length) {u : Nat} {f : FuState}
    (hf : s.fu[u]? = some f) : ∃ g, ((List.range n).foldl State.unitTick s).fu[u]? = some g ∧
      (u < n → f.Ticked g) ∧ (n ≤ u → g = f) := by
  induction n with
  | zero => exact ⟨f, hf, nofun, fun _ => rfl⟩
  | succ n ih =>
    obtain ⟨g, hg, hdone, htodo⟩ := ih (Nat.le_of_succ_le hn)
    have hframe : UnitFrame s ((List.range n).foldl State.unitTick s) :=
      foldl_rel UnitFrame.refl UnitFrame.trans unitTick_frame _ s
    rw [List.range_succ, List.foldl_append, List.foldl_cons, List.foldl_nil]
    generalize (List.range n).foldl State.unitTick s = v at *
    rcases eq_or_ne n u with rfl | hu
    · obtain rfl : g = f := htodo le_rfl
      have hc : v.cfg.fus[n]? = some s.cfg.fus[n] := by rw [hframe.cfg]; exact List.getElem?_eq_getElem hn
      obtain ⟨g', hg', hticked⟩ := unitTick_ticked hc hg
      exact ⟨g', hg', fun _ => hticked, fun h => absurd h (Nat.not_succ_le_self n)⟩
    · exact ⟨g, by rw [unitTick_fu_other v hu, hg], fun h => hdone (by omega), fun h => htodo (by omega)⟩

theorem units_fu_length (s : State) : s.units.fu.length = s.fu.length :=
  foldl_rel (R := fun s t : State => t.fu.length = s.fu.length) (fun _ => rfl) (fun h1 h2 => h2.trans h1)
    unitTick_fu_length _ s

/-- Settles O36: the stage ticks each unit once (`foldl_unitTick_fu`); one tick by its three cases, the instruction found
as the release leaves it. -/
theorem unitHolds : Obligations.UnitHolds := by
  unfold Obligations.UnitHolds
  refine ⟨fun s => ⟨rfl, units_fu_length s, fun u f hu hf => ?stage⟩, fun s u c f hc hf =>
    ⟨unitTick_of_idle hf, fun d hins hd => ⟨unitTick_of_holding hc hf hins, fun hlast => ?last⟩⟩⟩
  case stage =>
    obtain ⟨g, hg, hticked, -⟩ := foldl_unitTick_fu s le_rfl hf
    obtain ⟨hidle, hholding⟩ := hticked hu
    have hg' : s.units.fu[u]? = some g := hg
    refine ⟨fun h => by rw [hg', hidle h], fun id hins => ⟨fun hmore => ?_, fun hlast => ?_⟩⟩
    · rw [hg', (hholding id hins).1 hmore]
    · obtain ⟨failed, hfailed, rfl⟩ := (hholding id hins).2 hlast
      exact ⟨failed, hfailed, hg'⟩
  case last => exact ⟨s.releaseUnit u d.id, releaseUnit_eq_set hf d.id, unitTick_of_last hc hf hins hlast hd⟩

end Sys2Proof.Machine
end

section
/-! A unit finishing (`52_issue_execute.md` rules R262 to R266). On its latched operands an instruction has one of the five
shapes of `Meaning`, which its class decides; what the unit does is said once for each shape, beside what `State.perform`
does with the same meaning. -/

namespace Sys2Proof.Machine

/-! ## The result written to the pool (rule R262) -/

section
variable {s : State} {d : DynInst} {v : Container} {k : Nat}

theorem writeSpec_of_dest (h : d.dstSpec = some k) :
    s.writeSpec d v = { s with pool := s.pool.modify k fun p => { p with value := v, state := .executed } } := by
  simp [State.writeSpec, h]

theorem writeSpec_of_none (h : d.dstSpec = none) : s.writeSpec d v = s := by simp [State.writeSpec, h]

/-- Of the whole state only the pool may change. -/
theorem writeSpec_eq (s : State) (d : DynInst) (v : Container) :
    s.writeSpec d v = { s with pool := (s.writeSpec d v).pool } := by
  cases h : d.dstSpec with
  | none => rw [writeSpec_of_none h]
  | some k => rw [writeSpec_of_dest h]

theorem writeSpec_pool_dest {p : SpecReg} (h : d.dstSpec = some k) (hp : s.pool[k]? = some p) :
    (s.writeSpec d v).pool[k]? = some { p with value := v, state := .executed } := by
  simp [writeSpec_of_dest h, hp]

theorem writeSpec_pool_other (h : d.dstSpec ≠ some k) : (s.writeSpec d v).pool[k]? = s.pool[k]? := by
  cases hd : d.dstSpec with
  | none => rw [writeSpec_of_none hd]
  | some j =>
    have hj : j ≠ k := fun e => h (e ▸ hd)
    simp [writeSpec_of_dest hd, hj]

end

/-! ## The meaning by class -/

theorem unlessZero_cases (b v : Word) : unlessZero b v = .raise .divideByZero ∨ unlessZero b v = .result v := by
  unfold unlessZero
  split
  · exact .inl rfl
  · exact .inr rfl

theorem insMeaning_of_intArith {i : Instr} (h : (classAndCaps i).1 = .intArith) (P a b : Word) :
    (∃ k, insMeaning i P a b = .raise k) ∨ ∃ v, insMeaning i P a b = .result v := by
  cases i
  case div | divu | rem | remu => exact (unlessZero_cases b _).imp (⟨_, ·⟩) (⟨_, ·⟩)
  case jal | jalr | beq | bne | blt | bge | bltu | bgeu | lb | lh | lw | lbu | lhu | sb | sh | sw => cases h
  all_goals exact .inr ⟨_, rfl⟩

/-- A transfer, which has a link value unless it is a branch. -/
theorem insMeaning_of_jumpBranch {i : Instr} (h : (classAndCaps i).1 = .jumpBranch) (P a b : Word) :
    ∃ taken target link, insMeaning i P a b = .transfer taken target link ∧ (link = none → format i = .B) := by
  cases i
  case jal | jalr => exact ⟨_, _, _, rfl, nofun⟩
  case beq | bne | blt | bge | bltu | bgeu => exact ⟨_, _, _, rfl, fun _ => rfl⟩
  all_goals cases h

theorem insMeaning_of_loadStore {i : Instr} (h : (classAndCaps i).1 = .loadStore) :
    (accessSize (.isa i) = 1 ∨ accessSize (.isa i) = 2 ∨ accessSize (.isa i) = 4) ∧
    ((format i = .IL ∧ ∃ signed, ∀ P a b, insMeaning i P a b =
        .load (effectiveAddress a (operands i).2.2.2) (accessSize (.isa i)) signed) ∨
      (format i = .S ∧ ∀ P a b, insMeaning i P a b =
        .store (effectiveAddress a (operands i).2.2.2) (bytesOfWord b (accessSize (.isa i))))) := by
  cases i
  case lb | lbu => exact ⟨.inl rfl, .inl ⟨rfl, _, fun _ _ _ => rfl⟩⟩
  case lh | lhu => exact ⟨.inr (.inl rfl), .inl ⟨rfl, _, fun _ _ _ => rfl⟩⟩
  case lw => exact ⟨.inr (.inr rfl), .inl ⟨rfl, _, fun _ _ _ => rfl⟩⟩
  case sb => exact ⟨.inl rfl, .inr ⟨rfl, fun _ _ _ => rfl⟩⟩
  case sh => exact ⟨.inr (.inl rfl), .inr ⟨rfl, fun _ _ _ => rfl⟩⟩
  case sw => exact ⟨.inr (.inr rfl), .inr ⟨rfl, fun _ _ _ => rfl⟩⟩
  all_goals cases h

theorem classAndCaps_ne_floatArith (i : Instr) : (classAndCaps i).1 ≠ .floatArith := by
  cases i <;> exact nofun

/-! ## A unit finishing, by the shape of the meaning -/

theorem latchedMeaning_of_latched {d : DynInst} {a b : Word} (i : Instr)
    (hopv : d.opv = some (toContainer a, toContainer b)) : latchedMeaning i d = insMeaning i d.pc a b := by
  simp [latchedMeaning, hopv, ofContainer_toContainer]

theorem finish_isa {d : DynInst} {i : Instr} {c : FuType} (hins : d.ins = .isa i) (hc : c ≠ .MA) (s : State) (u : Nat) :
    s.finish u c d = s.finishIsa u d i := by
  cases c
  case MA => exact absurd rfl hc
  all_goals simp [State.finish, hins]

section
variable {s : State} {u : Nat} {d : DynInst} {i : Instr}

theorem finishIsa_of_result {v : Word} (h : latchedMeaning i d = .result v) :
    s.finishIsa u d i = (s.writeSpec d (toContainer v)).notBusy d.id := by
  simp [State.finishIsa, h]

theorem finishIsa_of_raise {k : ExcKind} (h : latchedMeaning i d = .raise k) :
    s.finishIsa u d i = s.failUnit u d.id k := by
  simp [State.finishIsa, h]

/-- A transfer is recorded in any case, and then fails or writes its link value, if it has one. -/
theorem finishIsa_of_transfer {taken : Bool} {target : Word} {link : Option Word}
    (h : latchedMeaning i d = .transfer taken target link) :
    (∀ k, targetFault taken target = some k →
      s.finishIsa u d i = (s.recordOutcome d.id taken target).failUnit u d.id k) ∧
    (targetFault taken target = none → s.finishIsa u d i =
      ((link.map fun v => (s.recordOutcome d.id taken target).writeSpec d (toContainer v)).getD
        (s.recordOutcome d.id taken target)).notBusy d.id) := by
  constructor <;> intros <;> simp [State.finishIsa, *]

theorem finishIsa_of_load {ea : Word} {n : Nat} {signed : Bool} (h : latchedMeaning i d = .load ea n signed) :
    (∀ k, accessFault s.cfg ea n = some k → s.finishIsa u d i = s.failUnit u d.id k) ∧
    (accessFault s.cfg ea n = none →
      s.finishIsa u d i = s.loadUpdate d.id fun it => { it with addr := some ea }) := by
  constructor <;> intros <;> simp [State.finishIsa, *]

theorem finishIsa_of_store {ea : Word} {data : List Byte} (h : latchedMeaning i d = .store ea data) :
    (∀ k, accessFault s.cfg ea data.length = some k → s.finishIsa u d i = s.failUnit u d.id k) ∧
    (accessFault s.cfg ea data.length = none → s.finishIsa u d i =
      (s.storeUpdate d.id fun it => { it with addr := some ea, data := some data }).notBusy d.id) := by
  constructor <;> intros <;> simp [State.finishIsa, *]

end

theorem failUnit_eq_set {s : State} {u : Nat} {f : FuState} (hf : s.fu[u]? = some f) (id : Nat) (k : ExcKind) :
    s.failUnit u id k = { s with
      fu := s.fu.set u { f with failed := f.failed ++ [id] }
      rob := s.rob.map fun e => if e.id = id then { e with exc := some k, busy := false } else e } := by
  rw [← modify_eq_set_of_getElem? hf fun f => { f with failed := f.failed ++ [id] }]
  rfl

theorem accessFault_inside {cfg : Cfg} {ea : Word} {n : Nat} (haligned : ea.toNat % n = 0)
    (hinside : ea.toNat + n ≤ cfg.memSize) : accessFault cfg ea n = none := by
  simp [accessFault, haligned, Nat.not_lt.mpr hinside]

/-! ## Loads and stores (rule R265) -/

/-- Settles O38: the meaning is a load or a store of `n` bytes at the effective address (`insMeaning_of_loadStore`), and
either is checked alike. -/
theorem addressGeneration : Obligations.AddressGeneration := by
  unfold Obligations.AddressGeneration
  intro s u f i d a b imm n hf hins hopv himm hn hclass ea v fails
  obtain ⟨hsize, hmeaning⟩ := insMeaning_of_loadStore hclass
  have hea : effectiveAddress a imm = ea := effectiveAddress_eq_ofInt a imm
  have hlatched := latchedMeaning_of_latched i hopv
  have hbytes : (bytesOfWord b n).length = n := length_bytesOfWord n b
  have hv : v = s.finishIsa u d i := finish_isa hins (by decide) s u
  rw [← hins, ← himm, ← hn] at hmeaning
  rw [← hins, ← hn] at hsize
  have hfault : ∀ k, accessFault s.cfg ea n = some k → fails k := by
    intro k hk
    have hfail : v = s.failUnit u d.id k := by
      rcases hmeaning with ⟨-, signed, hm⟩ | ⟨-, hm⟩ <;> rw [hm, hea] at hlatched <;> rw [hv]
      · exact (finishIsa_of_load hlatched).1 k hk
      · exact (finishIsa_of_store hlatched).1 k (by rwa [hbytes])
    exact hfail.trans (failUnit_eq_set hf d.id k)
  refine ⟨hsize, fun hmis => hfault _ (accessFault_misaligned _ _ _ hmis),
    fun hal hout => hfault _ (accessFault_outOfRange _ _ _ hal hout), fun hal hin => ?_⟩
  have hnone := accessFault_inside hal hin
  rcases hmeaning with ⟨hformat, signed, hm⟩ | ⟨hformat, hm⟩ <;> rw [hm, hea] at hlatched <;> rw [hformat]
  · exact ⟨fun _ => hv.trans ((finishIsa_of_load hlatched).2 hnone), nofun⟩
  · refine ⟨nofun, fun _ => hv.trans (((finishIsa_of_store hlatched).2 (by rwa [hbytes])).trans ?_)⟩
    rw [bytesOfWord_eq]
    rfl

/-! ## Completing a load (rule R266) -/

theorem completeLoad_eq (s : State) (d : DynInst) (bytes : List Byte) :
    s.completeLoad d bytes = { s with
      pool := (s.writeSpec d (toContainer (extendLoad (accessSize d.ins) (loadSigned d.ins) bytes))).pool
      rob := s.rob.map fun x => if x.id = d.id then { x with busy := false } else x } := by
  rw [State.completeLoad, writeSpec_eq]
  rfl

/-- Where ids rise along the buffer, the item with an id is the one found. -/
theorem loadItem_of_mem {s : State} {it : LsItem} (hinc : Increasing (s.loadBuffer.map (·.id))) (hmem : it ∈ s.loadBuffer) :
    s.loadItem it.id = some it := by
  obtain ⟨found, hfound⟩ : ∃ found, s.loadItem it.id = some found :=
    Option.isSome_iff_exists.mp (List.find?_isSome.mpr ⟨it, hmem, by simp⟩)
  have hid : found.id = it.id := by simpa using List.find?_some hfound
  have hnodup : (s.loadBuffer.map (·.id)).Nodup := hinc.imp Nat.ne_of_lt
  rw [hfound, List.inj_on_of_nodup_map hnodup (List.mem_of_find?_eq_some hfound) hmem hid]

/-- Settles O40: the value is that of `extendLoad` at the instruction's size and sign; the bytes are those of the load's own
item (`loadItem_of_mem`). -/
theorem completeLoad : Obligations.CompleteLoad := by
  unfold Obligations.CompleteLoad
  intro s d rd rs1 imm b0 b1 b2 b3 e he hins pool rob
  have hvalue : extendLoad (accessSize d.ins) (loadSigned d.ins) e.2.1 = e.2.2 := by
    rw [hins]
    simp only [List.mem_cons, List.not_mem_nil, or_false] at he
    rcases he with rfl | rfl | rfl | rfl | rfl
    · exact extendLoad_byte_signed b0
    · exact extendLoad_half_signed b0 b1
    · exact extendLoad_word b0 b1 b2 b3 _
    · exact extendLoad_byte_unsigned b0
    · exact extendLoad_half_unsigned b0 b1
  have hpool : (s.writeSpec d (toContainer e.2.2)).pool = pool := by
    cases hspec : d.dstSpec with
    | none => simp [pool, writeSpec_of_none hspec, hspec]
    | some k => simp [pool, writeSpec_of_dest hspec, hspec]
  have hcomplete : s.completeLoad d e.2.1 = { s with pool := pool, rob := rob } := by
    rw [completeLoad_eq, hvalue, hpool]
  refine ⟨hcomplete, fun u it hinc hmem hid hdata => ?_⟩
  have hbytes : ((s.loadItem d.id).bind (·.data)).getD [] = e.2.1 := by
    rw [← hid, loadItem_of_mem hinc hmem, Option.bind_some, hdata, Option.getD_some]
  show s.finishMemory d = _
  rw [State.finishMemory, hbytes, hcomplete]
  rfl

end Sys2Proof.Machine
end

section
/-! The `FX` and `BR` units against `exec` (`52_issue_execute.md` rules R262 to R264, `00_scope.md` rule R12). The unit and
`State.perform` take the same meaning, and `State.Agrees` holds of what they leave: for a result, a raise and a transfer by
two lemmas, one for an instruction that completes and one for an instruction that fails. -/

namespace Sys2Proof.Machine

/-! ## The outcome of a transfer (rule R264) -/

/-- Whether a transfer is taken and its target; any other meaning has neither. -/
def Meaning.outcome : Meaning → Option (Bool × Word)
  | .result _ => none
  | .raise _ => none
  | .transfer taken target _ => some (taken, target)
  | .load _ _ _ => none
  | .store _ _ => none

/-- The eight transfers on these operands, each with its condition and its target (rules R171 to R178). -/
def transferOutcomes (P a b : Word) (ops : Reg × Reg × Reg × Int) : List (Instr × Bool × Word) :=
  let (rd, rs1, rs2, imm) := ops
  let target := BitVec.ofInt 32 (P.toNat + imm)
  [(.jal rd imm, true, target),
    (.jalr rd rs1 imm, true, BitVec.ofNat 32 ((BitVec.ofInt 32 (a.toInt + imm)).toNat / 2 * 2)),
    (.beq rs1 rs2 imm, decide (a = b), target), (.bne rs1 rs2 imm, decide (a ≠ b), target),
    (.blt rs1 rs2 imm, decide (a.toInt < b.toInt), target), (.bge rs1 rs2 imm, decide (b.toInt ≤ a.toInt), target),
    (.bltu rs1 rs2 imm, decide (a.toNat < b.toNat), target), (.bgeu rs1 rs2 imm, decide (b.toNat ≤ a.toNat), target)]

/-- The outcome the list gives an instruction, if it is one of the eight. -/
def transferOutcome (i : Instr) (P a b : Word) : Option (Bool × Word) :=
  ((transferOutcomes P a b (operands i)).find? fun e => decide (e.1 = i)).map (·.2)

theorem transferOutcome_of_jumpBranch {i : Instr} (h : (classAndCaps i).1 = .jumpBranch) (P a b : Word) :
    transferOutcome i P a b = (insMeaning i P a b).outcome := by
  cases i
  case jal =>
    simp [transferOutcome, transferOutcomes, operands, insMeaning, jalMeaning, Meaning.outcome, pc_add_immWord_eq_ofInt]
  case jalr =>
    simp [transferOutcome, transferOutcomes, operands, insMeaning, jalrMeaning, Meaning.outcome, ← jalrTarget_eq_ofNat,
      -BitVec.toNat_ofInt]
  case beq | bne | blt | bltu =>
    simp [transferOutcome, transferOutcomes, operands, insMeaning, beqMeaning, bneMeaning, bltMeaning, bltuMeaning,
      branchMeaning, Meaning.outcome, pc_add_immWord_eq_ofInt, signedLt, unsignedLt]
  case bge | bgeu =>
    simp [transferOutcome, transferOutcomes, operands, insMeaning, bgeMeaning, bgeuMeaning, branchMeaning,
      Meaning.outcome, pc_add_immWord_eq_ofInt, not_signedLt_eq_decide, not_unsignedLt_eq_decide]
  all_goals cases h

theorem transferOutcome_of_ne {i : Instr} (h : (classAndCaps i).1 ≠ .jumpBranch) (P a b : Word) :
    transferOutcome i P a b = none := by
  have hclass : ∀ e ∈ transferOutcomes P a b (operands i), (classAndCaps e.1).1 = .jumpBranch := by
    simp [transferOutcomes, classAndCaps]
  have hnone : ∀ e ∈ transferOutcomes P a b (operands i), ¬decide (e.1 = i) = true := by
    intro e he hi
    exact h (of_decide_eq_true hi ▸ hclass e he)
  rw [transferOutcome, List.find?_eq_none.mpr hnone, Option.map_none]

/-! ## Agreement -/

/-- The instruction as a finishing unit leaves it: no longer busy, with what the unit recorded (rules R262 to R264). -/
def DynInst.finished (exc : Option ExcKind) (outcome : Option (Bool × Word)) (e : DynInst) : DynInst :=
  { e with
    busy := false
    exc := exc.or e.exc
    actualTaken := (outcome.map (·.1)).or e.actualTaken
    actualTarget := (outcome.map (·.2)).or e.actualTarget }

/-- What unit `u` leaves of `s` on finishing `d`, `v`, agrees with what executing the instruction leaves, `t`: the pool
register gets the value of `rd`, where the instruction writes one, or the exception is on record, and nothing else changes.
-/
structure State.Agrees (s t v : State) (u : Nat) (f : FuState) (d : DynInst) (rd : Reg) (writes : Prop)
    (outcome : Option (Bool × Word)) : Prop where
  frame : v = { s with
    pool := v.pool
    fu := v.fu
    rob := s.rob.map fun e => if e.id = d.id then e.finished t.excSeen outcome else e }
  completed : t.excSeen = none → v.fu = s.fu ∧
    (∀ k p, d.dstSpec = some k → s.pool[k]? = some p → writes →
      v.pool[k]? = some { p with value := toContainer (t.readX rd), state := .executed }) ∧
    (∀ k, d.dstSpec ≠ some k → v.pool[k]? = s.pool[k]?) ∧
    (∀ e, outcome = some e → t.pc = if e.1 then e.2 else s.pc + 4)
  raised : ∀ k, t.excSeen = some k → v.pool = s.pool ∧ v.fu = s.fu.set u { f with failed := f.failed ++ [d.id] }

section
variable {s t : State} {u : Nat} {f : FuState} {d : DynInst} {i : Instr} {rd : Reg} {writes : Prop}
  {outcome : Option (Bool × Word)}

/-- The value of `rd` is written to the pool, and the instruction has finished. -/
theorem agrees_of_written {w : Word} (hexc : t.excSeen = none) (hvalue : writes → t.readX rd = w)
    (hpc : ∀ e, outcome = some e → t.pc = if e.1 then e.2 else s.pc + 4) :
    s.Agrees t ((s.writeSpec d (toContainer w)).robUpdate d.id (·.finished none outcome)) u f d rd writes outcome where
  frame := by
    rw [writeSpec_eq, hexc]
    rfl
  completed _ := by
    refine ⟨writeSpec_fu s d _, fun k p hk hp hwrites => ?_, fun k hk => writeSpec_pool_other hk, hpc⟩
    rw [hvalue hwrites]
    exact writeSpec_pool_dest hk hp
  raised k hk := absurd hk (by simp [hexc])

/-- There is no value to write, and the instruction has finished. -/
theorem agrees_of_unwritten (hexc : t.excSeen = none) (hwrites : ¬writes)
    (hpc : ∀ e, outcome = some e → t.pc = if e.1 then e.2 else s.pc + 4) :
    s.Agrees t (s.robUpdate d.id (·.finished none outcome)) u f d rd writes outcome where
  frame := by
    rw [hexc]
    rfl
  completed _ := ⟨rfl, fun _ _ _ _ h => absurd h hwrites, fun _ _ => rfl, hpc⟩
  raised k hk := absurd hk (by simp [hexc])

theorem agrees_of_failed (hf : s.fu[u]? = some f) (k : ExcKind) :
    s.Agrees { s with excSeen := some k }
      ((s.fuUpdate u fun f => { f with failed := f.failed ++ [d.id] }).robUpdate d.id (·.finished (some k) outcome))
      u f d rd writes outcome where
  frame := rfl
  completed h := nomatch h
  raised _ _ := ⟨rfl, modify_eq_set_of_getElem? hf _⟩

/-! ## What a unit records (rules R263, R264) -/

end

theorem notBusy_eq_finished (s : State) (id : Nat) : s.notBusy id = s.robUpdate id (·.finished none none) := rfl

theorem failUnit_eq_finished (s : State) (u id : Nat) (k : ExcKind) :
    s.failUnit u id k =
      (s.fuUpdate u fun f => { f with failed := f.failed ++ [id] }).robUpdate id (·.finished (some k) none) := rfl

theorem recordOutcome_notBusy (s : State) (id : Nat) (taken : Bool) (target : Word) :
    (s.recordOutcome id taken target).notBusy id = s.robUpdate id (·.finished none (some (taken, target))) := by
  rw [State.recordOutcome, State.notBusy, robUpdate_robUpdate]
  · rfl
  · exact fun _ => rfl

theorem recordOutcome_failUnit (s : State) (u id : Nat) (k : ExcKind) (taken : Bool) (target : Word) :
    (s.recordOutcome id taken target).failUnit u id k =
      (s.fuUpdate u fun f => { f with failed := f.failed ++ [id] }).robUpdate id
        (·.finished (some k) (some (taken, target))) := by
  have hcommute : ∀ g h, (s.robUpdate id h).fuUpdate u g = (s.fuUpdate u g).robUpdate id h := fun _ _ => rfl
  rw [State.recordOutcome, State.failUnit, hcommute, robUpdate_robUpdate]
  · rfl
  · exact fun _ => rfl

/-- Recording an outcome and writing a result are about different components. -/
theorem recordOutcome_writeSpec (s : State) (d : DynInst) (taken : Bool) (target : Word) (v : Container) :
    (s.recordOutcome d.id taken target).writeSpec d v = (s.writeSpec d v).recordOutcome d.id taken target := by
  cases h : d.dstSpec with
  | none => rw [writeSpec_of_none h, writeSpec_of_none h]
  | some k => rw [writeSpec_of_dest h, writeSpec_of_dest h]; rfl

theorem targetFault_eq_none_iff {taken : Bool} {target : Word} :
    targetFault taken target = none ↔ (taken = true → target.toNat % 4 = 0) := by
  simp [targetFault]

/-! ## Agreement by the shape of the meaning -/

section
variable {s : State} {u : Nat} {f : FuState} {d : DynInst} {i : Instr} {rd : Reg} {writes : Prop}

theorem finishIsa_agrees_result {w : Word} (hm : latchedMeaning i d = .result w) (hexc : s.excSeen = none)
    (hwrites : writes → rd ≠ 0) :
    s.Agrees (s.perform rd (.result w)) (s.finishIsa u d i) u f d rd writes none := by
  obtain ⟨hreg, -, -, -, hframe⟩ := perform_result s rd w
  rw [finishIsa_of_result hm, notBusy_eq_finished]
  refine agrees_of_written ?_ (fun h => ?_) (by simp)
  · rw [hframe]; exact hexc
  · rw [hreg, if_pos ⟨rfl, hwrites h⟩]

theorem finishIsa_agrees_raise {k : ExcKind} (hm : latchedMeaning i d = .raise k) (hf : s.fu[u]? = some f) :
    s.Agrees (s.perform rd (.raise k)) (s.finishIsa u d i) u f d rd writes none := by
  rw [perform_raise, finishIsa_of_raise hm, failUnit_eq_finished]
  exact agrees_of_failed hf k

theorem finishIsa_agrees_transfer {taken : Bool} {target : Word} {link : Option Word}
    (hm : latchedMeaning i d = .transfer taken target link) (hexc : s.excSeen = none) (hf : s.fu[u]? = some f)
    (hwrites : writes → rd ≠ 0 ∧ link ≠ none) :
    s.Agrees (s.perform rd (.transfer taken target link)) (s.finishIsa u d i) u f d rd writes (some (taken, target)) := by
  obtain ⟨hfails, hcompletes⟩ := finishIsa_of_transfer (s := s) (u := u) hm
  cases hfault : targetFault taken target with
  | some k =>
    have hperform : s.perform rd (.transfer taken target link) = { s with excSeen := some k } := by
      simp [State.perform, hfault, State.takeException]
    rw [hperform, hfails k hfault, recordOutcome_failUnit]
    exact agrees_of_failed hf k
  | none =>
    obtain ⟨hreg, hpc, -, -, -, hframe⟩ := perform_transfer s rd taken target link (targetFault_eq_none_iff.mp hfault)
    have hsafe : (s.perform rd (.transfer taken target link)).excSeen = none := by rw [hframe]; exact hexc
    have hnext : ∀ e, some (taken, target) = some e →
        (s.perform rd (.transfer taken target link)).pc = if e.1 then e.2 else s.pc + 4 := by
      rintro _ ⟨⟩
      exact hpc
    rw [hcompletes hfault]
    cases link with
    | none =>
      rw [Option.map_none, Option.getD_none, recordOutcome_notBusy]
      exact agrees_of_unwritten hsafe (fun h => (hwrites h).2 rfl) hnext
    | some w =>
      rw [Option.map_some, Option.getD_some, recordOutcome_writeSpec, recordOutcome_notBusy]
      refine agrees_of_written hsafe (fun h => ?_) hnext
      rw [hreg, if_pos ⟨rfl, (hwrites h).1⟩, Option.getD_some]

end

/-- An instruction with a destination has an `rd` other than `x0` and is no branch (rule R235). -/
theorem of_insDest_ne_none {cfg : Cfg} {i : Instr} (h : insDest cfg (.isa i) ≠ none) :
    (operands i).1 ≠ 0 ∧ format i ≠ .B := by
  rw [insDest_isa] at h
  constructor <;> intro e <;> simp [e] at h

/-- Settles O37: both levels take the meaning on the same operands (`exec_eq`, `latchedMeaning_of_latched`), whose shape the
class decides. -/
theorem unitsComputeTheMeaning : Obligations.UnitsComputeTheMeaning := by
  unfold Obligations.UnitsComputeTheMeaning
  intro s t u f i d hexc hf hclass hins hpc hopv hexec v
  have hmeaning := latchedMeaning_of_latched i hopv
  have hv : v = s.finishIsa u d i := finish_isa hins (by split <;> decide) s u
  have hwrites : insDest s.cfg d.ins ≠ none → (operands i).1 ≠ 0 ∧ format i ≠ .B := by
    rw [hins]; exact of_insDest_ne_none
  rw [exec_eq, Host.Outcome.next.injEq] at hexec
  rw [hpc] at hmeaning
  have hagrees : s.Agrees t v u f d (operands i).1 (insDest s.cfg d.ins ≠ none)
        (transferOutcome i s.pc (s.readX (operands i).2.1) (s.readX (operands i).2.2.1)) ∧
      ((transferOutcome i s.pc (s.readX (operands i).2.1) (s.readX (operands i).2.2.1)).isSome = true ↔
        (classAndCaps i).1 = .jumpBranch) := by
    rw [← hexec, hv]
    cases hc : (classAndCaps i).1 with
    | intArith =>
      rw [transferOutcome_of_ne (by simp [hc])]
      refine ⟨?_, by simp⟩
      rcases insMeaning_of_intArith hc s.pc (s.readX (operands i).2.1) (s.readX (operands i).2.2.1) with
        ⟨k, hm⟩ | ⟨w, hm⟩ <;> rw [hm] at hmeaning ⊢
      · exact finishIsa_agrees_raise hmeaning hf
      · exact finishIsa_agrees_result hmeaning hexc fun h => (hwrites h).1
    | jumpBranch =>
      obtain ⟨taken, target, link, hm, hlink⟩ :=
        insMeaning_of_jumpBranch hc s.pc (s.readX (operands i).2.1) (s.readX (operands i).2.2.1)
      rw [transferOutcome_of_jumpBranch hc, hm]
      rw [hm] at hmeaning
      exact ⟨finishIsa_agrees_transfer hmeaning hexc hf fun h => (hwrites h).imp_right fun hB e => hB (hlink e),
        by simp [Meaning.outcome]⟩
    | loadStore => exact absurd hc hclass
    | floatArith => exact absurd hc (classAndCaps_ne_floatArith i)
  obtain ⟨⟨hframe, hcompleted, hraised⟩, houtcome⟩ := hagrees
  exact ⟨hframe, houtcome, hcompleted, hraised⟩

end Sys2Proof.Machine
end

section
/-! `pc` stays a multiple of 4 (`60_exceptions.md` rules R382, R388). An address comes from `pc`, from a target of the branch
target buffer or from a resolved target; a unit that resolves a taken transfer to a misaligned target fails it in the same
stroke (rule R264), so no misaligned target is ever committed. -/

namespace Sys2Proof.Machine

/-! ## The invariant, latch by latch -/

/-- Every instruction of the list has an aligned address and, once resolved as taken, an aligned target. -/
def TargetsAligned (ds : List DynInst) : Prop := ∀ d ∈ ds, d.TargetAligned

/-- `State.PcAligned` with each latch a component of its own. -/
structure State.PcOk (s : State) : Prop where
  pc : s.pc.toNat % 4 = 0
  rob : TargetsAligned s.rob
  decodeBuffer : TargetsAligned s.decodeBuffer
  fetchBuffer : TargetsAligned s.fetchBuffer
  btb : ∀ e ∈ s.btb, ∀ b ∈ e, b.target.toNat % 4 = 0

theorem State.pcAligned_iff (s : State) : s.PcAligned ↔ s.PcOk := by
  unfold State.PcAligned
  rw [List.forall_mem_append, List.forall_mem_append]
  exact ⟨fun ⟨hpc, ⟨⟨hrob, hdecode⟩, hfetch⟩, hbtb⟩ => ⟨hpc, hrob, hdecode, hfetch, hbtb⟩,
    fun ⟨hpc, hrob, hdecode, hfetch, hbtb⟩ => ⟨hpc, ⟨⟨hrob, hdecode⟩, hfetch⟩, hbtb⟩⟩

/-- The address after an aligned one is aligned. -/
theorem aligned_add_four {a : Word} (h : a.toNat % 4 = 0) : (a + 4).toNat % 4 = 0 := by
  rw [BitVec.toNat_add, show (4 : Word).toNat = 4 from rfl]
  omega

theorem TargetsAligned.nil : TargetsAligned [] := fun _ hd => absurd hd List.not_mem_nil

theorem TargetsAligned.append {ds es : List DynInst} (hd : TargetsAligned ds) (he : TargetsAligned es) :
    TargetsAligned (ds ++ es) := List.forall_mem_append.mpr ⟨hd, he⟩

theorem TargetsAligned.sublist {ds es : List DynInst} (h : TargetsAligned es) (hs : ds.Sublist es) : TargetsAligned ds :=
  fun d hd => h d (hs.subset hd)

theorem TargetsAligned.map {ds : List DynInst} (h : TargetsAligned ds) {g : DynInst → DynInst}
    (hg : ∀ d, d.TargetAligned → (g d).TargetAligned) : TargetsAligned (ds.map g) :=
  List.forall_mem_map.mpr fun d hd => hg d (h d hd)

/-- An instruction not yet resolved needs an aligned address only. -/
theorem TargetsAligned.singleton_unresolved {d : DynInst} (hpc : d.pc.toNat % 4 = 0) (hd : d.actualTaken = none) :
    TargetsAligned [d] := by
  intro e he
  rw [List.mem_singleton.mp he]
  exact ⟨hpc, fun _ htaken => absurd (hd.symm.trans htaken) nofun⟩

/-! ## The operations on the reorder buffer -/

theorem MemFrame.pcOk {s t : State} (hf : MemFrame s t) (h : s.PcOk) : t.PcOk := by
  rw [hf]; exact { h with }

theorem writeSpec_pcOk {s : State} (h : s.PcOk) (d : DynInst) (v : Container) : (s.writeSpec d v).PcOk := by
  unfold State.writeSpec
  split
  · exact { h with }
  · exact h

/-- A change of one instruction that keeps it aligned. -/
theorem robUpdate_pcOk {s : State} (h : s.PcOk) (id : Nat) {g : DynInst → DynInst}
    (hg : ∀ d, d.TargetAligned → (g d).TargetAligned) : (s.robUpdate id g).PcOk :=
  { h with rob := h.rob.map fun d hd => by split <;> [exact hg d hd; exact hd] }

/-- A resolved outcome that is not a taken transfer to a misaligned target. -/
theorem recordOutcome_pcOk {s : State} (h : s.PcOk) (id : Nat) {taken : Bool} {target : Word}
    (htarget : taken = true → target.toNat % 4 = 0) : (s.recordOutcome id taken target).PcOk :=
  robUpdate_pcOk h id fun _ ⟨hpc, _⟩ => ⟨hpc, fun _ ht _ ha => Option.some.inj ha ▸ htarget (Option.some.inj ht)⟩

/-- A failed instruction keeps no target that counts. -/
theorem failUnit_pcOk {s : State} (h : s.PcOk) (u id : Nat) (k : ExcKind) : (s.failUnit u id k).PcOk :=
  robUpdate_pcOk (s := s.fuUpdate u _) { h with } id fun _ ⟨hpc, _⟩ => ⟨hpc, nofun⟩

theorem notBusy_pcOk {s : State} (h : s.PcOk) (id : Nat) : (s.notBusy id).PcOk := robUpdate_pcOk h id fun _ hd => hd

theorem occupy_pcOk {s : State} (h : s.PcOk) (u id total : Nat) : (s.occupy u id total).PcOk :=
  robUpdate_pcOk (s := s.fuUpdate u _) { h with } id fun _ hd => hd

theorem finish_pcOk {s : State} (h : s.PcOk) (u : Nat) (t : FuType) (d : DynInst) : (s.finish u t d).PcOk := by
  rcases finish_cases s u t d with ⟨v, e⟩ | ⟨k, e⟩ | ⟨taken, target, k, e⟩ | ⟨taken, target, htarget, e | ⟨v, e⟩⟩ |
    ⟨ea, e⟩ | ⟨ea, data, -, -, e⟩ | ⟨bytes, e⟩ <;> rw [e]
  · exact notBusy_pcOk (writeSpec_pcOk h d v) d.id
  · exact failUnit_pcOk h u d.id k
  · rw [recordOutcome_failUnit]
    exact robUpdate_pcOk (s := s.fuUpdate u _) { h with } d.id fun _ ⟨hpc, _⟩ => ⟨hpc, nofun⟩
  · exact notBusy_pcOk (recordOutcome_pcOk h d.id htarget) d.id
  · exact notBusy_pcOk (writeSpec_pcOk (recordOutcome_pcOk h d.id htarget) d v) d.id
  · exact { h with }
  · exact notBusy_pcOk (s := s.storeUpdate d.id _) { h with } d.id
  · exact { notBusy_pcOk (writeSpec_pcOk h d _) d.id with }

theorem unitTick_pcOk (s : State) (u : Nat) (h : s.PcOk) : (s.unitTick u).PcOk := by
  have hrelease : ∀ id, (s.releaseUnit u id).PcOk := fun id =>
    robUpdate_pcOk (s := s.fuUpdate u _) { h with } id fun _ hd => hd
  rcases unitTick_cases s u with e | e | ⟨id, e⟩ | ⟨id, t, d, -, e⟩ <;> rw [e]
  · exact h
  · exact { h with }
  · exact hrelease id
  · exact finish_pcOk (hrelease id) u t d

theorem resolveLoad_pcOk (s : State) (it : LsItem) (h : s.PcOk) : (s.resolveLoad it).PcOk :=
  resolveLoad_inv (P := State.PcOk) (fun _ d v h => writeSpec_pcOk h d v) (fun _ id h => notBusy_pcOk h id)
    (fun _ _ _ h => { h with }) (fun _ u id total h => occupy_pcOk h u id total)
    (fun _ _ _ h => (access_frame _ _ _ _).pcOk h) s it h

theorem issueOne_pcOk (s : State) (c : IClass) (id : Nat) (h : s.PcOk) : (s.issueOne c id).PcOk :=
  issueOne_inv (P := State.PcOk) (fun _ _ _ h => { h with }) (fun _ u id total h => occupy_pcOk h u id total)
    (fun _ id _ h => robUpdate_pcOk h id fun _ hd => hd) s c id h

/-! ## Commit -/

theorem commitRegister_pcOk {s : State} (h : s.PcOk) (d : DynInst) : (s.commitRegister d).PcOk := by
  rcases commitRegister_cases s d with e | ⟨k, r, -, -, e⟩ <;> rw [e]
  · exact h
  · exact { h with rob := h.rob.map fun _ hd => hd, decodeBuffer := h.decodeBuffer.map fun _ hd => hd }

theorem commitStore_pcOk {s : State} (h : s.PcOk) (d : DynInst) : (s.commitStore d).PcOk := by
  rcases commitStore_cases s d with e | ⟨it, rest, -, e⟩ <;> rw [e]
  · exact h
  · exact (access_frame _ _ _ _).pcOk { h with }

/-- The target a taken transfer commits with is aligned: the one it recorded, or 0. -/
theorem DynInst.TargetAligned.actualTarget {d : DynInst} (h : d.TargetAligned) (hexc : d.exc = none)
    (htaken : d.actualTaken.getD false = true) : (d.actualTarget.getD 0).toNat % 4 = 0 := by
  have htrue : d.actualTaken = some true := by cases ht : d.actualTaken <;> simp_all
  cases htarget : d.actualTarget with
  | none => rfl
  | some t => exact h.2 hexc htrue t htarget

theorem trainTransfer_pcOk {s : State} (h : s.PcOk) {d : DynInst} (hd : d.TargetAligned) (hexc : d.exc = none) :
    (s.trainTransfer d).PcOk := by
  have hbtb : ∀ e ∈ (s.trainTransfer d).btb, ∀ b ∈ e, b.target.toNat % 4 = 0 := by
    rw [trainTransfer_btb]
    split
    · rename_i htaken
      intro e he b hb
      rcases List.mem_or_eq_of_mem_set he with he | rfl
      · exact h.btb e he b hb
      · cases hb
        exact hd.actualTarget hexc htaken
    · exact h.btb
  rw [trainTransfer_frame]
  exact { h with btb := hbtb }

/-- Recovery goes on at the target, or at the address after the transfer. -/
theorem recover_pcOk {s : State} (h : s.PcOk) {d : DynInst} (hd : d.TargetAligned) (g : Nat) {taken : Bool} {target : Word}
    (htarget : taken = true → target.toNat % 4 = 0) : (s.recover d g taken target).PcOk where
  pc := by
    show (if taken = true then target else d.pc + 4).toNat % 4 = 0
    split
    · exact htarget ‹_›
    · exact aligned_add_four hd.1
  rob := h.rob.sublist List.filter_sublist
  decodeBuffer := h.decodeBuffer.sublist List.filter_sublist
  fetchBuffer := .nil
  btb := h.btb

theorem commit_pcOk (s : State) (h : s.PcOk) : s.commit.PcOk := by
  refine commitLoop_inv (P := State.PcOk) (fun _ _ h => { h with }) (fun s d hhead _ hexc h => ?_) _ s h
  have hd : d.TargetAligned := h.rob d (List.mem_of_head? hhead)
  exact commitOne_inv (P := State.PcOk) s d (fun h => { h with rob := h.rob.sublist (List.tail_sublist _) })
    (fun _ h => commitRegister_pcOk h d) (fun _ h => commitStore_pcOk h d) (fun _ h => { h with })
    (fun _ h => trainTransfer_pcOk h hd hexc) (fun _ g h => recover_pcOk h hd g (hd.actualTarget hexc)) h

/-! ## Dispatch, rename and fetch -/

theorem dispatchLoop_pcOk (ds : List DynInst) : ∀ s : State, s.PcOk → TargetsAligned ds → (dispatchLoop ds s).PcOk := by
  induction ds with
  | nil => exact fun s h _ => { h with decodeBuffer := .nil }
  | cons d ds ih =>
    intro s h hds
    obtain ⟨hd, hrest⟩ := List.forall_mem_cons.mp hds
    unfold dispatchLoop
    split
    · exact { h with decodeBuffer := hds }
    · exact ih _ { h with rob := h.rob.append (List.forall_mem_singleton.mpr hd) } hrest

theorem renameOne_pcOk {s : State} (h : s.PcOk) {d : DynInst} (hd : d.TargetAligned) : (s.renameOne d).PcOk := by
  unfold State.renameOne
  simp only
  split <;> exact { h with decodeBuffer := h.decodeBuffer.append (List.forall_mem_singleton.mpr hd) }

theorem renameGroup_pcOk (ds : List DynInst) : ∀ s : State, s.PcOk → TargetsAligned ds →
    (ds.foldl State.renameOne s).PcOk := by
  induction ds with
  | nil => exact fun s h _ => h
  | cons d ds ih =>
    intro s h hds
    obtain ⟨hd, hrest⟩ := List.forall_mem_cons.mp hds
    exact ih _ (renameOne_pcOk h hd) hrest

theorem rename_pcOk (s : State) (h : s.PcOk) : s.rename.PcOk := by
  rcases rename_cases s with e | ⟨-, e⟩ <;> rw [e]
  · exact h
  · exact renameGroup_pcOk _ _ { h with fetchBuffer := .nil } h.fetchBuffer

theorem fetchPlain_pcOk (s : State) (i : StaticIns) (h : s.PcOk) : (s.fetchPlain i).PcOk :=
  { h with
    pc := aligned_add_four h.pc
    fetchBuffer := h.fetchBuffer.append (.singleton_unresolved h.pc rfl) }

/-- The target predicted is the branch target buffer's, or 0. -/
theorem predictTarget_aligned {s : State} (h : s.PcOk) (P : Word) : (s.predictTarget P).toNat % 4 = 0 := by
  rw [predictTarget_eq]
  split
  · cases he : s.btb.getD (P.toNat % s.cfg.btbSize) none with
    | none => rfl
    | some e =>
      rw [List.getD_eq_getElem?_getD] at he
      cases hk : s.btb[P.toNat % s.cfg.btbSize]? with
      | none => rw [hk] at he; cases he
      | some o =>
        rw [hk, Option.getD_some] at he
        exact h.btb o (List.mem_of_getElem? hk) e he
  · rfl

theorem fetchTransfer_pcOk (s : State) (i : StaticIns) (h : s.PcOk) : (s.fetchTransfer i).PcOk := by
  rw [fetchTransfer_eq]
  refine { h with pc := ?_, fetchBuffer := h.fetchBuffer.append (.singleton_unresolved h.pc rfl) }
  show (s.fetchedTransfer i).predictedNext.toNat % 4 = 0
  unfold DynInst.predictedNext
  split
  · exact predictTarget_aligned h s.pc
  · exact aligned_add_four h.pc

/-! ## The step -/

theorem stages_pcOk (s : State) (h : s.PcOk) : s.stages.PcOk :=
  stages_inv (P := State.PcOk) (fun _ h => { h with }) (fun _ h => (memorySimulate_frame _).pcOk h) commit_pcOk
    unitTick_pcOk resolveLoad_pcOk issueOne_pcOk (fun s h => dispatchLoop_pcOk _ s h h.decodeBuffer) rename_pcOk
    (fetch_inv (fun _ _ h => { h with }) fetchPlain_pcOk fetchTransfer_pcOk) (fun _ h => { h with }) s h

/-- An instruction in program order changes `pc` alone of what the invariant sees. -/
theorem ArchFrame.pcOk {s t : State} (hf : ArchFrame s t) (hpc : t.pc.toNat % 4 = 0) (h : s.PcOk) : t.PcOk := by
  rw [hf]; exact { h with pc := hpc }

theorem perform_pc_aligned {s : State} (h : s.pc.toNat % 4 = 0) (rd : Reg) (m : Meaning) :
    (s.perform rd m).pc.toNat % 4 = 0 := by
  rcases perform_cases s rd m with ⟨k, e⟩ | ⟨v, e⟩ | ⟨taken, target, link, -, htarget, e⟩ | ⟨ea, data, -, e⟩ <;> rw [e]
  · exact h
  · exact aligned_add_four h
  · show (if taken = true then target else s.pc + 4).toNat % 4 = 0
    split
    · exact htarget ‹_›
    · exact aligned_add_four h
  · exact aligned_add_four h

theorem performNamed_pc_aligned {s : State} (h : s.pc.toNat % 4 = 0) (i : StaticIns) (n : String) :
    (s.performNamed i n).pc.toNat % 4 = 0 := by
  rcases performNamed_cases s i n with ⟨k, e⟩ | e | ⟨r, v, tag, -, e⟩ <;> rw [e]
  · exact h
  · exact aligned_add_four h
  · exact aligned_add_four h

/-- Settles O56: every operation of a tick keeps `State.PcOk`, the resolving of a transfer because a misaligned target fails
at once (`finish_cases`), and so does every shape of meaning. -/
theorem pcAlignmentIsKept : Obligations.PcAlignmentIsKept := by
  unfold Obligations.PcAlignmentIsKept
  intro s t hs h
  rw [State.pcAligned_iff] at hs ⊢
  exact step_inv (P := State.PcOk) stages_pcOk (fun _ h => { h with })
    (fun s rd m h => (perform_frame s rd m).pcOk (perform_pc_aligned h.pc rd m) h)
    (fun s i n h => (performNamed_frame s i n).pcOk (performNamed_pc_aligned h.pc i n) h) h hs

end Sys2Proof.Machine
end

section
/-! The cache and the memory latency (`54_cache_memory_latency.md` rules R302 to R314). `Access` has three outcomes, said
once each: a hit, a miss, no cache. Replacement by its four parts: the trigger, the line replaced, the due list of stage 1
and the victim. -/

namespace Sys2Proof.Machine

/-! ## The three outcomes of an access (rules R303 to R306, R314) -/

/-- Main memory after it served a request (rule R304): a store writes its bytes there. -/
def Memory.served (m : Memory) (a : Nat) : Request → Memory
  | .load => m
  | .store data => m.writeBytes a data

theorem serveFromMemory_eq (s : State) (a : Nat) (req : Request) :
    s.serveFromMemory a req = { s with mainMem := s.mainMem.served a req } := by
  cases req <;> rfl

/-- The totals every access adds to (rules R303, R314). -/
def Stats.moved (st : Stats) (lat n : Nat) : Stats :=
  { st with totalDelay := st.totalDelay + lat, bytesTransferred := st.bytesTransferred + n }

/-- A replacement neither reads nor writes the statistics. -/
theorem replace_with_stats (s : State) (la : Nat) (st : Stats) :
    State.replace { s with stats := st } la = { s.replace la with stats := st } := by
  unfold State.replace State.ways State.setWay
  simp only
  split <;> rfl

theorem triggerReplacement_with_stats (s : State) (la : Nat) (st : Stats) :
    State.triggerReplacement { s with stats := st } la = { s.triggerReplacement la with stats := st } := by
  unfold State.triggerReplacement
  simp only [replace_with_stats]
  split
  · rfl
  · split <;> rfl

theorem triggerReplacement_stats (s : State) (la : Nat) : (s.triggerReplacement la).stats = s.stats := by
  unfold State.triggerReplacement
  split
  · rfl
  · split
    · exact replace_stats s la
    · rfl

/-- So the totals may be counted before the replacement is triggered. -/
theorem triggerReplacement_countAccess (s : State) (la lat n : Nat) :
    (s.triggerReplacement la).countAccess lat n = (s.countAccess lat n).triggerReplacement la := by
  calc (s.triggerReplacement la).countAccess lat n
      = { s.triggerReplacement la with stats := (s.triggerReplacement la).stats.moved lat n } := rfl
    _ = { s.triggerReplacement la with stats := s.stats.moved lat n } := by rw [triggerReplacement_stats]
    _ = (s.countAccess lat n).triggerReplacement la := (triggerReplacement_with_stats s la _).symm

section
variable {s : State} {a : Nat}

theorem access_uncached (h : s.cfg.useCache = false) (n : Nat) (req : Request) :
    s.access a n req =
      ({ s with
        nextMemId := s.nextMemId + 1
        mainMem := s.mainMem.served a req
        stats := s.stats.moved (memoryLatency s.cfg req) n },
      memoryLatency s.cfg req, (s.mainMem.served a req).readBytes a n) := by
  simp only [State.access, h, serveFromMemory_eq]
  rfl

theorem access_of_hit (h : s.cfg.useCache = true) {k : Nat} {l : Line}
    (hk : findWay (·.holds (lineTag s.cfg (lineAddress s.cfg a))) (s.ways (setIndex s.cfg (lineAddress s.cfg a))) = some k)
    (hl : (s.ways (setIndex s.cfg (lineAddress s.cfg a)))[k]? = some l) (n : Nat) (req : Request) :
    s.access a n req =
      ({ s with
        nextMemId := s.nextMemId + 1
        accessSeq := s.accessSeq + 1
        cache := s.cache.set (setIndex s.cfg (lineAddress s.cfg a))
          ((s.ways (setIndex s.cfg (lineAddress s.cfg a))).set k (hitLine s.cfg a (s.accessSeq + 1) l req))
        stats := { s.stats.moved s.cfg.cacheAccessDelay n with
          cacheAccesses := s.stats.cacheAccesses + 1, cacheHits := s.stats.cacheHits + 1 } },
      s.cfg.cacheAccessDelay,
      sliceBytes (hitLine s.cfg a (s.accessSeq + 1) l req).data (lineOffset s.cfg a) n) := by
  have hways : ∀ t : State, t.cache = s.cache → ∀ set, t.ways set = s.ways set := fun t ht set => by
    unfold State.ways; rw [ht]
  simp only [State.access, h, if_true, hways { s with
    nextMemId := s.nextMemId + 1, accessSeq := s.accessSeq + 1
    stats := { s.stats with cacheAccesses := s.stats.cacheAccesses + 1 } } rfl, hk, hl]
  rfl

theorem access_of_miss (h : s.cfg.useCache = true)
    (hk : findWay (·.holds (lineTag s.cfg (lineAddress s.cfg a))) (s.ways (setIndex s.cfg (lineAddress s.cfg a))) = none)
    (n : Nat) (req : Request) :
    s.access a n req =
      (State.triggerReplacement { s with
        nextMemId := s.nextMemId + 1
        accessSeq := s.accessSeq + 1
        mainMem := s.mainMem.served a req
        stats := { s.stats.moved (s.cfg.cacheAccessDelay + memoryLatency s.cfg req) n with
          cacheAccesses := s.stats.cacheAccesses + 1, cacheMisses := s.stats.cacheMisses + 1 } }
        (lineAddress s.cfg a),
      s.cfg.cacheAccessDelay + memoryLatency s.cfg req, (s.mainMem.served a req).readBytes a n) := by
  have hways : ∀ t : State, t.cache = s.cache → ∀ set, t.ways set = s.ways set := fun t ht set => by
    unfold State.ways; rw [ht]
  simp only [State.access, h, if_true, hways { s with
    nextMemId := s.nextMemId + 1, accessSeq := s.accessSeq + 1
    stats := { s.stats with cacheAccesses := s.stats.cacheAccesses + 1 } } rfl, hk, State.accessMiss, serveFromMemory_eq]
  rw [triggerReplacement_countAccess]
  rfl

end

/-! ## Which way an access finds -/

/-- An access finds no cache, a way that holds its line, or none. -/
theorem access_outcome (s : State) (a : Nat) :
    s.cfg.useCache = false ∨
    (s.cfg.useCache = true ∧ ∃ k l,
      findWay (·.holds (lineTag s.cfg (lineAddress s.cfg a))) (s.ways (setIndex s.cfg (lineAddress s.cfg a))) = some k ∧
      (s.ways (setIndex s.cfg (lineAddress s.cfg a)))[k]? = some l) ∨
    (s.cfg.useCache = true ∧
      findWay (·.holds (lineTag s.cfg (lineAddress s.cfg a))) (s.ways (setIndex s.cfg (lineAddress s.cfg a))) = none) := by
  cases hc : s.cfg.useCache with
  | false => exact .inl rfl
  | true =>
    cases hk : findWay (·.holds (lineTag s.cfg (lineAddress s.cfg a))) (s.ways (setIndex s.cfg (lineAddress s.cfg a))) with
    | none => exact .inr (.inr ⟨rfl, rfl⟩)
    | some k =>
      obtain ⟨l, hl, -⟩ := findWay_some hk
      exact .inr (.inl ⟨rfl, k, l, rfl, hl⟩)

theorem Line.holds_iff {l : Line} {tag : Nat} : l.holds tag = true ↔ l.valid = true ∧ l.tag = tag := by
  simp [Line.holds]

/-- The first way that holds the tag is the one found. -/
theorem findWay_eq_some {p : Line → Bool} {ways : List Line} {k : Nat} {l : Line} (hl : ways[k]? = some l)
    (hp : p l = true) (hfirst : ∀ j < k, ∀ m, ways[j]? = some m → ¬p m = true) : findWay p ways = some k := by
  obtain ⟨hk, rfl⟩ := List.getElem?_eq_some_iff.mp hl
  exact List.findIdx?_eq_some_iff_getElem.mpr
    ⟨hk, hp, fun j hj => hfirst j hj _ (List.getElem?_eq_getElem (hj.trans hk))⟩

theorem findWay_eq_none {p : Line → Bool} {ways : List Line} (h : ∀ l ∈ ways, ¬p l = true) : findWay p ways = none :=
  List.findIdx?_eq_none_iff.mpr fun l hl => Bool.eq_false_iff.mpr (h l hl)

theorem getElem?_patchBytes (bs : List Byte) : ∀ (data : List Byte) (off : Nat) {j : Nat}, j < data.length →
    (patchBytes data off bs)[j]? =
      some (if off ≤ j ∧ j < off + bs.length then bs.getD (j - off) 0 else data.getD j 0) := by
  induction bs with
  | nil => intro data off j hj; simp [patchBytes, hj]
  | cons b bs ih =>
    intro data off j hj
    rw [patchBytes, ih _ _ (by simpa using hj)]
    congr 1
    rcases Nat.lt_trichotomy j off with hlt | rfl | hgt
    · simp [show ¬off ≤ j by omega, show ¬off + 1 ≤ j by omega, show off ≠ j by omega]
    · simp [hj]
    · obtain ⟨i, rfl⟩ : ∃ i, j = off + 1 + i := ⟨j - off - 1, by omega⟩
      simp [show off + 1 + i - off = i + 1 by omega, show off ≤ off + 1 + i by omega,
        show off + 1 + i < off + (bs.length + 1) ↔ i < bs.length by omega,
        show off ≠ off + 1 + i by omega]

/-- The bytes of a line with a store's written over them (rule R305). -/
theorem patchBytes_eq (data : List Byte) (off : Nat) (bs : List Byte) :
    patchBytes data off bs = (List.range data.length).map fun j =>
      if off ≤ j ∧ j < off + bs.length then bs.getD (j - off) 0 else data.getD j 0 := by
  refine List.ext_getElem? fun j => ?_
  by_cases hj : j < data.length
  · rw [getElem?_patchBytes bs data off hj]; simp [hj]
  · simp [hj]

/-- The three results of an access, one by one. -/
theorem access_results {t u : State} {lat lat' : Nat} {bytes bytes' : List Byte} (h : (t, lat, bytes) = (u, lat', bytes')) :
    t = u ∧ lat = lat' ∧ bytes = bytes' := by
  simpa using h

/-- Settles O41: the three outcomes `access_uncached`, `access_of_hit` and `access_of_miss`; the way found is the first that
holds the line. -/
theorem accessLatency : Obligations.AccessLatency := by
  unfold Obligations.AccessLatency
  intro s a n req
  rcases hacc : s.access a n req with ⟨t, lat, bytes⟩
  dsimp -zeta only
  intro memory mainMem la off set tag ways holds counted
  have hmemory : memoryLatency s.cfg req = memory := by cases req <;> rfl
  have hserved : s.mainMem.served a req = mainMem := by cases req <;> rfl
  have hholds : ∀ l : Line, l.holds tag = true ↔ holds l := fun l => Line.holds_iff
  refine ⟨fun hoff => ?uncached, fun hon => ⟨fun k l hl hh hfirst => ?hit, fun hmiss => ?miss⟩⟩
  case uncached =>
    obtain ⟨rfl, rfl, -⟩ := access_results (hacc.symm.trans (access_uncached hoff n req))
    rw [← hserved, ← hmemory]
    exact ⟨rfl, rfl⟩
  case hit =>
    intro used
    have hk : findWay (·.holds tag) ways = some k :=
      findWay_eq_some hl ((hholds l).mpr hh) fun j hj m hm => (hholds m).not.mpr (hfirst j hj m hm)
    obtain ⟨rfl, rfl, -⟩ := access_results (hacc.symm.trans (access_of_hit hon hk hl n req))
    have hused : hitLine s.cfg a (s.accessSeq + 1) l req = used := by
      cases req with
      | load => rfl
      | store data => simp only [hitLine, patchBytes_eq]; rfl
    rw [hused]
    exact ⟨rfl, rfl⟩
  case miss =>
    have hk : findWay (·.holds tag) ways = none :=
      findWay_eq_none fun l hl hh => hmiss ⟨l, hl, (hholds l).mp hh⟩
    obtain ⟨rfl, rfl, -⟩ := access_results (hacc.symm.trans (access_of_miss hon hk n req))
    rw [← hserved, ← hmemory]
    exact ⟨rfl, rfl⟩

/-! ## Replacement (rules R307, R308, R310, R312) -/

theorem triggerReplacement_of_pending {s : State} {la : Nat} (h : ∃ r ∈ s.pendingRepl, r.lineAddr = la) :
    s.triggerReplacement la = s := by
  unfold State.triggerReplacement
  rw [if_pos (by simpa using h)]

theorem triggerReplacement_of_new {s : State} {la : Nat} (h : ∀ r ∈ s.pendingRepl, r.lineAddr ≠ la) :
    s.triggerReplacement la =
      if s.cfg.laneReplacementDelay = 0 then s.replace la
      else { s with
        pendingRepl := s.pendingRepl ++ [{ due := s.tick + s.cfg.laneReplacementDelay, lineAddr := la }] } := by
  unfold State.triggerReplacement
  rw [if_neg (by simpa using h)]

theorem replace_of_cached {s : State} {la : Nat} (h : s.cached la) : s.replace la = s := by
  obtain ⟨l, hl, hholds⟩ := h
  unfold State.replace
  exact if_pos (List.any_eq_true.mpr ⟨l, hl, Line.holds_iff.mpr hholds⟩)

theorem readBytes_eq_map (m : Memory) (a n : Nat) : m.readBytes a n = (List.range n).map fun k => m.read (a + k) :=
  list_eq_range_map (m.length_readBytes n a) (m.getD_readBytes n a)

/-- Only a valid and dirty line is written back (rule R308). -/
theorem read_writeBack_iff (l : Line) (m : Memory) (a : Nat) :
    (writeBack l m).read a =
      if l.valid = true ∧ l.dirty = true ∧ l.base ≤ a ∧ a < l.base + l.data.length then l.data.getD (a - l.base) 0
      else m.read a := by
  unfold writeBack
  by_cases h : l.valid = true ∧ l.dirty = true
  · obtain ⟨hv, hd⟩ := h
    simp only [hv, hd, Bool.and_self, if_true, true_and]
    exact Memory.read_writeBytes l.data m l.base a
  · rw [if_neg (by simpa using h), if_neg fun ⟨hv, hd, _⟩ => h ⟨hv, hd⟩]

theorem memorySimulate_uncached {s : State} (h : s.cfg.useCache = false) : s.memorySimulate = s := by
  simp [State.memorySimulate, h]

/-- Stage 1: the replacements that wait stay, the due ones are performed in order (rule R310). -/
theorem memorySimulate_eq {s : State} (h : s.cfg.useCache = true) :
    s.memorySimulate =
      ((s.pendingRepl.filter fun r => decide (r.due ≤ s.tick)).map (·.lineAddr)).foldl State.replace
        { s with pendingRepl := s.pendingRepl.filter fun r => decide (s.tick < r.due) } := by
  have hwaiting : (fun r : Repl => !decide (r.due ≤ s.tick)) = fun r => decide (s.tick < r.due) := by
    funext r; rw [← decide_not]; simp only [Nat.not_le]
  simp only [State.memorySimulate, h, if_true, List.foldl_map, hwaiting]

theorem replace_pendingRepl (s : State) (la : Nat) : (s.replace la).pendingRepl = s.pendingRepl := by
  unfold State.replace
  simp only
  split <;> rfl

theorem foldl_replace_pendingRepl (las : List Nat) (s : State) :
    (las.foldl State.replace s).pendingRepl = s.pendingRepl :=
  foldl_rel (R := fun s t : State => t.pendingRepl = s.pendingRepl) (fun _ => rfl) (fun h1 h2 => h2.trans h1)
    replace_pendingRepl las s

/-- The way with the oldest stamp is a way with the least stamp (rule R312). -/
theorem oldestWay_least (stamp : Line → Nat) {ways : List Line} (h : ways ≠ []) :
    ∃ l, ways[oldestWay stamp ways]? = some l ∧ ∀ m ∈ ways, stamp l ≤ stamp m := by
  induction ways with
  | nil => exact absurd rfl h
  | cons l ls ih =>
    cases ls with
    | nil => exact ⟨l, rfl, by simp⟩
    | cons l' ls =>
      obtain ⟨m, hm, hleast⟩ := ih (by simp)
      by_cases hle : stamp l ≤ stamp m
      · have hway : oldestWay stamp (l :: l' :: ls) = 0 := by simp [oldestWay.eq_3, hm, hle]
        rw [hway]
        exact ⟨l, rfl, List.forall_mem_cons.mpr ⟨le_rfl, fun n hn => hle.trans (hleast n hn)⟩⟩
      · have hway : oldestWay stamp (l :: l' :: ls) = oldestWay stamp (l' :: ls) + 1 := by
          simp [oldestWay.eq_3, hm, hle]
        rw [hway]
        exact ⟨m, hm, List.forall_mem_cons.mpr ⟨(Nat.lt_of_not_le hle).le, hleast⟩⟩

theorem victim_of_invalid {ways : List Line} {k : Nat} {l : Line} (hl : ways[k]? = some l) (hinvalid : l.valid = false)
    (hfirst : ∀ j < k, ∀ m, ways[j]? = some m → m.valid = true) (cfg : Cfg) (rng : Nat) :
    victim cfg rng ways = (k, rng) := by
  have hk : findWay (fun l => !l.valid) ways = some k :=
    findWay_eq_some hl (by simp [hinvalid]) fun j hj m hm => by simp [hfirst j hj m hm]
  simp [victim, hk]

/-- The way the policy replaces in a full set, and the generator's next state (rule R312). -/
def policyVictim (cfg : Cfg) (rng : Nat) (ways : List Line) : Nat × Nat :=
  match cfg.cacheReplacement with
  | .lru => (oldestWay (·.usedSeq) ways, rng)
  | .fifo => (oldestWay (·.insertedSeq) ways, rng)
  | .random => ((randNext cfg.randNext rng).2 % cfg.cacheAssoc, (randNext cfg.randNext rng).1)

theorem victim_of_full {ways : List Line} (h : ∀ l ∈ ways, l.valid = true) (cfg : Cfg) (rng : Nat) :
    victim cfg rng ways = policyVictim cfg rng ways := by
  have hk : findWay (fun l => !l.valid) ways = none := findWay_eq_none fun l hl => by simp [h l hl]
  unfold victim
  rw [hk]
  rfl

/-- Settles O42: the trigger by its cases, the replaced line by `replace_eq` with what the write-back leaves in main memory
(`read_writeBack_iff`), stage 1 by `memorySimulate_eq`, the victim by `victim_of_invalid` and `victim_of_full`. -/
theorem replacement : Obligations.Replacement := by
  unfold Obligations.Replacement
  refine ⟨fun s la => ⟨triggerReplacement_of_pending, fun hnew => ?trigger⟩, fun s la => ?replace, fun s => ?simulate,
    fun cfg rng ways hne => ?victim⟩
  case trigger =>
    rw [triggerReplacement_of_new hnew]
    exact ⟨fun h => if_pos h, fun h => if_neg h.ne'⟩
  case replace =>
    intro sets size ways v t
    refine ⟨replace_of_cached, fun hmiss old hold => ?_⟩
    have habsent : (s.ways (setIndex s.cfg la)).any (·.holds (lineTag s.cfg la)) = false :=
      List.any_eq_false.mpr fun l hl hh => hmiss l hl (Line.holds_iff.mp hh).1 (Line.holds_iff.mp hh).2
    have ht : t = _ := replace_eq s la habsent old hold
    have hmem : t.mainMem = writeBack old s.mainMem := by rw [ht]
    refine ⟨?_, fun a => by rw [hmem]; exact read_writeBack_iff old s.mainMem a⟩
    rw [hmem, ← readBytes_eq_map]
    exact ht
  case simulate =>
    refine ⟨memorySimulate_uncached, fun h => ?_⟩
    rw [memorySimulate_eq h]
    exact ⟨foldl_replace_pendingRepl _ _, rfl⟩
  case victim =>
    intro v
    refine ⟨fun k l hl hinvalid hfirst => victim_of_invalid hl hinvalid hfirst cfg rng, fun hfull => ?_⟩
    have hpolicy : v = policyVictim cfg rng ways := victim_of_full hfull cfg rng
    refine ⟨fun h => ?_, fun h => ?_, fun h => ?_⟩ <;> rw [hpolicy, policyVictim, h]
    · exact ⟨rfl, oldestWay_least _ hne⟩
    · exact ⟨rfl, oldestWay_least _ hne⟩

/-! ## The view (rules R74, R309) -/

theorem State.memView_uncached {s : State} (h : s.cfg.useCache = false) (b : Nat) : s.memView b = s.mainMem.read b := by
  unfold State.memView State.lineAt
  simp [h]

/-- The view after an access within one line, with a cache or without one. -/
theorem access_view {s : State} (h : s.CacheCoherent) {a n : Nat} (hn : n = 1 ∨ n = 2 ∨ n = 4) (ha : a % n = 0)
    (h4 : 4 ∣ s.cfg.cacheLineSize) (req : Request) (hreq : ∀ data, req = .store data → data.length = n) :
    (∀ b, (s.access a n req).1.memView b = s.viewAfter a req b) ∧
      (req = .load → (s.access a n req).2.2 = s.viewBytes a n) := by
  cases hc : s.cfg.useCache with
  | true =>
    have hco := h.coherent hc
    have hline := within_line h4 hco.line hn ha
    obtain ⟨-, hview, hbytes⟩ := hco.access hco.assoc_ne_zero a n req (.inl hline) hreq
    exact ⟨hview, fun hload => hbytes hload hline⟩
  | false =>
    rw [access_uncached hc]
    refine ⟨fun b => ?_, ?_⟩
    · refine (State.memView_uncached (by exact hc) b).trans ?_
      cases req with
      | load => exact (State.memView_uncached hc b).symm
      | store data =>
        rw [State.viewAfter, State.memView_uncached hc]
        exact Memory.read_writeBytes data s.mainMem a b
    · rintro rfl
      simp only [State.viewBytes, State.memView_uncached hc]
      exact readBytes_eq_map s.mainMem a n

/-- Settles O43: `Coherent.replace` for replacements, `memorySimulate_keepsView` for stage 1, `access_view` for accesses. -/
theorem accessKeepsTheView : Obligations.AccessKeepsTheView := by
  unfold Obligations.AccessKeepsTheView
  intro s h
  refine ⟨fun hc la b => ?replace, (memorySimulate_keepsView h).view, fun a n hn ha h4 => ?load,
    fun a data hn ha h4 => ?store⟩
  case replace =>
    have hco := h.coherent hc
    exact (hco.replace hco.assoc_ne_zero la).2 b
  case load =>
    obtain ⟨hview, hbytes⟩ := access_view h hn ha h4 .load nofun
    exact ⟨hview, hbytes rfl⟩
  case store =>
    exact (access_view h hn ha h4 (.store data) fun _ hd => by cases hd; rfl).1

end Sys2Proof.Machine
end

section
/-! Stage 4 (`53_load_store_queue.md` rules R282 to R290). Examining an item writes the items of its own instruction only, so
with ids in order each item is still what it was when its turn comes. A candidate's older stores that overlap are in order
of age, so the youngest is their last. -/

namespace Sys2Proof.Machine

/-! ## The order of examination (rules R282, R285) -/

/-- The item of this instruction examined, as it now is. -/
def State.examineLoad (s : State) (id : Nat) : State :=
  match s.loadItem id with
  | some it => s.resolveLoad it
  | none => s

/-- An update of one item that keeps its id is not seen by the search for another. -/
theorem loadItem_loadUpdate_ne {g : LsItem → LsItem} (hg : ∀ it, (g it).id = it.id) (s : State) {id j : Nat} (hj : j ≠ id) :
    (s.loadUpdate id g).loadItem j = s.loadItem j := by
  have hid : ∀ it : LsItem, (if it.id = id then g it else it).id = it.id := fun it => by split <;> simp [hg]
  simp only [State.loadItem, State.loadUpdate, updateItem, List.find?_map, Function.comp_def, hid]
  cases hfind : s.loadBuffer.find? fun it => decide (it.id = j) with
  | none => rfl
  | some it =>
    have hit : it.id = j := by simpa using List.find?_some hfind
    rw [Option.map_some, if_neg (hit ▸ hj)]

theorem loadItem_congr {s t : State} (h : t.loadBuffer = s.loadBuffer) (j : Nat) : t.loadItem j = s.loadItem j := by
  unfold State.loadItem; rw [h]

theorem completeLoad_loadBuffer (s : State) (d : DynInst) (bytes : List Byte) :
    (s.completeLoad d bytes).loadBuffer = s.loadBuffer := by rw [completeLoad_eq]

/-- Examining an item leaves the items of every other instruction. -/
theorem loadItem_resolveLoad_ne (s : State) (it : LsItem) {j : Nat} (hj : j ≠ it.id) :
    (s.resolveLoad it).loadItem j = s.loadItem j := by
  rcases resolveLoad_cases s it with e | ⟨d, a, y, hd, -, -, -, -, -, e⟩ | ⟨d, a, u, hd, -, -, e⟩ <;> rw [e]
  · rw [← id_of_robFind hd] at hj
    refine (loadItem_loadUpdate_ne ?_ _ hj).trans (loadItem_congr (completeLoad_loadBuffer s d _) j)
    exact fun _ => rfl
  · rw [← id_of_robFind hd] at hj
    refine (loadItem_loadUpdate_ne ?_ _ hj).trans (loadItem_congr (access_frame s _ _ _).loadBuffer j)
    exact fun _ => rfl

/-- Over items that the state holds and whose ids differ, examining them is examining by id. -/
theorem foldl_resolveLoad_eq (its : List LsItem) : ∀ s : State, (its.map (·.id)).Nodup →
    (∀ it ∈ its, s.loadItem it.id = some it) →
    its.foldl State.resolveLoad s = (its.map (·.id)).foldl State.examineLoad s := by
  induction its with
  | nil => exact fun _ _ _ => rfl
  | cons it its ih =>
    intro s hnodup hheld
    obtain ⟨hnew, hnodup⟩ := List.nodup_cons.mp hnodup
    obtain ⟨hit, hheld⟩ := List.forall_mem_cons.mp hheld
    have hfirst : s.examineLoad it.id = s.resolveLoad it := by unfold State.examineLoad; rw [hit]
    rw [List.foldl_cons, List.map_cons, List.foldl_cons, hfirst]
    refine ih _ hnodup fun jt hjt => ?_
    have hne : jt.id ≠ it.id := fun h => hnew (List.mem_map.mpr ⟨jt, hjt, h⟩)
    rw [loadItem_resolveLoad_ne s it hne, hheld jt hjt]

/-- Store resolution does nothing, so the order of the two does not matter (rules R282, R283). -/
theorem resolveBuffers_eq (s : State) : s.resolveBuffers = s.resolveLoads := by
  unfold State.resolveBuffers State.resolveStores
  split <;> rfl

/-! ## One item (rules R285, R287 to R290) -/

theorem resolveLoad_of_skipped {s : State} {it : LsItem} (h : it.addr = none ∨ it.done = true ∨ it.inMA = true) :
    s.resolveLoad it = s := by
  unfold State.resolveLoad
  cases ha : it.addr with
  | none => rfl
  | some a =>
    cases hd : s.robFind it.id with
    | none => rfl
    | some d => exact if_pos (by simpa [ha] using h)

theorem resolveLoad_of_candidate {s : State} {it : LsItem} {d : DynInst} {a : Word} (hd : s.robFind it.id = some d)
    (ha : it.addr = some a) (hdone : it.done = false) (hma : it.inMA = false) :
    s.resolveLoad it = s.resolveCandidate d a (accessSize d.ins) := by
  simp [State.resolveLoad, ha, hd, hdone, hma]

theorem mem_olderStores {s : State} {id : Nat} {it : LsItem} :
    it ∈ s.olderStores id ↔ it ∈ s.storeBuffer ∧ it.id < id := by
  simp [State.olderStores]

/-- The older stores that overlap the bytes `a .. a+n-1` (rule R288). -/
theorem mem_overlapping {s : State} {id a n : Nat} {it : LsItem} :
    it ∈ (s.olderStores id).filter (·.overlaps a n) ↔
      (it ∈ s.storeBuffer ∧ it.id < id) ∧
        ∃ b, it.addr = some b ∧ b.toNat < a + n ∧ a < b.toNat + (it.data.getD []).length := by
  rw [List.mem_filter, mem_olderStores]
  refine and_congr_right fun _ => ?_
  unfold LsItem.overlaps LsItem.size
  cases it.addr with
  | none => simp
  | some b => simp

/-- In order of age, the item no younger one follows is the last. -/
theorem youngest_eq_some {its : List LsItem} (hinc : Increasing (its.map (·.id))) {y : LsItem} (hy : y ∈ its)
    (hlast : ∀ it ∈ its, it.id ≤ y.id) : youngest its = some y := by
  obtain ⟨front, z, rfl⟩ := (List.eq_nil_or_concat' its).resolve_left (List.ne_nil_of_mem hy)
  rw [youngest, List.getLast?_concat]
  rcases List.mem_append.mp hy with hfront | hyz
  · have hlt : y.id < z.id := by
      rw [Increasing, List.map_append, List.pairwise_append] at hinc
      exact hinc.2.2 y.id (List.mem_map_of_mem hfront) z.id (by simp)
    exact absurd (hlast z (by simp)) (Nat.not_le.mpr hlt)
  · rw [List.mem_singleton.mp hyz]

/-- The older overlapping stores are in order of age. -/
theorem increasing_overlapping {s : State} (h : Increasing (s.storeBuffer.map (·.id))) (id a n : Nat) :
    Increasing (((s.olderStores id).filter (·.overlaps a n)).map (·.id)) :=
  h.sublist ((List.filter_sublist.trans List.filter_sublist).map _)

section
variable {s : State} {d : DynInst}

theorem resolveCandidate_of_unknown (h : ∃ it ∈ s.olderStores d.id, it.addr = none) (a : Word) (n : Nat) :
    s.resolveCandidate d a n = s :=
  if_pos (by simpa using h)

/-- With every older address known, the youngest overlapping store decides (rules R287 to R290). -/
theorem resolveCandidate_of_known (h : ∀ it ∈ s.olderStores d.id, it.addr ≠ none) (a : Word) (n : Nat) :
    s.resolveCandidate d a n =
      match youngest ((s.olderStores d.id).filter (·.overlaps a.toNat n)) with
      | some y => if y.addr = some a ∧ y.size = n then s.forwardLoad d y else s
      | none =>
        match s.pickUnit fun c => decide (c.type = .MA) with
        | some u => s.startAccess d a n u
        | none => s := by
  refine (if_neg ?_).trans rfl
  simpa using h

end

/-! ## The start of a memory access (rule R290) -/

theorem replace_nextMemId (s : State) (la : Nat) : (s.replace la).nextMemId = s.nextMemId := by
  unfold State.replace
  simp only
  split <;> rfl

theorem triggerReplacement_nextMemId (s : State) (la : Nat) : (s.triggerReplacement la).nextMemId = s.nextMemId := by
  unfold State.triggerReplacement
  split
  · rfl
  · split
    · exact replace_nextMemId s la
    · rfl

/-- Every access takes the next number (rule R303). -/
theorem access_nextMemId (s : State) (a n : Nat) (req : Request) : (s.access a n req).1.nextMemId = s.nextMemId + 1 := by
  rcases access_outcome s a with hoff | ⟨hon, k, l, hk, hl⟩ | ⟨hon, hk⟩
  · rw [access_uncached hoff]
  · rw [access_of_hit hon hk hl]
  · rw [access_of_miss hon hk, triggerReplacement_nextMemId]

theorem startAccess_eq (s : State) (d : DynInst) (a : Word) (n u : Nat) :
    s.startAccess d a n u =
      ((s.access a.toNat n .load).1.loadUpdate d.id fun it =>
        { it with data := some (s.access a.toNat n .load).2.2, memId := some (s.nextMemId + 1), inMA := true }).occupy u d.id
        (unitDelay s.cfg u + (s.access a.toNat n .load).2.1) := by
  unfold State.startAccess
  simp only [access_nextMemId]
  rw [(access_frame s a.toNat n .load).cfg]

/-- Settles O39: the order by `foldl_resolveLoad_eq`, a skipped item and a candidate by the two cases of `resolveLoad`, and
what a candidate does by the youngest older store that overlaps (`youngest_eq_some`). -/
theorem loadResolution : Obligations.LoadResolution := by
  unfold Obligations.LoadResolution
  refine ⟨fun s hinc => ?order, fun s it => ⟨resolveLoad_of_skipped, fun d a => resolveLoad_of_candidate⟩,
    fun s d a n hinc => ?candidate⟩
  case order =>
    rw [resolveBuffers_eq]
    exact foldl_resolveLoad_eq s.loadBuffer s (hinc.imp Nat.ne_of_lt) fun it hit => loadItem_of_mem hinc hit
  case candidate =>
    intro older size overlaps t
    have holder : ∀ it, it ∈ s.olderStores d.id ↔ older it := fun it => mem_olderStores
    have hover : ∀ it, it ∈ (s.olderStores d.id).filter (·.overlaps a.toNat n) ↔ overlaps it := fun it => mem_overlapping
    refine ⟨fun ⟨it, hit, hnone⟩ => resolveCandidate_of_unknown ⟨it, (holder it).mpr hit, hnone⟩ a n, fun hknown => ?_⟩
    have ht : t = _ := resolveCandidate_of_known (fun it hit => hknown it ((holder it).mp hit)) a n
    rw [ht]
    refine ⟨fun y hy hyoungest => ?overlap, fun hnone => ?access⟩
    case overlap =>
      rw [youngest_eq_some (increasing_overlapping hinc _ _ _) ((hover y).mpr hy)
        fun it hit => hyoungest it ((hover it).mp hit)]
      exact ⟨fun haddr hsize => if_pos ⟨haddr, hsize⟩, fun hmis => if_neg hmis⟩
    case access =>
      have hempty : (s.olderStores d.id).filter (·.overlaps a.toNat n) = [] :=
        List.eq_nil_iff_forall_not_mem.mpr fun it hit => hnone it ((hover it).mp hit)
      rw [hempty]
      refine ⟨fun hunit => ?_, fun u hunit => ?_⟩
      · simp [youngest, hunit]
      · simp only [youngest, List.getLast?_nil, hunit]
        exact startAccess_eq s d a n u

end Sys2Proof.Machine
end

section
/-! The tick and the stepping interface (`56_cycle_and_rollback.md` rules R355 to R369). A run of a valid pair is `Sim.run`:
the state after `t` ticks with its log. Forward goes up it while it is running and backward goes down it, with the log or
by recomputing; the statements follow from where a run stands (`Reaches`). -/

namespace Sys2Proof.Machine

/-! ## One step (rules R355, R356) -/

/-- A terminal state is frozen, whatever the grain (rule R389). -/
theorem step_terminal {s : State} (hv : validate s.cfg s.prog = []) (hr : s.status ≠ .running) : step s = .next s := by
  cases hg : s.grain with
  | tick => rw [step_tick hv hg, tickStep_terminal hr]
  | instruction =>
    rw [step_instruction hv hg]
    exact if_neg hr

/-- Settles O20: a terminal state by `step_terminal`; a running one steps to `State.stages`, which are the stages in order. -/
theorem tickStagesAndFrozenStates : Obligations.TickStagesAndFrozenStates := by
  unfold Obligations.TickStagesAndFrozenStates
  refine ⟨fun s => step_terminal, fun s hv hg hr => ?_⟩
  rw [step_tick hv hg, tickStep_running hr]
  rfl

/-! ## A run with its log (rules R363, R364) -/

/-- The simulator after `t` ticks from reset, with the states before, the last first. -/
def Sim.run (cfg : Cfg) (prog : Prog) : Nat → Sim
  | 0 => { cur := State.init cfg prog, hist := [] }
  | t + 1 => { cur := tickStep (run cfg prog t).cur, hist := (run cfg prog t).cur :: (run cfg prog t).hist }

/-- The state after `t` ticks. -/
def runState (cfg : Cfg) (prog : Prog) (t : Nat) : State := ticks t (State.init cfg prog)

/-- Every state before the `t`-th is running. -/
def RunsFor (cfg : Cfg) (prog : Prog) (t : Nat) : Prop := ∀ j < t, (runState cfg prog j).status = .running

/-- Within `n` ticks a run gets as far as `t`: it is at `n`, or terminal before. -/
structure Reaches (cfg : Cfg) (prog : Prog) (n t : Nat) : Prop where
  le : t ≤ n
  runs : RunsFor cfg prog t
  stops : t < n → (runState cfg prog t).status ≠ .running

section
variable {cfg : Cfg} {prog : Prog}

theorem Sim.run_cur (t : Nat) : (Sim.run cfg prog t).cur = runState cfg prog t := by
  induction t with
  | zero => rfl
  | succ t ih => exact congrArg tickStep ih

theorem Sim.run_hist_length (t : Nat) : (Sim.run cfg prog t).hist.length = t := by
  induction t with
  | zero => rfl
  | succ t ih => exact congrArg Nat.succ ih

theorem runState_cfg (t : Nat) : (runState cfg prog t).cfg = cfg := (ticks_params t _).1
theorem runState_prog (t : Nat) : (runState cfg prog t).prog = prog := (ticks_params t _).2

/-- A state of the run of a valid pair has that pair. -/
theorem validate_of_cur (h : Valid cfg prog) {m : Sim} {t : Nat} (hm : m.cur = runState cfg prog t) :
    validate m.cur.cfg m.cur.prog = [] := by
  rw [hm, runState_cfg, runState_prog]; exact h

theorem RunsFor.succ {t : Nat} (h : RunsFor cfg prog t) (hr : (runState cfg prog t).status = .running) :
    RunsFor cfg prog (t + 1) := by
  intro j hj
  rcases Nat.lt_succ_iff_lt_or_eq.mp hj with hlt | rfl
  · exact h j hlt
  · exact hr

theorem RunsFor.mono {t u : Nat} (h : RunsFor cfg prog u) (htu : t ≤ u) : RunsFor cfg prog t :=
  fun j hj => h j (hj.trans_le htu)

/-- While it runs, a run counts its ticks (rule R355). -/
theorem RunsFor.tick {t : Nat} (h : RunsFor cfg prog t) : (runState cfg prog t).tick = t := by
  induction t with
  | zero => rfl
  | succ t ih =>
    have hstep : runState cfg prog (t + 1) = (runState cfg prog t).stages := tickStep_running (h t t.lt_succ_self)
    obtain ⟨-, -, -, htick⟩ := stages_params (runState cfg prog t)
    rw [hstep, htick, ih (h.mono t.le_succ)]

theorem exists_reaches (n : Nat) : ∃ t, Reaches cfg prog n t := by
  induction n with
  | zero => exact ⟨0, le_rfl, nofun, nofun⟩
  | succ n ih =>
    obtain ⟨t, hle, hruns, hstops⟩ := ih
    by_cases hr : (runState cfg prog t).status = .running
    · obtain rfl : t = n := Nat.le_antisymm hle (Nat.not_lt.mp fun hlt => hstops hlt hr)
      exact ⟨t + 1, le_rfl, hruns.succ hr, fun h => absurd h (Nat.lt_irrefl _)⟩
    · exact ⟨t, Nat.le_succ_of_le hle, hruns, fun _ => hr⟩

/-- A terminal state stays, so a run is at `n` ticks where it stopped (rule R356). -/
theorem Reaches.state {n t : Nat} (h : Reaches cfg prog n t) : runState cfg prog n = runState cfg prog t := by
  obtain ⟨hle, -, hstops⟩ := h
  induction n with
  | zero => rw [Nat.le_zero.mp hle]
  | succ n ih =>
    rcases Nat.lt_succ_iff_lt_or_eq.mp (Nat.lt_succ_of_le hle) with hlt | rfl
    · have hsame := ih (Nat.lt_succ_iff.mp hlt) fun _ => hstops hlt
      show tickStep (runState cfg prog n) = _
      rw [hsame, tickStep_terminal (hstops hlt)]
    · rfl

/-! ## Forward and backward along a run (rules R364 to R366) -/

theorem Sim.run_forward (h : Valid cfg prog) {t : Nat} (hr : (runState cfg prog t).status = .running) :
    (Sim.run cfg prog t).forward = .ok (Sim.run cfg prog (t + 1)) := by
  have hcur := Sim.run_cur (cfg := cfg) (prog := prog) t
  rw [Sim.forward_running (validate_of_cur h hcur) (hcur ▸ hr), Sim.run, tickStep_running (hcur ▸ hr)]

theorem Sim.run_forward_terminal (h : Valid cfg prog) {t : Nat} (hr : (runState cfg prog t).status ≠ .running) :
    (Sim.run cfg prog t).forward = .ok (Sim.run cfg prog t) := by
  have hcur := Sim.run_cur (cfg := cfg) (prog := prog) t
  exact Sim.forward_terminal (validate_of_cur h hcur) (hcur ▸ hr)

theorem Sim.run_backward (h : Valid cfg prog) (t : Nat) :
    (Sim.run cfg prog t).backward = .ok (Sim.run cfg prog (t - 1)) := by
  have hvalid := validate_of_cur h (Sim.run_cur (cfg := cfg) (prog := prog) t)
  cases t with
  | zero => exact Sim.backward_reset hvalid rfl rfl
  | succ t => exact Sim.backward_logged hvalid rfl

/-- The snapshot of a run goes back by recomputing, to the snapshot of the run one tick earlier (rule R366). -/
theorem Sim.snapshot_backward (h : Valid cfg prog) {t : Nat} (hruns : RunsFor cfg prog t) :
    ({ cur := runState cfg prog t, hist := [] } : Sim).backward = .ok { cur := runState cfg prog (t - 1), hist := [] } := by
  have hvalid := validate_of_cur (m := { cur := runState cfg prog t, hist := [] }) h rfl
  cases t with
  | zero => exact Sim.backward_reset hvalid rfl rfl
  | succ t =>
    rw [Sim.backward_unlogged hvalid rfl hruns.tick]
    simp only [runState_cfg, runState_prog]
    rfl

/-- Forward `n` times, from anywhere the run has not gone past. -/
theorem Sim.repeat_forward_run (h : Valid cfg prog) {t : Nat} (n : Nat) : ∀ {j : Nat}, j ≤ t → Reaches cfg prog (j + n) t →
    Sim.repeat Sim.forward n (Sim.run cfg prog j) = .ok (Sim.run cfg prog t) := by
  induction n with
  | zero =>
    intro j hj hreach
    rw [Nat.le_antisymm hj hreach.le]
    rfl
  | succ n ih =>
    intro j hj hreach
    obtain ⟨hle, hruns, hstops⟩ := hreach
    rcases Nat.lt_or_eq_of_le hj with hlt | rfl
    · rw [Sim.repeat, Sim.run_forward h (hruns j hlt)]
      exact ih hlt ⟨by omega, hruns, fun hlt' => hstops (by omega)⟩
    · rw [Sim.repeat, Sim.run_forward_terminal h (hstops (by omega))]
      exact ih le_rfl ⟨Nat.le_add_right j n, hruns, fun _ => hstops (by omega)⟩

theorem Sim.repeat_backward_run (h : Valid cfg prog) (n : Nat) : ∀ t : Nat,
    Sim.repeat Sim.backward n (Sim.run cfg prog t) = .ok (Sim.run cfg prog (t - n)) := by
  induction n with
  | zero => exact fun t => rfl
  | succ n ih =>
    intro t
    rw [Sim.repeat, Sim.run_backward h]
    refine (ih (t - 1)).trans ?_
    rw [Nat.sub_sub, Nat.add_comm 1 n]

/-- From reset, `n` times forward. -/
theorem Sim.start_forward (h : Valid cfg prog) {n t : Nat} (hreach : Reaches cfg prog n t) :
    (Sim.start cfg prog).bind (Sim.repeat Sim.forward n) = .ok (Sim.run cfg prog t) := by
  rw [Sim.start_valid h]
  exact Sim.repeat_forward_run h n (Nat.zero_le t) (by rwa [Nat.zero_add])

theorem Reaches.stateAt (h : Valid cfg prog) {n t : Nat} (hreach : Reaches cfg prog n t) :
    stateAt cfg prog n = .ok (runState cfg prog t) := by
  rw [stateAt_valid h, ← hreach.state]
  rfl

end

/-- Forward of a running state logs it, and backward takes it from the log (rules R364, R365). -/
theorem Sim.forward_backward {m : Sim} (hv : Valid m.cur.cfg m.cur.prog) (hr : m.cur.status = .running) :
    m.forward.bind Sim.backward = .ok m := by
  have hparams := stages_sameParameters m.cur
  have hvalid : validate m.cur.stages.cfg m.cur.stages.prog = [] := by rw [hparams.cfg, hparams.prog]; exact hv
  have hback := Sim.backward_logged (m := { cur := m.cur.stages, hist := m.cur :: m.hist }) hvalid rfl
  rw [Sim.forward_running hv hr]
  simp only [Except.bind, hback]

/-- Settles O59: forward and backward of any value by `Sim.forward_backward`; a run of `n` ticks stands at `Sim.run`, down
and up which the two go. -/
theorem roundTrip : Obligations.RoundTrip := by
  unfold Obligations.RoundTrip
  refine ⟨fun m hv => ⟨Sim.forward_backward hv, Sim.backward_reset hv⟩, fun cfg prog n hv => ?_⟩
  obtain ⟨t, hreach⟩ := exists_reaches (cfg := cfg) (prog := prog) n
  have hcur := Sim.run_cur (cfg := cfg) (prog := prog)
  have htick : (Sim.run cfg prog t).cur.tick = t := by rw [hcur, hreach.runs.tick]
  refine ⟨Sim.run cfg prog t, Sim.run cfg prog (t - 1), Sim.start_forward hv hreach, ?_, ?_, ?_, Sim.run_backward hv t, ?_, ?_,
    ?_⟩
  · rw [hcur]; exact hreach.stateAt hv
  · rw [htick]; exact Sim.run_hist_length t
  · rw [Sim.repeat_backward_run hv, Nat.sub_eq_zero_of_le hreach.le]
    exact Sim.repeat_forward_run hv n (Nat.zero_le t) (by rwa [Nat.zero_add])
  · rw [htick, hcur]; exact stateAt_valid hv _
  · exact Sim.load_valid (validate_of_cur hv (hcur t))
  · rw [hcur, hcur]; exact Sim.snapshot_backward hv hreach.runs

/-! ## `StepTo` (rules R368, R369) -/

section
variable {cfg : Cfg} {prog : Prog}

/-- The forward loop goes on to the target or to the terminal state before it, and counts its steps. -/
theorem Sim.loop_forward (h : Valid cfg prog) (fuel : Nat) : ∀ {t : Nat} {m : Sim}, m.cur = runState cfg prog t →
    RunsFor cfg prog t → ∃ u m', t ≤ u ∧ Reaches cfg prog (t + fuel) u ∧ m'.cur = runState cfg prog u ∧
      Sim.loop (fun s => decide (s.tick < t + fuel ∧ s.status = .running)) Sim.forward fuel m = .ok (m', u - t) := by
  induction fuel with
  | zero =>
    intro t m hm hruns
    exact ⟨t, m, le_rfl, ⟨le_rfl, hruns, fun hlt => absurd hlt (Nat.lt_irrefl _)⟩, hm, by rw [Nat.sub_self]; rfl⟩
  | succ fuel ih =>
    intro t m hm hruns
    have htick : m.cur.tick = t := by rw [hm, hruns.tick]
    by_cases hr : m.cur.status = .running
    · have hcond : decide (m.cur.tick < t + (fuel + 1) ∧ m.cur.status = .running) = true := by
        simp [htick, hr]
      obtain ⟨u, m', hle, hreach, hm', hloop⟩ := ih (t := t + 1)
        (m := { cur := m.cur.stages, hist := m.cur :: m.hist })
        (by rw [hm]; exact (tickStep_running (hm ▸ hr)).symm) (hruns.succ (hm ▸ hr))
      have hfuel : t + 1 + fuel = t + (fuel + 1) := by omega
      rw [hfuel] at hreach hloop
      refine ⟨u, m', Nat.le_of_succ_le hle, hreach, hm', ?_⟩
      rw [Sim.loop, if_pos hcond, Sim.forward_running (validate_of_cur h hm) hr]
      have hcount : u - (t + 1) + 1 = u - t := by omega
      simp only [Except.bind, hloop, Except.map, hcount]
    · refine ⟨t, m, le_rfl, ⟨Nat.le_add_right t _, hruns, fun _ => hm ▸ hr⟩, hm, ?_⟩
      rw [Sim.loop, if_neg (by simp [hr]), Nat.sub_self]

/-- A value of the run, with its log or without one. -/
def Sim.Stands (cfg : Cfg) (prog : Prog) (t : Nat) (m : Sim) : Prop :=
  m = Sim.run cfg prog t ∨ m = { cur := runState cfg prog t, hist := [] }

theorem Sim.Stands.cur {t : Nat} {m : Sim} (h : m.Stands cfg prog t) : m.cur = runState cfg prog t := by
  rcases h with rfl | rfl
  · exact Sim.run_cur t
  · rfl

theorem Sim.Stands.backward (h : Valid cfg prog) {t : Nat} {m : Sim} (hm : m.Stands cfg prog t)
    (hruns : RunsFor cfg prog t) : ∃ m', m.backward = .ok m' ∧ m'.Stands cfg prog (t - 1) := by
  rcases hm with rfl | rfl
  · exact ⟨_, Sim.run_backward h t, .inl rfl⟩
  · exact ⟨_, Sim.snapshot_backward h hruns, .inr rfl⟩

/-- The backward loop goes back to the target, and counts its steps. -/
theorem Sim.loop_backward (h : Valid cfg prog) (target k : Nat) : ∀ {m : Sim}, m.Stands cfg prog (target + k) →
    RunsFor cfg prog (target + k) → ∃ m', m'.Stands cfg prog target ∧
      Sim.loop (fun s => decide (target < s.tick)) Sim.backward k m = .ok (m', k) := by
  induction k with
  | zero => exact fun {m} hm _ => ⟨m, hm, rfl⟩
  | succ k ih =>
    intro m hm hruns
    have hcond : decide (target < m.cur.tick) = true := by
      rw [hm.cur, hruns.tick]; simp
    obtain ⟨m1, hback, hm1⟩ := hm.backward h hruns
    obtain ⟨m', hm', hloop⟩ := ih hm1 (hruns.mono (Nat.le_succ _))
    refine ⟨m', hm', ?_⟩
    rw [Sim.loop, if_pos hcond, hback]
    simp only [Except.bind, hloop, Except.map]

/-- `StepTo` from the state after `t` ticks, with its log or without one: at the target, or where the run stops before
it. -/
theorem Sim.Stands.stepTo (h : Valid cfg prog) {t : Nat} {m : Sim} (hm : m.Stands cfg prog t) (hruns : RunsFor cfg prog t)
    (target : Nat) : ∃ u m', Reaches cfg prog target u ∧ m'.cur = runState cfg prog u ∧
      m.stepTo target = .ok (m', { forwardSteps := u - t, backwardSteps := t - u, tick := m'.cur.tick
                                   status := m'.cur.status }) := by
  have htick : m.cur.tick = t := by rw [hm.cur, hruns.tick]
  have hlegal := validate_of_cur h hm.cur
  rcases Nat.le_total t target with hle | hle
  · obtain ⟨fuel, rfl⟩ := Nat.exists_eq_add_of_le hle
    obtain ⟨u, m', hge, hreach, hm', hloop⟩ := Sim.loop_forward h fuel hm.cur hruns
    have hforward : m.forwardTo (t + fuel) = .ok (m', u - t) := by
      rw [Sim.forwardTo, htick, Nat.add_sub_cancel_left]; exact hloop
    have hbackward : m'.backwardTo (t + fuel) = .ok (m', 0) := by
      rw [Sim.backwardTo, hm', hreach.runs.tick, Nat.sub_eq_zero_of_le hreach.le]; rfl
    refine ⟨u, m', hreach, hm', ?_⟩
    rw [Sim.stepTo, ifLegal_valid hlegal, hforward, Nat.sub_eq_zero_of_le hge]
    simp only [Except.bind, hbackward, Except.map]
  · obtain ⟨k, rfl⟩ := Nat.exists_eq_add_of_le hle
    obtain ⟨m', hm', hloop⟩ := Sim.loop_backward h target k hm hruns
    have hforward : m.forwardTo target = .ok (m, 0) := by
      rw [Sim.forwardTo, htick, Nat.sub_eq_zero_of_le hle]; rfl
    have hbackward : m.backwardTo target = .ok (m', k) := by
      rw [Sim.backwardTo, htick, Nat.add_sub_cancel_left]; exact hloop
    refine ⟨target, m', ⟨le_rfl, hruns.mono hle, fun hlt => absurd hlt (Nat.lt_irrefl _)⟩, hm'.cur, ?_⟩
    rw [Sim.stepTo, ifLegal_valid hlegal, hforward, Nat.sub_eq_zero_of_le hle, Nat.add_sub_cancel_left]
    simp only [Except.bind, hbackward, Except.map]

end

/-- Settles O60: after `n` ticks the run stands at `Sim.run`, and `Sim.Stands.stepTo` says where `StepTo` goes from there,
with the log and without. -/
theorem stepToReachesTheTarget : Obligations.StepToReachesTheTarget := by
  unfold Obligations.StepToReachesTheTarget
  intro cfg prog n target hv
  obtain ⟨t, hreach⟩ := exists_reaches (cfg := cfg) (prog := prog) n
  have htick : (Sim.run cfg prog t).cur.tick = t := by rw [Sim.run_cur, hreach.runs.tick]
  refine ⟨Sim.run cfg prog t, Sim.start_forward hv hreach, fun m0 hm0 => ?_⟩
  have hstands : m0.Stands cfg prog t := by
    rw [Sim.run_cur] at hm0
    simpa [Sim.Stands] using hm0
  obtain ⟨u, m', hu, hm', hstep⟩ := hstands.stepTo hv hreach.runs target
  have htick' : m'.cur.tick = u := by rw [hm', hu.runs.tick]
  refine ⟨m', _, hstep, hm' ▸ hu.stateAt hv, rfl, rfl, by rw [htick, htick'], by rw [htick, htick'], ?_⟩
  rw [htick', hm']
  exact (Nat.lt_or_eq_of_le hu.le).symm.imp_right fun hlt => ⟨hlt, hu.stops hlt⟩

end Sys2Proof.Machine
end

section
/-! Commit and flush (`55_rob_commit.md` rules R332 to R348). Register commit, flush and the commit of a transfer by their
components; then the commit loop, whose heads are the first instructions of the reorder buffer as it was, but for their
references (`DynInst.SameButRefs`). -/

namespace Sys2Proof.Machine

/-! ## Register commit (rule R335) -/

theorem vector_get_set_ne {α : Type} {n : Nat} (v : Vector α n) {i j : Fin n} (h : i ≠ j) (a : α) :
    (v.set i a).get j = v.get j := by
  change (v.set i a)[j.val] = v[j.val]
  exact Vector.getElem_set_ne i.isLt j.isLt fun e => h (Fin.ext e)

theorem readX_writeReg (s : State) (r : ArchReg) (v : Container) (tag : Tag) (q : Reg) :
    (s.writeReg r v tag).readX q = if r = { file := .x, idx := q } ∧ q ≠ 0 then ofContainer v else s.readX q := by
  obtain ⟨file, idx⟩ := r
  cases file with
  | x => simp [State.writeReg, State.readX_writeX, eq_comm]
  | f => simp [State.writeReg, State.readX]

theorem get_f_writeReg (s : State) (r : ArchReg) (v : Container) (tag : Tag) (q : Reg) :
    (s.writeReg r v tag).f.get q =
      if r = { file := .f, idx := q } then { value := v, tag := committedTag tag (s.f.get q).tag } else s.f.get q := by
  obtain ⟨file, idx⟩ := r
  cases file with
  | x => simp [State.writeReg]
  | f =>
    by_cases h : idx = q
    · subst h; simp [State.writeReg, vector_get_set]
    · simp [State.writeReg, vector_get_set_ne _ h, h]

/-- Settles O44: the register write by `readX_writeReg` and `get_f_writeReg`, the rest by the definition. -/
theorem registerCommit : Obligations.RegisterCommit := by
  unfold Obligations.RegisterCommit
  intro s d k r p hspec harch hp t retarget
  have ht : t = { s.writeReg r p.value p.tag with
      decodeBuffer := s.decodeBuffer.map retarget
      rob := s.rob.map retarget
      renameTable := s.renameTable.filter fun e => decide (e.id ≠ d.id)
      pool := s.pool.set k SpecReg.freed } := by
    show s.commitRegister d = _
    simp only [State.commitRegister, hspec, harch, hp, Option.getD_some]
    rw [writeReg_frame]
    rfl
  refine ⟨?_, fun q => ?_, fun q => ?_⟩ <;> rw [ht]
  · rw [writeReg_frame]; rfl
  · exact readX_writeReg s r p.value p.tag q
  · refine (get_f_writeReg s r p.value p.tag q).trans ?_
    cases p.tag <;> rfl

/-! ## Flush (rules R342, R348) -/

/-- A unit after a flush of what is younger than `b`. -/
def FuState.flushed (b : Nat) (f : FuState) : FuState :=
  let f := { f with failed := f.failed.filter fun id => decide (id ≤ b) }
  match f.ins with
  | some id => if decide (id ≤ b) then f else { f with ins := none, counter := 0, total := 0 }
  | none => f

theorem flush_fu (s : State) (b : Nat) : (s.flush b).fu = s.fu.map (FuState.flushed b) := rfl

theorem FuState.flushed_spec (b : Nat) (f : FuState) :
    (∀ id, id ∈ (f.flushed b).failed ↔ id ∈ f.failed ∧ id ≤ b) ∧
    (∀ id, f.ins = some id → id ≤ b →
      (f.flushed b).ins = f.ins ∧ (f.flushed b).counter = f.counter ∧ (f.flushed b).total = f.total) ∧
    (∀ id, f.ins = some id → b < id →
      (f.flushed b).ins = none ∧ (f.flushed b).counter = 0 ∧ (f.flushed b).total = 0) ∧
    (f.ins = none → (f.flushed b).ins = none) := by
  unfold FuState.flushed
  cases hins : f.ins with
  | none => simp
  | some i =>
    by_cases hi : i ≤ b
    · simp [hi]
    · simp [hi, Nat.lt_of_not_le hi]

/-- Freeing the pool registers of these entries frees exactly theirs. -/
theorem foldl_free_getElem? (es : List RenameEntry) : ∀ (pool : List SpecReg) (k : Nat) (p : SpecReg), pool[k]? = some p →
    (es.foldl (fun p e => p.set e.spec SpecReg.freed) pool)[k]? =
      some (if ∃ e ∈ es, e.spec = k then SpecReg.freed else p) := by
  induction es with
  | nil => intro pool k p hp; simpa using hp
  | cons e es ih =>
    intro pool k p hp
    have hk : k < pool.length := (List.getElem?_eq_some_iff.mp hp).1
    rw [List.foldl_cons]
    by_cases he : e.spec = k
    · rw [ih _ k SpecReg.freed (by simp [he, hk])]
      simp [he]
    · rw [ih _ k p (by rw [List.getElem?_set_ne he]; exact hp)]
      simp [he]

theorem foldl_free_length (es : List RenameEntry) (pool : List SpecReg) :
    (es.foldl (fun p e => p.set e.spec SpecReg.freed) pool).length = pool.length :=
  foldl_rel (R := fun p q : List SpecReg => q.length = p.length) (fun _ => rfl) (fun h1 h2 => h2.trans h1)
    (fun _ _ => List.length_set) es pool

theorem flush_pool_getElem? (s : State) (b : Nat) {k : Nat} {p : SpecReg} (hp : s.pool[k]? = some p) :
    (s.flush b).pool[k]? = some (if ∃ e ∈ s.renameTable, b < e.id ∧ e.spec = k then SpecReg.freed else p) := by
  refine (foldl_free_getElem? _ _ k p hp).trans ?_
  congr 2
  simp [and_assoc]

theorem flush_win (s : State) (b : Nat) (c : IClass) : (s.flush b).win.at c = (s.win.at c).filter fun id => decide (id ≤ b) := by
  cases c <;> rfl

theorem mem_filter_le {α : Type} {l : List α} {key : α → Nat} {b : Nat} {a : α} :
    a ∈ l.filter (fun a => decide (key a ≤ b)) ↔ a ∈ l ∧ key a ≤ b := by
  simp

/-- Settles O47: every list by its filter, the units by `FuState.flushed_spec`, the pool by `flush_pool_getElem?`. -/
theorem flushDiscardsTheYounger : Obligations.FlushDiscardsTheYounger := by
  unfold Obligations.FlushDiscardsTheYounger
  intro s b t
  refine ⟨rfl, fun _ => mem_filter_le, fun _ => mem_filter_le, fun c id => ?win, fun _ => mem_filter_le,
    fun _ => mem_filter_le, fun _ => mem_filter_le, fun _ => mem_filter_le, List.length_map _, fun u f g hf hg => ?unit,
    foldl_free_length _ _, fun k p q hp hq => ?pool, rfl⟩
  case win =>
    rw [flush_win]
    exact mem_filter_le (key := fun i => i)
  case unit =>
    obtain rfl : f.flushed b = g := by
      rw [flush_fu, List.getElem?_map, hf] at hg
      exact Option.some.inj hg
    exact f.flushed_spec b
  case pool => exact Option.some.inj (hq.symm.trans (flush_pool_getElem? s b hp))

/-! ## Commit of a mispredicted transfer (rules R340, R343) -/

theorem mispredicted_iff {d : DynInst} {taken : Bool} {target : Word} :
    mispredicted d taken target = true ↔ d.predTaken ≠ taken ∨ (taken = true ∧ d.predTarget ≠ target) := by
  simp [mispredicted]

/-- Settles O46: a wrong prediction is trained as a correct one, for training does not read the prediction, and then
recovered (`commitTransfer_eq`). -/
theorem commitMispredictedTransfer : Obligations.CommitMispredictedTransfer := by
  unfold Obligations.CommitMispredictedTransfer
  intro s d taken target htaken htarget hwrong trained
  have htrained : trained = s.trainTransfer d := by
    show (s.commitTransfer { d with predTaken := taken, predTarget := target }).1 = _
    rw [commitTransfer_of_predicted (d := { d with predTaken := taken, predTarget := target }) htaken htarget
      (mispredicted_eq_false rfl fun _ => rfl)]
    rfl
  rw [commitTransfer_eq, htaken, htarget, Option.getD_some, Option.getD_some, if_pos (mispredicted_iff.mpr hwrong), htrained]
  have hframe := trainTransfer_frame s d
  have hcfg : (s.trainTransfer d).cfg = s.cfg := by rw [hframe]
  have hflushes : (s.trainTransfer d).stats.flushes = s.stats.flushes := by rw [hframe]
  rw [← hcfg, ← hflushes]
  rfl

/-! ## A failed head (rules R333, R378, R390) -/

/-- The ids of the reorder buffer begin with these. -/
def State.RobStartsWith (ids : List Nat) (s : State) : Prop := ids <+: s.rob.map (·.id)

section
variable {ids : List Nat}

theorem State.RobStartsWith.of_eq {s t : State} (h : s.RobStartsWith ids) (hrob : t.rob = s.rob) : t.RobStartsWith ids := by
  unfold State.RobStartsWith; rw [hrob]; exact h

theorem robUpdate_robStartsWith {s : State} (h : s.RobStartsWith ids) (id : Nat) {g : DynInst → DynInst}
    (hg : ∀ d, (g d).id = d.id) : (s.robUpdate id g).RobStartsWith ids := by
  have hid : ∀ d : DynInst, (if d.id = id then g d else d).id = d.id := fun d => by split <;> simp [hg]
  simpa [State.RobStartsWith, State.robUpdate, Function.comp_def, hid] using h

theorem writeSpec_robStartsWith {s : State} (h : s.RobStartsWith ids) (d : DynInst) (v : Container) :
    (s.writeSpec d v).RobStartsWith ids := by
  unfold State.writeSpec
  split <;> exact h

theorem unitTick_robStartsWith (s : State) (u : Nat) (h : s.RobStartsWith ids) : (s.unitTick u).RobStartsWith ids :=
  unitTick_inv (P := State.RobStartsWith ids) (fun _ _ _ h => h) (fun _ _ id h => robUpdate_robStartsWith h id fun _ => rfl)
    (fun _ d v h => writeSpec_robStartsWith h d v) (fun _ id h => robUpdate_robStartsWith h id fun _ => rfl)
    (fun _ _ id _ h => robUpdate_robStartsWith h id fun _ => rfl) (fun _ id _ _ h => robUpdate_robStartsWith h id fun _ => rfl)
    (fun _ _ _ h => h) (fun _ _ _ _ _ _ h => h) s u h

theorem resolveLoad_robStartsWith (s : State) (it : LsItem) (h : s.RobStartsWith ids) :
    (s.resolveLoad it).RobStartsWith ids :=
  resolveLoad_inv (P := State.RobStartsWith ids) (fun _ d v h => writeSpec_robStartsWith h d v)
    (fun _ id h => robUpdate_robStartsWith h id fun _ => rfl) (fun _ _ _ h => h)
    (fun _ _ id _ h => robUpdate_robStartsWith h id fun _ => rfl) (fun _ _ _ h => h.of_eq (access_frame _ _ _ _).rob) s it h

theorem issueOne_robStartsWith (s : State) (c : IClass) (id : Nat) (h : s.RobStartsWith ids) :
    (s.issueOne c id).RobStartsWith ids :=
  issueOne_inv (P := State.RobStartsWith ids) (fun _ _ _ h => h) (fun _ _ id _ h => robUpdate_robStartsWith h id fun _ => rfl)
    (fun _ id _ h => robUpdate_robStartsWith h id fun _ => rfl) s c id h

/-- Dispatch puts instructions at the end. -/
theorem dispatch_robStartsWith (s : State) (h : s.RobStartsWith ids) : s.dispatch.RobStartsWith ids :=
  dispatch_inv (P := State.RobStartsWith ids) (fun _ _ _ h => h)
    (fun s d _ h => h.trans (by simp [State.dispatchOne])) s h

theorem rename_robStartsWith (s : State) (h : s.RobStartsWith ids) : s.rename.RobStartsWith ids := by
  rcases rename_moves s with e | ⟨-, -, e⟩ <;> rw [e] <;> exact h

/-- Stages 3 to 7 remove nothing from the reorder buffer. -/
theorem afterCommit_robStartsWith (s : State) (h : s.RobStartsWith ids) : s.afterCommit.RobStartsWith ids := by
  have hunits : s.units.RobStartsWith ids := foldl_inv unitTick_robStartsWith _ s h
  have hlsq : s.units.resolveBuffers.RobStartsWith ids := by
    rw [resolveBuffers_eq]
    exact foldl_inv resolveLoad_robStartsWith _ _ hunits
  have hwindow : ∀ (t : State) (c : IClass), t.RobStartsWith ids → (t.issueWindow c).RobStartsWith ids :=
    fun t c h => foldl_inv (fun t id h => issueOne_robStartsWith t c id h) _ t h
  have hissue : s.units.resolveBuffers.issue.RobStartsWith ids :=
    hwindow _ _ (hwindow _ _ (hwindow _ _ (hwindow _ _ hlsq)))
  exact (rename_robStartsWith _ (dispatch_robStartsWith _ hissue)).of_eq (fetch_frame _).rob

end

/-- A failed head ends commit with its exception (rule R333). -/
theorem commit_of_failed {s : State} {d : DynInst} {k : ExcKind} (hwidth : 1 ≤ s.cfg.commitWidth)
    (hd : s.rob.head? = some d) (hbusy : d.busy = false) (hexc : d.exc = some k) : s.commit = s.takeException k := by
  obtain ⟨n, hn⟩ := Nat.exists_eq_add_of_le' hwidth
  obtain ⟨ds, hrob⟩ := List.head?_eq_some_iff.mp hd
  simp [State.commit, hn, commitLoop, hrob, hbusy, hexc]

/-- Where an exception has reached commit and nothing has halted, stage 8 gives its status (rules R384, R386). -/
theorem stopReason_of_exception {s : State} {k : ExcKind} (hhalt : s.haltSeen = false) (hexc : s.excSeen = some k) :
    s.stopReason = .exception k := by
  simp [State.stopReason, hhalt, hexc]

/-- Settles O49: a failed head is a blocked one, so registers, counts and view stay (`stages_blocked`, `stages_view`); commit
takes its exception, which stages 3 to 7 leave for stage 8. -/
theorem failedHeadEndsTheRun : Obligations.FailedHeadEndsTheRun := by
  unfold Obligations.FailedHeadEndsTheRun
  intro s d k hv hg hr hhalt hco hd hbusy hexc
  have hblocked : ∀ e, s.rob.head? = some e → e.busy = true ∨ e.exc ≠ none := fun e he => by
    obtain rfl : d = e := Option.some.inj (hd.symm.trans he)
    exact .inr (by simp [hexc])
  obtain ⟨hx, hf, -, -, hcount, -⟩ := stages_blocked hblocked
  have hview : ∀ b, s.stages.memView b = s.memView b := stages_view hco (by rw [hcount]; simp)
  have hm := memorySimulate_frame s.startTick
  obtain ⟨hlegal, -⟩ := valid_iff.mp hv
  have hcommit : s.startTick.memorySimulate.commit = s.startTick.memorySimulate.takeException k :=
    commit_of_failed (by rw [hm.cfg]; exact hlegal.commitWidth) (by rw [hm.rob]; exact hd) hbusy hexc
  have hback := afterCommit_frame (s.startTick.memorySimulate.takeException k)
  have hstarts : (s.startTick.memorySimulate.takeException k).afterCommit.RobStartsWith [d.id] := by
    obtain ⟨ds, hrob⟩ := List.head?_eq_some_iff.mp hd
    exact afterCommit_robStartsWith _ (by simp [State.RobStartsWith, hm.rob, hrob])
  have hstages : s.stages = (s.startTick.memorySimulate.takeException k).afterCommit.evalStop := by
    rw [stages_eq, hcommit]
  generalize (s.startTick.memorySimulate.takeException k).afterCommit = u at hback hstarts hstages
  have hexcSeen : s.stages.excSeen = some k := by
    rw [hstages, State.evalStop_excSeen, hback.excSeen, State.takeException_excSeen]
  have hhaltSeen : s.stages.haltSeen = false := by
    rw [hstages, State.evalStop_haltSeen, hback.haltSeen, State.takeException_haltSeen, hm.haltSeen]
    exact hhalt
  have hstatus : s.stages.status = .exception k := by
    rw [hstages] at hexcSeen hhaltSeen ⊢
    exact stopReason_of_exception hhaltSeen hexcSeen
  have hhead : ∃ e, s.stages.rob.head? = some e ∧ e.id = d.id := by
    obtain ⟨ids, hids⟩ := hstarts
    rw [hstages, State.evalStop_rob]
    have hfirst := congrArg List.head? hids
    rw [List.singleton_append, List.head?_cons, List.head?_map, eq_comm, Option.map_eq_some_iff] at hfirst
    exact hfirst
  have hparams := stages_sameParameters s
  have hfrozen : step s.stages = .next s.stages :=
    step_terminal (by rw [hparams.cfg, hparams.prog]; exact hv) (by simp [hstatus])
  exact ⟨s.stages, by rw [step_tick hv hg, tickStep_running hr], hexcSeen, hstatus, hx, hf, hview, hcount, hhead, hfrozen⟩

end Sys2Proof.Machine
end

section
/-! The commits of one tick (`55_rob_commit.md` rules R332 to R337). Of the instructions behind the head a commit changes the
references alone, so the heads the loop finds are the first instructions of the reorder buffer as it was, seen without
their references (`DynInst.plain`); `CommitsOf` says what the loop does to that list. -/

namespace Sys2Proof.Machine

/-! ## One kind of instruction at a time (rule R334) -/

theorem class_of_format {i : Instr} (h : format i = .IL ∨ format i = .S) : (classAndCaps i).1 = .loadStore := by
  cases i <;> simp_all [format, classAndCaps]

/-- Loads and stores are the two formats of their class. -/
theorem isa_of_isStore {i : StaticIns} (h : isStore i = true) : ∃ j, i = .isa j ∧ format j = .S := by
  cases i with
  | isa j => exact ⟨j, rfl, by simpa [isStore] using h⟩
  | named => exact absurd h nofun

theorem isa_of_isLoad {i : StaticIns} (h : isLoad i = true) : ∃ j, i = .isa j ∧ format j = .IL := by
  cases i with
  | isa j => exact ⟨j, rfl, by simpa [isLoad] using h⟩
  | named => exact absurd h nofun

theorem kinds_of_isStore {i : StaticIns} (h : isStore i = true) : isLoad i = false ∧ isTransfer i = false := by
  obtain ⟨j, rfl, hj⟩ := isa_of_isStore h
  simp [isLoad, isTransfer, insClass, class_of_format (.inr hj), hj]

theorem kinds_of_isLoad {i : StaticIns} (h : isLoad i = true) : isStore i = false ∧ isTransfer i = false := by
  obtain ⟨j, rfl, hj⟩ := isa_of_isLoad h
  simp [isStore, isTransfer, insClass, class_of_format (.inl hj), hj]

theorem kinds_of_isTransfer {i : StaticIns} (h : isTransfer i = true) : isStore i = false ∧ isLoad i = false := by
  constructor
  · by_contra hs
    exact absurd h (by simp [(kinds_of_isStore (Bool.not_eq_false _ ▸ hs)).2])
  · by_contra hl
    exact absurd h (by simp [(kinds_of_isLoad (Bool.not_eq_false _ ▸ hl)).2])

/-- A store writes 1, 2 or 4 bytes. -/
theorem accessSize_of_isStore {i : StaticIns} (h : isStore i = true) :
    accessSize i = 1 ∨ accessSize i = 2 ∨ accessSize i = 4 := by
  obtain ⟨j, rfl, hj⟩ := isa_of_isStore h
  exact (insMeaning_of_loadStore (class_of_format (.inr hj))).1

theorem commitRegister_of_none {d : DynInst} (h : d.dstSpec = none) (s : State) : s.commitRegister d = s := by
  simp [State.commitRegister, h]

section
variable {d : DynInst} (s : State)

theorem commitOne_of_store (h : isStore d.ins = true) :
    s.commitOne d = ((s.popHead.commitRegister d).commitStore d, false) := by
  obtain ⟨hl, ht⟩ := kinds_of_isStore h
  simp [commitOne_eq, State.commitHead, h, hl, ht]

theorem commitOne_of_load (h : isLoad d.ins = true) :
    s.commitOne d = ((s.popHead.commitRegister d).commitLoad, false) := by
  obtain ⟨hs, ht⟩ := kinds_of_isLoad h
  simp [commitOne_eq, State.commitHead, h, hs, ht]

theorem commitOne_of_transfer (h : isTransfer d.ins = true) :
    s.commitOne d = (s.popHead.commitRegister d).commitTransfer d := by
  obtain ⟨hs, hl⟩ := kinds_of_isTransfer h
  simp [commitOne_eq, State.commitHead, h, hs, hl]

theorem commitOne_of_other (hs : isStore d.ins = false) (hl : isLoad d.ins = false) (ht : isTransfer d.ins = false) :
    s.commitOne d = (s.popHead.commitRegister d, false) := by
  simp [commitOne_eq, State.commitHead, hs, hl, ht]

end

/-! ## The heads of the loop (rule R332) -/

/-- The instruction without its references, which are all that commit changes of it (rule R335). -/
def DynInst.plain (d : DynInst) : DynInst := { d with src := [] }

/-- A transfer that was mispredicted (rule R340). -/
def DynInst.Wrong (d : DynInst) : Prop :=
  isTransfer d.ins = true ∧
    (d.predTaken ≠ d.actualTaken.getD false ∨ (d.actualTaken = some true ∧ d.predTarget ≠ d.actualTarget.getD 0))

/-- A taken transfer to the exit address (rule R344). -/
def DynInst.Leaves (exit : Word) (d : DynInst) : Prop :=
  isTransfer d.ins = true ∧ d.actualTaken = some true ∧ d.actualTarget.getD 0 = exit

theorem getD_false_eq_true_iff {o : Option Bool} : o.getD false = true ↔ o = some true := by
  cases o <;> simp

theorem mispredicted_iff_wrong {d : DynInst} (h : isTransfer d.ins = true) :
    mispredicted d (d.actualTaken.getD false) (d.actualTarget.getD 0) = true ↔ d.Wrong := by
  simp [mispredicted_iff, DynInst.Wrong, h, getD_false_eq_true_iff]

theorem commitHead_cfg (s : State) (d : DynInst) : (s.commitHead d).cfg = s.cfg := by
  have hreg : (s.popHead.commitRegister d).cfg = s.cfg := by rw [commitRegister_frame]; rfl
  have hstore : ∀ t : State, (t.commitStore d).cfg = t.cfg := fun t => by
    rcases commitStore_cases t d with e | ⟨it, rest, -, e⟩ <;> rw [e]
    exact (access_frame _ _ _ _).cfg
  unfold State.commitHead
  simp only
  split <;> split <;> simp only [State.commitLoad, hstore, hreg]

theorem commitHead_excSeen (s : State) (d : DynInst) : (s.commitHead d).excSeen = s.excSeen := by
  have hreg : (s.popHead.commitRegister d).excSeen = s.excSeen := by rw [commitRegister_frame]; rfl
  have hstore : ∀ t : State, (t.commitStore d).excSeen = t.excSeen := fun t => by
    rcases commitStore_cases t d with e | ⟨it, rest, -, e⟩ <;> rw [e]
    exact (access_frame _ _ _ _).excSeen
  unfold State.commitHead
  simp only
  split <;> split <;> simp only [State.commitLoad, hstore, hreg]

/-- What stays in the reorder buffer are the instructions after the head; only their references change (rule R335). -/
theorem commitHead_plain (s : State) (d : DynInst) :
    (s.commitHead d).rob.map DynInst.plain = s.rob.tail.map DynInst.plain := by
  have hreg : (s.popHead.commitRegister d).rob.map DynInst.plain = s.rob.tail.map DynInst.plain := by
    rcases commitRegister_cases s.popHead d with e | ⟨k, r, -, -, e⟩ <;> rw [e]
    · rfl
    · exact List.map_map
  unfold State.commitHead
  simp only
  split <;> split <;> simp only [State.commitLoad, commitStore_rob, hreg]

/-- One commit: whether it stops commit, and what stays behind the head. -/
structure CommitsHead (s : State) (d : DynInst) (t : State) (stop : Bool) : Prop where
  cfg : t.cfg = s.cfg
  excSeen : t.excSeen = s.excSeen
  committed : t.stats.committed = s.stats.committed + 1
  stops : stop = true ↔ d.Wrong ∨ d.Leaves s.cfg.exitAddress
  kept : ¬d.Wrong → t.rob.map DynInst.plain = s.rob.tail.map DynInst.plain
  sublist : (t.rob.map DynInst.plain).Sublist (s.rob.tail.map DynInst.plain)

theorem commitOne_commitsHead (s : State) (d : DynInst) : CommitsHead s d (s.commitOne d).1 (s.commitOne d).2 := by
  have hplain := commitHead_plain s d
  rw [commitOne_eq]
  split
  · rename_i ht
    have hleaves : (d.actualTaken.getD false && decide (d.actualTarget.getD 0 = (s.commitHead d).cfg.exitAddress)) = true ↔
        d.Leaves s.cfg.exitAddress := by
      simp [DynInst.Leaves, ht, commitHead_cfg, getD_false_eq_true_iff]
    rw [commitTransfer_eq, trainTransfer_frame]
    split
    · rename_i hmis
      have hwrong := (mispredicted_iff_wrong ht).mp hmis
      exact ⟨commitHead_cfg s d, commitHead_excSeen s d, commitHead_committed s d, by simp [hwrong],
        fun h => absurd hwrong h, hplain ▸ List.filter_sublist.map _⟩
    · rename_i hmis
      have hright : ¬d.Wrong := fun h => hmis ((mispredicted_iff_wrong ht).mpr h)
      exact ⟨commitHead_cfg s d, commitHead_excSeen s d, commitHead_committed s d, by rw [hleaves]; simp [hright],
        fun _ => hplain, hplain ▸ List.Sublist.refl _⟩
  · rename_i ht
    exact ⟨commitHead_cfg s d, commitHead_excSeen s d, commitHead_committed s d,
      by simp [DynInst.Wrong, DynInst.Leaves, ht], fun _ => hplain, hplain ▸ List.Sublist.refl _⟩

/-- A failed instruction is at the head of this list, and `t` has its exception (rule R333). -/
def TakesHead (t : State) (ds : List DynInst) : Prop :=
  ∃ d e, ds.head? = some d ∧ d.busy = false ∧ d.exc = some e ∧ t.excSeen = some e

/-- From `s`, whose reorder buffer is `ds` up to references, at most `n` commits go to `t`, and `k` do: the first `k`, none
busy or failed; only the last may be mispredicted or leave; fewer than `n` only for one of the four reasons. -/
structure CommitsOf (s : State) (ds : List DynInst) (n k : Nat) (t : State) : Prop where
  le : k ≤ n
  length : k ≤ ds.length
  committed : t.stats.committed = s.stats.committed + k
  ready : ∀ d ∈ ds.take k, d.busy = false ∧ d.exc = none
  goesOn : ∀ d ∈ ds.take (k - 1), ¬d.Wrong ∧ ¬d.Leaves s.cfg.exitAddress
  sublist : (t.rob.map DynInst.plain).Sublist (ds.drop k)
  kept : (∀ d ∈ ds.take k, ¬d.Wrong) → t.rob.map DynInst.plain = ds.drop k
  excSeen : t.excSeen = s.excSeen ∨ TakesHead t (ds.drop k)
  early : k < n → ds.drop k = [] ∨ (∃ d, (ds.drop k).head? = some d ∧ d.busy = true) ∨ TakesHead t (ds.drop k) ∨
    ∃ d, (ds.take k).getLast? = some d ∧ (d.Wrong ∨ d.Leaves s.cfg.exitAddress)

section
variable {s r t : State} {d : DynInst} {ds : List DynInst} {n k : Nat}

/-- No commit, for a reason there is before the first. -/
theorem CommitsOf.zero (hcount : t.stats.committed = s.stats.committed) (hrob : t.rob.map DynInst.plain = ds)
    (hexc : t.excSeen = s.excSeen ∨ TakesHead t ds)
    (hearly : 0 < n → ds = [] ∨ (∃ d, ds.head? = some d ∧ d.busy = true) ∨ TakesHead t ds) : CommitsOf s ds n 0 t :=
  ⟨Nat.zero_le n, Nat.zero_le _, hcount, List.forall_mem_nil _, List.forall_mem_nil _, hrob ▸ List.Sublist.refl _, fun _ => hrob, hexc,
    fun h => (hearly h).imp_right (Or.imp_right .inl)⟩

/-- One commit that stops commit. -/
theorem CommitsOf.last (h : CommitsHead s d t true) (hrob : s.rob.tail.map DynInst.plain = ds) (hbusy : d.busy = false)
    (hexc : d.exc = none) : CommitsOf s (d.plain :: ds) (n + 1) 1 t where
  le := Nat.le_add_left 1 n
  length := Nat.le_add_left 1 _
  committed := h.committed
  ready := List.forall_mem_singleton.mpr ⟨hbusy, hexc⟩
  goesOn := List.forall_mem_nil _
  sublist := hrob ▸ h.sublist
  kept hright := hrob ▸ h.kept (hright d.plain (by simp))
  excSeen := .inl h.excSeen
  early _ := .inr (.inr (.inr ⟨d.plain, rfl, h.stops.mp rfl⟩))

/-- One commit before the others. -/
theorem CommitsOf.cons (h : CommitsHead s d r false) (hrest : CommitsOf r ds n k t) (hbusy : d.busy = false)
    (hexc : d.exc = none) : CommitsOf s (d.plain :: ds) (n + 1) (k + 1) t := by
  have hgoes : ¬d.Wrong ∧ ¬d.Leaves s.cfg.exitAddress := not_or.mp fun hstop => absurd (h.stops.mpr hstop) nofun
  obtain ⟨hle, hlength, hcount, hready, hgoesOn, hsublist, hkept, hexcSeen, hearly⟩ := hrest
  rw [h.cfg] at hgoesOn hearly
  refine ⟨Nat.succ_le_succ hle, Nat.succ_le_succ hlength, by rw [hcount, h.committed]; omega,
    List.forall_mem_cons.mpr ⟨⟨hbusy, hexc⟩, hready⟩, ?_, hsublist, fun hright => hkept fun e he => hright e (by simp [he]),
    h.excSeen ▸ hexcSeen, fun hlt => (hearly (Nat.lt_of_succ_lt_succ hlt)).imp_right (Or.imp_right (Or.imp_right ?_))⟩
  · cases k with
    | zero => exact List.forall_mem_nil _
    | succ k => exact List.forall_mem_cons.mpr ⟨hgoes, hgoesOn⟩
  · rintro ⟨e, he, hstop⟩
    exact ⟨e, by rw [List.take_succ_cons, List.getLast?_cons, he]; rfl, hstop⟩

end

theorem commitLoop_commitsOf (n : Nat) : ∀ s : State, ∃ k, CommitsOf s (s.rob.map DynInst.plain) n k (commitLoop n s) := by
  induction n with
  | zero => exact fun s => ⟨0, .zero rfl rfl (.inl rfl) fun h => absurd h (Nat.lt_irrefl 0)⟩
  | succ n ih =>
    intro s
    unfold commitLoop
    cases hrob : s.rob with
    | nil => exact ⟨0, .zero rfl (by rw [hrob]) (.inl rfl) fun _ => .inl rfl⟩
    | cons d ds =>
      simp only
      cases hbusy : d.busy with
      | true => exact ⟨0, .zero rfl (by rw [← hrob]; rfl) (.inl rfl) fun _ => .inr (.inl ⟨d.plain, rfl, hbusy⟩)⟩
      | false =>
        cases hexc : d.exc with
        | some e =>
          have htakes : TakesHead (s.takeException e) ((d :: ds).map DynInst.plain) := ⟨d.plain, e, rfl, hbusy, hexc, rfl⟩
          exact ⟨0, .zero rfl (by rw [← hrob]; rfl) (.inr htakes) fun _ => .inr (.inr htakes)⟩
        | none =>
          have hhead := commitOne_commitsHead s d
          have htail : s.rob.tail = ds := by rw [hrob]; rfl
          simp only [Bool.false_eq_true, if_false]
          rcases hone : s.commitOne d with ⟨r, _ | _⟩ <;> rw [hone] at hhead
          · obtain ⟨k, hk⟩ := ih r
            have hright : ¬d.Wrong := fun h => absurd (hhead.stops.mpr (.inl h)) nofun
            rw [hhead.kept hright, htail] at hk
            exact ⟨k + 1, .cons hhead hk hbusy hexc⟩
          · exact ⟨1, .last hhead (by rw [htail]) hbusy hexc⟩

/-! ## The statement -/

/-- The head of a list without references is the head of the list, without its own. -/
theorem exists_of_head?_plain {P : DynInst → Prop} {ds : List DynInst} {d : DynInst}
    (hd : (ds.map DynInst.plain).head? = some d) (hP : P d) : ∃ e, ds.head? = some e ∧ P e.plain := by
  rw [List.head?_map, Option.map_eq_some_iff] at hd
  obtain ⟨e, he, rfl⟩ := hd
  exact ⟨e, he, hP⟩

theorem takesHead_plain {t : State} {ds : List DynInst} : TakesHead t (ds.map DynInst.plain) ↔ TakesHead t ds := by
  constructor
  · rintro ⟨d, k, hd, hbusy, hexc, ht⟩
    obtain ⟨e, he, hbusy', hexc'⟩ := exists_of_head?_plain (P := fun d => d.busy = false ∧ d.exc = some k) hd ⟨hbusy, hexc⟩
    exact ⟨e, k, he, hbusy', hexc', ht⟩
  · rintro ⟨d, k, hd, hbusy, hexc, ht⟩
    exact ⟨d.plain, k, by rw [List.head?_map, hd]; rfl, hbusy, hexc, ht⟩

/-- The view after a store's commit: its bytes are written, whether they go to a line or to main memory (rule R337). -/
theorem commitStore_view {s : State} {d : DynInst} {it : LsItem} {a : Word} {data : List Byte} (hco : s.CacheCoherent)
    (h4 : 4 ∣ s.cfg.cacheLineSize) (hstore : isStore d.ins = true) (hit : s.storeBuffer.head? = some it)
    (haddr : it.addr = some a) (hdata : it.data = some data) (hlen : data.length = accessSize d.ins)
    (halign : a.toNat % data.length = 0) (b : Nat) :
    (s.commitStore d).memView b =
      if a.toNat ≤ b ∧ b < a.toNat + data.length then data.getD (b - a.toNat) 0 else s.memView b := by
  obtain ⟨rest, hrest⟩ := List.head?_eq_some_iff.mp hit
  have hcommit : s.commitStore d =
      (({ s with storeBuffer := rest } : State).access a.toNat data.length (.store data)).1 := by
    simp [State.commitStore, hrest, haddr, hdata, hlen]
  rw [hcommit]
  exact (access_view (s := { s with storeBuffer := rest }) (hco.congr rfl rfl rfl) (hlen ▸ accessSize_of_isStore hstore) halign
    h4 (.store data) fun _ hd => by cases hd; rfl).1 b

theorem commitStore_storeBuffer (s : State) (d : DynInst) : (s.commitStore d).storeBuffer = s.storeBuffer.tail := by
  unfold State.commitStore
  cases hs : s.storeBuffer with
  | nil => exact hs
  | cons it rest => exact (access_frame _ _ _ _).storeBuffer

/-- Store commit writes the store buffer and the memory hierarchy alone. -/
theorem commitStore_frame (s : State) (d : DynInst) :
    MemFrame { s with storeBuffer := s.storeBuffer.tail } (s.commitStore d) := by
  unfold State.commitStore
  cases hs : s.storeBuffer with
  | nil =>
    show s = { s with storeBuffer := [] }
    rw [← hs]
  | cons it rest => exact access_frame _ _ _ _

/-- Settles O50: the kinds by `commitOne_of_store` and its companions, the bytes of a store by `commitStore_view`, the loop
by `commitLoop_commitsOf`, whose predicates do not see the references. -/
theorem commitInOrder : Obligations.CommitInOrder := by
  unfold Obligations.CommitInOrder
  refine ⟨fun s d it a data hco h4 hd hstore hspec hit haddr hdata hlen halign => ?store, fun s d => ?kinds, fun s => ?loop⟩
  case store =>
    intro t
    have ht : t = s.popHead.commitStore d := by
      show (s.commitOne d).1 = _
      rw [commitOne_of_store s hstore, commitRegister_of_none hspec]
    have hf := commitStore_frame s.popHead d
    rw [ht]
    exact ⟨hf.rob, hf.storeBuffer, hf.loadBuffer, commitStore_committed s.popHead d, hf.x, hf.f,
      by rw [commitOne_of_store s hstore],
      commitStore_view (s := s.popHead) (hco.congr rfl rfl rfl) h4 hstore hit haddr hdata hlen halign⟩
  case kinds =>
    intro r
    refine ⟨commitOne_of_other s, fun hl => ?_, commitOne_of_transfer s⟩
    have hload : r.loadBuffer = s.loadBuffer := by
      show (s.popHead.commitRegister d).loadBuffer = _
      rw [commitRegister_frame]; rfl
    rw [commitOne_of_load s hl, ← hload]
    rfl
  case loop =>
    obtain ⟨k, h⟩ := commitLoop_commitsOf s.cfg.commitWidth s
    refine ⟨k, h.le, ?_⟩
    intro t wrong leaves
    have hdrop : (s.rob.map DynInst.plain).drop k = (s.rob.drop k).map DynInst.plain := List.map_drop.symm
    have htake : ∀ j, (s.rob.map DynInst.plain).take j = (s.rob.take j).map DynInst.plain := fun j => List.map_take.symm
    have hids : ∀ ds : List DynInst, (ds.map DynInst.plain).map (·.id) = ds.map (·.id) := fun ds => List.map_map
    obtain ⟨-, hlength, hcount, hready, hgoesOn, hsublist, hkept, hexc, hearly⟩ := h
    rw [hdrop] at hsublist hkept hexc hearly
    rw [htake] at hready hgoesOn hkept hearly
    rw [List.forall_mem_map] at hready hgoesOn hkept
    rw [takesHead_plain] at hexc hearly
    refine ⟨hcount, by simpa using hlength, hready, hgoesOn, ?_, fun hright => ?_, hexc, fun hlt => ?_⟩
    · rw [← hids, ← hids (s.rob.drop k)]
      exact hsublist.map _
    · rw [← hids, ← hids (s.rob.drop k)]
      exact congrArg (List.map (·.id)) (hkept hright)
    · refine (hearly hlt).imp List.map_eq_nil_iff.mp (Or.imp ?_ (Or.imp_right ?_))
      · exact fun ⟨d, hd, hbusy⟩ => exists_of_head?_plain (P := fun d => d.busy = true) hd hbusy
      · rintro ⟨d, hd, hstop⟩
        rw [List.getLast?_map, Option.map_eq_some_iff] at hd
        obtain ⟨e, he, rfl⟩ := hd
        exact ⟨e, he, hstop⟩

end Sys2Proof.Machine
end

section
/-! The statistics (`60_exceptions.md` rule R394). `Stats.Advances n m` is what `n` commits, `m` of them of transfers, may do
to them, with any number of accesses; commits after commits advance by the sums, so a tick does at most `commitWidth`. -/

namespace Sys2Proof.Machine

/-- From `a` to `b` there were `n` commits, `m` of them of transfers, and some accesses. -/
structure Stats.Advances (n m : Nat) (a b : Stats) : Prop where
  committed : b.committed = a.committed + n
  branches : b.branches = a.branches + m
  correctDir : a.correctDir ≤ b.correctDir ∧ b.correctDir ≤ a.correctDir + m
  flushes : a.flushes ≤ b.flushes ∧ b.flushes ≤ a.flushes + m
  hits : a.cacheHits ≤ b.cacheHits
  misses : a.cacheMisses ≤ b.cacheMisses
  accesses : b.cacheAccesses + (a.cacheHits + a.cacheMisses) = a.cacheAccesses + (b.cacheHits + b.cacheMisses)
  totalDelay : a.totalDelay ≤ b.totalDelay
  bytesTransferred : a.bytesTransferred ≤ b.bytesTransferred

theorem Stats.Advances.refl (a : Stats) : Stats.Advances 0 0 a a := by
  constructor <;> simp

theorem Stats.Advances.trans {n m k l : Nat} {a b c : Stats} (h1 : Advances n m a b) (h2 : Advances k l b c) :
    Advances (n + k) (m + l) a c := by
  obtain ⟨c1, b1, d1, f1, hit1, miss1, acc1, del1, byt1⟩ := h1
  obtain ⟨c2, b2, d2, f2, hit2, miss2, acc2, del2, byt2⟩ := h2
  constructor <;> omega

/-- At most `n` commits, of which the transfers are some. -/
def Stats.Moves (n : Nat) (a b : Stats) : Prop := ∃ k m, m ≤ k ∧ k ≤ n ∧ Stats.Advances k m a b

theorem Stats.Moves.refl (n : Nat) (a : Stats) : Stats.Moves n a a := ⟨0, 0, Nat.le_refl 0, Nat.zero_le n, .refl a⟩

theorem Stats.Moves.trans {n k : Nat} {a b c : Stats} (h1 : Moves n a b) (h2 : Moves k b c) : Moves (n + k) a c := by
  obtain ⟨n', m', hm, hn, h1⟩ := h1
  obtain ⟨k', l', hl, hk, h2⟩ := h2
  exact ⟨n' + k', m' + l', Nat.add_le_add hm hl, Nat.add_le_add hn hk, h1.trans h2⟩

theorem Stats.Moves.consistent {n : Nat} {s t : State} (h : Stats.Moves n s.stats t.stats) (hs : s.StatsConsistent) :
    t.StatsConsistent := by
  obtain ⟨k, m, hm, -, hc, hb, hd, hf, -, -, ha, -, -⟩ := h
  obtain ⟨hdb, hbc, hfb, hacc⟩ := hs
  refine ⟨?_, ?_, ?_, ?_⟩ <;> omega

/-! ## Accesses and commits -/

/-- An access is counted as a hit, as a miss, or, without a cache, not at all (rule R314). -/
theorem access_advances (s : State) (a n : Nat) (req : Request) :
    Stats.Advances 0 0 s.stats (s.access a n req).1.stats := by
  rcases access_outcome s a with hc | ⟨hc, k, l, hk, hl⟩ | ⟨hc, hk⟩
  · rw [access_uncached hc]
    constructor <;> simp [Stats.moved]
  · rw [access_of_hit hc hk hl]
    constructor <;> simp [Stats.moved]
    omega
  · rw [access_of_miss hc hk, triggerReplacement_stats]
    constructor <;> simp [Stats.moved]
    omega

theorem afterCommit_advances (s : State) : Stats.Advances 0 0 s.stats s.afterCommit.stats :=
  afterCommit_inv (P := fun t => Stats.Advances 0 0 s.stats t.stats) (fun _ _ hf h => hf.stats ▸ h)
    (fun _ _ hf h => hf.stats ▸ h) (fun _ _ hf h => hf.stats ▸ h) (fun _ _ _ h => h.trans (access_advances _ _ _ _)) s
    (.refl _)

theorem commitStore_advances (s : State) (d : DynInst) : Stats.Advances 0 0 s.stats (s.commitStore d).stats := by
  rcases commitStore_cases s d with e | ⟨it, rest, -, e⟩ <;> rw [e]
  · exact .refl _
  · exact access_advances { s with storeBuffer := rest } _ _ _

/-- The head is counted, and a store's access with it (rules R334, R337). -/
theorem commitHead_advances (s : State) (d : DynInst) : Stats.Advances 1 0 s.stats (s.commitHead d).stats := by
  have hpop : Stats.Advances 1 0 s.stats (s.popHead.commitRegister d).stats := by
    rw [commitRegister_frame]
    constructor <;> simp [State.popHead]
  have hstore : Stats.Advances 1 0 s.stats
      (if isStore d.ins then (s.popHead.commitRegister d).commitStore d else s.popHead.commitRegister d).stats := by
    split
    · exact hpop.trans (commitStore_advances _ d)
    · exact hpop
  unfold State.commitHead
  simp only
  generalize (if isStore d.ins then _ else _) = r at hstore ⊢
  split <;> exact hstore

/-- A transfer is counted, its direction where it was right, its flush where it was mispredicted (rules R338, R340). -/
theorem commitTransfer_advances (s : State) (d : DynInst) : Stats.Advances 0 1 s.stats (s.commitTransfer d).1.stats := by
  have htrain : Stats.Advances 0 1 s.stats (s.trainTransfer d).stats ∧ (s.trainTransfer d).stats.flushes = s.stats.flushes := by
    rw [trainTransfer_frame]
    exact ⟨⟨rfl, rfl, by dsimp only; split <;> omega, ⟨Nat.le_refl _, Nat.le_add_right _ _⟩, Nat.le_refl _, Nat.le_refl _,
      rfl, Nat.le_refl _, Nat.le_refl _⟩, rfl⟩
  obtain ⟨⟨hc, hb, hd, hf, hhit, hmiss, hacc, hdel, hbyt⟩, hflush⟩ := htrain
  rw [commitTransfer_eq]
  split
  · exact ⟨hc, hb, hd, by simp [State.recover, State.flush, hflush], hhit, hmiss, hacc, hdel, hbyt⟩
  · exact ⟨hc, hb, hd, hf, hhit, hmiss, hacc, hdel, hbyt⟩

theorem commitOne_moves (s : State) (d : DynInst) : Stats.Moves 1 s.stats (s.commitOne d).1.stats := by
  rw [commitOne_eq]
  split
  · exact ⟨1, 1, Nat.le_refl 1, Nat.le_refl 1, (commitHead_advances s d).trans (commitTransfer_advances _ d)⟩
  · exact ⟨1, 0, Nat.zero_le 1, Nat.le_refl 1, commitHead_advances s d⟩

theorem commitLoop_moves (n : Nat) : ∀ s : State, Stats.Moves n s.stats (commitLoop n s).stats := by
  induction n with
  | zero => exact fun s => .refl 0 _
  | succ n ih =>
    intro s
    unfold commitLoop
    split
    · exact .refl _ _
    · rename_i d _ _
      split
      · exact .refl _ _
      · split
        · exact .refl _ _
        · have hone := commitOne_moves s d
          split <;> rename_i hr <;> rw [hr] at hone
          · exact Nat.add_comm 1 n ▸ hone.trans (.refl n _)
          · exact Nat.add_comm 1 n ▸ hone.trans (ih _)

theorem commit_moves (s : State) : Stats.Moves s.cfg.commitWidth s.stats s.commit.stats := commitLoop_moves _ s

/-- A tick commits at most `commitWidth` instructions (rule R332). -/
theorem stages_moves (s : State) : Stats.Moves s.cfg.commitWidth s.stats s.stages.stats := by
  have hcommit := commit_moves s.startTick.memorySimulate
  have hback := afterCommit_advances s.startTick.memorySimulate.commit
  rw [memorySimulate_stats, (memorySimulate_frame s.startTick).cfg] at hcommit
  rw [stages_eq, State.evalStop_stats]
  exact hcommit.trans ⟨0, 0, Nat.le_refl 0, Nat.le_refl 0, hback⟩

/-! ## One instruction in program order -/

theorem retire_moves (s : State) (n : Word) : Stats.Moves 1 s.stats (s.retire n).stats :=
  ⟨1, 0, Nat.zero_le 1, Nat.le_refl 1, by constructor <;> simp [State.retire]⟩

theorem retireTransfer_moves (s : State) (taken : Bool) (target next : Word) :
    Stats.Moves 1 s.stats (s.retireTransfer taken target next).stats :=
  ⟨1, 1, Nat.le_refl 1, Nat.le_refl 1, by constructor <;> simp [State.retireTransfer]⟩

theorem perform_moves (s : State) (rd : Reg) (m : Meaning) : Stats.Moves 1 s.stats (s.perform rd m).stats := by
  rcases perform_cases s rd m with ⟨k, e⟩ | ⟨v, e⟩ | ⟨taken, target, link, -, -, e⟩ | ⟨ea, data, -, e⟩ <;> rw [e]
  · exact .refl 1 _
  · have hx : (s.writeX rd v).stats = s.stats := by rw [State.writeX_frame]
    exact hx ▸ retire_moves (s.writeX rd v) _
  · have hx : ((link.map (s.writeX rd)).getD s).stats = s.stats := by
      cases link with
      | none => rfl
      | some v => simp only [Option.map_some, Option.getD_some]; rw [State.writeX_frame]
    exact hx ▸ retireTransfer_moves ((link.map (s.writeX rd)).getD s) _ _ _
  · have hm : (s.memWrite ea.toNat data).stats = s.stats := by rw [State.memWrite_frame]
    exact hm ▸ retire_moves (s.memWrite ea.toNat data) _

theorem performNamed_moves (s : State) (i : StaticIns) (n : String) : Stats.Moves 1 s.stats (s.performNamed i n).stats := by
  rcases performNamed_cases s i n with ⟨k, e⟩ | e | ⟨r, v, tag, -, e⟩ <;> rw [e]
  · exact .refl 1 _
  · exact retire_moves s _
  · have hx : (s.writeReg r v tag).stats = s.stats := by rw [writeReg_frame]
    exact hx ▸ retire_moves (s.writeReg r v tag) _

/-! ## Every step -/

/-- How many instructions one step may commit (rule R332; at the instruction grain log entry 12). -/
def State.commitLimit (s : State) : Nat :=
  match s.grain with
  | .tick => s.cfg.commitWidth
  | .instruction => 1

theorem step_moves {s t : State} (h : step s = .next t) : Stats.Moves s.commitLimit s.stats t.stats := by
  unfold State.commitLimit
  obtain ⟨-, ⟨-, rfl⟩ | ⟨hg, -, rfl⟩ | ⟨hg, -, -, rfl | ⟨u, rfl, ⟨rd, m, rfl⟩ | ⟨i, n, rfl⟩⟩⟩⟩ := step_cases h
  · exact .refl _ _
  · rw [hg]; exact stages_moves s
  · exact .refl _ _
  · rw [hg]; exact perform_moves s rd m
  · rw [hg]; exact performNamed_moves s i n

/-- A tick of a running state is counted, and no other step is (rules R355, R356). -/
theorem step_counts_ticks {s t : State} (h : step s = .next t) :
    t.tick = if s.grain = .tick ∧ s.status = .running then s.tick + 1 else s.tick := by
  obtain ⟨-, ⟨hr, rfl⟩ | ⟨hg, hr, rfl⟩ | ⟨hg, -, -, rfl | ⟨u, rfl, ⟨rd, m, rfl⟩ | ⟨i, n, rfl⟩⟩⟩⟩ := step_cases h
  · simp [hr]
  · obtain ⟨-, -, -, htick⟩ := stages_params s
    simp [hg, hr, htick]
  · simp [hg]
  · rw [State.evalStop_tick, perform_frame s rd m]; simp [hg]
  · rw [State.evalStop_tick, performNamed_frame s i n]; simp [hg]

/-- Settles O55: what a step does to the statistics are commits and accesses (`step_moves`), which `Stats.Advances` says
count by count. -/
theorem statisticsAreKept : Obligations.StatisticsAreKept := by
  unfold Obligations.StatisticsAreKept
  refine ⟨fun s t hs h => (step_moves h).consistent hs, fun s t h => ?_⟩
  have htick := step_counts_ticks h
  obtain ⟨k, m, -, hk, hc, hb, ⟨hd, -⟩, ⟨hf, -⟩, hhit, hmiss, hacc, hdelay, hbytes⟩ := step_moves h
  refine ⟨by omega, by omega, hd, hf, by omega, hhit, hmiss, hdelay, hbytes, fun hg => ?_, fun hg => ?_⟩
  · simp only [State.commitLimit, hg] at hk
    refine ⟨by omega, ?_, fun hr => by simpa [hg, hr] using htick⟩
    rw [htick]; split <;> omega
  · simp only [State.commitLimit, hg] at hk
    exact ⟨by omega, by simpa [hg] using htick⟩

end Sys2Proof.Machine
end

section
/-! The stop reasons of stage 8 (`60_exceptions.md` rules R384 to R388). -/

namespace Sys2Proof.Machine

/-- Where the program holds no undecodable word, an address holds no instruction where it is misaligned or past the code
(rule R388). -/
theorem instructionAt_eq_none_iff {prog : Prog} {pc : Word}
    (h : ∀ (k : Nat) (w : Word), prog.code[k]? ≠ some (.undecodable w)) :
    instructionAt prog pc = none ↔ pc.toNat % 4 ≠ 0 ∨ prog.code.length ≤ pc.toNat / 4 := by
  unfold instructionAt
  by_cases h4 : pc.toNat % 4 = 0
  · simp only [h4, ne_eq, not_true_eq_false, if_false, false_or]
    cases hk : prog.code[pc.toNat / 4]? with
    | none => exact iff_of_true rfl (List.getElem?_eq_none_iff.mp hk)
    | some slot =>
      have hlt : pc.toNat / 4 < prog.code.length := (List.getElem?_eq_some_iff.mp hk).choose
      cases slot with
      | ins i => exact iff_of_false nofun (Nat.not_le.mpr hlt)
      | undecodable w => exact absurd hk (h _ w)
  · simp [h4]

theorem drained_iff {s : State} : s.drained = true ↔ s.rob = [] ∧ s.decodeBuffer = [] ∧ s.fetchBuffer = [] := by
  simp [State.drained, and_assoc]

theorem stopReason_of_halt {s : State} (h : s.haltSeen = true) : s.stopReason = .callStackHalt := by
  simp [State.stopReason, h]

section
variable {s : State} (hhalt : s.haltSeen = false) (hexc : s.excSeen = none)
include hhalt hexc

theorem stopReason_of_limit (h : s.cfg.maxCycles ≤ s.tick) : s.stopReason = .maxCycles := by
  simp [State.stopReason, hhalt, hexc, h]

theorem stopReason_below_limit (h : s.tick < s.cfg.maxCycles) :
    s.stopReason = if instructionAt s.prog s.pc = none ∧ s.drained = true then .endOfCode else .running := by
  simp [State.stopReason, hhalt, hexc, Nat.not_le.mpr h]

end

/-- Settles O23: each reason of `stopReason` in its order, with the end of code as R388 says it
(`instructionAt_eq_none_iff`). -/
theorem stopPriority : Obligations.StopPriority := by
  unfold Obligations.StopPriority
  intro s noCode hcode
  have hend : instructionAt s.prog s.pc = none ∧ s.drained = true ↔
      noCode ∧ s.rob = [] ∧ s.decodeBuffer = [] ∧ s.fetchBuffer = [] :=
    and_congr (instructionAt_eq_none_iff hcode) drained_iff
  refine ⟨rfl, stopReason_of_halt, fun hhalt k => stopReason_of_exception hhalt, fun hhalt hexc =>
    ⟨stopReason_of_limit hhalt hexc, fun hlt => ⟨fun h => ?_, fun h => ?_⟩⟩⟩
  · exact (stopReason_below_limit hhalt hexc hlt).trans (if_pos (hend.mpr h))
  · exact (stopReason_below_limit hhalt hexc hlt).trans (if_neg (mt hend.mp h))

end Sys2Proof.Machine
end

section
/-! The state reset leaves (`70_reset_and_hazards.md` rule R400), component by component where reading it takes a reason: the
registers, the predictor's tables, and main memory under the initial spans. -/

namespace Sys2Proof.Machine

/-! ## Registers, predictor and cache -/

theorem get_initialX (cfg : Cfg) (r : Reg) :
    (initialX cfg).get r = if r = 1 then cfg.initialRa else if r = 2 then cfg.initialSp else 0 := by
  have hval : ∀ k : Reg, r = k ↔ k.val = r.val := fun k => ⟨fun h => h ▸ rfl, fun h => Fin.ext h.symm⟩
  have h1 : (1 : Reg).val = 1 := rfl
  have h2 : (2 : Reg).val = 2 := rfl
  show (initialX cfg)[r.val] = _
  simp only [initialX, Vector.getElem_set, Vector.getElem_replicate, hval, h1, h2]
  by_cases hra : 1 = r.val
  · simp [← hra]
  · simp [hra]

/-- The entry point of a valid pair is an address, or a label there is (rule R401). -/
theorem lookupLabel_of_entryResolves {cfg : Cfg} {prog : Prog} {n : String} (h : entryResolves cfg prog = true)
    (hn : cfg.entryPoint = .label n) : lookupLabel n prog.labels = some (entryAddress cfg prog) := by
  cases hl : lookupLabel n prog.labels with
  | none => simp [entryResolves, hn, hl] at h
  | some a => simp [entryAddress, resolveEntry, hn, hl]

theorem mem_initialCache {cfg : Cfg} (h : cfg.useCache = true) {set : Nat} {ways : List Line}
    (hways : (initialCache cfg)[set]? = some ways) : ways = List.replicate cfg.cacheAssoc (Line.empty cfg set) := by
  rw [initialCache, if_pos h, List.getElem?_map, Option.map_eq_some_iff] at hways
  obtain ⟨i, hi, rfl⟩ := hways
  obtain ⟨-, rfl⟩ := List.getElem?_eq_some_iff.mp hi
  rw [List.getElem_range]

/-! ## Main memory (rules R20, R39) -/

/-- The address is one of the span's. -/
def Span.Covers (sp : Span) (a : Nat) : Prop := sp.address ≤ a ∧ a < sp.address + sp.bytes.length

theorem not_covers_of_spansDisjoint {sp other : Span} {a : Nat} (h : spansDisjoint sp other = true) (ha : sp.Covers a) :
    ¬other.Covers a := by
  unfold spansDisjoint at h
  obtain ⟨hle, hlt⟩ := ha
  rintro ⟨hle', hlt'⟩
  rcases of_decide_eq_true h with hnil | hnil | hdis | hdis
  · rw [hnil, List.length_nil] at hlt; omega
  · rw [hnil, List.length_nil] at hlt'; omega
  · omega
  · omega

/-- The spans in order over the bytes there are. -/
def loadSpans (spans : List Span) (m : Memory) : Memory := spans.foldl (fun m sp => m.writeBytes sp.address sp.bytes) m

theorem initialMemory_eq_loadSpans (spans : List Span) : initialMemory spans = loadSpans spans [] := rfl

theorem loadSpans_cons (sp : Span) (spans : List Span) (m : Memory) :
    loadSpans (sp :: spans) m = loadSpans spans (m.writeBytes sp.address sp.bytes) := rfl

theorem read_loadSpans_of_uncovered {a : Nat} : ∀ {spans : List Span} (m : Memory), (∀ sp ∈ spans, ¬sp.Covers a) →
    (loadSpans spans m).read a = m.read a
  | [], _, _ => rfl
  | sp :: spans, m, h => by
    obtain ⟨hfirst, hrest⟩ := List.forall_mem_cons.mp h
    rw [loadSpans_cons, read_loadSpans_of_uncovered _ hrest, Memory.read_writeBytes]
    exact if_neg hfirst

/-- Where no spans overlap, the order they are written in does not matter. -/
theorem read_loadSpans_of_mem {sp : Span} {k : Nat} {b : Byte} (hb : sp.bytes[k]? = some b) :
    ∀ {spans : List Span} (m : Memory), allDisjoint spans = true → sp ∈ spans →
      (loadSpans spans m).read (sp.address + k) = b
  | first :: spans, m, hdis, hmem => by
    obtain ⟨hfirst, hrest⟩ := Bool.and_eq_true_iff.mp hdis
    rw [loadSpans_cons]
    rcases List.mem_cons.mp hmem with rfl | hmem
    · have hlt : k < sp.bytes.length := (List.getElem?_eq_some_iff.mp hb).choose
      have hcovers : sp.Covers (sp.address + k) := ⟨Nat.le_add_right _ k, by omega⟩
      rw [read_loadSpans_of_uncovered _ fun other hother =>
          not_covers_of_spansDisjoint (List.all_eq_true.mp hfirst other hother) hcovers,
        Memory.read_writeBytes]
      refine (if_pos hcovers).trans ?_
      rw [Nat.add_sub_cancel_left, List.getD_eq_getElem?_getD, hb]
      rfl
    · exact read_loadSpans_of_mem hb _ hrest hmem

theorem allDisjoint_of_spanViolations {cfg : Cfg} {spans : List Span} (h : spanViolations cfg spans = []) :
    allDisjoint spans = true := by
  unfold spanViolations at h
  exact require_eq_nil_iff.mp (List.append_eq_nil_iff.mp h).2

/-- Settles O25: every component is a field of `State.init`; the registers, the cache and the spans by the lemmas above. -/
theorem resetState : Obligations.ResetState := by
  unfold Obligations.ResetState
  intro cfg prog hv s
  obtain ⟨hlegal, -, -, hentry, -, hspans⟩ := valid_iff.mp hv
  refine ⟨rfl, rfl, rfl, rfl, rfl, rfl, rfl, rfl, rfl, rfl, rfl, rfl, rfl, rfl, rfl, fun c => by cases c <;> rfl, rfl, rfl, rfl,
    rfl, ?entry, ?registers, ?floats, List.length_replicate, fun p => List.eq_of_mem_replicate, List.length_map _, ?units,
    List.length_replicate, ?counters, List.length_replicate, fun e => List.eq_of_mem_replicate, fun hon => ?cache, ?spans, ?zero⟩
  case entry =>
    split
    · rename_i a ha
      show entryAddress cfg prog = a
      simp only [entryAddress, resolveEntry, ha]
    · rename_i n hn
      exact lookupLabel_of_entryResolves hentry hn
  case registers =>
    intro r
    show (if r = 0 then 0 else (initialX cfg).get r) = _
    rw [get_initialX]
  case floats =>
    exact fun r => Vector.getElem_replicate r.isLt
  case units =>
    intro f hf
    obtain ⟨-, -, rfl⟩ := List.mem_map.mp hf
    rfl
  case counters =>
    intro c hc
    have hdefault := hlegal.predictorDefault
    rw [List.eq_of_mem_replicate hc]
    unfold initialCounter
    generalize cfg.predictorType = type at hdefault ⊢
    generalize cfg.predictorDefault = default at hdefault ⊢
    cases type with
    | twoBit => rcases of_decide_eq_true hdefault with rfl | rfl | rfl | rfl <;> exact rfl
    | oneBit => rcases of_decide_eq_true hdefault with rfl | rfl <;> exact rfl
    | zeroBit => rcases of_decide_eq_true hdefault with rfl | rfl <;> exact rfl
  case cache =>
    have hlen : s.cache.length = cfg.cacheLines / cfg.cacheAssoc := by
      show (initialCache cfg).length = _
      rw [initialCache, if_pos hon, List.length_map, List.length_range, cacheSets]
    refine ⟨hlen, fun set ways hways => ?_⟩
    rw [mem_initialCache hon hways]
    refine ⟨List.length_replicate, fun l hl => ?_⟩
    rw [List.eq_of_mem_replicate hl]
    exact ⟨rfl, rfl, rfl, rfl, rfl, rfl, rfl, rfl⟩
  case spans =>
    exact fun sp hsp k b hb => read_loadSpans_of_mem hb [] (allDisjoint_of_spanViolations hspans) hsp
  case zero =>
    exact fun a ha => read_loadSpans_of_uncovered [] ha

end Sys2Proof.Machine
end

section
/-! A tick with nothing in flight (`70_reset_and_hazards.md` rule R403): stages 1 to 6 find nothing to do, so the tick is the
fetch alone. -/

namespace Sys2Proof.Machine

/-- Nothing is in flight, and no line is on its way. -/
structure State.NothingToDo (s : State) : Prop where
  pendingRepl : s.pendingRepl = []
  rob : s.rob = []
  idle : ∀ f ∈ s.fu, f.ins = none
  loadBuffer : s.loadBuffer = []
  window : ∀ c, s.win.at c = []
  decodeBuffer : s.decodeBuffer = []
  fetchBuffer : s.fetchBuffer = []

namespace State.NothingToDo

variable {s : State} (h : s.NothingToDo)
include h

theorem memorySimulate_eq : s.memorySimulate = s := by
  unfold State.memorySimulate
  split
  · simp only [h.pendingRepl, List.filter_nil, List.foldl_nil]
    rw [← h.pendingRepl]
  · rfl

theorem commit_eq : s.commit = s := by
  unfold State.commit
  cases s.cfg.commitWidth <;> simp [commitLoop, h.rob]

theorem units_eq : s.units = s := by
  have hunit : ∀ u, s.unitTick u = s := fun u => by
    cases hf : s.fu[u]? with
    | some f => exact unitTick_of_idle hf (h.idle f (List.mem_of_getElem? hf))
    | none => unfold State.unitTick; cases s.cfg.fus[u]? <;> simp [hf]
  exact foldl_inv (P := fun t => t = s) (fun t u ht => by rw [ht, hunit u]) _ _ rfl

theorem resolveBuffers_eq_self : s.resolveBuffers = s := by
  rw [resolveBuffers_eq, State.resolveLoads, h.loadBuffer, List.foldl_nil]

theorem issue_eq : s.issue = s := by
  have hwindow : ∀ c, s.issueWindow c = s := fun c => by rw [State.issueWindow, h.window c, List.foldl_nil]
  simp only [State.issue, hwindow]

theorem dispatch_eq : s.dispatch = s := by
  unfold State.dispatch
  simp only [h.decodeBuffer, dispatchLoop]
  rw [← h.decodeBuffer]

theorem rename_eq : s.rename = s := rename_of_blocked fun hgo => hgo.2.1 h.fetchBuffer

end State.NothingToDo

/-- At reset nothing is in flight (rule R400). -/
theorem init_nothingToDo (cfg : Cfg) (prog : Prog) (n : Nat) :
    State.NothingToDo { State.init cfg prog with tick := n } where
  pendingRepl := rfl
  rob := rfl
  idle f hf := by
    obtain ⟨-, -, rfl⟩ := List.mem_map.mp hf
    rfl
  loadBuffer := rfl
  window c := by cases c <;> rfl
  decodeBuffer := rfl
  fetchBuffer := rfl

/-- The first instruction of a group has the next id and the address fetch is at, a clause of O29. -/
theorem head_of_fetch {s : State} {d : DynInst} (hempty : s.fetchBuffer = []) (hstall : s.fetchStall = 0)
    (hd : s.fetch.fetchBuffer.head? = some d) : d.id = s.nextId ∧ d.pc = s.pc := by
  obtain ⟨-, -, hfetch⟩ := fetchGroup s
  obtain ⟨-, -, -, -, hentry, -⟩ := hfetch hempty hstall
  obtain ⟨hid, hpath, -⟩ := hentry 0 d (List.head?_eq_getElem? ▸ hd)
  exact ⟨hid, (Option.some.inj hpath).symm⟩

/-- Settles O26: nothing is to be done before fetch (`State.NothingToDo`), which gives the first instruction the next id
and the entry address (`head_of_fetch`). -/
theorem firstTick : Obligations.FirstTick := by
  unfold Obligations.FirstTick
  intro cfg prog hv s s1
  have h : s1.NothingToDo := init_nothingToDo cfg prog 1
  have hstall : s1.fetchStall = 0 := rfl
  have hstages : s.stages = s1.fetch.evalStop := by
    have hstart : s.startTick = s1 := rfl
    rw [stages_eq, hstart, State.afterCommit, h.memorySimulate_eq, h.commit_eq, h.units_eq, h.resolveBuffers_eq_self, h.issue_eq,
      h.dispatch_eq, h.rename_eq]
  have hstep : step s = .next s1.fetch.evalStop := by
    have hvalid : validate s.cfg s.prog = [] := hv
    have hrunning : s.status = .running := rfl
    rw [step_tick hvalid rfl, tickStep_running hrunning, hstages]
  exact ⟨h.memorySimulate_eq, h.commit_eq, h.units_eq, h.resolveBuffers_eq_self, h.issue_eq, by rw [h.dispatch_eq, h.rename_eq],
    hstep, fun d hd => head_of_fetch h.fetchBuffer hstall hd⟩

end Sys2Proof.Machine
end
